-- ==== Sys2Proof/Word.lean ====
section
/-!
DEFINITION. The engine's fixed word types (00_scope.md R8: host registers and the command word are 64 bits, a
packed byte is 8 bits). Widths that depend on the parameters SYMW and FREQW are no bit vectors here: table values
and indices are natural numbers, and Safety.lean states their bounds (log 9).
-/
namespace Sys2Proof

/-- A host register, a command word, a 64-bit counter (R8). -/
abbrev Word := BitVec 64

/-- A packed byte (R8). -/
abbrev Byte := BitVec 8

end Sys2Proof
end

