-- ==== Sys2Proof/Config.lean ====
section
/-!
DEFINITION. The two implementation parameters (00_scope.md R6). The constants derived from them (R7) are
computed in Machine/Ops.lean. The spec leaves no value undefined (93_implementation_defined.md: "this spec
introduces no undefined behaviour"), so there is no free value.
-/
namespace Sys2Proof

/-- R6: `symw` (SYMW) is the width in bits of one symbol, `freqw` (FREQW) of one entry of FREQ. Held in
`State.params` (log 1). -/
structure Params where
  symw  : Nat
  freqw : Nat
deriving DecidableEq, Repr

/-- R6: "The reference instance used by every worked example in this spec is SYMW = 8, FREQW = 32." -/
def Params.reference : Params := { symw := 8, freqw := 32 }

end Sys2Proof
end

