-- ==== Sys2Proof/Syntax.lean ====
section
/-!
DEFINITION. The twelve commands of HUFF-CMD version 1 (00_scope.md R2, 30_encoding.md R103), one constructor per
row of spec/opcode_table.json. A command has no operand fields (R100): its operands are the values of x0..x3 when
its CMD write is accepted (R101).
-/
namespace Sys2Proof

/-- One command. -/
inductive Instr where
  | nop
  | clr
  | setf
  | getf
  | count
  | build
  | gett
  | getn
  | extract
  | getc
  | encode
  | decode
deriving DecidableEq, Repr

/-- Every command, in the order of the opcode table. -/
def Instr.all : List Instr :=
  [.nop, .clr, .setf, .getf, .count, .build, .gett, .getn, .extract, .getc, .encode, .decode]

end Sys2Proof
end

