-- ==== Sys2Proof/WellFormed.lean ====
section
/-!
DEFINITION. The checks. A command has no register field, no immediate and no mode field (30_encoding.md R100), so
every `Instr` is well formed; what can be ill formed is the pair of parameters (00_scope.md R6) and a command word
(R104, R105), the latter checked by Decode.lean.
-/
namespace Sys2Proof

/-- R100: nothing in a command can be out of range. One line per constructor, so that a new one cannot slip past. -/
def Instr.wf : Instr → Bool
  | .nop => true
  | .clr => true
  | .setf => true
  | .getf => true
  | .count => true
  | .build => true
  | .gett => true
  | .getn => true
  | .extract => true
  | .getc => true
  | .encode => true
  | .decode => true

/-- R6: 1 ≤ SYMW ≤ 16. -/
def Params.symwOk (p : Params) : Bool := decide (1 ≤ p.symw) && decide (p.symw ≤ 16)

/-- R6: FREQW ≥ 1. -/
def Params.freqwOk (p : Params) : Bool := decide (1 ≤ p.freqw)

/-- R6: FREQW + SYMW ≤ 64. -/
def Params.sumOk (p : Params) : Bool := decide (p.freqw + p.symw ≤ 64)

/-- R6, all of it. -/
def Params.wf (p : Params) : Bool := p.symwOk && p.freqwOk && p.sumOk

end Sys2Proof
end

