-- ==== Sys2Proof/Decode.lean ====
section
/-!
DEFINITION. The command word (30_encoding.md R100 to R107): the decoder, total on every 64-bit word and rejecting
by name, and after it the encoder, written from the opcode column of R103.
-/
namespace Sys2Proof

/-- Why a word is no command. An accepted illegal word raises E_OP (R106). -/
inductive Illegal where
  /-- R104: a bit of `w[63:8]` is set, whatever `op` holds. -/
  | reservedBits
  /-- R105: `op` is in 0x0C to 0xFF. -/
  | reservedOpcode
deriving DecidableEq, Repr

/-- R100: the field `op`, bits 7:0. -/
def opField (w : Word) : BitVec 8 := w.extractLsb' 0 8

/-- R100: the field `rsv`, bits 63:8. -/
def rsvField (w : Word) : BitVec 56 := w.extractLsb' 8 56

/-- R103, the column `op` read as a lookup; R105 for the values it lacks. -/
def lookupOp (op : Nat) : Option Instr :=
  match op with
  | 0x00 => some .nop
  | 0x01 => some .clr
  | 0x02 => some .setf
  | 0x03 => some .getf
  | 0x04 => some .count
  | 0x05 => some .build
  | 0x06 => some .gett
  | 0x07 => some .getn
  | 0x08 => some .extract
  | 0x09 => some .getc
  | 0x0A => some .encode
  | 0x0B => some .decode
  | _ => none

/-- R102: "if `w[63:8] ≠ 0` the command is illegal (rule R106); otherwise `w[7:0]` is looked up in rule R103". -/
def decode (w : Word) : Except Illegal Instr :=
  if rsvField w = 0 then
    match lookupOp (opField w).toNat with
    | some i => .ok i
    | none => .error .reservedOpcode
  else .error .reservedBits

/-- The host's reading of a table word: a command is one 64-bit word (R107); `nbits` bits of it are given and the
bits above them are zero. A number that does not fit the word is no command. -/
def decodeTableWord (nbits w : Nat) : Option Instr :=
  let v := w % 2 ^ nbits
  if v < 2 ^ 64 then
    match decode (BitVec.ofNat 64 v) with
    | .ok i => some i
    | .error _ => none
  else none

/-- R103, the column `op`. -/
def Instr.opcode : Instr → BitVec 8
  | .nop => 0x00
  | .clr => 0x01
  | .setf => 0x02
  | .getf => 0x03
  | .count => 0x04
  | .build => 0x05
  | .gett => 0x06
  | .getn => 0x07
  | .extract => 0x08
  | .getc => 0x09
  | .encode => 0x0A
  | .decode => 0x0B

/-- R100, R104: the word of a command, its upper 56 bits zero. -/
def encode (i : Instr) : Word := i.opcode.setWidth 64

/-- R132: the one word accepted on CMD while ERR ≠ 0 (60_exceptions.md R290). -/
def clrWord : Word := 0x0000000000000001

end Sys2Proof
end

