-- ==== Sys2Proof/Machine/State.lean ====
section
/-!
DEFINITION. The state (10_state.md), plain data: the engine (R20), the instance's parameters (R6) and the
environment the engine is driven by (R44: what sources, sinks and the host will do is an input of the step).
-/
namespace Sys2Proof.Machine

/-- The fault codes of 60_exceptions.md R270. Codes 11 to 15 are never written, and have no constructor. -/
inductive ErrCode where
  | none
  | io
  | miss
  | trunc
  | noChild
  | empty
  | noTree
  | noTable
  | arg
  | ovf
  | op
deriving DecidableEq, Repr

/-- TK, R30; the encoding 3 never occurs. -/
inductive TreeKind where
  | none
  | empty
  | tree
deriving DecidableEq, Repr

/-- One record of NODE (R27), with the manual's own fields: `left` is 0 when `lp` is false, `right` when `rp` is. -/
structure Node where
  ch    : Nat
  freq  : Nat
  lp    : Bool
  left  : Nat
  rp    : Bool
  right : Nat
deriving DecidableEq, Repr

/-- R46: "all fields 0". -/
def Node.zero : Node := { ch := 0, freq := 0, lp := false, left := 0, rp := false, right := 0 }

/-- One record of CODE (R32): `bits[k]` is the k-th member of `path` and `len` is its length; positions at and
after `len` are 0 and are not stored (log 8). -/
structure CodeEntry where
  valid : Bool
  path  : List Bool
deriving DecidableEq, Repr

/-- R46: `valid = 0`, `len = 0`, `bits = 0`. -/
def CodeEntry.zero : CodeEntry := { valid := false, path := [] }

/-- A table of the engine: (index, element) pairs, indices rising, no element equal to the element's reset value,
which is what an unlisted index reads as (log 7). -/
abbrev Table (α : Type) := List (Nat × α)

/-- The phase of a frame of WSTK (R39: 0, 1 or 2). -/
inductive WalkPhase where
  | ph0
  | ph1
  | ph2
deriving DecidableEq, Repr

/-- One frame of WSTK (R39). -/
structure Frame where
  node  : Nat
  phase : WalkPhase
deriving DecidableEq, Repr

/-- How a stream command will end once its channels are released and closed (60_exceptions.md R282, R283). -/
inductive Ending where
  | done
  | fault (e : ErrCode) (info : Word)
deriving DecidableEq, Repr

/-- Where in a command the engine is (R24): the micro-operation it performs next. A command that touches no channel is
one transition from its start to its end (00_scope.md R10); of a stream command the first step, which opens its
channels (20_memory.md R81), each `get`, `put`, release and close, and the end are points of their own (log 3, log 5). -/
inductive Point where
  /-- No command is in progress. -/
  | idle
  /-- The word `w` has been accepted on CMD and the command's first micro-operation has not happened. -/
  | start (w : Word)
  /-- COUNT is to take an item from SI (41_frequency_counter.md R150, R157). -/
  | countGet
  /-- COUNT is to release SI. -/
  | countRelease (f : Ending)
  /-- COUNT is to end. -/
  | countFinish (f : Ending)
  /-- ENCODE is to take an item from SI (R214, R230). -/
  | encGet
  /-- ENCODE is to put a full byte on BO (R219); `rest` are the bits of the current code not yet appended. -/
  | encPut (rest : List Bool)
  /-- ENCODE, past EOS, is to put the final partial byte on BO (R225). -/
  | encFlush
  /-- ENCODE, aborting, is to put the flush byte on BO, whose answer it will ignore (R224), before it raises `e` with
  `info`. -/
  | encAbort (e : ErrCode) (info : Word)
  /-- ENCODE is to release SI (R227). -/
  | encRelease (f : Ending)
  /-- ENCODE is to close BO (R227). -/
  | encClose (f : Ending)
  /-- ENCODE is to end. -/
  | encFinish (f : Ending)
  /-- DECODE is to take an item from BI (R245, R257). -/
  | decGet
  /-- DECODE is to put on SO the symbol of the leaf the cursor stands on (R249). -/
  | decPut
  /-- DECODE is to release BI (R253). -/
  | decRelease (f : Ending)
  /-- DECODE is to close SO (R253). -/
  | decClose (f : Ending)
  /-- DECODE is to end. -/
  | decFinish (f : Ending)
deriving DecidableEq, Repr

/-- The engine: R20's list, with STATUS held as its fields (R34) and `point` beside it (R24, log 5). -/
structure Engine where
  /-- R22 -/
  x0     : Word
  x1     : Word
  x2     : Word
  x3     : Word
  /-- STATUS bit 0, R34 -/
  busy   : Bool
  /-- STATUS bit 1, R34 -/
  done   : Bool
  /-- STATUS bit 2, R34 -/
  herr   : Bool
  /-- STATUS bits 7:4, R34 -/
  err    : ErrCode
  /-- R35 -/
  finfo  : Word
  /-- FREQ, R25 -/
  freq   : Table Nat
  /-- NODE, R27 -/
  node   : Table Node
  /-- ROOT, R29 -/
  root   : Nat
  /-- NCNT, R29 -/
  ncnt   : Nat
  /-- STATUS bits 9:8, R30 -/
  tk     : TreeKind
  /-- CODE, R32 -/
  code   : Table CodeEntry
  /-- STATUS bit 10, R33 -/
  ctv    : Bool
  /-- OPR, R37 -/
  opr    : BitVec 8
  /-- PQ, R38: a set of node indices, listed in the order of insertion (log 14) -/
  pq     : List Nat
  /-- WSTK, R39: the top frame first -/
  wstk   : List Frame
  /-- PATH, R39: the first step of the path first -/
  path   : List Bool
  /-- ACC, R40 -/
  acc    : Byte
  /-- NACC, R40 -/
  nacc   : BitVec 3
  /-- NB, R40 -/
  nb     : Word
  /-- NBY, R40 -/
  nby    : Word
  /-- NS, R40 -/
  ns     : Word
  /-- SH, R41 -/
  sh     : Byte
  /-- NSH, R41 -/
  nsh    : BitVec 4
  /-- LIM, R41 -/
  lim    : Word
  /-- CUR, R42 -/
  cur    : Nat
  /-- SI.open, R43 -/
  siOpen : Bool
  /-- BO.open, R43 -/
  boOpen : Bool
  /-- BI.open, R43 -/
  biOpen : Bool
  /-- SO.open, R43 -/
  soOpen : Bool
  /-- R24 -/
  point  : Point
deriving DecidableEq, Repr

/-- R46, R310: the engine after reset. -/
def Engine.reset : Engine where
  x0 := 0
  x1 := 0
  x2 := 0
  x3 := 0
  busy := false
  done := false
  herr := false
  err := .none
  finfo := 0
  freq := []
  node := []
  root := 0
  ncnt := 0
  tk := .none
  code := []
  ctv := false
  opr := 0
  pq := []
  wstk := []
  path := []
  acc := 0
  nacc := 0
  nb := 0
  nby := 0
  ns := 0
  sh := 0
  nsh := 0
  lim := 0
  cur := 0
  siOpen := false
  boOpen := false
  biOpen := false
  soOpen := false
  point := .idle

/-- What one `get` on an input channel returns (20_memory.md R78): a data item, the end-of-stream sentinel, or an
I/O fault of the underlying stream. -/
inductive Item (α : Type) where
  | data (v : α)
  | eos
  | err
deriving DecidableEq, Repr

/-- What a sink answers to a `put` (R79). -/
inductive Answer where
  | ok
  | fail
deriving DecidableEq, Repr

/-- The four channels (R76), in the order of their numbers (60_exceptions.md R271). -/
inductive Channel where
  | si
  | bo
  | bi
  | so
deriving DecidableEq, Repr

/-- What the environment supplies on one channel (10_state.md R44): `now`, the items offered (or answers given)
and not yet used of the open session, or of the session that opens next; `later`, those of the sessions after it
(R81; log 12). -/
structure Feed (α : Type) where
  now   : List α
  later : List (List α)
deriving DecidableEq, Repr

/-- What happens next: the host's accesses (10_state.md R21), the reset input (70 R310), what the sources offer and the
sinks answer, and when the engine moves. An offer or an answer only supplies; the engine uses it when it moves. -/
inductive Event where
  /-- RD(n). -/
  | read (n : Fin 8)
  /-- WR(n, v); a command it starts runs on until it ends or waits before the next event. -/
  | write (n : Fin 8) (v : Word)
  /-- WR(4, w), the next event coming before the command's first micro-operation (log 3). -/
  | issue (w : Word)
  /-- Reset is asserted. -/
  | reset
  /-- The source of SI offers an item. -/
  | offerSi (it : Item Nat)
  /-- The source of BI offers an item. -/
  | offerBi (it : Item Byte)
  /-- The sink of BO gives an answer. -/
  | answerBo (a : Answer)
  /-- The sink of SO gives an answer. -/
  | answerSo (a : Answer)
  /-- The engine performs one micro-operation, if it has one to perform. -/
  | tick
  /-- The engine runs on until its command ends or waits. -/
  | run
deriving DecidableEq, Repr

/-- What has crossed the boundary. -/
inductive Obs where
  /-- RD(n) returned `v`. -/
  | read (n : Fin 8) (v : Word)
  /-- `SI.get()` returned `it`. -/
  | tookSi (it : Item Nat)
  /-- `BI.get()` returned `it`. -/
  | tookBi (it : Item Byte)
  /-- `BO.put(v)` was answered `a`. -/
  | putBo (v : Byte) (a : Answer)
  /-- `SO.put(v)` was answered `a`. -/
  | putSo (v : Nat) (a : Answer)
  /-- `ch.release()`. -/
  | release (ch : Channel)
  /-- `ch.close()`. -/
  | close (ch : Channel)
  /-- Reset was asserted: sessions then open are abandoned (70 R311). -/
  | reset
deriving DecidableEq, Repr

/-- The environment (R44). -/
structure Env where
  /-- what happens next, in order -/
  events : List Event
  si     : Feed (Item Nat)
  bo     : Feed Answer
  bi     : Feed (Item Byte)
  so     : Feed Answer
  /-- what has crossed the boundary, oldest first -/
  trace  : List Obs
deriving DecidableEq, Repr

/-- Nothing offered, nothing to happen, nothing seen. -/
def Env.quiet : Env where
  events := []
  si := { now := [], later := [] }
  bo := { now := [], later := [] }
  bi := { now := [], later := [] }
  so := { now := [], later := [] }
  trace := []

/-- The whole state. -/
structure State where
  params : Params
  eng    : Engine
  env    : Env
deriving DecidableEq, Repr

/-- The machine right after reset (R46, R310), of the instance `p`, nothing pending outside. -/
def State.resetOf (p : Params) : State := { params := p, eng := Engine.reset, env := Env.quiet }

/-- The reference instance right after reset (R46; log 1). -/
def State.reset : State := State.resetOf Params.reference

/-- Why a step stops the model. The engine's own faults (60_exceptions.md R270) are no `Fault`: they are next
states with ERR and FINFO written (R283). -/
inductive Fault where
  /-- Raised by EXTRACT when its walk has made more iterations than a tree of NNODE records allows
  (3·NNODE + 1), which happens only where NODE below ROOT is no tree, in states no run reaches (10_state.md
  R31). Safe: the model stops where the engine would walk on (log 10). -/
  | walkUnending
deriving DecidableEq, Repr

/-- Why the model gives an instruction no meaning. -/
inductive Refusal where
  /-- Raised by `exec` for an instruction that has no meaning yet; safe. No arm raises it. -/
  | notModelled (mnemonic : String)
deriving DecidableEq, Repr

end Sys2Proof.Machine
end

