-- ==== Sys2Proof/Machine/Ops.lean ====
section
/-!
DEFINITION. The named operations over the engine's state: the derived constants (00_scope.md R7), the tables
(20_memory.md R72), the argument registers (10_state.md R22), the two ends of a command (60_exceptions.md R282,
R283), the return from a fault (R285) and reset (70_reset_and_hazards.md R310).
-/
namespace Sys2Proof

/-! ### Derived constants, R7 -/

/-- R7: NSYM = 2^SYMW. -/
def Params.nsym (p : Params) : Nat := 2 ^ p.symw

/-- R7: NNODE = 2·NSYM − 1. -/
def Params.nnode (p : Params) : Nat := 2 * p.nsym - 1

/-- R7: IDXW = SYMW + 1. -/
def Params.idxw (p : Params) : Nat := p.symw + 1

/-- R7: AGGW = FREQW + SYMW. -/
def Params.aggw (p : Params) : Nat := p.freqw + p.symw

/-- R7: MAXLEN = NSYM − 1. -/
def Params.maxlen (p : Params) : Nat := p.nsym - 1

/-- R7: LENW = SYMW. -/
def Params.lenw (p : Params) : Nat := p.symw

/-- R7: SENT = NSYM. -/
def Params.sent (p : Params) : Nat := p.nsym

/-- 40_control_and_access.md R138: KMAX = (MAXLEN − 1) div 64. -/
def Params.kmax (p : Params) : Nat := (p.maxlen - 1) / 64

namespace Machine

/-! ### Tables (20_memory.md R70, R72; log 7) -/

/-- `T[k]`: an unlisted index reads as `d`, the element's reset value. -/
def readCell {α : Type} (d : α) : Table α → Nat → α
  | [], _ => d
  | c :: t, k => if c.1 = k then c.2 else readCell d t k

/-- The table without its element `k`. -/
def eraseCell {α : Type} : Table α → Nat → Table α
  | [], _ => []
  | c :: t, k => if c.1 = k then eraseCell t k else c :: eraseCell t k

/-- The table with `(k, v)` put before the first greater index. -/
def insertCell {α : Type} : Table α → Nat → α → Table α
  | [], k, v => [(k, v)]
  | c :: t, k, v => if k < c.1 then (k, v) :: c :: t else c :: insertCell t k v

/-- `T[k] <- v`, keeping the canonical form: an element equal to the reset value is not listed. -/
def writeCell {α : Type} [DecidableEq α] (d : α) (t : Table α) (k : Nat) (v : α) : Table α :=
  if v = d then eraseCell t k else insertCell (eraseCell t k) k v

/-- The canonical form: indices strictly rising and below `size`, no listed element equal to `d`. -/
def tableWf {α : Type} [DecidableEq α] (d : α) (size : Nat) (t : Table α) : Bool :=
  decide (t.Pairwise fun a b => a.1 < b.1) && t.all (fun c => decide (c.1 < size) && !decide (c.2 = d))

/-! ### Reading the state -/

/-- `x[i]`, R13. -/
def State.x (s : State) (i : Fin 4) : Word :=
  match i with
  | 0 => s.eng.x0
  | 1 => s.eng.x1
  | 2 => s.eng.x2
  | 3 => s.eng.x3

/-- `FREQ[c]`, R25. -/
def State.freqAt (s : State) (c : Nat) : Nat := readCell 0 s.eng.freq c

/-- `NODE[i]`, R27. -/
def State.nodeAt (s : State) (i : Nat) : Node := readCell Node.zero s.eng.node i

/-- `CODE[c]`, R32. -/
def State.codeAt (s : State) (c : Nat) : CodeEntry := readCell CodeEntry.zero s.eng.code c

/-- R27: "A tree is a *leaf* iff both children are absent". -/
def Node.isLeaf (n : Node) : Bool := !n.lp && !n.rp

/-- R27: `child(i, 0)` is (`lp`, `left`) and `child(i, 1)` is (`rp`, `right`). -/
def Node.child (n : Node) (b : Bool) : Bool × Nat := if b then (n.rp, n.right) else (n.lp, n.left)

/-- R32: `len`. -/
def CodeEntry.len (e : CodeEntry) : Nat := e.path.length

/-- R32: `bits[k]`; "bits at positions `≥ len` are 0". -/
def CodeEntry.bit (e : CodeEntry) (k : Nat) : Bool := e.path.getD k false

/-! ### Writing the state -/

/-- `x[i] <- v`, R13. -/
def Engine.setX (e : Engine) (i : Fin 4) (v : Word) : Engine :=
  match i with
  | 0 => { e with x0 := v }
  | 1 => { e with x1 := v }
  | 2 => { e with x2 := v }
  | 3 => { e with x3 := v }

/-- The writes `x[i] <- v` of a list, in order. -/
def Engine.setXs (e : Engine) : List (Fin 4 × Word) → Engine
  | [] => e
  | w :: ws => (e.setX w.1 w.2).setXs ws

/-- `x[i] <- v`, R13. -/
def State.setX (s : State) (i : Fin 4) (v : Word) : State := { s with eng := s.eng.setX i v }

/-- `FREQ[c] <- n`, R25. -/
def State.setFreq (s : State) (c n : Nat) : State :=
  { s with eng := { s.eng with freq := writeCell 0 s.eng.freq c n } }

/-- `for c in 0 .. NSYM-1: FREQ[c] <- 0`. -/
def State.clearFreq (s : State) : State := { s with eng := { s.eng with freq := [] } }

/-- `NODE[i] <- n`, R27. -/
def State.setNode (s : State) (i : Nat) (n : Node) : State :=
  { s with eng := { s.eng with node := writeCell Node.zero s.eng.node i n } }

/-- `CODE[c] <- e`, R32. -/
def State.setCode (s : State) (c : Nat) (e : CodeEntry) : State :=
  { s with eng := { s.eng with code := writeCell CodeEntry.zero s.eng.code c e } }

/-- `for c in 0 .. NSYM-1: CODE[c] <- {valid = 0, len = 0, bits = 0}`, 43_code_table_extractor.md R192. -/
def State.clearCode (s : State) : State := { s with eng := { s.eng with code := [] } }

/-- The engine's next micro-operation is the one at `p`. -/
def State.goTo (s : State) (p : Point) : State := { s with eng := { s.eng with point := p } }

/-- The canonical form of the three tables, each of the size R70 gives it. -/
def Memory.wf (s : State) : Bool :=
  tableWf 0 s.params.nsym s.eng.freq && tableWf Node.zero s.params.nnode s.eng.node &&
    tableWf CodeEntry.zero s.params.nsym s.eng.code

/-! ### Start and ends of a command -/

/-- 10_state.md R23: an accepted write of `w` to CMD: `OPR <- w[7:0]`, `BUSY <- 1`, `DONE <- 0`. -/
def State.accept (s : State) (w : Word) : State :=
  { s with eng := { s.eng with opr := opField w, busy := true, done := false, point := .start w } }

/-- Normal completion, `done()` (60_exceptions.md R282): in one step the result registers `rs` are written,
`BUSY <- 0`, `DONE <- 1`. ERR and FINFO are not touched. -/
def State.complete (s : State) (rs : List (Fin 4 × Word)) : State :=
  { s with eng := { s.eng.setXs rs with busy := false, done := true, point := .idle } }

/-- Fault entry, `raise E(info)` (R283), the engine's one exception operation: in one step `ERR <- code of E`,
`FINFO <- info`, `BUSY <- 0`, `DONE <- 1`; "The engine does not vector anywhere, saves no return address, changes no
mode and touches no stack". -/
def State.raiseFault (s : State) (e : ErrCode) (info : Word) : State :=
  { s with eng := { s.eng with err := e, finfo := info, busy := false, done := true, point := .idle } }

/-- The return from a fault (R285), the body and end of CLR (40 R132): "the state after `CLR` differs from the
state after reset in `DONE` alone". -/
def State.clear (s : State) : State := { s with eng := { Engine.reset with done := true } }

end Machine
end Sys2Proof
end

