-- ==== Sys2Proof/Machine/Operands.lean ====
section
/-!
DEFINITION. The precondition checks and the operand forms. An operand is the whole 64-bit value of an argument
register, checked against its range (30_encoding.md R101); the first check that fails raises its fault and no later
one is made (40_control_and_access.md R130 (3), 60_exceptions.md R287).
-/
namespace Sys2Proof.Machine

/-- What every meaning answers. -/
abbrev Result := Host.Outcome State Fault Refusal

/-- A command that ends by `raise` (60_exceptions.md R283): a next state. -/
def raising (s : State) (e : ErrCode) (info : Word) : Result := .next (s.raiseFault e info)

/-- The operand in `x[r]`, which must name one of `0 .. bound − 1`; else `raise E_ARG(r)` (60_exceptions.md R278:
FINFO is the number of the operand register). -/
def withOperand (s : State) (r : Fin 4) (bound : Nat) (k : Nat → Result) : Result :=
  if (s.x r).toNat < bound then k (s.x r).toNat else raising s .arg (BitVec.ofNat 64 r.val)

/-- A symbol operand: below NSYM. -/
def withSymbol (s : State) (r : Fin 4) (k : Nat → Result) : Result := withOperand s r s.params.nsym k

/-- A frequency operand: below 2^FREQW. -/
def withFrequency (s : State) (r : Fin 4) (k : Nat → Result) : Result :=
  withOperand s r (2 ^ s.params.freqw) k

/-- A node operand: below NCNT. -/
def withNodeIndex (s : State) (r : Fin 4) (k : Nat → Result) : Result := withOperand s r s.eng.ncnt k

/-- A chunk operand: at most KMAX. -/
def withChunk (s : State) (r : Fin 4) (k : Nat → Result) : Result := withOperand s r (s.params.kmax + 1) k

/-- 60_exceptions.md R276: the command needs a tree; `TK == NONE` raises E_NOTREE, `TK == EMPTY` does not. -/
def withTree (s : State) (k : Result) : Result :=
  match s.eng.tk with
  | .none => raising s .noTree 0
  | .empty => k
  | .tree => k

/-- 60_exceptions.md R277: the command needs a code table; `CTV == 0` raises E_NOTABLE. -/
def withCodeTable (s : State) (k : Result) : Result :=
  if s.eng.ctv then k else raising s .noTable 0

end Sys2Proof.Machine
end

