-- ==== Sys2Proof/Machine/CodeTableExtractor.lean ====
section
/-!
DEFINITION. The code-table extractor (43_code_table_extractor.md R190 to R203), as the engine performs it: the walk
with the explicit stack WSTK and the path buffer PATH (R196). Safety.lean states the recursive walk of R191, to
which it is equivalent on every built tree.
-/
namespace Sys2Proof.Machine

/-- The frame of a node being entered. -/
def Frame.enter (i : Nat) : Frame := { node := i, phase := .ph0 }

/-- WSTK and PATH as given, all else as it was. -/
def State.setWalk (s : State) (w : List Frame) (p : List Bool) : State :=
  { s with eng := { s.eng with wstk := w, path := p } }

/-- R196, one iteration of the loop, on a stack whose top is the node `i` in phase 0. -/
def walkEnter (s : State) (i : Nat) (below : List Frame) : State :=
  let n := s.nodeAt i
  if n.isLeaf then
    (s.setCode n.ch { valid := true, path := s.eng.path }).setWalk ({ node := i, phase := .ph2 } :: below) s.eng.path
  else if n.lp then
    s.setWalk (Frame.enter n.left :: { node := i, phase := .ph1 } :: below) (s.eng.path ++ [false])
  else s.setWalk ({ node := i, phase := .ph1 } :: below) s.eng.path

/-- R196, one iteration, phase 1: the left subtree is finished. -/
def walkRight (s : State) (i : Nat) (below : List Frame) : State :=
  let n := s.nodeAt i
  if n.rp then
    s.setWalk (Frame.enter n.right :: { node := i, phase := .ph2 } :: below) (s.eng.path ++ [true])
  else s.setWalk ({ node := i, phase := .ph2 } :: below) s.eng.path

/-- R196, one iteration, phase 2: the node is finished; the root was entered with no push, "hence the guard". -/
def walkLeave (s : State) (below : List Frame) : State :=
  match below with
  | [] => s.setWalk [] s.eng.path
  | f :: fs => s.setWalk (f :: fs) s.eng.path.dropLast

/-- R196, one iteration of `while WSTK not empty`. -/
def walkStep (s : State) : State :=
  match s.eng.wstk with
  | [] => s
  | f :: below =>
    match f.phase with
    | .ph0 => walkEnter s f.node below
    | .ph1 => walkRight s f.node below
    | .ph2 => walkLeave s below

/-- R196, the loop; nothing when it has not ended after `fuel` iterations. -/
def walkLoop : Nat → State → Option State
  | 0, s => if s.eng.wstk.isEmpty then some s else none
  | fuel + 1, s => if s.eng.wstk.isEmpty then some s else walkLoop fuel (walkStep s)

/-- The iterations the walk of a tree of NNODE records can make: three a node, and one spare (60_exceptions.md R301:
"EXTRACT after visiting at most `NNODE` nodes"; log 10). -/
def Params.walkFuel (p : Params) : Nat := 3 * p.nnode + 1

/-- R190: `CTV <- 1`, and `done()`. -/
def extractDone (s : State) : State :=
  ({ s with eng := { s.eng with ctv := true } } : State).complete []

/-- R190, the body after the check: every entry invalidated (R192), then the walk when there is a tree (R193). -/
def extractTable (s : State) : Result :=
  let t := s.clearCode
  match t.eng.tk with
  | .none => .next (extractDone t)
  | .empty => .next (extractDone t)
  | .tree =>
    match walkLoop (Params.walkFuel t.params) (t.setWalk [Frame.enter t.eng.root] []) with
    | none => .fault .walkUnending
    | some u => .next (extractDone u)

/-- EXTRACT, R190. -/
def execExtract (s : State) : Result := withTree s (extractTable s)

end Sys2Proof.Machine
end

