-- ==== Sys2Proof/Machine/Channels.lean ====
section
/-!
DEFINITION. The channel operations (20_memory.md R76 to R82, 00_scope.md R14). An operation for which the
environment has supplied nothing does not happen: the command waits (R78, R79), and its micro-operation answers
nothing.
-/
namespace Sys2Proof.Machine

/-- The session ends: what it had not used is never used, and the next session is next (20_memory.md R79, R81). -/
def Feed.endSession {α : Type} (f : Feed α) : Feed α :=
  match f.later with
  | [] => { now := [], later := [] }
  | n :: l => { now := n, later := l }

/-- The environment supplies one more item or answer of the session. -/
def Feed.add {α : Type} (f : Feed α) (a : α) : Feed α := { f with now := f.now ++ [a] }

/-- A symbol item as it arrives: SI is SYMW bits wide "by construction of the channel" (R73; log 6). -/
def narrow (p : Params) : Item Nat → Item Nat
  | .data v => .data (v % p.nsym)
  | .eos => .eos
  | .err => .err

/-- A crossing of the boundary is recorded. -/
def State.record (s : State) (o : Obs) : State := { s with env := { s.env with trace := s.env.trace ++ [o] } }

/-! ### SI -/

/-- `SI.open <- 1`. -/
def State.openSi (s : State) : State := { s with eng := { s.eng with siOpen := true } }

/-- `SI.get()` has returned `it`; `rest` is what the source has offered beyond it. -/
def State.tookSi (s : State) (it : Item Nat) (rest : List (Item Nat)) : State :=
  { s with env := { s.env with si := { s.env.si with now := rest }, trace := s.env.trace ++ [.tookSi it] } }

/-- `SI.release()`, R79. -/
def State.releaseSi (s : State) : State :=
  { s with
    eng := { s.eng with siOpen := false }
    env := { s.env with si := s.env.si.endSession, trace := s.env.trace ++ [.release .si] } }

/-! ### BI -/

/-- `BI.open <- 1`. -/
def State.openBi (s : State) : State := { s with eng := { s.eng with biOpen := true } }

/-- `BI.get()` has returned `it`. -/
def State.tookBi (s : State) (it : Item Byte) (rest : List (Item Byte)) : State :=
  { s with env := { s.env with bi := { s.env.bi with now := rest }, trace := s.env.trace ++ [.tookBi it] } }

/-- `BI.release()`, R79. -/
def State.releaseBi (s : State) : State :=
  { s with
    eng := { s.eng with biOpen := false }
    env := { s.env with bi := s.env.bi.endSession, trace := s.env.trace ++ [.release .bi] } }

/-! ### BO -/

/-- `BO.open <- 1`. -/
def State.openBo (s : State) : State := { s with eng := { s.eng with boOpen := true } }

/-- `BO.put(v)`: the answer and the state after it, or nothing while the sink has not answered. -/
def State.putBo (s : State) (v : Byte) : Option (Answer × State) :=
  match s.env.bo.now with
  | [] => none
  | a :: rest =>
    some (a, { s with env := { s.env with
      bo := { s.env.bo with now := rest }, trace := s.env.trace ++ [.putBo v a] } })

/-- `BO.close()`, R80. -/
def State.closeBo (s : State) : State :=
  { s with
    eng := { s.eng with boOpen := false }
    env := { s.env with bo := s.env.bo.endSession, trace := s.env.trace ++ [.close .bo] } }

/-! ### SO -/

/-- `SO.open <- 1`. -/
def State.openSo (s : State) : State := { s with eng := { s.eng with soOpen := true } }

/-- `SO.put(v)`. -/
def State.putSo (s : State) (v : Nat) : Option (Answer × State) :=
  match s.env.so.now with
  | [] => none
  | a :: rest =>
    some (a, { s with env := { s.env with
      so := { s.env.so with now := rest }, trace := s.env.trace ++ [.putSo v a] } })

/-- `SO.close()`, R80. -/
def State.closeSo (s : State) : State :=
  { s with
    eng := { s.eng with soOpen := false }
    env := { s.env with so := s.env.so.endSession, trace := s.env.trace ++ [.close .so] } }

/-! ### What the environment supplies -/

/-- The source of SI offers an item. -/
def State.offerSi (s : State) (it : Item Nat) : State := { s with env := { s.env with si := s.env.si.add it } }

/-- The source of BI offers an item. -/
def State.offerBi (s : State) (it : Item Byte) : State := { s with env := { s.env with bi := s.env.bi.add it } }

/-- The sink of BO gives an answer. -/
def State.answerBo (s : State) (a : Answer) : State := { s with env := { s.env with bo := s.env.bo.add a } }

/-- The sink of SO gives an answer. -/
def State.answerSo (s : State) (a : Answer) : State := { s with env := { s.env with so := s.env.so.add a } }

end Sys2Proof.Machine
end

