-- ==== Sys2Proof/Machine/Flags.lean ====
section
/-!
DEFINITION. STATUS (10_state.md R34) and the words the access commands return (30_encoding.md R109, R110;
40_control_and_access.md R136, R138).
-/
namespace Sys2Proof.Machine

/-- The 4-bit code of a fault, 60_exceptions.md R270. -/
def ErrCode.code : ErrCode → BitVec 4
  | .none => 0
  | .io => 1
  | .miss => 2
  | .trunc => 3
  | .noChild => 4
  | .empty => 5
  | .noTree => 6
  | .noTable => 7
  | .arg => 8
  | .ovf => 9
  | .op => 10

/-- The 2-bit code of TK, R30. -/
def TreeKind.code : TreeKind → BitVec 2
  | .none => 0
  | .empty => 1
  | .tree => 2

/-- The number of a channel, which is FINFO of its E_IO (60_exceptions.md R271). -/
def Channel.number : Channel → Word
  | .si => 0
  | .bo => 1
  | .bi => 2
  | .so => 3

/-- STATUS, R34, from its most significant field down: 63:11 zero, CTV, TK, ERR, bit 3 zero, HERR, DONE, BUSY. -/
def Engine.status (e : Engine) : Word :=
  (0 : BitVec 53) ++ BitVec.ofBool e.ctv ++ e.tk.code ++ e.err.code ++ (0 : BitVec 1)
    ++ BitVec.ofBool e.herr ++ BitVec.ofBool e.done ++ BitVec.ofBool e.busy

/-- The node descriptor, 40_control_and_access.md R136. -/
def Node.descriptor (n : Node) : Word :=
  (BitVec.ofNat 17 n.ch).setWidth 64
    ||| (BitVec.ofBool n.lp).setWidth 64 <<< 17
    ||| (BitVec.ofBool n.rp).setWidth 64 <<< 18
    ||| (BitVec.ofNat 20 n.left).setWidth 64 <<< 20
    ||| (BitVec.ofNat 20 n.right).setWidth 64 <<< 40

/-- The code descriptor, 30_encoding.md R110: bit 63 is `valid`; bits 62:0 are `len` when valid, 0 when not. -/
def CodeEntry.descriptor (e : CodeEntry) : Word :=
  if e.valid then (1 : Word) <<< 63 ||| (BitVec.ofNat 63 e.len).setWidth 64 else 0

/-- The number whose bit `j` is the j-th member of the list. -/
def lowFirst : List Bool → Nat
  | [] => 0
  | b :: bs => b.toNat + 2 * lowFirst bs

/-- `chunk(e, k)`, 40_control_and_access.md R138: the word whose bit `j` is `e.bits[64k + j]` if `64k + j < e.len`,
else 0. -/
def CodeEntry.chunk (e : CodeEntry) (k : Nat) : Word :=
  BitVec.ofNat 64 (lowFirst ((e.path.drop (64 * k)).take 64))

end Sys2Proof.Machine
end

