-- ==== Sys2Proof/Machine/Control.lean ====
section
/-!
DEFINITION. The seven commands that touch no channel and no algorithm (40_control_and_access.md R131 to R140).
Operands are read before any result is written (R140), and a command that faults writes no result register (R22).
-/
namespace Sys2Proof.Machine

/-- NOP, R131: "Ends by `done()` with no result register written." -/
def execNop (s : State) : Result := .next (s.complete [])

/-- CLR, R132. -/
def execClr (s : State) : Result := .next s.clear

/-- SETF, R133. -/
def execSetf (s : State) : Result :=
  withSymbol s 0 fun c => withFrequency s 1 fun n => .next ((s.setFreq c n).complete [])

/-- GETF, R134. -/
def execGetf (s : State) : Result :=
  withSymbol s 0 fun c => .next (s.complete [(1, BitVec.ofNat 64 (s.freqAt c))])

/-- GETT's fourth result, R135: the root's aggregate frequency when there is a root, else 0. -/
def State.rootFreq (s : State) : Nat :=
  match s.eng.tk with
  | .none => 0
  | .empty => 0
  | .tree => (s.nodeAt s.eng.root).freq

/-- GETT, R135. -/
def execGett (s : State) : Result :=
  .next (s.complete
    [(0, s.eng.tk.code.setWidth 64), (1, BitVec.ofNat 64 s.eng.root), (2, BitVec.ofNat 64 s.eng.ncnt),
      (3, BitVec.ofNat 64 s.rootFreq)])

/-- GETN, R137. -/
def execGetn (s : State) : Result :=
  withTree s <| withNodeIndex s 0 fun i =>
    .next (s.complete [(1, (s.nodeAt i).descriptor), (2, BitVec.ofNat 64 (s.nodeAt i).freq)])

/-- GETC's fourth-register result, R139: the chunk of a valid entry, 0 of an invalid one. -/
def CodeEntry.chunkResult (e : CodeEntry) (k : Nat) : Word := if e.valid then e.chunk k else 0

/-- GETC, R139. -/
def execGetc (s : State) : Result :=
  withCodeTable s <| withSymbol s 0 fun c => withChunk s 1 fun k =>
    .next (s.complete [(2, (s.codeAt c).descriptor), (3, (s.codeAt c).chunkResult k)])

end Sys2Proof.Machine
end

