-- ==== Sys2Proof/Machine/Decoder.lean ====
section
/-!
DEFINITION. The bit-serial decoder and the input unpacker (45_decoder.md R240 to R262): the micro-operations of DECODE.
Machine/Streams.lean strings them together.
-/
namespace Sys2Proof.Machine

/-- R247, `readBit()`: the bit `SH[7]` and the register shifted left by one. -/
def State.readBit (s : State) : Bool × State :=
  (s.eng.sh.getLsbD 7,
    { s with eng := { s.eng with sh := s.eng.sh <<< 1, nsh := s.eng.nsh - 1, nb := s.eng.nb + 1 } })

/-- `CUR <- i`. -/
def State.setCur (s : State) (i : Nat) : State := { s with eng := { s.eng with cur := i } }

/-- R249, the symbol a leaf stands for: the low SYMW bits of its character. -/
def State.leafSymbol (s : State) : Nat := (s.nodeAt s.eng.cur).ch % s.params.nsym

/-- R249, after a put answered ok: `NS <- NS + 1; CUR <- ROOT`. -/
def State.emitted (s : State) : State :=
  { s with eng := { s.eng with ns := s.eng.ns + 1, cur := s.eng.root } }

/-- R240: `SH <- v; NSH <- 8; NBY <- NBY + 1`. -/
def State.loadByte (s : State) (v : Byte) : State :=
  { s with eng := { s.eng with sh := v, nsh := 8, nby := s.eng.nby + 1 } }

/-- R248: FINFO of E_NOCHILD, `(b << 32) | CUR`. -/
def noChildInfo (b : Bool) (cur : Nat) : Word := (BitVec.ofBool b).setWidth 64 <<< 32 ||| BitVec.ofNat 64 cur

/-- R253, `abort(code, info)`. -/
def decodeAbort (e : ErrCode) (info : Word) (s : State) : State := s.goTo (.decRelease (.fault e info))

/-- R251: the bit source is exhausted. -/
def decodeExhausted (s : State) : State :=
  if s.eng.tk = .tree ∧ s.eng.cur ≠ s.eng.root then decodeAbort .trunc (BitVec.ofNat 64 s.eng.cur) s
  else s.goTo (.decRelease .done)

/-- R240, R244, R245, the loop while the shift register holds `n` unread bits, up to the next channel operation: the
limit is tested before each bit and before a `get`; a leaf is to be put. -/
def decodeBits : Nat → State → State
  | 0, s => if s.eng.nb = s.eng.lim then decodeExhausted s else s.goTo .decGet
  | n + 1, s =>
    if s.eng.nb = s.eng.lim then decodeExhausted s
    else
      let b := s.readBit.1
      let t := s.readBit.2
      let c := (t.nodeAt t.eng.cur).child b
      if t.eng.tk = .empty then decodeAbort .empty 0 t
      else if !c.1 then decodeAbort .noChild (noChildInfo b t.eng.cur) t
      else if (t.nodeAt c.2).isLeaf then (t.setCur c.2).goTo .decPut
      else decodeBits n (t.setCur c.2)

/-- R240, the loop from any point between two bits. -/
def decodeLoop (s : State) : State := decodeBits s.eng.nsh.toNat s

/-- R241, R243, the first step (20_memory.md R81): LIM latched, both channels opened, the cursor at the root, the unpacker
emptied, the counters zeroed. -/
def decodeOpen (s : State) : State :=
  let t := s.openBi.openSo
  decodeLoop
    { t with eng := { t.eng with lim := s.x 0, cur := s.eng.root, sh := 0, nsh := 0, nb := 0, nby := 0, ns := 0 } }

/-- R240, R245: the item `it` taken from BI and what follows up to the next channel operation. -/
def decodeTake (it : Item Byte) (rest : List (Item Byte)) (s : State) : State :=
  let t := s.tookBi it rest
  match it with
  | .eos => decodeExhausted t
  | .err => decodeAbort .io Channel.bi.number t
  | .data v => decodeLoop (t.loadByte v)

/-- `BI.get()`, if BI has offered an item. -/
def decodeGet (s : State) : Option State :=
  match s.env.bi.now with
  | [] => none
  | it :: rest => some (decodeTake it rest s)

/-- R249, R252: the put of the leaf the cursor stands on; then the next bits. -/
def decodePut (s : State) : Option State :=
  match s.putSo s.leafSymbol with
  | none => none
  | some (.fail, t) => some (decodeAbort .io Channel.so.number t)
  | some (.ok, t) => some (decodeLoop t.emitted)

/-- R253: `BI.release()`. -/
def decodeRelease (f : Ending) (s : State) : State := s.releaseBi.goTo (.decClose f)

/-- R253: `SO.close()`. -/
def decodeClose (f : Ending) (s : State) : State := s.closeSo.goTo (.decFinish f)

/-- R254: the results, or the fault. -/
def decodeFinish (f : Ending) (s : State) : State :=
  match f with
  | .done => s.complete [(0, s.eng.nb), (1, s.eng.ns), (2, s.eng.nby)]
  | .fault e info => s.raiseFault e info

end Sys2Proof.Machine
end

