-- ==== Sys2Proof/Machine/Encoder.lean ====
section
/-!
DEFINITION. The bit-serial encoder and the output packer (44_encoder.md R210 to R235): the micro-operations of ENCODE.
Machine/Streams.lean strings them together.
-/
namespace Sys2Proof.Machine

/-- ACC and NACC cleared, after a byte has been put. -/
def State.clearAcc (s : State) : State := { s with eng := { s.eng with acc := 0, nacc := 0 } }

/-- `NBY <- NBY + 1`, R219. -/
def State.countByte (s : State) : State := { s with eng := { s.eng with nby := s.eng.nby + 1 } }

/-- `NS <- NS + 1`. -/
def State.countSymbol (s : State) : State := { s with eng := { s.eng with ns := s.eng.ns + 1 } }

/-- R218: the bit `b` placed at `ACC[7 − NACC]`. -/
def placeBit (acc : Byte) (nacc : BitVec 3) (b : Bool) : Byte :=
  acc ||| (BitVec.ofBool b).setWidth 8 <<< (7 - nacc.toNat)

/-- R210, `writeBit`, up to the test of NACC: `ACC[7 - NACC] <- b; NB <- NB + 1`. -/
def State.appendBit (s : State) (b : Bool) : State :=
  { s with eng := { s.eng with acc := placeBit s.eng.acc s.eng.nacc b, nb := s.eng.nb + 1 } }

/-- `NACC <- NACC + 1`. -/
def State.countBit (s : State) : State := { s with eng := { s.eng with nacc := s.eng.nacc + 1 } }

/-- R213, the first step (20_memory.md R81): both channels opened, the packer and the counters zeroed. -/
def encodeOpen (s : State) : State :=
  let t := s.openSi.openBo
  ({ t with eng := { t.eng with acc := 0, nacc := 0, nb := 0, nby := 0, ns := 0 } } : State).goTo .encGet

/-- R210, R224, `abort(code, info, true)`: a pending partial byte is to be put before the release. -/
def encodeAbort (e : ErrCode) (info : Word) (s : State) : State :=
  if s.eng.nacc = 0 then s.goTo (.encRelease (.fault e info)) else s.goTo (.encAbort e info)

/-- R224: the flush byte of an abort, "answer ignored". -/
def encodeAbortPut (e : ErrCode) (info : Word) (s : State) : Option State :=
  match s.putBo s.eng.acc with
  | none => none
  | some (_, t) => some (t.clearAcc.goTo (.encRelease (.fault e info)))

/-- R220, `abort(E_IO, 1, false)`: "no further byte is offered, not even a flush". -/
def encodeSinkFailed (s : State) : State := s.goTo (.encRelease (.fault .io Channel.bo.number))

/-- R225: what is to be flushed after EOS. -/
def encodeFinal (s : State) : State := if s.eng.nacc = 0 then s.goTo (.encRelease .done) else s.goTo .encFlush

/-- R225, `putbyte(ACC)` of the flush. -/
def encodeFlush (s : State) : Option State :=
  match s.putBo s.eng.acc with
  | none => none
  | some (.fail, t) => some (encodeSinkFailed t)
  | some (.ok, t) => some (t.countByte.clearAcc.goTo (.encRelease .done))

/-- R210, R216: `writeBit` of each bit of the list, up to the put of a byte that becomes full, and the end of the
symbol. NB is checked before each increment (R222). -/
def encodeBits : List Bool → State → State
  | [], s => s.countSymbol.goTo .encGet
  | b :: bs, s =>
    if s.eng.nb = BitVec.allOnes 64 then encodeAbort .ovf 0 s
    else
      let t := s.appendBit b
      if t.eng.nacc = 7 then t.goTo (.encPut bs) else encodeBits bs t.countBit

/-- R219, R220: the put of a full byte; then the rest of the code. -/
def encodePut (rest : List Bool) (s : State) : Option State :=
  match s.putBo s.eng.acc with
  | none => none
  | some (.fail, t) => some (encodeSinkFailed t)
  | some (.ok, t) => some (encodeBits rest t.countByte.clearAcc)

/-- R210, R214, one turn of the loop: the item `raw` taken from SI and what follows up to the next channel operation. -/
def encodeTake (raw : Item Nat) (rest : List (Item Nat)) (s : State) : State :=
  let it := narrow s.params raw
  let t := s.tookSi it rest
  match it with
  | .eos => encodeFinal t
  | .err => encodeAbort .io Channel.si.number t
  | .data c =>
    if (t.codeAt c).valid then encodeBits (t.codeAt c).path t else encodeAbort .miss (BitVec.ofNat 64 c) t

/-- `SI.get()` of ENCODE, if SI has offered an item. -/
def encodeGet (s : State) : Option State :=
  match s.env.si.now with
  | [] => none
  | raw :: rest => some (encodeTake raw rest s)

/-- R227: `SI.release()`. -/
def encodeRelease (f : Ending) (s : State) : State := s.releaseSi.goTo (.encClose f)

/-- R227: `BO.close()`. -/
def encodeClose (f : Ending) (s : State) : State := s.closeBo.goTo (.encFinish f)

/-- R228: the results, or the fault. -/
def encodeFinish (f : Ending) (s : State) : State :=
  match f with
  | .done => s.complete [(0, s.eng.nb), (1, s.eng.nby), (2, s.eng.ns)]
  | .fault e info => s.raiseFault e info

end Sys2Proof.Machine
end

