-- ==== Sys2Proof/Machine/FrequencyCounter.lean ====
section
/-!
DEFINITION. The frequency counter (41_frequency_counter.md R150 to R158): the micro-operations of COUNT.
Machine/Streams.lean strings them together.
-/
namespace Sys2Proof.Machine

/-- The number of `c` in 0 .. NSYM−1 with `FREQ[c] ≠ 0`, R150. -/
def State.distinct (s : State) : Nat :=
  ((List.range s.params.nsym).filter fun c => s.freqAt c != 0).length

/-- R150, up to the loop: SI opened, a fresh mapping (R151), NS zeroed. -/
def countOpen (s : State) : State :=
  let t := s.openSi.clearFreq
  ({ t with eng := { t.eng with ns := 0 } } : State).goTo .countGet

/-- R150: `FREQ[s] <- FREQ[s] + 1; NS <- NS + 1`. -/
def countSymbol (c : Nat) (s : State) : State :=
  let t := s.setFreq c (s.freqAt c + 1)
  { t with eng := { t.eng with ns := t.eng.ns + 1 } }

/-- R150, one turn of the loop: the item `raw` taken from SI and what follows up to the next channel operation. A count
at 2^FREQW − 1 faults before the increment (R153); an ERR item faults (R154). -/
def countTake (raw : Item Nat) (rest : List (Item Nat)) (s : State) : State :=
  let it := narrow s.params raw
  let t := s.tookSi it rest
  match it with
  | .eos => t.goTo (.countRelease .done)
  | .err => t.goTo (.countRelease (.fault .io Channel.si.number))
  | .data c =>
    if t.freqAt c = 2 ^ t.params.freqw - 1 then t.goTo (.countRelease (.fault .ovf (BitVec.ofNat 64 c)))
    else (countSymbol c t).goTo .countGet

/-- `SI.get()` of COUNT, if SI has offered an item. -/
def countGet (s : State) : Option State :=
  match s.env.si.now with
  | [] => none
  | raw :: rest => some (countTake raw rest s)

/-- R150: `SI.release()`. -/
def countRelease (f : Ending) (s : State) : State := s.releaseSi.goTo (.countFinish f)

/-- R150, the end: `x0 <- NS`, `x1 <- d`, or the fault. -/
def countFinish (f : Ending) (s : State) : State :=
  match f with
  | .done => s.complete [(0, s.eng.ns), (1, BitVec.ofNat 64 s.distinct)]
  | .fault e info => s.raiseFault e info

end Sys2Proof.Machine
end

