-- ==== Sys2Proof/Machine/Streams.lean ====
section
/-!
DEFINITION. The engine's micro-operations (00_scope.md R10) and the three stream commands made of them: one
micro-operation at a time, and all of a command up to its end or its first wait.
-/
namespace Sys2Proof.Machine

/-- The micro-operation at `point`, or nothing: the engine is idle, has a command it has not begun, or "has no step"
because it waits at a channel (20_memory.md R78, R79). -/
def State.microStep (s : State) : Option State :=
  match s.eng.point with
  | .idle => none
  | .start _ => none
  | .countGet => countGet s
  | .countRelease f => some (countRelease f s)
  | .countFinish f => some (countFinish f s)
  | .encGet => encodeGet s
  | .encPut rest => encodePut rest s
  | .encFlush => encodeFlush s
  | .encAbort e info => encodeAbortPut e info s
  | .encRelease f => some (encodeRelease f s)
  | .encClose f => some (encodeClose f s)
  | .encFinish f => some (encodeFinish f s)
  | .decGet => decodeGet s
  | .decPut => decodePut s
  | .decRelease f => some (decodeRelease f s)
  | .decClose f => some (decodeClose f s)
  | .decFinish f => some (decodeFinish f s)

/-- Micro-operations until there is none to perform, at most `fuel` of them. -/
def State.runFor : Nat → State → State
  | 0, s => s
  | fuel + 1, s =>
    match s.microStep with
    | none => s
    | some t => t.runFor fuel

/-- How many items and answers are there to be used. -/
def Env.supplied (e : Env) : Nat := e.si.now.length + e.bo.now.length + e.bi.now.length + e.so.now.length

/-- The engine runs on until its command ends or waits. Every `get` and `put` uses one item or answer, and what a
command does after the last of them is at most a release, a close and its end (one micro-operation is to spare), so the
bound is never what stops it. -/
def State.settle (s : State) : State := s.runFor (s.env.supplied + 4)

/-- COUNT, R150. -/
def execCount (s : State) : Result := .next (countOpen s).settle

/-- ENCODE, 44_encoder.md R210; without a table it faults before any channel is opened (R212). -/
def execEncode (s : State) : Result := withCodeTable s (.next (encodeOpen s).settle)

/-- DECODE, 45_decoder.md R240; without a tree it faults before any channel is opened (R242). -/
def execDecode (s : State) : Result := withTree s (.next (decodeOpen s).settle)

end Sys2Proof.Machine
end

