-- ==== Sys2Proof/Machine/TreeBuilder.lean ====
section
/-!
DEFINITION. The tree ordering, the priority structure and the tree builder (42_tree_builder.md R160 to R181).
-/
namespace Sys2Proof.Machine

/-- R162: `rank(i) = (NODE[i].freq, i)`, compared lexicographically; R160 is its first component, R161 its
second. -/
def State.ranksBelow (s : State) (i j : Nat) : Bool :=
  (s.nodeAt i).freq < (s.nodeAt j).freq || ((s.nodeAt i).freq == (s.nodeAt j).freq && i < j)

/-- `PQ.insert(i)`, R163. -/
def State.pqInsert (s : State) (i : Nat) : State := { s with eng := { s.eng with pq := s.eng.pq ++ [i] } }

/-- The member of least rank among `best` and the list. -/
def State.leastRank (s : State) (best : Nat) : List Nat → Nat
  | [] => best
  | i :: is => s.leastRank (if s.ranksBelow i best then i else best) is

/-- `PQ.extractmin()`, R164: the member of least rank, and the state without it; nothing when PQ is empty. -/
def State.pqExtractMin (s : State) : Option (Nat × State) :=
  match s.eng.pq with
  | [] => none
  | i :: is =>
    let m := s.leastRank i is
    some (m, { s with eng := { s.eng with pq := s.eng.pq.erase m } })

/-- A leaf record, R166. -/
def Node.leafOf (c f : Nat) : Node := { ch := c, freq := f, lp := false, left := 0, rp := false, right := 0 }

/-- R166: for every `c` of the list, in order, if `FREQ[c] ≠ 0` a leaf at the next free index `n`. Answers the
state and the number of leaves. -/
def makeLeaves : List Nat → Nat → State → State × Nat
  | [], n, s => (s, n)
  | c :: cs, n, s =>
    if s.freqAt c = 0 then makeLeaves cs n s
    else makeLeaves cs (n + 1) (s.setNode n (Node.leafOf c (s.freqAt c)))

/-- R169: `for i in 0 .. n-1 ascending: PQ.insert(i)`. -/
def insertAll : List Nat → State → State
  | [], s => s
  | i :: is, s => insertAll is (s.pqInsert i)

/-- The record of a merge, R169: T1 is the left child, T2 the right (R171). -/
def State.mergedNode (s : State) (t1 t2 : Nat) : Node where
  ch := s.params.sent
  freq := (s.nodeAt t1).freq + (s.nodeAt t2).freq
  lp := true
  left := t1
  rp := true
  right := t2

/-- R169, the loop `while |PQ| > 1`, writing at the next free index `m`; it runs at most `fuel` times, and `fuel` is
the number of leaves, one more than the loop needs. Answers the state and the next free index. -/
def mergeLoop : Nat → Nat → State → State × Nat
  | 0, m, s => (s, m)
  | fuel + 1, m, s =>
    if s.eng.pq.length ≤ 1 then (s, m)
    else
      match s.pqExtractMin with
      | none => (s, m)
      | some (t1, s1) =>
        match s1.pqExtractMin with
        | none => (s1, m)
        | some (t2, s2) => mergeLoop fuel (m + 1) ((s2.setNode m (s2.mergedNode t1 t2)).pqInsert m)

/-- R170: `TK <- tk; ROOT <- root; NCNT <- m; CTV <- 0`. -/
def State.publish (s : State) (tk : TreeKind) (root m : Nat) : State :=
  { s with eng := { s.eng with tk := tk, root := root, ncnt := m, ctv := false } }

/-- R167: no symbol. -/
def buildNone (s : State) : State := s.publish .empty 0 0

/-- R168: "the root's own value duplicates the leaf's character/frequency"; its only child, the left, is record 0. -/
def Node.onlyRoot (leaf : Node) : Node where
  ch := leaf.ch
  freq := leaf.freq
  lp := true
  left := 0
  rp := false
  right := 0

/-- R168: one symbol. -/
def buildOne (s : State) : State := (s.setNode 1 (s.nodeAt 0).onlyRoot).publish .tree 1 2

/-- R169: two or more symbols; the last tree left in PQ is the result. -/
def buildMany (n : Nat) (s : State) : State :=
  let r := mergeLoop n n (insertAll (List.range n) s)
  match r.1.pqExtractMin with
  | none => r.1
  | some (root, t) => t.publish .tree root r.2

/-- R165, the body. PQ is "Live only inside `BUILD`" (10_state.md R38) and starts empty (log 11). -/
def buildTree (s : State) : State :=
  let r := makeLeaves (List.range s.params.nsym) 0 { s with eng := { s.eng with pq := [] } }
  match r.2 with
  | 0 => buildNone r.1
  | 1 => buildOne r.1
  | n + 2 => buildMany (n + 2) r.1

/-- BUILD, R165: "`BUILD` always ends normally", and writes no result register. -/
def execBuild (s : State) : Result := .next ((buildTree s).complete [])

end Sys2Proof.Machine
end

