-- ==== Sys2Proof/Machine/Dispatch.lean ====
section
/-!
DEFINITION. One arm per command: the body of 40_control_and_access.md R130 (3) to (5), from a state in which the
command's CMD write has been accepted.
-/
namespace Sys2Proof.Machine

def exec (i : Instr) (s : State) : Host.Outcome State Fault Refusal :=
  match i with
  | .nop => Sys2Proof.Machine.execNop s
  | .clr => Sys2Proof.Machine.execClr s
  | .setf => Sys2Proof.Machine.execSetf s
  | .getf => Sys2Proof.Machine.execGetf s
  | .count => Sys2Proof.Machine.execCount s
  | .build => Sys2Proof.Machine.execBuild s
  | .gett => Sys2Proof.Machine.execGett s
  | .getn => Sys2Proof.Machine.execGetn s
  | .extract => Sys2Proof.Machine.execExtract s
  | .getc => Sys2Proof.Machine.execGetc s
  | .encode => Sys2Proof.Machine.execEncode s
  | .decode => Sys2Proof.Machine.execDecode s

end Sys2Proof.Machine
end

