-- ==== Sys2Proof/Machine/HostPort.lean ====
section
/-!
DEFINITION. The host port (10_state.md R21 to R23, R36; 60_exceptions.md R290 to R292), the reset input
(70_reset_and_hazards.md R310, R311) and the channels' ends (20_memory.md R78, R79): what each event of the
environment does, and how a command begins and goes on.
-/
namespace Sys2Proof.Machine

/-- R21: the value of host register `n`. -/
def State.hostReg (s : State) (n : Fin 8) : Word :=
  match n with
  | 0 => s.eng.x0
  | 1 => s.eng.x1
  | 2 => s.eng.x2
  | 3 => s.eng.x3
  | 4 => 0
  | 5 => s.eng.status
  | 6 => s.eng.finfo
  | 7 => 0

/-- RD(n), R292: always performed, and nothing changes but what the host has seen. -/
def State.hostRead (s : State) (n : Fin 8) : State := s.record (.read n (s.hostReg n))

/-- R290: "A host write `WR(n, v)` is *accepted* iff all of" (a), (b), (c). -/
def State.accepts (s : State) (n : Fin 8) (v : Word) : Bool :=
  n ≤ 4 && !s.eng.busy && (n != 4 || s.eng.err == .none || v == clrWord)

/-- R291: a write that is not accepted sets HERR if it went to register 0 to 4, and changes nothing else. -/
def State.refuseWrite (s : State) (n : Fin 8) : State :=
  if n ≤ 4 then { s with eng := { s.eng with herr := true } } else s

/-- R290: an accepted write to x0..x3 stores the value. -/
def State.storeX (s : State) (n : Fin 8) (v : Word) : State :=
  match n with
  | 0 => s.setX 0 v
  | 1 => s.setX 1 v
  | 2 => s.setX 2 v
  | 3 => s.setX 3 v
  | 4 => s
  | 5 => s
  | 6 => s
  | 7 => s

/-- 40_control_and_access.md R130 (2) to (5), 30_encoding.md R106: the accepted word decodes to a command, which
runs, or is illegal and raises E_OP with the whole word. -/
def beginCommand (w : Word) (s : State) : Result :=
  match decode w with
  | .ok i => exec i s
  | .error _ => raising s .op w

/-- WR(n, v), a command beginning at once. -/
def hostWrite (n : Fin 8) (v : Word) (s : State) : Result :=
  if s.accepts n v then
    if n = 4 then beginCommand v (s.accept v) else .next (s.storeX n v)
  else .next (s.refuseWrite n)

/-- WR(4, w), the command not yet begun when the next event comes (log 3). -/
def hostIssue (w : Word) (s : State) : State := if s.accepts 4 w then s.accept w else s.refuseWrite 4

/-- A session still open when reset comes is abandoned (R311). -/
def Feed.abandonIf {α : Type} (f : Feed α) (isOpen : Bool) : Feed α := if isOpen then f.endSession else f

/-- Reset, R310, R311: the engine as after reset; no release and no close is signalled. -/
def State.assertReset (s : State) : State where
  params := s.params
  eng := Engine.reset
  env := { s.env with
    si := s.env.si.abandonIf s.eng.siOpen
    bo := s.env.bo.abandonIf s.eng.boOpen
    bi := s.env.bi.abandonIf s.eng.biOpen
    so := s.env.so.abandonIf s.eng.soOpen
    trace := s.env.trace ++ [.reset] }

/-- The first micro-operation of the command `i`: when it is a stream command, its checks and the opening of its channels
(20_memory.md R81); when it touches no channel, all of it (00_scope.md R10). -/
def firstStep (i : Instr) (s : State) : Result :=
  match i with
  | .count => .next (countOpen s)
  | .encode => withCodeTable s (.next (encodeOpen s))
  | .decode => withTree s (.next (decodeOpen s))
  | .nop => exec .nop s
  | .clr => exec .clr s
  | .setf => exec .setf s
  | .getf => exec .getf s
  | .build => exec .build s
  | .gett => exec .gett s
  | .getn => exec .getn s
  | .extract => exec .extract s
  | .getc => exec .getc s

/-- What the engine does with the accepted word `w` in its first micro-operation. -/
def firstStepOf (w : Word) (s : State) : Result :=
  match decode w with
  | .ok i => firstStep i s
  | .error _ => raising s .op w

/-- One micro-operation of the engine, the first of a command included; none where it is idle or waits. -/
def engineTick (s : State) : Result :=
  match s.eng.point with
  | .start w => firstStepOf w s
  | _ => .next (s.microStep.getD s)

/-- The engine moves until its command ends or waits: a command that has been accepted begins (60_exceptions.md R301);
an idle engine "does nothing until the host writes `CMD`" (R312), and a waiting one "has no step" (R78). -/
def engineMove (s : State) : Result :=
  match s.eng.point with
  | .start w => beginCommand w s
  | _ => .next s.settle

/-- One event. -/
def handle (e : Event) (s : State) : Result :=
  match e with
  | .read n => .next (s.hostRead n)
  | .write n v => hostWrite n v s
  | .issue w => .next (hostIssue w s)
  | .reset => .next s.assertReset
  | .offerSi it => .next (s.offerSi it)
  | .offerBi it => .next (s.offerBi it)
  | .answerBo a => .next (s.answerBo a)
  | .answerSo a => .next (s.answerSo a)
  | .tick => engineTick s
  | .run => engineMove s

/-- The state with the events `es` to come. -/
def State.withEvents (s : State) (es : List Event) : State := { s with env := { s.env with events := es } }

/-- The next event happens; when none is to come the engine alone moves, as far as it can (log 4). -/
def moveOnce (s : State) : Result :=
  match s.env.events with
  | [] => engineMove s
  | e :: es => handle e (s.withEvents es)

/-- The state in which the engine will accept the word `w` next: no command in progress, and no fault unless `w` is
CLR's word (R290; log 16). -/
def State.readyFor (s : State) (w : Word) : State :=
  { s with eng := { s.eng with
      busy := false
      point := .idle
      err := if w = clrWord then s.eng.err else .none } }

end Sys2Proof.Machine
end

