-- ==== Sys2Proof/Machine/Step.lean ====
section
/-!
DEFINITION. One step. The engine fetches nothing (10_state.md R24): its next command is whatever the host writes to
CMD, so a step is the next event of the environment with everything the engine does because of it (log 2, 3).
-/
namespace Sys2Proof.Machine

/-- One step. -/
def step (s : State) : Host.Outcome State Fault Refusal := moveOnce s

/-- `s` with the host about to write the given word to CMD, and the engine ready to accept it (log 16). -/
def State.withFetchWord (s : State) (nbits w : Nat) : State :=
  let v : Word := BitVec.ofNat 64 (w % 2 ^ nbits)
  (s.readyFor v).withEvents (.write 4 v :: s.env.events)

end Sys2Proof.Machine
end

