-- ==== Sys2Proof/Machine/HostProgram.lean ====
section
/-!
DEFINITION. The textual host notation (30_encoding.md R113, R114) as the host accesses each line stands for. A line
of the notation is no command; nothing of the engine depends on this file.
-/
namespace Sys2Proof.Machine

/-- A line of a host program, the primitive lines of R113 first, the pseudo-instructions of R114 after them. -/
inductive HostLine where
  /-- `WR xN, v` -/
  | wr (n : Fin 4) (v : Word)
  /-- `RD xN`, `RD STATUS`, `RD FINFO` -/
  | rd (n : Fin 8)
  /-- `<MNEMONIC>` -/
  | command (i : Instr)
  /-- `CMD v` -/
  | cmd (v : Word)
  /-- `WAIT` -/
  | wait
  /-- `SETF c, n` -/
  | setf (c n : Word)
  /-- `GETF c` -/
  | getf (c : Word)
  /-- `GETN i` -/
  | getn (i : Word)
  /-- `GETC c, k` -/
  | getc (c k : Word)
  /-- `DECODE n` -/
  | decode (n : Word)
  /-- `LOADF c1:n1, c2:n2, ...` -/
  | loadf (entries : List (Word × Word))
deriving DecidableEq, Repr

/-- R114: `SETF c, n` is `WR x0, c` ; `WR x1, n` ; `SETF` ; `WAIT`. -/
def setfLines (c n : Word) : List HostLine := [.wr 0 c, .wr 1 n, .command .setf, .wait]

/-- R114, the column Expansion: the primitive lines a line stands for. -/
def HostLine.expand : HostLine → List HostLine
  | .wr n v => [.wr n v]
  | .rd n => [.rd n]
  | .command i => [.command i]
  | .cmd v => [.cmd v]
  | .wait => [.wait]
  | .setf c n => setfLines c n
  | .getf c => [.wr 0 c, .command .getf, .wait, .rd 1]
  | .getn i => [.wr 0 i, .command .getn, .wait, .rd 1, .rd 2]
  | .getc c k => [.wr 0 c, .wr 1 k, .command .getc, .wait, .rd 2, .rd 3]
  | .decode n => [.wr 0 n, .command .decode, .wait]
  | .loadf es => es.flatMap fun e => setfLines e.1 e.2

/-- R113, the column Meaning: the host access of a primitive line. A `WAIT` is the one poll that finds DONE
(log 15); a pseudo-instruction has no access of its own. -/
def HostLine.access : HostLine → List Event
  | .wr n v => [.write ⟨n.val, by omega⟩ v]
  | .rd n => [.read n]
  | .command i => [.write 4 (Sys2Proof.encode i)]
  | .cmd v => [.write 4 v]
  | .wait => [.read 5]
  | .setf _ _ => []
  | .getf _ => []
  | .getn _ => []
  | .getc _ _ => []
  | .decode _ => []
  | .loadf _ => []

/-- The host accesses of a host program, in order (R113: "one host action per line, executed in order"). -/
def hostEvents (lines : List HostLine) : List Event :=
  (lines.flatMap HostLine.expand).flatMap HostLine.access

end Sys2Proof.Machine
end

