-- ==== Sys2Proof/Safety.lean ====
section
/-!
DEFINITION. The terms the statements use: what the spec says of a built tree (10_state.md R31), the recursive walk
(43_code_table_extractor.md R191), what a trace shows of a session, how bits lie in bytes (20_memory.md R75), and
the invariants of the state.
-/
namespace Sys2Proof.Machine

/-! ### Ends of a command -/

/-- The engine `e` once its command has ended: BUSY 0, DONE 1 (60_exceptions.md R282, R283), all else as in `e`. -/
def Engine.ended (e : Engine) : Engine := { e with busy := false, done := true, point := .idle }

/-- The engine `e` once its command has ended by `raise c(info)` (R283), all else as in `e`. -/
def Engine.faulted (e : Engine) (c : ErrCode) (info : Word) : Engine :=
  { e with err := c, finfo := info, busy := false, done := true, point := .idle }

/-- The bits the packer holds (20_memory.md R75, 44_encoder.md R218): the upper NACC positions of ACC, first to last. -/
def Engine.heldBits (e : Engine) : List Bool := (List.range e.nacc.toNat).map fun k => e.acc.getLsbD (7 - k)

/-- The positions of ACC below the bits placed are 0 (R218). -/
def Engine.accClean (e : Engine) : Prop := ∀ k, e.nacc.toNat ≤ k → k < 8 → e.acc.getLsbD (7 - k) = false

/-! ### Reading a trace -/

/-- The bytes the sink of BO took, in order. -/
def bytesPut (tr : List Obs) : List Byte :=
  tr.filterMap fun o => match o with
    | .putBo v .ok => some v
    | _ => none

/-- Every byte put on BO with its answer, in order. -/
def putsBo (tr : List Obs) : List (Byte × Answer) :=
  tr.filterMap fun o => match o with
    | .putBo v a => some (v, a)
    | _ => none

/-- The symbols the sink of SO took, in order. -/
def symbolsPut (tr : List Obs) : List Nat :=
  tr.filterMap fun o => match o with
    | .putSo v .ok => some v
    | _ => none

/-- The items taken from SI, in order. -/
def takenSi (tr : List Obs) : List (Item Nat) :=
  tr.filterMap fun o => match o with
    | .tookSi it => some it
    | _ => none

/-- The items taken from BI, in order. -/
def takenBi (tr : List Obs) : List (Item Byte) :=
  tr.filterMap fun o => match o with
    | .tookBi it => some it
    | _ => none

/-! ### Bits in bytes, R75 -/

/-- The bits of a byte stream in the order they are read: bit `k` of the stream is bit `7 − (k mod 8)` of byte
`k div 8`. -/
def streamBits (bytes : List Byte) : List Bool :=
  bytes.flatMap fun v => (List.range 8).map fun k => v.getLsbD (7 - k)

/-- `bytes` carry exactly `bits` and zero padding (30_encoding.md R111, 44_encoder.md R225, R226). -/
def Carries (bytes : List Byte) (bits : List Bool) : Prop :=
  bytes.length = (bits.length + 7) / 8 ∧
    streamBits bytes = bits ++ List.replicate (8 * bytes.length - bits.length) false

/-! ### The tree -/

/-- The present symbols (10_state.md R25), ascending: the leaves BUILD makes (42_tree_builder.md R166). -/
def State.present (s : State) : List Nat := (List.range s.params.nsym).filter fun c => s.freqAt c != 0

/-- The present children of a record, left first. -/
def Node.children (n : Node) : List Nat :=
  (if n.lp then [n.left] else []) ++ (if n.rp then [n.right] else [])

/-- The node reached from `i` by a path (00_scope.md R12), if every child on the way is present. -/
def State.follow (s : State) (i : Nat) : List Bool → Option Nat
  | [] => some i
  | b :: bs =>
    if ((s.nodeAt i).child b).1 then s.follow ((s.nodeAt i).child b).2 bs else none

/-- A leaf record, R31 (b). -/
abbrev State.leafOk (s : State) (i : Nat) : Prop :=
  (s.nodeAt i).lp = false ∧ (s.nodeAt i).rp = false ∧ (s.nodeAt i).left = 0 ∧ (s.nodeAt i).right = 0 ∧
    (s.nodeAt i).ch < s.params.nsym ∧ 1 ≤ (s.nodeAt i).freq ∧ (s.nodeAt i).freq < 2 ^ s.params.freqw

/-- A synthetic record, R31 (f), (g) and 42_tree_builder.md R169, R173. -/
abbrev State.mergeOk (s : State) (i : Nat) : Prop :=
  (s.nodeAt i).lp = true ∧ (s.nodeAt i).rp = true ∧ (s.nodeAt i).left < i ∧ (s.nodeAt i).right < i ∧
    (s.nodeAt i).ch = s.params.sent ∧
    (s.nodeAt i).freq = (s.nodeAt (s.nodeAt i).left).freq + (s.nodeAt (s.nodeAt i).right).freq

/-- The single-symbol root, R31 (e) and 42_tree_builder.md R168. -/
abbrev State.onlyRootOk (s : State) : Prop :=
  s.eng.ncnt = 2 ∧ s.nodeAt 1 = (s.nodeAt 0).onlyRoot ∧ s.leafOk 0

/-- The leaves of the tree. -/
def State.leaves (s : State) : List Nat := (List.range s.eng.ncnt).filter fun i => (s.nodeAt i).isLeaf

/-- R31 of the tree in NODE below ROOT: the root is the greatest index in use and no leaf; every record is a leaf or
a merge, or the tree is the single-symbol one; every index below the root is the child of exactly one record; no
two leaves have the same character. -/
abbrev State.treeOk (s : State) : Prop :=
  s.eng.root + 1 = s.eng.ncnt ∧ s.eng.ncnt ≤ s.params.nnode ∧ (s.nodeAt s.eng.root).isLeaf = false ∧
    (s.onlyRootOk ∨ ∀ i, i < s.eng.ncnt → s.leafOk i ∨ s.mergeOk i) ∧
    ((List.range s.eng.ncnt).flatMap fun i => (s.nodeAt i).children).Perm (List.range s.eng.root) ∧
    (s.leaves.map fun i => (s.nodeAt i).ch).Nodup

/-- R29, R30: with no tree, and with the empty tree, ROOT and NCNT are 0; with a tree, R31. -/
abbrev State.TreeInv (s : State) : Prop :=
  match s.eng.tk with
  | .none => s.eng.root = 0 ∧ s.eng.ncnt = 0
  | .empty => s.eng.root = 0 ∧ s.eng.ncnt = 0
  | .tree => s.treeOk

/-! ### Between two channel operations of ENCODE and DECODE -/

/-- 44_encoder.md R210, R216 to R222: the engine goes from `e`, whose packer holds the bits `held`, to `e'` by appending the
bits `code` of a symbol until they are all appended (the symbol is counted and the next item is to be taken), or a byte
is full (it is to be put), or NB cannot count one more (the command is to end with E_OVF, a partial byte first). `k`
bits can be counted; `room` fill the byte. -/
def Engine.Appends (e e' : Engine) (held code : List Bool) : Prop :=
  let k := 2 ^ 64 - 1 - e.nb.toNat
  let room := 8 - held.length
  (code.length < room → code.length ≤ k →
    e' = { e with
      acc := e'.acc
      nacc := BitVec.ofNat 3 (held.length + code.length)
      nb := e.nb + BitVec.ofNat 64 code.length
      ns := e.ns + 1
      point := .encGet } ∧
    e'.heldBits = held ++ code ∧ e'.accClean) ∧
  (room ≤ code.length → room ≤ k →
    e' = { e with
      acc := e'.acc
      nacc := 7
      nb := e.nb + BitVec.ofNat 64 room
      point := .encPut (code.drop room) } ∧
    streamBits [e'.acc] = held ++ code.take room) ∧
  (k < code.length → k < room →
    e' = { e with
      acc := e'.acc
      nacc := BitVec.ofNat 3 (held.length + k)
      nb := BitVec.allOnes 64
      point := if held.length + k = 0 then .encRelease (.fault .ovf 0) else .encAbort .ovf 0 } ∧
    e'.heldBits = held ++ code.take k ∧ e'.accClean)

/-- The bits the unpacker holds and has not delivered (20_memory.md R75, 45_decoder.md R247): the upper NSH positions of
SH, first to last; past the eighth, the zeros that have been shifted in. -/
def Engine.unreadBits (e : Engine) : List Bool :=
  (List.range e.nsh.toNat).map fun k => decide (k < 8) && e.sh.getLsbD (7 - k)

/-- The engine `e'` is that of `s` after `n` of the bits `bits` have been read and the cursor has come to `i`; the
micro-operation at `p` is next. -/
def State.WalkedTo (s : State) (e' : Engine) (bits : List Bool) (n i : Nat) (p : Point) : Prop :=
  e' = { s.eng with
    cur := i
    sh := e'.sh
    nsh := BitVec.ofNat 4 (bits.length - n)
    nb := s.eng.nb + BitVec.ofNat 64 n
    point := p } ∧
  e'.unreadBits = bits.drop n

/-- 45_decoder.md R240, R244 to R251: the engine goes from `s`, the bits `bits` in its unpacker, to `e'` by walking until
the bits or the limit are exhausted, a leaf is reached, or a bit has no child to go to. `avail` are the bits before the
limit. -/
def State.Walks (s : State) (e' : Engine) (bits : List Bool) : Prop :=
  let avail := bits.take (s.eng.lim - s.eng.nb).toNat
  (s.eng.tk = .empty → avail ≠ [] → s.WalkedTo e' bits 1 s.eng.cur (.decRelease (.fault .empty 0))) ∧
  (∀ i, s.follow s.eng.cur avail = some i → (avail = [] ∨ (s.eng.tk ≠ .empty ∧ (s.nodeAt i).isLeaf = false)) →
    s.WalkedTo e' bits avail.length i
      (if s.eng.nb + BitVec.ofNat 64 avail.length = s.eng.lim then
        .decRelease
          (if s.eng.tk = .tree ∧ i ≠ s.eng.root then .fault .trunc (BitVec.ofNat 64 i) else .done)
      else .decGet)) ∧
  (∀ p i, p ≠ [] → p <+: avail → s.eng.tk ≠ .empty → s.follow s.eng.cur p = some i → (s.nodeAt i).isLeaf = true →
    s.WalkedTo e' bits p.length i .decPut) ∧
  ∀ p j b, p ++ [b] <+: avail → s.eng.tk ≠ .empty → s.follow s.eng.cur p = some j →
    (p = [] ∨ (s.nodeAt j).isLeaf = false) → ((s.nodeAt j).child b).1 = false →
      s.WalkedTo e' bits (p.length + 1) j
        (.decRelease (.fault .noChild ((if b then 0x100000000 else 0) ||| BitVec.ofNat 64 j)))

/-! ### The recursive walk, R191 -/

/-- The entries `walk(i, p)` writes, in order, descending at most `depth` levels. -/
def State.walkEntries (s : State) : Nat → Nat → List Bool → List (Nat × List Bool)
  | 0, _, _ => []
  | depth + 1, i, p =>
    if (s.nodeAt i).isLeaf then [((s.nodeAt i).ch, p)]
    else
      (if (s.nodeAt i).lp then s.walkEntries depth (s.nodeAt i).left (p ++ [false]) else []) ++
        (if (s.nodeAt i).rp then s.walkEntries depth (s.nodeAt i).right (p ++ [true]) else [])

/-- The table after these entries have been written over an empty one (R192). -/
def tableOfEntries (es : List (Nat × List Bool)) : Table CodeEntry :=
  es.foldl (fun t e => writeCell CodeEntry.zero t e.1 { valid := true, path := e.2 }) []

/-- The table of `walk(ROOT, "")`: a child's index is below its parent's (42_tree_builder.md R173), so ROOT + 1 levels
are enough. -/
def State.walkTable (s : State) : Table CodeEntry :=
  tableOfEntries (s.walkEntries (s.eng.root + 1) s.eng.root [])

/-- R33: `CTV` is 1 only when CODE is the table of the tree (43_code_table_extractor.md R190, R193). -/
abbrev State.CodeInv (s : State) : Prop :=
  s.eng.ctv = true →
    match s.eng.tk with
    | .none => False
    | .empty => s.eng.code = []
    | .tree => s.eng.code = s.walkTable

/-! ### The tables' form -/

/-- FREQ in its canonical form, every entry below 2^FREQW (R25). -/
abbrev State.FreqInv (s : State) : Prop :=
  tableWf 0 s.params.nsym s.eng.freq = true ∧ ∀ c ∈ s.eng.freq, c.2 < 2 ^ s.params.freqw

/-- The fields of a record of NODE fit their widths (R27). -/
abbrev Node.fits (p : Params) (n : Node) : Prop :=
  n.ch ≤ p.sent ∧ n.freq < 2 ^ p.aggw ∧ n.left < 2 ^ p.idxw ∧ n.right < 2 ^ p.idxw

/-- NODE in its canonical form (R27). -/
abbrev State.NodeInv (s : State) : Prop :=
  tableWf Node.zero s.params.nnode s.eng.node = true ∧ ∀ c ∈ s.eng.node, c.2.fits s.params

/-- CODE in its canonical form, every path at most MAXLEN long and every listed entry valid with a path of at least
one bit (R32, 43_code_table_extractor.md R200). -/
abbrev State.CodeTableInv (s : State) : Prop :=
  tableWf CodeEntry.zero s.params.nsym s.eng.code = true ∧
    ∀ c ∈ s.eng.code, c.2.valid = true ∧ 1 ≤ c.2.path.length ∧ c.2.path.length ≤ s.params.maxlen

/-! ### The control state -/

/-- The fault of an ending. -/
def Ending.fault? : Ending → Option ErrCode
  | .done => none
  | .fault e _ => some e

/-- The sessions that are open at each point (R43): those the command in progress has opened and not yet ended. -/
def Point.sessions : Point → Bool × Bool × Bool × Bool
  | .idle => (false, false, false, false)
  | .start _ => (false, false, false, false)
  | .countGet => (true, false, false, false)
  | .countRelease _ => (true, false, false, false)
  | .countFinish _ => (false, false, false, false)
  | .encGet => (true, true, false, false)
  | .encPut _ => (true, true, false, false)
  | .encFlush => (true, true, false, false)
  | .encAbort _ _ => (true, true, false, false)
  | .encRelease _ => (true, true, false, false)
  | .encClose _ => (false, true, false, false)
  | .encFinish _ => (false, false, false, false)
  | .decGet => (false, false, true, true)
  | .decPut => (false, false, true, true)
  | .decRelease _ => (false, false, true, true)
  | .decClose _ => (false, false, false, true)
  | .decFinish _ => (false, false, false, false)

/-- The opcode OPR holds at each point of a command in progress (R37). -/
def Point.opcode : Point → Option (BitVec 8)
  | .idle => none
  | .start w => some (opField w)
  | .countGet => some Instr.count.opcode
  | .countRelease _ => some Instr.count.opcode
  | .countFinish _ => some Instr.count.opcode
  | .encGet => some Instr.encode.opcode
  | .encPut _ => some Instr.encode.opcode
  | .encFlush => some Instr.encode.opcode
  | .encAbort _ _ => some Instr.encode.opcode
  | .encRelease _ => some Instr.encode.opcode
  | .encClose _ => some Instr.encode.opcode
  | .encFinish _ => some Instr.encode.opcode
  | .decGet => some Instr.decode.opcode
  | .decPut => some Instr.decode.opcode
  | .decRelease _ => some Instr.decode.opcode
  | .decClose _ => some Instr.decode.opcode
  | .decFinish _ => some Instr.decode.opcode

/-- The fault a command in progress is about to raise, if its channels are being ended for one. -/
def Point.pendingFault : Point → Option ErrCode
  | .idle => none
  | .start _ => none
  | .countGet => none
  | .countRelease f => f.fault?
  | .countFinish f => f.fault?
  | .encGet => none
  | .encPut _ => none
  | .encFlush => none
  | .encAbort e _ => some e
  | .encRelease f => f.fault?
  | .encClose f => f.fault?
  | .encFinish f => f.fault?
  | .decGet => none
  | .decPut => none
  | .decRelease f => f.fault?
  | .decClose f => f.fault?
  | .decFinish f => f.fault?

/-- SI.open, BO.open, BI.open, SO.open. -/
def Engine.sessions (e : Engine) : Bool × Bool × Bool × Bool := (e.siOpen, e.boOpen, e.biOpen, e.soOpen)

/-- The flags and the hidden state between two steps: BUSY and DONE are never both 1 (R34); BUSY is 1 exactly while
a command is in progress; a command in progress has no fault, but for a CLR not yet begun (60_exceptions.md R286,
R290, R300), and a fault it is about to raise is one; OPR holds its opcode (R37); the open sessions are those it has
opened and not yet ended (R43); PQ, WSTK and PATH are empty (R38, R39). -/
def State.ControlInv (s : State) : Prop :=
  (s.eng.busy = true → s.eng.done = false) ∧
    (s.eng.busy = false ↔ s.eng.point = .idle) ∧
    (s.eng.busy = true → s.eng.err = .none ∨ s.eng.point = .start clrWord) ∧
    s.eng.point.pendingFault ≠ some .none ∧
    (∀ op ∈ s.eng.point.opcode, s.eng.opr = op) ∧
    s.eng.sessions = s.eng.point.sessions ∧
    s.eng.pq = [] ∧ s.eng.wstk = [] ∧ s.eng.path = []

/-- The invariant of every reachable state. -/
structure State.Inv (s : State) : Prop where
  params    : s.params.wf = true
  control   : s.ControlInv
  freq      : s.FreqInv
  node      : s.NodeInv
  tree      : s.TreeInv
  codeTable : s.CodeTableInv
  code      : s.CodeInv

end Sys2Proof.Machine
end

