-- ==== Sys2Proof/Certificates/Slice0/Obligations.lean ====
section
/-!
DEFINITION. The statements for the provers. A quoted rule is a rule of spec/; a frame is said by an equation: `t.eng`
is `s.eng` with exactly the named fields changed, and `t.env` likewise, so that every other register, flag, table,
hidden register and channel is as it was.
-/

open Sys2Proof Sys2Proof.Machine

/-! ### The command word -/

/-- R103, R104, R105: the words of the table, and words that are none. -/
def Obligations.CommandWordsDecode : Prop :=
  decode 0x0000000000000000 = .ok .nop ∧ decode 0x0000000000000001 = .ok .clr ∧
    decode 0x0000000000000002 = .ok .setf ∧ decode 0x0000000000000003 = .ok .getf ∧
    decode 0x0000000000000004 = .ok .count ∧ decode 0x0000000000000005 = .ok .build ∧
    decode 0x0000000000000006 = .ok .gett ∧ decode 0x0000000000000007 = .ok .getn ∧
    decode 0x0000000000000008 = .ok .extract ∧ decode 0x0000000000000009 = .ok .getc ∧
    decode 0x000000000000000A = .ok .encode ∧ decode 0x000000000000000B = .ok .decode ∧
    decode 0x000000000000000C = .error .reservedOpcode ∧ decode 0x00000000000000FF = .error .reservedOpcode ∧
    decode 0x0000000000000101 = .error .reservedBits ∧ decode 0x8000000000000005 = .error .reservedBits

/-- Decoding and encoding agree both ways: a word is a command exactly when it is that command's word. -/
def Obligations.DecodeAndEncodeAgree : Prop :=
  ∀ (w : Word) (i : Instr), decode w = .ok i ↔ w = encode i

/-- R102, R104, R105: every word is exactly one command or illegal, and which illegality it is. -/
def Obligations.EveryWordIsACommandOrIllegal : Prop :=
  ∀ w : Word,
    (decode w = .error .reservedBits ↔ w.toNat / 256 ≠ 0) ∧
      (decode w = .error .reservedOpcode ↔ w.toNat / 256 = 0 ∧ 0x0C ≤ w.toNat % 256) ∧
      ((∃ i, decode w = .ok i) ↔ w.toNat ≤ 0x0B)

/-! ### One step -/

/-- R23, R130: an accepted write to CMD latches OPR, sets BUSY, clears DONE, and the command it names runs. -/
def Obligations.StepRunsTheDecodedCommand : Prop :=
  ∀ (s : State) (w : Word) (es : List Event) (i : Instr),
    s.env.events = .write 4 w :: es → s.eng.busy = false → (s.eng.err = .none ∨ w = clrWord) →
      decode w = .ok i →
        step s = exec i
          { s with
            eng := { s.eng with opr := w.extractLsb' 0 8, busy := true, done := false, point := .start w }
            env := { s.env with events := es } }

/-- R280: an accepted illegal word faults with E_OP and the whole word, and touches nothing else. -/
def Obligations.IllegalWordRaisesEOp : Prop :=
  ∀ (s : State) (w : Word) (es : List Event),
    s.env.events = .write 4 w :: es → s.eng.busy = false → s.eng.err = .none →
      (w.toNat / 256 ≠ 0 ∨ 0x0C ≤ w.toNat % 256) →
        step s = .next
          { s with
            eng := { s.eng with opr := w.extractLsb' 0 8 }.faulted .op w
            env := { s.env with events := es } }

/-- R290, R291: a write that is not accepted sets HERR when it went to register 0 to 4, and changes nothing else. -/
def Obligations.RefusedWriteOnlySetsHerr : Prop :=
  ∀ (s : State) (n : Fin 8) (v : Word) (es : List Event),
    s.env.events = .write n v :: es →
      (5 ≤ n.val ∨ s.eng.busy = true ∨ (n.val = 4 ∧ s.eng.err ≠ .none ∧ v ≠ 0x0000000000000001)) →
        step s = .next
          { s with
            eng := { s.eng with herr := s.eng.herr || decide (n.val ≤ 4) }
            env := { s.env with events := es } }

/-- R290: an accepted write to x0..x3 stores the value there and nowhere else, also while ERR ≠ 0. -/
def Obligations.AcceptedWriteStoresTheOperand : Prop :=
  ∀ (s : State) (n : Fin 4) (v : Word) (es : List Event),
    s.env.events = .write ⟨n.val, by omega⟩ v :: es → s.eng.busy = false →
      ∃ t, step s = .next t ∧ t.params = s.params ∧ t.env = { s.env with events := es } ∧
        t.eng = { s.eng with x0 := t.eng.x0, x1 := t.eng.x1, x2 := t.eng.x2, x3 := t.eng.x3 } ∧
        ∀ m : Fin 4, t.x m = if m = n then v else s.x m

/-- R21, R292, R74: a host read returns the register's value and changes nothing but what the host has seen. -/
def Obligations.HostReadChangesNothing : Prop :=
  ∀ (s : State) (n : Fin 8) (es : List Event), s.env.events = .read n :: es →
    step s = .next
      { s with env := { s.env with
        events := es
        trace := s.env.trace ++ [Obs.read n (match n with
          | 0 => s.eng.x0
          | 1 => s.eng.x1
          | 2 => s.eng.x2
          | 3 => s.eng.x3
          | 4 => 0
          | 5 => s.eng.status
          | 6 => s.eng.finfo
          | 7 => 0)] } }

/-- R34, R270, R30: where each field of STATUS stands, the codes of its ERR and TK fields, and that the reserved bits read
0. -/
def Obligations.StatusFieldsStandWhereR34Says : Prop :=
  ∀ e : Engine,
    e.status.getLsbD 0 = e.busy ∧ e.status.getLsbD 1 = e.done ∧ e.status.getLsbD 2 = e.herr ∧
      e.status.getLsbD 3 = false ∧
      e.status.extractLsb' 4 4 = (match e.err with
        | .none => 0
        | .io => 1
        | .miss => 2
        | .trunc => 3
        | .noChild => 4
        | .empty => 5
        | .noTree => 6
        | .noTable => 7
        | .arg => 8
        | .ovf => 9
        | .op => 10) ∧
      e.status.extractLsb' 8 2 = (match e.tk with
        | .none => 0
        | .empty => 1
        | .tree => 2) ∧
      e.status.getLsbD 10 = e.ctv ∧ ∀ k, 11 ≤ k → e.status.getLsbD k = false

/-- R310, R311: reset puts the whole engine at its reset values, whatever it was doing; the sessions that were open are
over with no release and no close. What the feeds hold afterwards (of an open session: the next session's list; of a
closed one: what they held) is the model's choice, notes/assumptions/12.md and 13.md. -/
def Obligations.ResetAbandonsTheCommand : Prop :=
  ∀ (s : State) (es : List Event), s.env.events = .reset :: es →
    ∃ t, step s = .next t ∧ t.params = s.params ∧ t.eng = Engine.reset ∧ t.env.events = es ∧
      t.env.trace = s.env.trace ++ [Obs.reset] ∧
      (s.eng.siOpen = false → t.env.si = s.env.si) ∧ (s.eng.siOpen = true → t.env.si.now = s.env.si.later.headD []) ∧
      (s.eng.biOpen = false → t.env.bi = s.env.bi) ∧ (s.eng.biOpen = true → t.env.bi.now = s.env.bi.later.headD []) ∧
      (s.eng.boOpen = false → t.env.bo = s.env.bo) ∧ (s.eng.boOpen = true → t.env.bo.now = s.env.bo.later.headD []) ∧
      (s.eng.soOpen = false → t.env.so = s.env.so) ∧ (s.eng.soOpen = true → t.env.so.now = s.env.so.later.headD [])

/-- R46: the state after reset; and CLR produces exactly it, but for DONE. -/
def Obligations.ResetLeavesTheStatedValues : Prop :=
  (∀ i, State.reset.x i = 0) ∧ State.reset.hostReg 4 = 0 ∧ State.reset.eng.status = 0 ∧ State.reset.eng.finfo = 0 ∧
    State.reset.eng.busy = false ∧ State.reset.eng.done = false ∧ State.reset.eng.herr = false ∧
    State.reset.eng.err = .none ∧ State.reset.eng.tk = .none ∧ State.reset.eng.root = 0 ∧
    State.reset.eng.ncnt = 0 ∧ State.reset.eng.ctv = false ∧ (∀ c, State.reset.freqAt c = 0) ∧
    (∀ i, State.reset.nodeAt i =
      { ch := 0, freq := 0, lp := false, left := 0, rp := false, right := 0 }) ∧
    (∀ c, (State.reset.codeAt c).valid = false ∧ (State.reset.codeAt c).len = 0 ∧
      ∀ k, (State.reset.codeAt c).bit k = false) ∧
    State.reset.eng.opr = 0 ∧ State.reset.eng.pq = [] ∧ State.reset.eng.wstk = [] ∧ State.reset.eng.path = [] ∧
    State.reset.eng.acc = 0 ∧ State.reset.eng.nacc = 0 ∧ State.reset.eng.sh = 0 ∧ State.reset.eng.nsh = 0 ∧
    State.reset.eng.lim = 0 ∧ State.reset.eng.cur = 0 ∧ State.reset.eng.nb = 0 ∧ State.reset.eng.nby = 0 ∧
    State.reset.eng.ns = 0 ∧ State.reset.eng.siOpen = false ∧ State.reset.eng.boOpen = false ∧
    State.reset.eng.biOpen = false ∧ State.reset.eng.soOpen = false ∧
    ∀ s : State, exec .clr s = .next { s with eng := { State.reset.eng with done := true } }

/-- Log 3, log 4 (the model's choice): when no event is to come the engine alone moves: a command accepted and not yet
begun begins, an illegal word raises E_OP, a command in progress runs on until it ends or waits, and an idle or waiting
engine stays as it is. A word that is issued and accepted is latched and not begun. -/
def Obligations.WithNoEventTheEngineAloneMoves : Prop :=
  (∀ s : State, s.env.events = [] →
    (∀ w i, s.eng.point = .start w → decode w = .ok i → step s = exec i s) ∧
      (∀ w, s.eng.point = .start w → (w.toNat / 256 ≠ 0 ∨ 0x0C ≤ w.toNat % 256) →
        step s = .next { s with eng := s.eng.faulted .op w }) ∧
      ((∀ w, s.eng.point ≠ .start w) → s.microStep = none → step s = .next s) ∧
      ((∀ w, s.eng.point ≠ .start w) → step s = .next s.settle ∧ s.settle.microStep = none)) ∧
    ∀ (s : State) (w : Word) (es : List Event), s.env.events = .issue w :: es →
      (s.eng.busy = false → (s.eng.err = .none ∨ w = clrWord) →
        step s = .next
          { s with
            eng := { s.eng with opr := w.extractLsb' 0 8, busy := true, done := false, point := .start w }
            env := { s.env with events := es } }) ∧
        (s.eng.busy = true ∨ (s.eng.err ≠ .none ∧ w ≠ clrWord) →
          step s = .next { s with eng := { s.eng with herr := true }, env := { s.env with events := es } })

/-- R10, R78 to R82, R282, R283, log 3: what one step of the engine is, at every point of every command, and of every item
and answer. It changes nothing where the engine is idle or nothing is supplied to its `get` or `put`; it crosses the
boundary at most once; a command's first step opens its channels (R81) or raises; a `get` or `put` goes on to the next
channel operation (`Engine.Appends`, `State.Walks`), and each release, each close and the end is a step of its own. -/
def Obligations.TickPerformsOneMicroOperation : Prop :=
  ∀ (s t : State) (es : List Event), s.env.events = .tick :: es → t = { s with env := { s.env with events := es } } →
    -- no step, and one crossing at most
    (s.eng.point = .idle ∨ ((s.eng.point = .countGet ∨ s.eng.point = .encGet) ∧ s.env.si.now = []) ∨
        (((∃ r, s.eng.point = .encPut r) ∨ s.eng.point = .encFlush ∨ ∃ e i, s.eng.point = .encAbort e i) ∧
          s.env.bo.now = []) ∨
        (s.eng.point = .decGet ∧ s.env.bi.now = []) ∨ (s.eng.point = .decPut ∧ s.env.so.now = []) →
      step s = .next t) ∧
    (∀ u, step s = .next u → u.env.trace = s.env.trace ∨ ∃ o, u.env.trace = s.env.trace ++ [o]) ∧
    -- the first step of a command
    (∀ w, s.eng.point = .start w → (w.toNat / 256 ≠ 0 ∨ 0x0C ≤ w.toNat % 256) →
      step s = .next { t with eng := s.eng.faulted .op w }) ∧
    (∀ i, s.eng.point = .start (encode i) → i ≠ .count → i ≠ .encode → i ≠ .decode → step s = exec i t) ∧
    (s.eng.point = .start (encode .count) →
      step s = .next { t with eng := { s.eng with siOpen := true, freq := [], ns := 0, point := .countGet } }) ∧
    (s.eng.point = .start (encode .encode) →
      step s = .next
        { t with eng :=
          if s.eng.ctv then
            { s.eng with siOpen := true, boOpen := true, acc := 0, nacc := 0, nb := 0, nby := 0, ns := 0,
                         point := .encGet }
          else s.eng.faulted .noTable 0 }) ∧
    (s.eng.point = .start (encode .decode) →
      step s = .next
        { t with eng :=
          if s.eng.tk = .none then s.eng.faulted .noTree 0
          else
            { s.eng with biOpen := true, soOpen := true, lim := s.eng.x0, cur := s.eng.root, sh := 0, nsh := 0,
                         nb := 0, nby := 0, ns := 0,
                         point := if s.eng.x0 = 0 then .decRelease .done else .decGet } }) ∧
    -- COUNT takes an item
    (∀ rest, s.eng.point = .countGet → s.env.si.now = .eos :: rest →
      step s = .next ((t.tookSi .eos rest).goTo (.countRelease .done))) ∧
    (∀ rest, s.eng.point = .countGet → s.env.si.now = .err :: rest →
      step s = .next ((t.tookSi .err rest).goTo (.countRelease (.fault .io 0)))) ∧
    (∀ c rest, s.eng.point = .countGet → s.env.si.now = .data c :: rest → c < 2 ^ s.params.symw →
      (s.freqAt c = 2 ^ s.params.freqw - 1 →
        step s = .next ((t.tookSi (.data c) rest).goTo (.countRelease (.fault .ovf (BitVec.ofNat 64 c))))) ∧
      (s.freqAt c ≠ 2 ^ s.params.freqw - 1 →
        ∃ u, step s = .next u ∧ u.params = s.params ∧ u.env = (t.tookSi (.data c) rest).env ∧
          u.eng = { s.eng with freq := u.eng.freq, ns := s.eng.ns + 1 } ∧
          ∀ d, u.freqAt d = if d = c then s.freqAt c + 1 else s.freqAt d)) ∧
    -- ENCODE takes an item
    (∀ rest, s.eng.point = .encGet → s.env.si.now = .eos :: rest →
      step s = .next ((t.tookSi .eos rest).goTo (if s.eng.nacc = 0 then .encRelease .done else .encFlush))) ∧
    (∀ rest, s.eng.point = .encGet → s.env.si.now = .err :: rest →
      step s = .next
        ((t.tookSi .err rest).goTo (if s.eng.nacc = 0 then .encRelease (.fault .io 0) else .encAbort .io 0))) ∧
    (∀ c rest, s.eng.point = .encGet → s.env.si.now = .data c :: rest → c < 2 ^ s.params.symw →
      ((s.codeAt c).valid = false →
        step s = .next
          ((t.tookSi (.data c) rest).goTo
            (if s.eng.nacc = 0 then .encRelease (.fault .miss (BitVec.ofNat 64 c))
            else .encAbort .miss (BitVec.ofNat 64 c)))) ∧
      ((s.codeAt c).valid = true → s.eng.accClean →
        ∃ u, step s = .next u ∧ u.params = s.params ∧ u.env = (t.tookSi (.data c) rest).env ∧
          s.eng.Appends u.eng s.eng.heldBits (s.codeAt c).path)) ∧
    -- ENCODE's puts are answered
    (∀ rest a more, s.eng.point = .encPut rest → s.env.bo.now = a :: more →
      ∃ u, step s = .next u ∧ u.params = s.params ∧
        u.env = { s.env with
          events := es
          bo := { s.env.bo with now := more }
          trace := s.env.trace ++ [Obs.putBo s.eng.acc a] } ∧
        (a = .fail → u.eng = { s.eng with point := .encRelease (.fault .io 1) }) ∧
        (a = .ok → { s.eng with acc := 0, nacc := 0, nby := s.eng.nby + 1 }.Appends u.eng [] rest)) ∧
    (∀ a more, s.eng.point = .encFlush → s.env.bo.now = a :: more →
      step s = .next
        { t with
          eng := match a with
            | .ok => { s.eng with acc := 0, nacc := 0, nby := s.eng.nby + 1, point := .encRelease .done }
            | .fail => { s.eng with point := .encRelease (.fault .io 1) }
          env := { s.env with
            events := es
            bo := { s.env.bo with now := more }
            trace := s.env.trace ++ [Obs.putBo s.eng.acc a] } }) ∧
    (∀ e info a more, s.eng.point = .encAbort e info → s.env.bo.now = a :: more →
      step s = .next
        { t with
          eng := { s.eng with acc := 0, nacc := 0, point := .encRelease (.fault e info) }
          env := { s.env with
            events := es
            bo := { s.env.bo with now := more }
            trace := s.env.trace ++ [Obs.putBo s.eng.acc a] } }) ∧
    -- DECODE takes an item
    (∀ rest, s.eng.point = .decGet → s.env.bi.now = .eos :: rest →
      step s = .next
        ((t.tookBi .eos rest).goTo
          (.decRelease
            (if s.eng.tk = .tree ∧ s.eng.cur ≠ s.eng.root then .fault .trunc (BitVec.ofNat 64 s.eng.cur)
            else .done)))) ∧
    (∀ rest, s.eng.point = .decGet → s.env.bi.now = .err :: rest →
      step s = .next ((t.tookBi .err rest).goTo (.decRelease (.fault .io 2)))) ∧
    (∀ v rest, s.eng.point = .decGet → s.env.bi.now = .data v :: rest →
      ∃ u, step s = .next u ∧ u.params = s.params ∧ u.env = (t.tookBi (.data v) rest).env ∧
        { s with eng := { s.eng with nby := s.eng.nby + 1 } }.Walks u.eng (streamBits [v])) ∧
    -- DECODE's put is answered
    (∀ a more, s.eng.point = .decPut → s.env.so.now = a :: more →
      ∃ u, step s = .next u ∧ u.params = s.params ∧
        u.env = { s.env with
          events := es
          so := { s.env.so with now := more }
          trace := s.env.trace ++ [Obs.putSo ((s.nodeAt s.eng.cur).ch % 2 ^ s.params.symw) a] } ∧
        (a = .fail → u.eng = { s.eng with point := .decRelease (.fault .io 3) }) ∧
        (a = .ok →
          { s with eng := { s.eng with ns := s.eng.ns + 1, cur := s.eng.root } }.Walks u.eng s.eng.unreadBits)) ∧
    -- releases and closes
    (∀ f : Ending,
      (s.eng.point = .countRelease f ∨ s.eng.point = .encRelease f →
        step s = .next
          { t with
            eng := { s.eng with
              siOpen := false
              point := if s.eng.point = .countRelease f then .countFinish f else .encClose f }
            env := { s.env with
              events := es
              si := s.env.si.endSession
              trace := s.env.trace ++ [Obs.release Channel.si] } }) ∧
      (s.eng.point = .decRelease f →
        step s = .next
          { t with
            eng := { s.eng with biOpen := false, point := .decClose f }
            env := { s.env with
              events := es
              bi := s.env.bi.endSession
              trace := s.env.trace ++ [Obs.release Channel.bi] } }) ∧
      (s.eng.point = .encClose f →
        step s = .next
          { t with
            eng := { s.eng with boOpen := false, point := .encFinish f }
            env := { s.env with
              events := es
              bo := s.env.bo.endSession
              trace := s.env.trace ++ [Obs.close Channel.bo] } }) ∧
      (s.eng.point = .decClose f →
        step s = .next
          { t with
            eng := { s.eng with soOpen := false, point := .decFinish f }
            env := { s.env with
              events := es
              so := s.env.so.endSession
              trace := s.env.trace ++ [Obs.close Channel.so] } })) ∧
    -- the end
    (∀ e info,
      s.eng.point = .countFinish (.fault e info) ∨ s.eng.point = .encFinish (.fault e info) ∨
          s.eng.point = .decFinish (.fault e info) →
        step s = .next { t with eng := s.eng.faulted e info }) ∧
    (s.eng.point = .countFinish .done →
      step s = .next
        { t with eng := { s.eng with x0 := s.eng.ns, x1 := BitVec.ofNat 64 s.present.length }.ended }) ∧
    (s.eng.point = .encFinish .done →
      step s = .next { t with eng := { s.eng with x0 := s.eng.nb, x1 := s.eng.nby, x2 := s.eng.ns }.ended }) ∧
    (s.eng.point = .decFinish .done →
      step s = .next { t with eng := { s.eng with x0 := s.eng.nb, x1 := s.eng.ns, x2 := s.eng.nby }.ended })

/-- R10, R301: the engine's single steps reach exactly what a whole run reaches, within a bound that the supply gives: of
a word written to CMD, and of a command in progress. -/
def Obligations.TicksReachWhatARunReaches : Prop :=
  ∀ (s t : State) (es : List Event) (n : Nat), s.env.supplied + 5 ≤ n →
    (∀ w, s.eng.busy = false → (s.eng.err = .none ∨ w = clrWord) → step (s.withEvents (.write 4 w :: es)) = .next t →
      Host.Core.run Sys2Proof.core (n + 1) (s.withEvents (.issue w :: (List.replicate n .tick ++ es))) = .next t) ∧
      (step (s.withEvents (.run :: es)) = .next t →
        Host.Core.run Sys2Proof.core n (s.withEvents (List.replicate n .tick ++ es)) = .next t)

/-! ### The control and table-access commands -/

/-- R131: NOP ends and does nothing else; like any other word but CLR's it is refused while ERR ≠ 0. -/
def Obligations.NopOnlyEnds : Prop :=
  decode 0x0000000000000000 = .ok .nop ∧ (∀ s : State, exec .nop s = .next { s with eng := s.eng.ended }) ∧
    ∀ (s : State) (es : List Event),
      s.env.events = .write 4 0x0000000000000000 :: es → s.eng.busy = false → s.eng.err ≠ .none →
        step s = .next { s with eng := { s.eng with herr := true }, env := { s.env with events := es } }

/-- R132, R285: CLR, the return from a fault, leaves the reset state but for DONE and touches no channel; it is accepted
while ERR ≠ 0, and no other command is. -/
def Obligations.ClrLeavesTheResetStateWithDone : Prop :=
  decode 0x0000000000000001 = .ok .clr ∧
    (∀ s : State, exec .clr s = .next { s with eng := { Engine.reset with done := true } }) ∧
    ∀ (s : State) (w : Word) (es : List Event),
      s.env.events = .write 4 w :: es → s.eng.busy = false → s.eng.err ≠ .none →
        (w = 0x0000000000000001 →
          step s = .next { s with eng := { Engine.reset with done := true }, env := { s.env with events := es } }) ∧
          (w ≠ 0x0000000000000001 →
            step s = .next { s with eng := { s.eng with herr := true }, env := { s.env with events := es } })

/-- R133: SETF writes FREQ[x0] and nothing else; the first operand out of its range raises E_ARG, and nothing is
written. -/
def Obligations.SetfWritesOneEntry : Prop :=
  ∀ s : State,
    (s.eng.x0.toNat < 2 ^ s.params.symw → s.eng.x1.toNat < 2 ^ s.params.freqw →
      ∃ t, exec .setf s = .next t ∧ t.params = s.params ∧ t.env = s.env ∧
        t.eng = { s.eng with freq := t.eng.freq }.ended ∧
        ∀ c, t.freqAt c = if c = s.eng.x0.toNat then s.eng.x1.toNat else s.freqAt c) ∧
      (2 ^ s.params.symw ≤ s.eng.x0.toNat → exec .setf s = .next { s with eng := s.eng.faulted .arg 0 }) ∧
      (s.eng.x0.toNat < 2 ^ s.params.symw → 2 ^ s.params.freqw ≤ s.eng.x1.toNat →
        exec .setf s = .next { s with eng := s.eng.faulted .arg 1 })

/-- R134: GETF returns FREQ[x0] in x1 and changes nothing else; an operand out of range raises E_ARG. -/
def Obligations.GetfReturnsTheEntry : Prop :=
  ∀ s : State,
    (s.eng.x0.toNat < 2 ^ s.params.symw →
      exec .getf s = .next
        { s with eng := { s.eng with x1 := BitVec.ofNat 64 (s.freqAt s.eng.x0.toNat) }.ended }) ∧
      (2 ^ s.params.symw ≤ s.eng.x0.toNat → exec .getf s = .next { s with eng := s.eng.faulted .arg 0 })

/-- R276: GETN, EXTRACT and DECODE with TK = NONE raise E_NOTREE first, opening no channel and writing nothing; with the
empty tree they do not. -/
def Obligations.NoTreeRaisesENotree : Prop :=
  ∀ (s : State) (i : Instr), i = .getn ∨ i = .extract ∨ i = .decode →
    (s.eng.tk = .none → exec i s = .next { s with eng := s.eng.faulted .noTree 0 }) ∧
      (s.eng.tk = .empty → s.eng.err ≠ .noTree → ∃ t, exec i s = .next t ∧ t.eng.err ≠ .noTree)

/-- R277: GETC and ENCODE with CTV = 0 raise E_NOTABLE first, opening no channel and writing nothing; with a valid table,
an empty one too, they do not. -/
def Obligations.NoTableRaisesENotable : Prop :=
  ∀ (s : State) (i : Instr), i = .getc ∨ i = .encode →
    (s.eng.ctv = false → exec i s = .next { s with eng := s.eng.faulted .noTable 0 }) ∧
      (s.eng.ctv = true → s.eng.err ≠ .noTable → ∃ t, exec i s = .next t ∧ t.eng.err ≠ .noTable)

/-- R135: GETT reports TK, ROOT, NCNT and, of a tree, the root's aggregate frequency; it never faults. -/
def Obligations.GettReportsTheTree : Prop :=
  ∀ s : State,
    exec .gett s = .next
      { s with eng := { s.eng with
        x0 := match s.eng.tk with
          | .none => 0
          | .empty => 1
          | .tree => 2
        x1 := BitVec.ofNat 64 s.eng.root
        x2 := BitVec.ofNat 64 s.eng.ncnt
        x3 := match s.eng.tk with
          | .none => 0
          | .empty => 0
          | .tree => BitVec.ofNat 64 (s.nodeAt s.eng.root).freq }.ended }

/-- R136, R137: GETN returns the record's fields at their places in x1, its frequency in x2, and changes nothing else;
with no tree it raises E_NOTREE, and at an index that is not in use E_ARG. -/
def Obligations.GetnReturnsTheDescriptor : Prop :=
  ∀ s : State,
    (s.eng.tk = .none → exec .getn s = .next { s with eng := s.eng.faulted .noTree 0 }) ∧
      (s.eng.tk ≠ .none → s.eng.ncnt ≤ s.eng.x0.toNat →
        exec .getn s = .next { s with eng := s.eng.faulted .arg 0 }) ∧
      (s.eng.tk ≠ .none → s.eng.x0.toNat < s.eng.ncnt →
        ∃ t, exec .getn s = .next t ∧ t.params = s.params ∧ t.env = s.env ∧
          t.eng = { s.eng with
            x1 := t.eng.x1
            x2 := BitVec.ofNat 64 (s.nodeAt s.eng.x0.toNat).freq }.ended ∧
          t.eng.x1.extractLsb' 0 17 = BitVec.ofNat 17 (s.nodeAt s.eng.x0.toNat).ch ∧
          t.eng.x1.getLsbD 17 = (s.nodeAt s.eng.x0.toNat).lp ∧
          t.eng.x1.getLsbD 18 = (s.nodeAt s.eng.x0.toNat).rp ∧
          t.eng.x1.getLsbD 19 = false ∧
          t.eng.x1.extractLsb' 20 20 = BitVec.ofNat 20 (s.nodeAt s.eng.x0.toNat).left ∧
          t.eng.x1.extractLsb' 40 20 = BitVec.ofNat 20 (s.nodeAt s.eng.x0.toNat).right ∧
          t.eng.x1.extractLsb' 60 4 = 0)

/-- R110, R138, R139: GETC returns the entry's length and the asked chunk of its path when the entry is valid, and
zeros when it is not, and changes nothing else; without a table it raises E_NOTABLE, and for the first operand out of
its range E_ARG. -/
def Obligations.GetcReturnsTheEntryAndChunk : Prop :=
  ∀ s : State,
    (s.eng.ctv = false → exec .getc s = .next { s with eng := s.eng.faulted .noTable 0 }) ∧
      (s.eng.ctv = true → 2 ^ s.params.symw ≤ s.eng.x0.toNat →
        exec .getc s = .next { s with eng := s.eng.faulted .arg 0 }) ∧
      (s.eng.ctv = true → s.eng.x0.toNat < 2 ^ s.params.symw →
        (2 ^ s.params.symw - 1 - 1) / 64 < s.eng.x1.toNat →
          exec .getc s = .next { s with eng := s.eng.faulted .arg 1 }) ∧
      (s.eng.ctv = true → s.eng.x0.toNat < 2 ^ s.params.symw →
        s.eng.x1.toNat ≤ (2 ^ s.params.symw - 1 - 1) / 64 →
          ∃ t, exec .getc s = .next t ∧ t.params = s.params ∧ t.env = s.env ∧
            t.eng = { s.eng with x2 := t.eng.x2, x3 := t.eng.x3 }.ended ∧
            ((s.codeAt s.eng.x0.toNat).valid = true →
              t.eng.x2.getLsbD 63 = true ∧
                t.eng.x2.extractLsb' 0 63 = BitVec.ofNat 63 (s.codeAt s.eng.x0.toNat).len ∧
                ∀ j, j < 64 → t.eng.x3.getLsbD j = (s.codeAt s.eng.x0.toNat).bit (64 * s.eng.x1.toNat + j)) ∧
            ((s.codeAt s.eng.x0.toNat).valid = false → t.eng.x2 = 0 ∧ t.eng.x3 = 0))

/-! ### COUNT -/

/-- R150, R151, R152, R156: COUNT over a session that ends: FREQ is the new mapping, x0 and x1 the numbers of symbols
and of distinct symbols; the session is consumed up to EOS and released. -/
def Obligations.CountCountsTheSession : Prop :=
  ∀ (s : State) (cs : List Nat) (unread : List (Item Nat)),
    s.env.si.now = cs.map Item.data ++ Item.eos :: unread → (∀ c ∈ cs, c < 2 ^ s.params.symw) →
      (∀ c, cs.count c < 2 ^ s.params.freqw) →
        ∃ t, exec .count s = .next t ∧ t.params = s.params ∧
          (∀ c, t.freqAt c = cs.count c) ∧
          t.eng = { s.eng with
            freq := t.eng.freq
            ns := BitVec.ofNat 64 cs.length
            siOpen := false
            x0 := BitVec.ofNat 64 cs.length
            x1 := BitVec.ofNat 64 cs.dedup.length }.ended ∧
          t.env = { s.env with
            si := s.env.si.endSession
            trace := s.env.trace ++ cs.map (fun c => .tookSi (.data c)) ++ [Obs.tookSi .eos, .release Channel.si] }

/-- R154, R155, R271: an ERR item ends COUNT with E_IO and channel number 0, after SI is released; FREQ keeps the counts
so far and no result register is written. -/
def Obligations.CountReportsSourceFailure : Prop :=
  ∀ (s : State) (cs : List Nat) (unread : List (Item Nat)),
    s.env.si.now = cs.map Item.data ++ Item.err :: unread → (∀ c ∈ cs, c < 2 ^ s.params.symw) →
      (∀ c, cs.count c < 2 ^ s.params.freqw) →
        ∃ t, exec .count s = .next t ∧ t.params = s.params ∧
          (∀ c, t.freqAt c = cs.count c) ∧
          t.eng = { s.eng with
            freq := t.eng.freq
            ns := BitVec.ofNat 64 cs.length
            siOpen := false }.faulted .io 0 ∧
          t.env = { s.env with
            si := s.env.si.endSession
            trace := s.env.trace ++ cs.map (fun c => .tookSi (.data c)) ++ [Obs.tookSi .err, .release Channel.si] }

/-- R153, R279: a symbol whose count is already 2^FREQW − 1 ends COUNT with E_OVF and the symbol; the entry keeps its
value and the item has been consumed. -/
def Obligations.CountNeverWraps : Prop :=
  ∀ (s : State) (cs : List Nat) (c : Nat) (unread : List (Item Nat)),
    s.env.si.now = cs.map Item.data ++ .data c :: unread → (∀ d ∈ cs, d < 2 ^ s.params.symw) →
      c < 2 ^ s.params.symw → (∀ d, cs.count d < 2 ^ s.params.freqw) → cs.count c = 2 ^ s.params.freqw - 1 →
        ∃ t, exec .count s = .next t ∧ t.params = s.params ∧
          (∀ d, t.freqAt d = cs.count d) ∧
          t.eng = { s.eng with
            freq := t.eng.freq
            ns := BitVec.ofNat 64 cs.length
            siOpen := false }.faulted .ovf (BitVec.ofNat 64 c) ∧
          t.env = { s.env with
            si := s.env.si.endSession
            trace := s.env.trace ++ cs.map (fun d => .tookSi (.data d)) ++ [Obs.tookSi (.data c), .release Channel.si] }


/-! ### BUILD -/

/-- R162, R164: the extracted member of PQ is the one of least rank, and exactly it is removed. -/
def Obligations.ExtractMinTakesTheLeastRank : Prop :=
  ∀ s : State, s.eng.pq ≠ [] → s.eng.pq.Nodup →
    ∃ m t, s.pqExtractMin = some (m, t) ∧ m ∈ s.eng.pq ∧
      (∀ i ∈ s.eng.pq, (s.nodeAt m).freq < (s.nodeAt i).freq ∨ ((s.nodeAt m).freq = (s.nodeAt i).freq ∧ m ≤ i)) ∧
      t = { s with eng := { s.eng with pq := t.eng.pq } } ∧ ∀ i, i ∈ t.eng.pq ↔ i ∈ s.eng.pq ∧ i ≠ m

/-- R165, R170: BUILD ends normally in every state; it writes TK, ROOT, NCNT, clears CTV, writes only records below
NCNT, and leaves FREQ, CODE and the registers. -/
def Obligations.BuildEndsNormallyAndKeepsTheRest : Prop :=
  ∀ s : State, ∃ t, exec .build s = .next t ∧ t.params = s.params ∧ t.env = s.env ∧
    t.eng = { s.eng with
      node := t.eng.node
      tk := t.eng.tk
      root := t.eng.root
      ncnt := t.eng.ncnt
      ctv := false
      pq := [] }.ended ∧
    t.eng.tk ≠ .none ∧ ∀ i, t.eng.ncnt ≤ i → t.nodeAt i = s.nodeAt i

/-- R167: from the empty mapping, the empty-tree sentinel, and no record written. -/
def Obligations.BuildOfTheEmptyMapping : Prop :=
  ∀ s : State, s.present = [] →
    exec .build s = .next
      { s with eng := { s.eng with tk := .empty, root := 0, ncnt := 0, ctv := false, pq := [] }.ended }

/-- R168: from one symbol, the leaf and a root that duplicates it and has it as its left child. -/
def Obligations.BuildOfOneSymbol : Prop :=
  ∀ (s : State) (c : Nat), s.present = [c] →
    ∃ t, exec .build s = .next t ∧ t.eng.tk = .tree ∧ t.eng.root = 1 ∧ t.eng.ncnt = 2 ∧
      t.nodeAt 0 = { ch := c, freq := s.freqAt c, lp := false, left := 0, rp := false, right := 0 } ∧
      t.nodeAt 1 = { ch := c, freq := s.freqAt c, lp := true, left := 0, rp := false, right := 0 }

/-- R166, R173: the leaves stand at 0 .. n−1 in ascending character order; of one symbol the root is 1; of two or more
the merges stand at n .. 2n−2, each child below its parent, and the last of them is the root. -/
def Obligations.BuildNumbersLeavesThenMerges : Prop :=
  ∀ s : State, ∃ t, exec .build s = .next t ∧
    (∀ i, (h : i < s.present.length) →
      t.nodeAt i = { ch := s.present[i], freq := s.freqAt s.present[i], lp := false, left := 0, rp := false,
                     right := 0 }) ∧
    (s.present.length = 1 → t.eng.root = 1 ∧ t.eng.ncnt = 2) ∧
    (2 ≤ s.present.length →
      t.eng.tk = .tree ∧ t.eng.root = 2 * s.present.length - 2 ∧ t.eng.ncnt = 2 * s.present.length - 1 ∧
        ∀ i, s.present.length ≤ i → i < t.eng.ncnt → t.mergeOk i)

/-- R31: the tree BUILD makes has the invariants of a built tree, and its leaves are exactly the present symbols with
their frequencies. -/
def Obligations.BuildMakesAWellFormedTree : Prop :=
  ∀ s : State, s.params.wf = true → s.FreqInv → s.present ≠ [] →
    ∃ t, exec .build s = .next t ∧ t.eng.tk = .tree ∧ t.treeOk ∧
      (∀ i ∈ t.leaves, (t.nodeAt i).ch ∈ s.present ∧ (t.nodeAt i).freq = s.freqAt (t.nodeAt i).ch) ∧
      ∀ c ∈ s.present, ∃ i ∈ t.leaves, (t.nodeAt i).ch = c

/-- R175: frequency conservation, in the root's record and as GETT reports it. -/
def Obligations.BuildConservesFrequency : Prop :=
  ∀ s : State, s.present ≠ [] →
    ∃ t u, exec .build s = .next t ∧ t.eng.tk = .tree ∧
      (t.nodeAt t.eng.root).freq = ((List.range (2 ^ s.params.symw)).map s.freqAt).sum ∧
      exec .gett t = .next u ∧
      u.eng.x3 = BitVec.ofNat 64 ((List.range (2 ^ s.params.symw)).map s.freqAt).sum

/-- R169, R161, R162: at every merge the two records merged rank below every other tree not yet merged: a child of the
record `m` ranks below every record `i` made before `m` that is the child of no record up to `m`. -/
def Obligations.BuildMergesTheTwoLeast : Prop :=
  ∀ s : State, 2 ≤ s.present.length →
    ∃ t, exec .build s = .next t ∧
      ∀ m, s.present.length ≤ m → m < t.eng.ncnt →
        t.ranksBelow (t.nodeAt m).left (t.nodeAt m).right = true ∧
          ∀ i, i < m → (∀ k, k ≤ m → i ∉ (t.nodeAt k).children) → t.ranksBelow (t.nodeAt m).right i = true

/-- R172: what BUILD leaves depends on nothing but the contents of FREQ. -/
def Obligations.BuildDependsOnlyOnFreq : Prop :=
  ∀ s u : State, s.params = u.params → (∀ c, c < 2 ^ s.params.symw → s.freqAt c = u.freqAt c) →
    ∃ t v, exec .build s = .next t ∧ exec .build u = .next v ∧ t.eng.tk = v.eng.tk ∧ t.eng.root = v.eng.root ∧
      t.eng.ncnt = v.eng.ncnt ∧ ∀ i, i < t.eng.ncnt → t.nodeAt i = v.nodeAt i

/-! ### EXTRACT -/

/-- R190, R191, R196: on a built tree EXTRACT ends normally with exactly the table the recursive walk writes, CTV set,
and nothing else changed: the engine's walk with stack and path buffer and the recursive definition agree. -/
def Obligations.ExtractWritesTheRecursiveWalk : Prop :=
  ∀ s : State, s.eng.tk = .tree → s.treeOk →
    exec .extract s = .next
      { s with eng := { s.eng with code := s.walkTable, ctv := true, wstk := [], path := [] }.ended }

/-- R193: of the empty tree, the empty table. -/
def Obligations.ExtractOfTheEmptyTree : Prop :=
  ∀ s : State, s.eng.tk = .empty →
    exec .extract s = .next { s with eng := { s.eng with code := [], ctv := true }.ended }

/-- R197, R191: after EXTRACT every leaf's symbol is valid, with the path that leads from the root to that leaf, and every
valid symbol is some leaf's. -/
def Obligations.ExtractRecordsTheLeafPaths : Prop :=
  ∀ s : State, s.eng.tk = .tree → s.treeOk →
    ∃ t, exec .extract s = .next t ∧
      (∀ i ∈ s.leaves, (t.codeAt (s.nodeAt i).ch).valid = true ∧
        s.follow s.eng.root (t.codeAt (s.nodeAt i).ch).path = some i) ∧
      ∀ c, (t.codeAt c).valid = true → ∃ i ∈ s.leaves, (s.nodeAt i).ch = c

/-- R198: no code path is a prefix of another, of a tree or of the empty tree. -/
def Obligations.ExtractedCodeIsPrefixFree : Prop :=
  ∀ s : State, s.eng.tk ≠ .none → s.TreeInv →
    ∃ t, exec .extract s = .next t ∧
      ∀ c d, c ≠ d → (t.codeAt c).valid = true → (t.codeAt d).valid = true →
        ¬ (t.codeAt c).path <+: (t.codeAt d).path

/-- R200, R176: every valid entry has a path of 1 to MAXLEN bits. -/
def Obligations.ExtractedLengthsFit : Prop :=
  ∀ s : State, s.params.wf = true → s.eng.tk = .tree → s.treeOk →
    ∃ t, exec .extract s = .next t ∧
      ∀ c, (t.codeAt c).valid = true → 1 ≤ (t.codeAt c).len ∧ (t.codeAt c).len ≤ 2 ^ s.params.symw - 1

/-! ### ENCODE -/

/-- R111, R214 to R219, R225 to R228, R223: ENCODE over a session whose symbols are all in the table, with a sink that
takes every byte: the bytes put carry exactly the code bits and zero padding, and the results are the numbers of
bits, bytes and symbols. -/
def Obligations.EncodePacksTheCodes : Prop :=
  ∀ (s : State) (cs : List Nat) (unread : List (Item Nat)) (more : List Answer) (bits : List Bool),
    s.eng.ctv = true → s.env.si.now = cs.map Item.data ++ Item.eos :: unread →
      (∀ c ∈ cs, c < 2 ^ s.params.symw ∧ (s.codeAt c).valid = true) →
        bits = cs.flatMap (fun c => (s.codeAt c).path) → bits.length < 2 ^ 64 →
          s.env.bo.now = List.replicate ((bits.length + 7) / 8) Answer.ok ++ more →
            ∃ t tr, exec .encode s = .next t ∧ t.params = s.params ∧
              t.env = { s.env with
                si := s.env.si.endSession
                bo := s.env.bo.endSession
                trace := s.env.trace ++ tr ++ [Obs.release Channel.si, .close Channel.bo] } ∧
              t.eng = { s.eng with
                acc := 0
                nacc := 0
                nb := BitVec.ofNat 64 bits.length
                nby := BitVec.ofNat 64 ((bits.length + 7) / 8)
                ns := BitVec.ofNat 64 cs.length
                siOpen := false
                boOpen := false
                x0 := BitVec.ofNat 64 bits.length
                x1 := BitVec.ofNat 64 ((bits.length + 7) / 8)
                x2 := BitVec.ofNat 64 cs.length }.ended ∧
              takenSi tr = cs.map Item.data ++ [Item.eos] ∧ Carries (bytesPut tr) bits ∧
              putsBo tr = (bytesPut tr).map fun v => (v, .ok)

/-- R215, R221, R224: a symbol with no entry, or an ERR item, ends ENCODE with E_MISS or E_IO; the pending partial byte is
put first, padded, whatever the sink answers to it, SI is released and BO closed, and no result register is
written. -/
def Obligations.EncodeAbortFlushesThePartialByte : Prop :=
  ∀ (s : State) (cs : List Nat) (last : Item Nat) (unread : List (Item Nat)) (a : Answer) (more : List Answer)
    (bits : List Bool),
    s.eng.ctv = true → s.env.si.now = cs.map Item.data ++ last :: unread →
      (∀ c ∈ cs, c < 2 ^ s.params.symw ∧ (s.codeAt c).valid = true) →
        (last = .err ∨ ∃ c, last = .data c ∧ c < 2 ^ s.params.symw ∧ (s.codeAt c).valid = false) →
          bits = cs.flatMap (fun c => (s.codeAt c).path) → bits.length < 2 ^ 64 →
            s.env.bo.now = List.replicate (bits.length / 8) Answer.ok ++ (if bits.length % 8 = 0 then more else a :: more) →
              ∃ t tr, exec .encode s = .next t ∧ t.params = s.params ∧
                t.env = { s.env with
                  si := s.env.si.endSession
                  bo := s.env.bo.endSession
                  trace := s.env.trace ++ tr ++ [Obs.release Channel.si, .close Channel.bo] } ∧
                t.eng = { s.eng with
                  acc := 0
                  nacc := 0
                  nb := BitVec.ofNat 64 bits.length
                  nby := BitVec.ofNat 64 (bits.length / 8)
                  ns := BitVec.ofNat 64 cs.length
                  siOpen := false
                  boOpen := false }.faulted
                    (match last with
                      | .data _ => .miss
                      | .eos => .none
                      | .err => .io)
                    (match last with
                      | .data c => BitVec.ofNat 64 c
                      | .eos => 0
                      | .err => 0) ∧
                takenSi tr = cs.map Item.data ++ [last] ∧ Carries ((putsBo tr).map Prod.fst) bits ∧
                (putsBo tr).map Prod.snd =
                  List.replicate (bits.length / 8) Answer.ok ++ (if bits.length % 8 = 0 then [] else [a])

/-- R220, R214, R86: when the sink fails the put of byte `j`, that byte carries code bits 8j to 8j + 7 (the final one
zero-padded), and nothing more is put, not even a flush; E_IO with channel number 1, SI released, BO closed, no result
register written; the bytes before it carry the bits before it, and no item beyond the symbol whose bits filled the byte
(beyond EOS, for the final byte) has been taken. -/
def Obligations.EncodeSinkFailureStopsThePuts : Prop :=
  ∀ (s : State) (cs : List Nat) (unread : List (Item Nat)) (j : Nat) (more : List Answer) (bits : List Bool),
    s.eng.ctv = true → s.env.si.now = cs.map Item.data ++ unread →
      (∀ c ∈ cs, c < 2 ^ s.params.symw ∧ (s.codeAt c).valid = true) →
        bits = cs.flatMap (fun c => (s.codeAt c).path) → bits.length < 2 ^ 64 →
          (j < bits.length / 8 ∨ (j < (bits.length + 7) / 8 ∧ unread.head? = some Item.eos)) →
            s.env.bo.now = List.replicate j Answer.ok ++ Answer.fail :: more →
              ∃ t tr v n, exec .encode s = .next t ∧ t.params = s.params ∧
                t.env = { s.env with
                  si := s.env.si.endSession
                  bo := s.env.bo.endSession
                  trace := s.env.trace ++ tr ++ [Obs.putBo v .fail, .release Channel.si, .close Channel.bo] } ∧
                t.eng = { s.eng with
                  acc := v
                  nacc := t.eng.nacc
                  nb := BitVec.ofNat 64 (min (8 * j + 8) bits.length)
                  nby := BitVec.ofNat 64 j
                  ns := BitVec.ofNat 64 n
                  siOpen := false
                  boOpen := false }.faulted .io 1 ∧
                Carries (bytesPut tr) (bits.take (8 * j)) ∧ putsBo tr = (bytesPut tr).map (fun b => (b, .ok)) ∧
                Carries [v] ((bits.drop (8 * j)).take 8) ∧
                (j < bits.length / 8 →
                  n < cs.length ∧ takenSi tr = (cs.take (n + 1)).map Item.data ∧
                    ((cs.take n).flatMap fun c => (s.codeAt c).path).length < 8 * j + 8 ∧
                    8 * j + 8 ≤ ((cs.take (n + 1)).flatMap fun c => (s.codeAt c).path).length) ∧
                (bits.length / 8 ≤ j → n = cs.length ∧ takenSi tr = cs.map Item.data ++ [Item.eos])

/-- R222, R279, R224: when bit `k` of a code (from 0) meets NB at 2^64 − 1, ENCODE ends with E_OVF: the bits before it have
been appended and put as far as they fill bytes, it and the bits after it are not appended, NB stays, the partial byte
is put whatever the sink answers, SI is released and BO closed. Both ways the engine comes to a code's bits: an item
taken, the packer holding `held`; and a full byte's put answered inside a code, `held` being that byte. -/
def Obligations.EncodeCounterNeverWraps : Prop :=
  ∀ (s : State) (es : List Event) (code held total : List Bool) (k : Nat) (took unread : List (Item Nat)) (a : Answer)
    (more : List Answer),
    s.env.events = .run :: es →
      ((s.eng.point = .encGet ∧ s.eng.accClean ∧ held = s.eng.heldBits ∧
            ∃ c, took = [.data c] ∧ c < 2 ^ s.params.symw ∧ (s.codeAt c).valid = true ∧ code = (s.codeAt c).path) ∨
          (s.eng.point = .encPut code ∧ held = streamBits [s.eng.acc] ∧ took = [])) →
        s.env.si.now = took ++ unread → k < code.length → s.eng.nb.toNat + k = 2 ^ 64 - 1 →
          total = held ++ code.take k →
            s.env.bo.now =
                List.replicate (total.length / 8) Answer.ok ++ (if total.length % 8 = 0 then more else a :: more) →
              ∃ t tr, step s = .next t ∧ t.params = s.params ∧
                t.eng = { s.eng with
                  acc := 0
                  nacc := 0
                  nb := 0xFFFFFFFFFFFFFFFF
                  nby := s.eng.nby + BitVec.ofNat 64 (total.length / 8)
                  siOpen := false
                  boOpen := false }.faulted .ovf 0 ∧
                t.env = { s.env with
                  events := es
                  si := s.env.si.endSession
                  bo := s.env.bo.endSession
                  trace := s.env.trace ++ tr ++ [Obs.release Channel.si, .close Channel.bo] } ∧
                takenSi tr = took ∧ Carries ((putsBo tr).map Prod.fst) total ∧
                (putsBo tr).map Prod.snd =
                  List.replicate (total.length / 8) Answer.ok ++ (if total.length % 8 = 0 then [] else [a])

/-! ### DECODE -/

/-- R240, R241, R244, R245, R249, R254, R287: the bits up to LIM, cut into paths from the root to leaves: each leaf's symbol
is put, in order, and the results are the numbers of bits, symbols and bytes. The bits end at LIM, the limit being
tested before each `get`, so that nothing behind the bytes LIM needs is taken; or, before LIM, at EOS. -/
def Obligations.DecodeEmitsTheLeaves : Prop :=
  ∀ (s : State) (bytes : List Byte) (unread : List (Item Byte)) (steps : List (List Bool × Nat))
    (more : List Answer) (bits : List Bool),
    s.eng.tk = .tree → (s.nodeAt s.eng.root).isLeaf = false →
      s.env.bi.now = bytes.map Item.data ++ unread →
        (s.eng.x0.toNat ≤ 8 * bytes.length ∨ unread.head? = some Item.eos) →
          bits = (streamBits bytes).take s.eng.x0.toNat → bits = steps.flatMap Prod.fst →
            (∀ p ∈ steps, s.follow s.eng.root p.1 = some p.2 ∧ (s.nodeAt p.2).isLeaf = true) →
              s.env.so.now = List.replicate steps.length Answer.ok ++ more →
                ∃ t tr, exec .decode s = .next t ∧ t.params = s.params ∧
                  t.env = { s.env with
                    bi := s.env.bi.endSession
                    so := s.env.so.endSession
                    trace := s.env.trace ++ tr ++ [Obs.release Channel.bi, .close Channel.so] } ∧
                  t.eng = { s.eng with
                    cur := s.eng.root
                    lim := s.eng.x0
                    sh := t.eng.sh
                    nsh := t.eng.nsh
                    nb := BitVec.ofNat 64 bits.length
                    ns := BitVec.ofNat 64 steps.length
                    nby := BitVec.ofNat 64 ((bits.length + 7) / 8)
                    biOpen := false
                    soOpen := false
                    x0 := BitVec.ofNat 64 bits.length
                    x1 := BitVec.ofNat 64 steps.length
                    x2 := BitVec.ofNat 64 ((bits.length + 7) / 8) }.ended ∧
                  symbolsPut tr = (steps.map fun p => (s.nodeAt p.2).ch % 2 ^ s.params.symw) ∧
                  takenBi tr =
                    if s.eng.x0.toNat ≤ 8 * bytes.length then (bytes.take ((bits.length + 7) / 8)).map Item.data
                    else bytes.map Item.data ++ [Item.eos]

/-- R251, R248, R274, R273, R287: bits that end, at LIM or at EOS, in the middle of a path raise E_TRUNC with the node the
walk stood on, and a bit that asks for an absent child raises E_NOCHILD, whatever follows; the symbols before have been
put, no byte beyond those the bits read needed has been taken, and no result register is written. -/
def Obligations.DecodeReportsADanglingPath : Prop :=
  ∀ (s : State) (bytes : List Byte) (unread : List (Item Byte)) (steps : List (List Bool × Nat))
    (rest : List Bool) (j : Nat) (more : List Answer) (bits : List Bool),
    s.eng.tk = .tree → (s.nodeAt s.eng.root).isLeaf = false →
      s.env.bi.now = bytes.map Item.data ++ unread → bits = (streamBits bytes).take s.eng.x0.toNat →
        (∀ p ∈ steps, s.follow s.eng.root p.1 = some p.2 ∧ (s.nodeAt p.2).isLeaf = true) →
          s.follow s.eng.root rest = some j → (s.nodeAt j).isLeaf = false →
            s.env.so.now = List.replicate steps.length Answer.ok ++ more →
              ((s.eng.x0.toNat ≤ 8 * bytes.length ∨ unread.head? = some Item.eos) →
                bits = steps.flatMap Prod.fst ++ rest → j ≠ s.eng.root →
                ∃ t tr, exec .decode s = .next t ∧ t.params = s.params ∧
                  t.eng = { s.eng with
                    cur := j
                    lim := s.eng.x0
                    sh := t.eng.sh
                    nsh := t.eng.nsh
                    nb := BitVec.ofNat 64 bits.length
                    ns := BitVec.ofNat 64 steps.length
                    nby := BitVec.ofNat 64 ((bits.length + 7) / 8)
                    biOpen := false
                    soOpen := false }.faulted .trunc (BitVec.ofNat 64 j) ∧
                  t.env = { s.env with
                    bi := s.env.bi.endSession
                    so := s.env.so.endSession
                    trace := s.env.trace ++ tr ++ [Obs.release Channel.bi, .close Channel.so] } ∧
                  symbolsPut tr = (steps.map fun p => (s.nodeAt p.2).ch % 2 ^ s.params.symw) ∧
                  takenBi tr =
                    if s.eng.x0.toNat ≤ 8 * bytes.length then (bytes.take ((bits.length + 7) / 8)).map Item.data
                    else bytes.map Item.data ++ [Item.eos]) ∧
              ∀ b n, steps.flatMap Prod.fst ++ rest ++ [b] <+: bits → ((s.nodeAt j).child b).1 = false →
                n = (steps.flatMap Prod.fst ++ rest ++ [b]).length →
                ∃ t tr, exec .decode s = .next t ∧ t.params = s.params ∧
                  t.eng = { s.eng with
                    cur := j
                    lim := s.eng.x0
                    sh := t.eng.sh
                    nsh := t.eng.nsh
                    nb := BitVec.ofNat 64 n
                    ns := BitVec.ofNat 64 steps.length
                    nby := BitVec.ofNat 64 ((n + 7) / 8)
                    biOpen := false
                    soOpen := false }.faulted .noChild
                      ((if b then 0x100000000 else 0) ||| BitVec.ofNat 64 j) ∧
                  t.env = { s.env with
                    bi := s.env.bi.endSession
                    so := s.env.so.endSession
                    trace := s.env.trace ++ tr ++ [Obs.release Channel.bi, .close Channel.so] } ∧
                  symbolsPut tr = (steps.map fun p => (s.nodeAt p.2).ch % 2 ^ s.params.symw) ∧
                  takenBi tr = (bytes.take ((n + 7) / 8)).map Item.data

/-- R246, R262: with the empty tree no bit is normal completion with no output, and the first bit raises E_EMPTY. -/
def Obligations.DecodeOfTheEmptyTree : Prop :=
  ∀ (s : State) (unread : List (Item Byte)), s.eng.tk = .empty →
    (s.eng.x0 = 0 ∨ s.env.bi.now = .eos :: unread →
      ∃ t tr, exec .decode s = .next t ∧ t.params = s.params ∧ t.eng.err = s.eng.err ∧ t.eng.x0 = 0 ∧ t.eng.x1 = 0 ∧
        t.eng.x2 = 0 ∧ t.eng.x3 = s.eng.x3 ∧ t.eng.busy = false ∧ t.eng.done = true ∧
        t.env.trace = s.env.trace ++ tr ++ [Obs.release Channel.bi, .close Channel.so] ∧ symbolsPut tr = [] ∧
        (s.eng.x0 = 0 → tr = [])) ∧
      ∀ v, s.eng.x0 ≠ 0 → s.env.bi.now = .data v :: unread →
        ∃ t, exec .decode s = .next t ∧ t.params = s.params ∧ t.eng.err = .empty ∧ t.eng.finfo = 0 ∧
          t.eng.x0 = s.eng.x0 ∧ t.eng.x1 = s.eng.x1 ∧ t.eng.x2 = s.eng.x2 ∧ t.eng.x3 = s.eng.x3 ∧
          t.eng.nb = 1 ∧ t.eng.busy = false ∧ t.eng.done = true ∧
          t.env.trace = s.env.trace ++ [Obs.tookBi (Item.data v), .release Channel.bi, .close Channel.so]

/-- R252, R249: ERR from BI ends DECODE with E_IO and 2, wherever the walk stands, and a put that SO fails, of the symbol of
the leaf reached, with E_IO and 3, that symbol not counted; both channels are ended, no byte beyond those the bits needed
has been taken, and no result register is written. -/
def Obligations.DecodeReportsIoFaults : Prop :=
  (∀ (s : State) (unread : List (Item Byte)),
    s.eng.tk = .empty → s.eng.x0 ≠ 0 → s.env.bi.now = Item.err :: unread →
      ∃ t, exec .decode s = .next t ∧ t.params = s.params ∧ t.eng.err = .io ∧ t.eng.finfo = 2 ∧
        t.eng.busy = false ∧ t.eng.done = true ∧ (∀ i, t.x i = s.x i) ∧
        t.env.trace = s.env.trace ++ [Obs.tookBi Item.err, .release Channel.bi, .close Channel.so]) ∧
  ∀ (s : State) (bytes : List Byte) (steps : List (List Bool × Nat)),
    s.eng.tk = .tree → (s.nodeAt s.eng.root).isLeaf = false →
      (∀ p ∈ steps, s.follow s.eng.root p.1 = some p.2 ∧ (s.nodeAt p.2).isLeaf = true) →
        (∀ (unread : List (Item Byte)) (more : List Answer) (rest : List Bool) (j : Nat),
          s.env.bi.now = bytes.map Item.data ++ Item.err :: unread → 8 * bytes.length < s.eng.x0.toNat →
            streamBits bytes = steps.flatMap Prod.fst ++ rest → s.follow s.eng.root rest = some j →
              (s.nodeAt j).isLeaf = false → s.env.so.now = List.replicate steps.length Answer.ok ++ more →
                ∃ t tr, exec .decode s = .next t ∧ t.params = s.params ∧ t.eng.err = .io ∧ t.eng.finfo = 2 ∧
                  t.eng.ns = BitVec.ofNat 64 steps.length ∧ t.eng.busy = false ∧ t.eng.done = true ∧
                  (∀ i, t.x i = s.x i) ∧ t.eng.sessions = (s.eng.siOpen, s.eng.boOpen, false, false) ∧
                  t.env.trace = s.env.trace ++ tr ++ [Obs.tookBi Item.err, .release Channel.bi, .close Channel.so] ∧
                  symbolsPut tr = (steps.map fun p => (s.nodeAt p.2).ch % 2 ^ s.params.symw) ∧
                  takenBi tr = bytes.map Item.data) ∧
          ∀ (unread : List (Item Byte)) (more : List Answer) (k n : Nat) (h : k < steps.length),
            s.env.bi.now = bytes.map Item.data ++ unread →
              steps.flatMap Prod.fst <+: (streamBits bytes).take s.eng.x0.toNat →
                s.env.so.now = List.replicate k Answer.ok ++ Answer.fail :: more →
                  n = ((steps.take (k + 1)).flatMap Prod.fst).length →
                  ∃ t tr, exec .decode s = .next t ∧ t.params = s.params ∧ t.eng.err = .io ∧ t.eng.finfo = 3 ∧
                    t.eng.ns = BitVec.ofNat 64 k ∧ t.eng.busy = false ∧ t.eng.done = true ∧
                    (∀ i, t.x i = s.x i) ∧ t.eng.sessions = (s.eng.siOpen, s.eng.boOpen, false, false) ∧
                    t.env.trace = s.env.trace ++ tr ++
                      [Obs.putSo ((s.nodeAt steps[k].2).ch % 2 ^ s.params.symw) .fail, .release Channel.bi,
                        .close Channel.so] ∧
                    symbolsPut tr = ((steps.take k).map fun p => (s.nodeAt p.2).ch % 2 ^ s.params.symw) ∧
                    takenBi tr = (bytes.take ((n + 7) / 8)).map Item.data

/-! ### Waiting -/

/-- R157, R230, R257, R78, R79, R300: a stream command that lacks an item or an answer waits: exec answers a state in
which the command is in progress at that `get` or `put`, its sessions open, no result register and no flag written; what
it has done so far stands. COUNT at a `get`; ENCODE at a `get`, at the put of a full byte, at the put of the final byte
and at the put of an abort; DECODE at a `get`, inside a tree and on the empty tree, and at a put. -/
def Obligations.StreamCommandsWait : Prop :=
  (∀ (s : State) (cs : List Nat),
    s.env.si.now = cs.map Item.data → (∀ c ∈ cs, c < 2 ^ s.params.symw) → (∀ c, cs.count c < 2 ^ s.params.freqw) →
      ∃ t, exec .count s = .next t ∧ t.params = s.params ∧ (∀ c, t.freqAt c = cs.count c) ∧
        t.eng = { s.eng with freq := t.eng.freq, ns := BitVec.ofNat 64 cs.length, siOpen := true, point := .countGet } ∧
        t.env = { s.env with
          si := { s.env.si with now := [] }
          trace := s.env.trace ++ cs.map (fun c => .tookSi (.data c)) }) ∧
    (∀ (s : State) (cs : List Nat) (bits : List Bool),
      s.eng.ctv = true → (∀ c ∈ cs, c < 2 ^ s.params.symw ∧ (s.codeAt c).valid = true) →
        bits = cs.flatMap (fun c => (s.codeAt c).path) → bits.length < 2 ^ 64 →
          (∀ more : List Answer, s.env.si.now = cs.map Item.data →
            s.env.bo.now = List.replicate (bits.length / 8) Answer.ok ++ more →
              ∃ t tr, exec .encode s = .next t ∧ t.params = s.params ∧
                t.eng = { s.eng with
                  acc := t.eng.acc
                  nacc := BitVec.ofNat 3 bits.length
                  nb := BitVec.ofNat 64 bits.length
                  nby := BitVec.ofNat 64 (bits.length / 8)
                  ns := BitVec.ofNat 64 cs.length
                  siOpen := true
                  boOpen := true
                  point := .encGet } ∧
                t.env = { s.env with
                  si := { s.env.si with now := [] }
                  bo := { s.env.bo with now := more }
                  trace := s.env.trace ++ tr } ∧
                takenSi tr = cs.map Item.data ∧ streamBits (bytesPut tr) ++ t.eng.heldBits = bits) ∧
          (∀ (unread : List (Item Nat)) (j : Nat), s.env.si.now = cs.map Item.data ++ unread → j < bits.length / 8 →
            s.env.bo.now = List.replicate j Answer.ok →
              ∃ t tr rest, exec .encode s = .next t ∧ t.params = s.params ∧
                t.eng = { s.eng with
                  acc := t.eng.acc
                  nacc := t.eng.nacc
                  nb := BitVec.ofNat 64 (8 * j + 8)
                  nby := BitVec.ofNat 64 j
                  ns := t.eng.ns
                  siOpen := true
                  boOpen := true
                  point := .encPut rest } ∧
                t.env = { s.env with
                  si := t.env.si
                  bo := { s.env.bo with now := [] }
                  trace := s.env.trace ++ tr } ∧
                takenSi tr ++ t.env.si.now = s.env.si.now ∧ t.env.si.later = s.env.si.later ∧
                streamBits (bytesPut tr ++ [t.eng.acc]) = bits.take (8 * j + 8) ∧ rest <+: bits.drop (8 * j + 8)) ∧
          ∀ (last : Item Nat) (unread : List (Item Nat)), s.env.si.now = cs.map Item.data ++ last :: unread →
            (last = .eos ∨ last = .err ∨ ∃ c, last = .data c ∧ c < 2 ^ s.params.symw ∧ (s.codeAt c).valid = false) →
              bits.length % 8 ≠ 0 → s.env.bo.now = List.replicate (bits.length / 8) Answer.ok →
                ∃ t tr, exec .encode s = .next t ∧ t.params = s.params ∧
                  t.eng = { s.eng with
                    acc := t.eng.acc
                    nacc := BitVec.ofNat 3 bits.length
                    nb := BitVec.ofNat 64 bits.length
                    nby := BitVec.ofNat 64 (bits.length / 8)
                    ns := BitVec.ofNat 64 cs.length
                    siOpen := true
                    boOpen := true
                    point := match last with
                      | .data c => .encAbort .miss (BitVec.ofNat 64 c)
                      | .eos => .encFlush
                      | .err => .encAbort .io 0 } ∧
                  t.env = { s.env with
                    si := { s.env.si with now := unread }
                    bo := { s.env.bo with now := [] }
                    trace := s.env.trace ++ tr } ∧
                  takenSi tr = cs.map Item.data ++ [last] ∧ streamBits (bytesPut tr) ++ t.eng.heldBits = bits) ∧
    (∀ s : State, s.eng.tk = .empty → s.eng.x0 ≠ 0 → s.env.bi.now = [] →
      exec .decode s = .next
        { s with eng := { s.eng with
          cur := s.eng.root
          lim := s.eng.x0
          sh := 0
          nsh := 0
          nb := 0
          nby := 0
          ns := 0
          biOpen := true
          soOpen := true
          point := .decGet } }) ∧
    ∀ (s : State) (bytes : List Byte) (steps : List (List Bool × Nat)),
      s.eng.tk = .tree → (s.nodeAt s.eng.root).isLeaf = false →
        (∀ p ∈ steps, s.follow s.eng.root p.1 = some p.2 ∧ (s.nodeAt p.2).isLeaf = true) →
          (∀ (rest : List Bool) (j : Nat) (more : List Answer),
            s.env.bi.now = bytes.map Item.data → 8 * bytes.length < s.eng.x0.toNat →
              streamBits bytes = steps.flatMap Prod.fst ++ rest → s.follow s.eng.root rest = some j →
                (s.nodeAt j).isLeaf = false → s.env.so.now = List.replicate steps.length Answer.ok ++ more →
                  ∃ t tr, exec .decode s = .next t ∧ t.params = s.params ∧
                    t.eng = { s.eng with
                      cur := j
                      lim := s.eng.x0
                      sh := t.eng.sh
                      nsh := 0
                      nb := BitVec.ofNat 64 (8 * bytes.length)
                      nby := BitVec.ofNat 64 bytes.length
                      ns := BitVec.ofNat 64 steps.length
                      biOpen := true
                      soOpen := true
                      point := .decGet } ∧
                    t.env = { s.env with
                      bi := { s.env.bi with now := [] }
                      so := { s.env.so with now := more }
                      trace := s.env.trace ++ tr } ∧
                    takenBi tr = bytes.map Item.data ∧
                    symbolsPut tr = steps.map fun p => (s.nodeAt p.2).ch % 2 ^ s.params.symw) ∧
            ∀ (unread : List (Item Byte)) (k : Nat) (h : k < steps.length),
              s.env.bi.now = bytes.map Item.data ++ unread →
                steps.flatMap Prod.fst <+: (streamBits bytes).take s.eng.x0.toNat →
                  s.env.so.now = List.replicate k Answer.ok →
                    ∃ t tr, exec .decode s = .next t ∧ t.params = s.params ∧
                      t.eng = { s.eng with
                        cur := steps[k].2
                        lim := s.eng.x0
                        sh := t.eng.sh
                        nsh := t.eng.nsh
                        nb := BitVec.ofNat 64 ((steps.take (k + 1)).flatMap Prod.fst).length
                        nby := t.eng.nby
                        ns := BitVec.ofNat 64 k
                        biOpen := true
                        soOpen := true
                        point := .decPut } ∧
                      t.env = { s.env with
                        bi := t.env.bi
                        so := { s.env.so with now := [] }
                        trace := s.env.trace ++ tr } ∧
                      takenBi tr ++ t.env.bi.now = s.env.bi.now ∧ t.env.bi.later = s.env.bi.later ∧
                      symbolsPut tr = (steps.take k).map fun p => (s.nodeAt p.2).ch % 2 ^ s.params.symw

/-- R78, R79, R82 and log 3: a command that has been run on has ended or waits, and one that waits goes on, when it is
supplied an item or an answer, exactly as if that had been supplied before the command began. -/
def Obligations.WaitingLosesNothing : Prop :=
  ∀ (i : Instr) (s t : State), exec i s = .next t →
    (t.eng.point = .idle ∨
        ((t.eng.point = .countGet ∨ t.eng.point = .encGet) ∧ t.env.si.now = []) ∨
        (((∃ r, t.eng.point = .encPut r) ∨ t.eng.point = .encFlush ∨ ∃ e info, t.eng.point = .encAbort e info) ∧
          t.env.bo.now = []) ∨
        (t.eng.point = .decGet ∧ t.env.bi.now = []) ∨ (t.eng.point = .decPut ∧ t.env.so.now = [])) ∧
      (t.eng.point ≠ .idle →
        (∀ it, engineMove (t.offerSi it) = exec i (s.offerSi it)) ∧
          (∀ it, engineMove (t.offerBi it) = exec i (s.offerBi it)) ∧
          (∀ a, engineMove (t.answerBo a) = exec i (s.answerBo a)) ∧
          ∀ a, engineMove (t.answerSo a) = exec i (s.answerSo a))

/-! ### Round trips -/

/-- R258, ENCODE and DECODE alone: in every state that meets the invariant and has a valid table, DECODE of the bytes
ENCODE put, with the bit length ENCODE returned still in x0, puts the symbols that were encoded. -/
def Obligations.DecodeUndoesEncode : Prop :=
  ∀ (s : State) (cs : List Nat) (unread : List (Item Nat)) (more : List Answer) (bits : List Bool),
    s.Inv → s.eng.ctv = true → s.env.si.now = cs.map Item.data ++ Item.eos :: unread →
      (∀ c ∈ cs, c < 2 ^ s.params.symw ∧ (s.codeAt c).valid = true) →
        bits = cs.flatMap (fun c => (s.codeAt c).path) → bits.length < 2 ^ 64 →
          s.env.bo.now = List.replicate ((bits.length + 7) / 8) Answer.ok ++ more →
            ∃ t tr, exec .encode s = .next t ∧ t.env.trace = s.env.trace ++ tr ∧
              ∀ (u : State) (unread' : List (Item Byte)) (more' : List Answer), u.params = t.params → u.eng = t.eng →
                u.env.bi.now = (bytesPut tr).map Item.data ++ Item.eos :: unread' →
                  u.env.so.now = List.replicate cs.length Answer.ok ++ more' →
                    ∃ v tr', exec .decode u = .next v ∧ v.env.trace = u.env.trace ++ tr' ∧ symbolsPut tr' = cs ∧
                      v.eng.err = s.eng.err ∧ v.eng.x0 = BitVec.ofNat 64 bits.length ∧
                      v.eng.x1 = BitVec.ofNat 64 cs.length ∧ v.eng.x2 = BitVec.ofNat 64 (bytesPut tr).length

/-- R258, the whole pipeline: COUNT, BUILD, EXTRACT, ENCODE and DECODE over the same finite symbol sequence, each session
supplied in full, give the sequence back. `feed` stands for the environment between two commands. -/
def Obligations.PipelineRoundTrip : Prop :=
  ∀ (s : State) (cs : List Nat), s.params.wf = true → (∀ c ∈ cs, c < 2 ^ s.params.symw) →
    (∀ c, cs.count c < 2 ^ s.params.freqw) → cs.length * 2 ^ s.params.symw < 2 ^ 64 →
      s.env.si.now = cs.map Item.data ++ [Item.eos] →
        ∃ t1 t2 t3, exec .count s = .next t1 ∧ exec .build t1 = .next t2 ∧ exec .extract t2 = .next t3 ∧
          ∀ u3 : State, u3.params = t3.params → u3.eng = t3.eng → u3.env.si.now = cs.map Item.data ++ [Item.eos] →
            u3.env.bo.now = List.replicate (cs.length * 2 ^ s.params.symw) Answer.ok →
              ∃ t4 tr, exec .encode u3 = .next t4 ∧ t4.env.trace = u3.env.trace ++ tr ∧
                ∀ u4 : State, u4.params = t4.params → u4.eng = t4.eng →
                  u4.env.bi.now = (bytesPut tr).map Item.data ++ [Item.eos] →
                    u4.env.so.now = List.replicate cs.length Answer.ok →
                      ∃ t5 tr', exec .decode u4 = .next t5 ∧ t5.env.trace = u4.env.trace ++ tr' ∧
                        symbolsPut tr' = cs ∧ t5.eng.err = s.eng.err

/-! ### Invariants of every step -/

/-- The invariant holds after reset, of every instance whose parameters are within R6. -/
def Obligations.ResetMeetsTheInvariant : Prop :=
  State.reset.Inv ∧ ∀ p : Params, p.wf = true → (State.resetOf p).Inv

/-- Every step keeps the flags and the hidden state in order: BUSY and DONE never both 1, sessions open exactly from
their opening to their release or close, a fault about to be raised never `none`, PQ, WSTK and PATH empty between
steps. -/
def Obligations.StepKeepsTheControlInvariant : Prop :=
  ∀ s t : State, s.ControlInv → step s = .next t → t.ControlInv

/-- Every step keeps the whole invariant: the canonical form and the bounds of the three tables, the tree of R31, and the
code table of R33. -/
def Obligations.StepKeepsTheInvariant : Prop :=
  ∀ s t : State, s.Inv → step s = .next t → t.Inv

/-- In a state that meets the invariant every step answers a next state: no reachable state stops the model. -/
def Obligations.InvariantStatesNeverStop : Prop :=
  ∀ s : State, s.Inv → ∃ t, step s = .next t

/-! ### Whole-machine rules -/

/-- R285, R286: ERR and FINFO of a fault stay until CLR or reset. -/
def Obligations.OnlyClrAndResetLeaveAFault : Prop :=
  ∀ s t : State, s.ControlInv → s.eng.err ≠ .none → step s = .next t →
    (t.eng.err = s.eng.err ∧ t.eng.finfo = s.eng.finfo) ∨
      (t.eng.err = .none ∧ t.eng.finfo = 0 ∧
        (s.env.events.head? = some .reset ∨ s.env.events.head? = some (.write 4 clrWord) ∨
          s.eng.point = .start clrWord))

/-- R291, R130: HERR is cleared by CLR and reset only, and set by a refused write only. -/
def Obligations.HerrIsStickyAndOnlyARefusalSetsIt : Prop :=
  ∀ s t : State, step s = .next t →
    (s.eng.herr = true → t.eng.herr = false →
      s.env.events.head? = some .reset ∨ s.env.events.head? = some (.write 4 clrWord) ∨
        s.eng.point = .start clrWord) ∧
      (s.eng.herr = false → t.eng.herr = true →
        (∃ n v, n.val ≤ 4 ∧ s.env.events.head? = some (.write n v) ∧ s.accepts n v = false) ∨
          ∃ w, s.env.events.head? = some (.issue w) ∧ s.accepts 4 w = false)

/-- R47: who writes which table. -/
def Obligations.EachTableHasItsWriters : Prop :=
  ∀ (i : Instr) (s t : State), exec i s = .next t → i ≠ .clr →
    (i ≠ .setf → i ≠ .count → t.eng.freq = s.eng.freq) ∧
      (i ≠ .build → t.eng.node = s.eng.node ∧ t.eng.root = s.eng.root ∧ t.eng.ncnt = s.eng.ncnt ∧ t.eng.tk = s.eng.tk) ∧
      (i ≠ .extract → t.eng.code = s.eng.code) ∧ (i ≠ .extract → i ≠ .build → t.eng.ctv = s.eng.ctv)

/-- R22, R43, R80, R282, R283: the ends of a command. One that ends by a fault leaves x0..x3 as they were; one that has
ended has no session open; and ERR and FINFO are written, if at all, in the one step that ends it. -/
def Obligations.CommandsEndInOneStep : Prop :=
  (∀ (i : Instr) (s t : State), s.eng.err = .none → exec i s = .next t → t.eng.err ≠ .none →
    (∀ k, t.x k = s.x k) ∧ t.eng.busy = false ∧ t.eng.done = true) ∧
    (∀ (i : Instr) (s t : State), s.eng.busy = true → s.eng.sessions = (false, false, false, false) →
      exec i s = .next t → t.eng.busy = false → t.eng.sessions = (false, false, false, false)) ∧
    ∀ s t : State, s.microStep = some t →
      (t.eng.err = s.eng.err ∧ t.eng.finfo = s.eng.finfo ∧ t.eng.busy = s.eng.busy ∧ t.eng.done = s.eng.done ∧
          ∀ k, t.x k = s.x k) ∨
        (t.env = s.env ∧ t.eng.busy = false ∧ t.eng.done = true ∧
          ((t.eng.err = s.eng.err ∧ t.eng.finfo = s.eng.finfo) ∨ ∀ k, t.x k = s.x k))
end

