-- ==== Sys2Proof/Laws/State.lean ====
section
/-!
SUPPORT. What each update of the state leaves in each of the state's three fields, true by rfl, so that no proof
unfolds an update: a field of the engine or the environment that the right side does not name is as it was.
-/
namespace Sys2Proof.Machine

section
variable (s : State)

/-! ### Machine/Ops.lean -/

@[simp] theorem setX_params (i : Fin 4) (v : Word) : (s.setX i v).params = s.params := rfl
@[simp] theorem setX_eng (i : Fin 4) (v : Word) : (s.setX i v).eng = s.eng.setX i v := rfl
@[simp] theorem setX_env (i : Fin 4) (v : Word) : (s.setX i v).env = s.env := rfl

@[simp] theorem setFreq_params (c n : Nat) : (s.setFreq c n).params = s.params := rfl
@[simp] theorem setFreq_eng (c n : Nat) :
    (s.setFreq c n).eng = { s.eng with freq := writeCell 0 s.eng.freq c n } := rfl
@[simp] theorem setFreq_env (c n : Nat) : (s.setFreq c n).env = s.env := rfl
@[simp] theorem setFreq_nodeAt (c n : Nat) (j : Nat) : (s.setFreq c n).nodeAt j = s.nodeAt j := rfl
@[simp] theorem setFreq_codeAt (c n : Nat) (j : Nat) : (s.setFreq c n).codeAt j = s.codeAt j := rfl

@[simp] theorem clearFreq_params : (s.clearFreq).params = s.params := rfl
@[simp] theorem clearFreq_eng : (s.clearFreq).eng = { s.eng with freq := [] } := rfl
@[simp] theorem clearFreq_env : (s.clearFreq).env = s.env := rfl
@[simp] theorem clearFreq_nodeAt (j : Nat) : (s.clearFreq).nodeAt j = s.nodeAt j := rfl
@[simp] theorem clearFreq_codeAt (j : Nat) : (s.clearFreq).codeAt j = s.codeAt j := rfl

@[simp] theorem setNode_params (i : Nat) (n : Node) : (s.setNode i n).params = s.params := rfl
@[simp] theorem setNode_eng (i : Nat) (n : Node) :
    (s.setNode i n).eng = { s.eng with node := writeCell Node.zero s.eng.node i n } := rfl
@[simp] theorem setNode_env (i : Nat) (n : Node) : (s.setNode i n).env = s.env := rfl
@[simp] theorem setNode_freqAt (i : Nat) (n : Node) (j : Nat) : (s.setNode i n).freqAt j = s.freqAt j := rfl
@[simp] theorem setNode_codeAt (i : Nat) (n : Node) (j : Nat) : (s.setNode i n).codeAt j = s.codeAt j := rfl

@[simp] theorem setCode_params (c : Nat) (e : CodeEntry) : (s.setCode c e).params = s.params := rfl
@[simp] theorem setCode_eng (c : Nat) (e : CodeEntry) :
    (s.setCode c e).eng = { s.eng with code := writeCell CodeEntry.zero s.eng.code c e } := rfl
@[simp] theorem setCode_env (c : Nat) (e : CodeEntry) : (s.setCode c e).env = s.env := rfl
@[simp] theorem setCode_freqAt (c : Nat) (e : CodeEntry) (j : Nat) : (s.setCode c e).freqAt j = s.freqAt j := rfl
@[simp] theorem setCode_nodeAt (c : Nat) (e : CodeEntry) (j : Nat) : (s.setCode c e).nodeAt j = s.nodeAt j := rfl

@[simp] theorem clearCode_params : (s.clearCode).params = s.params := rfl
@[simp] theorem clearCode_eng : (s.clearCode).eng = { s.eng with code := [] } := rfl
@[simp] theorem clearCode_env : (s.clearCode).env = s.env := rfl
@[simp] theorem clearCode_freqAt (j : Nat) : (s.clearCode).freqAt j = s.freqAt j := rfl
@[simp] theorem clearCode_nodeAt (j : Nat) : (s.clearCode).nodeAt j = s.nodeAt j := rfl

@[simp] theorem goTo_params (p : Point) : (s.goTo p).params = s.params := rfl
@[simp] theorem goTo_eng (p : Point) : (s.goTo p).eng = { s.eng with point := p } := rfl
@[simp] theorem goTo_env (p : Point) : (s.goTo p).env = s.env := rfl
@[simp] theorem goTo_freqAt (p : Point) (j : Nat) : (s.goTo p).freqAt j = s.freqAt j := rfl
@[simp] theorem goTo_nodeAt (p : Point) (j : Nat) : (s.goTo p).nodeAt j = s.nodeAt j := rfl
@[simp] theorem goTo_codeAt (p : Point) (j : Nat) : (s.goTo p).codeAt j = s.codeAt j := rfl

@[simp] theorem accept_params (w : Word) : (s.accept w).params = s.params := rfl
@[simp] theorem accept_eng (w : Word) :
    (s.accept w).eng = { s.eng with opr := opField w, busy := true, done := false, point := .start w } := rfl
@[simp] theorem accept_env (w : Word) : (s.accept w).env = s.env := rfl
@[simp] theorem accept_freqAt (w : Word) (j : Nat) : (s.accept w).freqAt j = s.freqAt j := rfl
@[simp] theorem accept_nodeAt (w : Word) (j : Nat) : (s.accept w).nodeAt j = s.nodeAt j := rfl
@[simp] theorem accept_codeAt (w : Word) (j : Nat) : (s.accept w).codeAt j = s.codeAt j := rfl

@[simp] theorem complete_params (rs : List (Fin 4 × Word)) : (s.complete rs).params = s.params := rfl
@[simp] theorem complete_eng (rs : List (Fin 4 × Word)) :
    (s.complete rs).eng = { s.eng.setXs rs with busy := false, done := true, point := .idle } := rfl
@[simp] theorem complete_env (rs : List (Fin 4 × Word)) : (s.complete rs).env = s.env := rfl

@[simp] theorem raiseFault_params (e : ErrCode) (info : Word) : (s.raiseFault e info).params = s.params := rfl
@[simp] theorem raiseFault_eng (e : ErrCode) (info : Word) :
    (s.raiseFault e info).eng =
      { s.eng with err := e, finfo := info, busy := false, done := true, point := .idle } := rfl
@[simp] theorem raiseFault_env (e : ErrCode) (info : Word) : (s.raiseFault e info).env = s.env := rfl
@[simp] theorem raiseFault_freqAt (e : ErrCode) (info : Word) (j : Nat) : (s.raiseFault e info).freqAt j = s.freqAt j := rfl
@[simp] theorem raiseFault_nodeAt (e : ErrCode) (info : Word) (j : Nat) : (s.raiseFault e info).nodeAt j = s.nodeAt j := rfl
@[simp] theorem raiseFault_codeAt (e : ErrCode) (info : Word) (j : Nat) : (s.raiseFault e info).codeAt j = s.codeAt j := rfl

@[simp] theorem clear_params : (s.clear).params = s.params := rfl
@[simp] theorem clear_eng : (s.clear).eng = { Engine.reset with done := true } := rfl
@[simp] theorem clear_env : (s.clear).env = s.env := rfl

/-! ### Machine/Channels.lean -/

@[simp] theorem record_params (o : Obs) : (s.record o).params = s.params := rfl
@[simp] theorem record_eng (o : Obs) : (s.record o).eng = s.eng := rfl
@[simp] theorem record_env (o : Obs) : (s.record o).env = { s.env with trace := s.env.trace ++ [o] } := rfl
@[simp] theorem record_freqAt (o : Obs) (j : Nat) : (s.record o).freqAt j = s.freqAt j := rfl
@[simp] theorem record_nodeAt (o : Obs) (j : Nat) : (s.record o).nodeAt j = s.nodeAt j := rfl
@[simp] theorem record_codeAt (o : Obs) (j : Nat) : (s.record o).codeAt j = s.codeAt j := rfl

@[simp] theorem openSi_params : (s.openSi).params = s.params := rfl
@[simp] theorem openSi_eng : (s.openSi).eng = { s.eng with siOpen := true } := rfl
@[simp] theorem openSi_env : (s.openSi).env = s.env := rfl
@[simp] theorem openSi_freqAt (j : Nat) : (s.openSi).freqAt j = s.freqAt j := rfl
@[simp] theorem openSi_nodeAt (j : Nat) : (s.openSi).nodeAt j = s.nodeAt j := rfl
@[simp] theorem openSi_codeAt (j : Nat) : (s.openSi).codeAt j = s.codeAt j := rfl

@[simp] theorem tookSi_params (it : Item Nat) (rest : List (Item Nat)) : (s.tookSi it rest).params = s.params := rfl
@[simp] theorem tookSi_eng (it : Item Nat) (rest : List (Item Nat)) : (s.tookSi it rest).eng = s.eng := rfl
@[simp] theorem tookSi_env (it : Item Nat) (rest : List (Item Nat)) :
    (s.tookSi it rest).env =
      { s.env with si := { s.env.si with now := rest }, trace := s.env.trace ++ [.tookSi it] } := rfl
@[simp] theorem tookSi_freqAt (it : Item Nat) (rest : List (Item Nat)) (j : Nat) : (s.tookSi it rest).freqAt j = s.freqAt j := rfl
@[simp] theorem tookSi_nodeAt (it : Item Nat) (rest : List (Item Nat)) (j : Nat) : (s.tookSi it rest).nodeAt j = s.nodeAt j := rfl
@[simp] theorem tookSi_codeAt (it : Item Nat) (rest : List (Item Nat)) (j : Nat) : (s.tookSi it rest).codeAt j = s.codeAt j := rfl

@[simp] theorem releaseSi_params : (s.releaseSi).params = s.params := rfl
@[simp] theorem releaseSi_eng : (s.releaseSi).eng = { s.eng with siOpen := false } := rfl
@[simp] theorem releaseSi_env :
    (s.releaseSi).env = { s.env with si := s.env.si.endSession, trace := s.env.trace ++ [.release .si] } := rfl
@[simp] theorem releaseSi_freqAt (j : Nat) : (s.releaseSi).freqAt j = s.freqAt j := rfl
@[simp] theorem releaseSi_nodeAt (j : Nat) : (s.releaseSi).nodeAt j = s.nodeAt j := rfl
@[simp] theorem releaseSi_codeAt (j : Nat) : (s.releaseSi).codeAt j = s.codeAt j := rfl

@[simp] theorem openBi_params : (s.openBi).params = s.params := rfl
@[simp] theorem openBi_eng : (s.openBi).eng = { s.eng with biOpen := true } := rfl
@[simp] theorem openBi_env : (s.openBi).env = s.env := rfl
@[simp] theorem openBi_freqAt (j : Nat) : (s.openBi).freqAt j = s.freqAt j := rfl
@[simp] theorem openBi_nodeAt (j : Nat) : (s.openBi).nodeAt j = s.nodeAt j := rfl
@[simp] theorem openBi_codeAt (j : Nat) : (s.openBi).codeAt j = s.codeAt j := rfl

@[simp] theorem tookBi_params (it : Item Byte) (rest : List (Item Byte)) : (s.tookBi it rest).params = s.params := rfl
@[simp] theorem tookBi_eng (it : Item Byte) (rest : List (Item Byte)) : (s.tookBi it rest).eng = s.eng := rfl
@[simp] theorem tookBi_env (it : Item Byte) (rest : List (Item Byte)) :
    (s.tookBi it rest).env =
      { s.env with bi := { s.env.bi with now := rest }, trace := s.env.trace ++ [.tookBi it] } := rfl
@[simp] theorem tookBi_freqAt (it : Item Byte) (rest : List (Item Byte)) (j : Nat) : (s.tookBi it rest).freqAt j = s.freqAt j := rfl
@[simp] theorem tookBi_nodeAt (it : Item Byte) (rest : List (Item Byte)) (j : Nat) : (s.tookBi it rest).nodeAt j = s.nodeAt j := rfl
@[simp] theorem tookBi_codeAt (it : Item Byte) (rest : List (Item Byte)) (j : Nat) : (s.tookBi it rest).codeAt j = s.codeAt j := rfl

@[simp] theorem releaseBi_params : (s.releaseBi).params = s.params := rfl
@[simp] theorem releaseBi_eng : (s.releaseBi).eng = { s.eng with biOpen := false } := rfl
@[simp] theorem releaseBi_env :
    (s.releaseBi).env = { s.env with bi := s.env.bi.endSession, trace := s.env.trace ++ [.release .bi] } := rfl
@[simp] theorem releaseBi_freqAt (j : Nat) : (s.releaseBi).freqAt j = s.freqAt j := rfl
@[simp] theorem releaseBi_nodeAt (j : Nat) : (s.releaseBi).nodeAt j = s.nodeAt j := rfl
@[simp] theorem releaseBi_codeAt (j : Nat) : (s.releaseBi).codeAt j = s.codeAt j := rfl

@[simp] theorem openBo_params : (s.openBo).params = s.params := rfl
@[simp] theorem openBo_eng : (s.openBo).eng = { s.eng with boOpen := true } := rfl
@[simp] theorem openBo_env : (s.openBo).env = s.env := rfl
@[simp] theorem openBo_freqAt (j : Nat) : (s.openBo).freqAt j = s.freqAt j := rfl
@[simp] theorem openBo_nodeAt (j : Nat) : (s.openBo).nodeAt j = s.nodeAt j := rfl
@[simp] theorem openBo_codeAt (j : Nat) : (s.openBo).codeAt j = s.codeAt j := rfl

@[simp] theorem closeBo_params : (s.closeBo).params = s.params := rfl
@[simp] theorem closeBo_eng : (s.closeBo).eng = { s.eng with boOpen := false } := rfl
@[simp] theorem closeBo_env :
    (s.closeBo).env = { s.env with bo := s.env.bo.endSession, trace := s.env.trace ++ [.close .bo] } := rfl
@[simp] theorem closeBo_freqAt (j : Nat) : (s.closeBo).freqAt j = s.freqAt j := rfl
@[simp] theorem closeBo_nodeAt (j : Nat) : (s.closeBo).nodeAt j = s.nodeAt j := rfl
@[simp] theorem closeBo_codeAt (j : Nat) : (s.closeBo).codeAt j = s.codeAt j := rfl

@[simp] theorem openSo_params : (s.openSo).params = s.params := rfl
@[simp] theorem openSo_eng : (s.openSo).eng = { s.eng with soOpen := true } := rfl
@[simp] theorem openSo_env : (s.openSo).env = s.env := rfl
@[simp] theorem openSo_freqAt (j : Nat) : (s.openSo).freqAt j = s.freqAt j := rfl
@[simp] theorem openSo_nodeAt (j : Nat) : (s.openSo).nodeAt j = s.nodeAt j := rfl
@[simp] theorem openSo_codeAt (j : Nat) : (s.openSo).codeAt j = s.codeAt j := rfl

@[simp] theorem closeSo_params : (s.closeSo).params = s.params := rfl
@[simp] theorem closeSo_eng : (s.closeSo).eng = { s.eng with soOpen := false } := rfl
@[simp] theorem closeSo_env :
    (s.closeSo).env = { s.env with so := s.env.so.endSession, trace := s.env.trace ++ [.close .so] } := rfl
@[simp] theorem closeSo_freqAt (j : Nat) : (s.closeSo).freqAt j = s.freqAt j := rfl
@[simp] theorem closeSo_nodeAt (j : Nat) : (s.closeSo).nodeAt j = s.nodeAt j := rfl
@[simp] theorem closeSo_codeAt (j : Nat) : (s.closeSo).codeAt j = s.codeAt j := rfl

@[simp] theorem offerSi_params (it : Item Nat) : (s.offerSi it).params = s.params := rfl
@[simp] theorem offerSi_eng (it : Item Nat) : (s.offerSi it).eng = s.eng := rfl
@[simp] theorem offerSi_env (it : Item Nat) : (s.offerSi it).env = { s.env with si := s.env.si.add it } := rfl
@[simp] theorem offerSi_freqAt (it : Item Nat) (j : Nat) : (s.offerSi it).freqAt j = s.freqAt j := rfl
@[simp] theorem offerSi_nodeAt (it : Item Nat) (j : Nat) : (s.offerSi it).nodeAt j = s.nodeAt j := rfl
@[simp] theorem offerSi_codeAt (it : Item Nat) (j : Nat) : (s.offerSi it).codeAt j = s.codeAt j := rfl

@[simp] theorem offerBi_params (it : Item Byte) : (s.offerBi it).params = s.params := rfl
@[simp] theorem offerBi_eng (it : Item Byte) : (s.offerBi it).eng = s.eng := rfl
@[simp] theorem offerBi_env (it : Item Byte) : (s.offerBi it).env = { s.env with bi := s.env.bi.add it } := rfl
@[simp] theorem offerBi_freqAt (it : Item Byte) (j : Nat) : (s.offerBi it).freqAt j = s.freqAt j := rfl
@[simp] theorem offerBi_nodeAt (it : Item Byte) (j : Nat) : (s.offerBi it).nodeAt j = s.nodeAt j := rfl
@[simp] theorem offerBi_codeAt (it : Item Byte) (j : Nat) : (s.offerBi it).codeAt j = s.codeAt j := rfl

@[simp] theorem answerBo_params (a : Answer) : (s.answerBo a).params = s.params := rfl
@[simp] theorem answerBo_eng (a : Answer) : (s.answerBo a).eng = s.eng := rfl
@[simp] theorem answerBo_env (a : Answer) : (s.answerBo a).env = { s.env with bo := s.env.bo.add a } := rfl
@[simp] theorem answerBo_freqAt (a : Answer) (j : Nat) : (s.answerBo a).freqAt j = s.freqAt j := rfl
@[simp] theorem answerBo_nodeAt (a : Answer) (j : Nat) : (s.answerBo a).nodeAt j = s.nodeAt j := rfl
@[simp] theorem answerBo_codeAt (a : Answer) (j : Nat) : (s.answerBo a).codeAt j = s.codeAt j := rfl

@[simp] theorem answerSo_params (a : Answer) : (s.answerSo a).params = s.params := rfl
@[simp] theorem answerSo_eng (a : Answer) : (s.answerSo a).eng = s.eng := rfl
@[simp] theorem answerSo_env (a : Answer) : (s.answerSo a).env = { s.env with so := s.env.so.add a } := rfl
@[simp] theorem answerSo_freqAt (a : Answer) (j : Nat) : (s.answerSo a).freqAt j = s.freqAt j := rfl
@[simp] theorem answerSo_nodeAt (a : Answer) (j : Nat) : (s.answerSo a).nodeAt j = s.nodeAt j := rfl
@[simp] theorem answerSo_codeAt (a : Answer) (j : Nat) : (s.answerSo a).codeAt j = s.codeAt j := rfl

/-! ### Machine/TreeBuilder.lean and Machine/CodeTableExtractor.lean -/

@[simp] theorem pqInsert_params (i : Nat) : (s.pqInsert i).params = s.params := rfl
@[simp] theorem pqInsert_eng (i : Nat) : (s.pqInsert i).eng = { s.eng with pq := s.eng.pq ++ [i] } := rfl
@[simp] theorem pqInsert_env (i : Nat) : (s.pqInsert i).env = s.env := rfl
@[simp] theorem pqInsert_freqAt (i : Nat) (j : Nat) : (s.pqInsert i).freqAt j = s.freqAt j := rfl
@[simp] theorem pqInsert_nodeAt (i : Nat) (j : Nat) : (s.pqInsert i).nodeAt j = s.nodeAt j := rfl
@[simp] theorem pqInsert_codeAt (i : Nat) (j : Nat) : (s.pqInsert i).codeAt j = s.codeAt j := rfl

@[simp] theorem publish_params (k : TreeKind) (r m : Nat) : (s.publish k r m).params = s.params := rfl
@[simp] theorem publish_eng (k : TreeKind) (r m : Nat) :
    (s.publish k r m).eng = { s.eng with tk := k, root := r, ncnt := m, ctv := false } := rfl
@[simp] theorem publish_env (k : TreeKind) (r m : Nat) : (s.publish k r m).env = s.env := rfl
@[simp] theorem publish_freqAt (k : TreeKind) (r m : Nat) (j : Nat) : (s.publish k r m).freqAt j = s.freqAt j := rfl
@[simp] theorem publish_nodeAt (k : TreeKind) (r m : Nat) (j : Nat) : (s.publish k r m).nodeAt j = s.nodeAt j := rfl
@[simp] theorem publish_codeAt (k : TreeKind) (r m : Nat) (j : Nat) : (s.publish k r m).codeAt j = s.codeAt j := rfl

@[simp] theorem setWalk_params (w : List Frame) (p : List Bool) : (s.setWalk w p).params = s.params := rfl
@[simp] theorem setWalk_eng (w : List Frame) (p : List Bool) :
    (s.setWalk w p).eng = { s.eng with wstk := w, path := p } := rfl
@[simp] theorem setWalk_env (w : List Frame) (p : List Bool) : (s.setWalk w p).env = s.env := rfl
@[simp] theorem setWalk_freqAt (w : List Frame) (p : List Bool) (j : Nat) : (s.setWalk w p).freqAt j = s.freqAt j := rfl
@[simp] theorem setWalk_nodeAt (w : List Frame) (p : List Bool) (j : Nat) : (s.setWalk w p).nodeAt j = s.nodeAt j := rfl
@[simp] theorem setWalk_codeAt (w : List Frame) (p : List Bool) (j : Nat) : (s.setWalk w p).codeAt j = s.codeAt j := rfl

/-! ### Machine/Encoder.lean and Machine/Decoder.lean -/

@[simp] theorem clearAcc_params : (s.clearAcc).params = s.params := rfl
@[simp] theorem clearAcc_eng : (s.clearAcc).eng = { s.eng with acc := 0, nacc := 0 } := rfl
@[simp] theorem clearAcc_env : (s.clearAcc).env = s.env := rfl
@[simp] theorem clearAcc_freqAt (j : Nat) : (s.clearAcc).freqAt j = s.freqAt j := rfl
@[simp] theorem clearAcc_nodeAt (j : Nat) : (s.clearAcc).nodeAt j = s.nodeAt j := rfl
@[simp] theorem clearAcc_codeAt (j : Nat) : (s.clearAcc).codeAt j = s.codeAt j := rfl

@[simp] theorem countByte_params : (s.countByte).params = s.params := rfl
@[simp] theorem countByte_eng : (s.countByte).eng = { s.eng with nby := s.eng.nby + 1 } := rfl
@[simp] theorem countByte_env : (s.countByte).env = s.env := rfl
@[simp] theorem countByte_freqAt (j : Nat) : (s.countByte).freqAt j = s.freqAt j := rfl
@[simp] theorem countByte_nodeAt (j : Nat) : (s.countByte).nodeAt j = s.nodeAt j := rfl
@[simp] theorem countByte_codeAt (j : Nat) : (s.countByte).codeAt j = s.codeAt j := rfl

@[simp] theorem appendBit_params (b : Bool) : (s.appendBit b).params = s.params := rfl
@[simp] theorem appendBit_eng (b : Bool) :
    (s.appendBit b).eng = { s.eng with acc := placeBit s.eng.acc s.eng.nacc b, nb := s.eng.nb + 1 } := rfl
@[simp] theorem appendBit_env (b : Bool) : (s.appendBit b).env = s.env := rfl
@[simp] theorem appendBit_freqAt (b : Bool) (j : Nat) : (s.appendBit b).freqAt j = s.freqAt j := rfl
@[simp] theorem appendBit_nodeAt (b : Bool) (j : Nat) : (s.appendBit b).nodeAt j = s.nodeAt j := rfl
@[simp] theorem appendBit_codeAt (b : Bool) (j : Nat) : (s.appendBit b).codeAt j = s.codeAt j := rfl

@[simp] theorem countBit_params : (s.countBit).params = s.params := rfl
@[simp] theorem countBit_eng : (s.countBit).eng = { s.eng with nacc := s.eng.nacc + 1 } := rfl
@[simp] theorem countBit_env : (s.countBit).env = s.env := rfl
@[simp] theorem countBit_freqAt (j : Nat) : (s.countBit).freqAt j = s.freqAt j := rfl
@[simp] theorem countBit_nodeAt (j : Nat) : (s.countBit).nodeAt j = s.nodeAt j := rfl
@[simp] theorem countBit_codeAt (j : Nat) : (s.countBit).codeAt j = s.codeAt j := rfl

@[simp] theorem countSymbol_params : (s.countSymbol).params = s.params := rfl
@[simp] theorem countSymbol_eng : (s.countSymbol).eng = { s.eng with ns := s.eng.ns + 1 } := rfl
@[simp] theorem countSymbol_env : (s.countSymbol).env = s.env := rfl
@[simp] theorem countSymbol_freqAt (j : Nat) : (s.countSymbol).freqAt j = s.freqAt j := rfl
@[simp] theorem countSymbol_nodeAt (j : Nat) : (s.countSymbol).nodeAt j = s.nodeAt j := rfl
@[simp] theorem countSymbol_codeAt (j : Nat) : (s.countSymbol).codeAt j = s.codeAt j := rfl

@[simp] theorem setCur_params (i : Nat) : (s.setCur i).params = s.params := rfl
@[simp] theorem setCur_eng (i : Nat) : (s.setCur i).eng = { s.eng with cur := i } := rfl
@[simp] theorem setCur_env (i : Nat) : (s.setCur i).env = s.env := rfl
@[simp] theorem setCur_freqAt (i : Nat) (j : Nat) : (s.setCur i).freqAt j = s.freqAt j := rfl
@[simp] theorem setCur_nodeAt (i : Nat) (j : Nat) : (s.setCur i).nodeAt j = s.nodeAt j := rfl
@[simp] theorem setCur_codeAt (i : Nat) (j : Nat) : (s.setCur i).codeAt j = s.codeAt j := rfl

@[simp] theorem emitted_params : (s.emitted).params = s.params := rfl
@[simp] theorem emitted_eng : (s.emitted).eng = { s.eng with ns := s.eng.ns + 1, cur := s.eng.root } := rfl
@[simp] theorem emitted_env : (s.emitted).env = s.env := rfl
@[simp] theorem emitted_freqAt (j : Nat) : (s.emitted).freqAt j = s.freqAt j := rfl
@[simp] theorem emitted_nodeAt (j : Nat) : (s.emitted).nodeAt j = s.nodeAt j := rfl
@[simp] theorem emitted_codeAt (j : Nat) : (s.emitted).codeAt j = s.codeAt j := rfl

@[simp] theorem loadByte_params (v : Byte) : (s.loadByte v).params = s.params := rfl
@[simp] theorem loadByte_eng (v : Byte) :
    (s.loadByte v).eng = { s.eng with sh := v, nsh := 8, nby := s.eng.nby + 1 } := rfl
@[simp] theorem loadByte_env (v : Byte) : (s.loadByte v).env = s.env := rfl
@[simp] theorem loadByte_freqAt (v : Byte) (j : Nat) : (s.loadByte v).freqAt j = s.freqAt j := rfl
@[simp] theorem loadByte_nodeAt (v : Byte) (j : Nat) : (s.loadByte v).nodeAt j = s.nodeAt j := rfl
@[simp] theorem loadByte_codeAt (v : Byte) (j : Nat) : (s.loadByte v).codeAt j = s.codeAt j := rfl

@[simp] theorem readBit_params : (s.readBit.2).params = s.params := rfl
@[simp] theorem readBit_eng :
    (s.readBit.2).eng = { s.eng with sh := s.eng.sh <<< 1, nsh := s.eng.nsh - 1, nb := s.eng.nb + 1 } := rfl
@[simp] theorem readBit_env : (s.readBit.2).env = s.env := rfl
@[simp] theorem readBit_freqAt (j : Nat) : (s.readBit.2).freqAt j = s.freqAt j := rfl
@[simp] theorem readBit_nodeAt (j : Nat) : (s.readBit.2).nodeAt j = s.nodeAt j := rfl
@[simp] theorem readBit_codeAt (j : Nat) : (s.readBit.2).codeAt j = s.codeAt j := rfl

/-! ### Machine/HostPort.lean -/

@[simp] theorem withEvents_params (es : List Event) : (s.withEvents es).params = s.params := rfl
@[simp] theorem withEvents_eng (es : List Event) : (s.withEvents es).eng = s.eng := rfl
@[simp] theorem withEvents_env (es : List Event) : (s.withEvents es).env = { s.env with events := es } := rfl
@[simp] theorem withEvents_freqAt (es : List Event) (j : Nat) : (s.withEvents es).freqAt j = s.freqAt j := rfl
@[simp] theorem withEvents_nodeAt (es : List Event) (j : Nat) : (s.withEvents es).nodeAt j = s.nodeAt j := rfl
@[simp] theorem withEvents_codeAt (es : List Event) (j : Nat) : (s.withEvents es).codeAt j = s.codeAt j := rfl

@[simp] theorem hostRead_params (n : Fin 8) : (s.hostRead n).params = s.params := rfl
@[simp] theorem hostRead_eng (n : Fin 8) : (s.hostRead n).eng = s.eng := rfl
@[simp] theorem hostRead_env (n : Fin 8) :
    (s.hostRead n).env = { s.env with trace := s.env.trace ++ [.read n (s.hostReg n)] } := rfl
@[simp] theorem hostRead_freqAt (n : Fin 8) (j : Nat) : (s.hostRead n).freqAt j = s.freqAt j := rfl
@[simp] theorem hostRead_nodeAt (n : Fin 8) (j : Nat) : (s.hostRead n).nodeAt j = s.nodeAt j := rfl
@[simp] theorem hostRead_codeAt (n : Fin 8) (j : Nat) : (s.hostRead n).codeAt j = s.codeAt j := rfl

@[simp] theorem assertReset_params : (s.assertReset).params = s.params := rfl
@[simp] theorem assertReset_eng : (s.assertReset).eng = Engine.reset := rfl

@[simp] theorem readyFor_params (w : Word) : (s.readyFor w).params = s.params := rfl
@[simp] theorem readyFor_eng (w : Word) :
    (s.readyFor w).eng =
      { s.eng with busy := false, point := .idle, err := if w = clrWord then s.eng.err else .none } := rfl
@[simp] theorem readyFor_env (w : Word) : (s.readyFor w).env = s.env := rfl
@[simp] theorem readyFor_freqAt (w : Word) (j : Nat) : (s.readyFor w).freqAt j = s.freqAt j := rfl
@[simp] theorem readyFor_nodeAt (w : Word) (j : Nat) : (s.readyFor w).nodeAt j = s.nodeAt j := rfl
@[simp] theorem readyFor_codeAt (w : Word) (j : Nat) : (s.readyFor w).codeAt j = s.codeAt j := rfl

/-! ### The argument registers -/

@[simp] theorem setX_zero (e : Engine) (v : Word) : e.setX 0 v = { e with x0 := v } := rfl
@[simp] theorem setX_one (e : Engine) (v : Word) : e.setX 1 v = { e with x1 := v } := rfl
@[simp] theorem setX_two (e : Engine) (v : Word) : e.setX 2 v = { e with x2 := v } := rfl
@[simp] theorem setX_three (e : Engine) (v : Word) : e.setX 3 v = { e with x3 := v } := rfl
@[simp] theorem setXs_nil (e : Engine) : e.setXs [] = e := rfl
@[simp] theorem setXs_cons (e : Engine) (w : Fin 4 × Word) (ws : List (Fin 4 × Word)) :
    e.setXs (w :: ws) = (e.setX w.1 w.2).setXs ws := rfl

@[simp] theorem x_zero : s.x 0 = s.eng.x0 := rfl
@[simp] theorem x_one : s.x 1 = s.eng.x1 := rfl
@[simp] theorem x_two : s.x 2 = s.eng.x2 := rfl
@[simp] theorem x_three : s.x 3 = s.eng.x3 := rfl

end

end Sys2Proof.Machine
end

