-- ==== Sys2Proof/Laws/Tables.lean ====
section
/-!
SUPPORT. The laws of the tables: read after write, and that every table operation keeps the canonical form.
-/
namespace Sys2Proof.Machine

section
variable {α : Type} (d : α)

@[simp] theorem readCell_nil (k : Nat) : readCell d [] k = d := rfl

theorem eraseCell_no_key (t : Table α) (k : Nat) : ∀ c ∈ eraseCell t k, c.1 ≠ k := by
  induction t with
  | nil => simp [eraseCell]
  | cons a t ih =>
    by_cases h : a.1 = k
    · simpa [eraseCell, h] using ih
    · simpa [eraseCell, h] using ih

theorem eraseCell_subset (t : Table α) (k : Nat) : ∀ c ∈ eraseCell t k, c ∈ t := by
  induction t with
  | nil => simp [eraseCell]
  | cons a t ih =>
    intro c hc
    by_cases h : a.1 = k
    · exact List.mem_cons_of_mem _ (ih c (by simpa [eraseCell, h] using hc))
    · rcases (by simpa [eraseCell, h] using hc : c = a ∨ c ∈ eraseCell t k) with rfl | h'
      · exact List.mem_cons_self
      · exact List.mem_cons_of_mem _ (ih c h')

theorem readCell_of_no_key (t : Table α) (k : Nat) (h : ∀ c ∈ t, c.1 ≠ k) : readCell d t k = d := by
  induction t with
  | nil => rfl
  | cons a t ih =>
    have h1 := h a List.mem_cons_self
    simp only [readCell, if_neg h1]
    exact ih fun c hc => h c (List.mem_cons_of_mem _ hc)

theorem readCell_eraseCell_same (t : Table α) (k : Nat) : readCell d (eraseCell t k) k = d :=
  readCell_of_no_key d _ k (eraseCell_no_key t k)

theorem readCell_eraseCell_ne (t : Table α) {k j : Nat} (h : j ≠ k) :
    readCell d (eraseCell t k) j = readCell d t j := by
  induction t with
  | nil => rfl
  | cons a t ih =>
    by_cases h1 : a.1 = k
    · have h2 : a.1 ≠ j := fun h3 => h (h3.symm.trans h1)
      simp [eraseCell, readCell, h1, ih, h.symm]
    · obtain ⟨i, v⟩ := a
      by_cases h2 : i = j
      · subst h2
        simp [eraseCell, readCell, h]
      · have h1 : i ≠ k := h1
        simp [eraseCell, readCell, h1, h2, ih]

theorem readCell_insertCell_same (t : Table α) (k : Nat) (v : α) (h : ∀ c ∈ t, c.1 ≠ k) :
    readCell d (insertCell t k v) k = v := by
  induction t with
  | nil => simp [insertCell, readCell]
  | cons a t ih =>
    have h1 := h a List.mem_cons_self
    by_cases h2 : k < a.1
    · simp [insertCell, readCell, h2]
    · simp [insertCell, readCell, h2, h1, ih fun c hc => h c (List.mem_cons_of_mem _ hc)]

theorem readCell_insertCell_ne (t : Table α) (v : α) {k j : Nat} (h : j ≠ k) :
    readCell d (insertCell t k v) j = readCell d t j := by
  induction t with
  | nil => simp [insertCell, readCell, h.symm]
  | cons a t ih =>
    by_cases h2 : k < a.1
    · simp [insertCell, readCell, h2, h.symm]
    · obtain ⟨i, w⟩ := a
      by_cases h3 : i = j
      · subst h3
        have h2 : ¬ k < i := h2
        simp [insertCell, readCell, h2]
      · have h2 : ¬ k < i := h2
        simp [insertCell, readCell, h2, h3, ih]

theorem mem_insertCell (t : Table α) (k : Nat) (v : α) (c : Nat × α) :
    c ∈ insertCell t k v ↔ c = (k, v) ∨ c ∈ t := by
  induction t with
  | nil => simp [insertCell]
  | cons a t ih =>
    by_cases h : k < a.1
    · simp [insertCell, h]
    · simp only [insertCell, if_neg h, List.mem_cons, ih]
      tauto

theorem eraseCell_sorted {t : Table α} (k : Nat) (h : t.Pairwise fun a b => a.1 < b.1) :
    (eraseCell t k).Pairwise fun a b => a.1 < b.1 := by
  induction t with
  | nil => exact List.Pairwise.nil
  | cons a t ih =>
    rw [List.pairwise_cons] at h
    by_cases hk : a.1 = k
    · simpa [eraseCell, hk] using ih h.2
    · simp only [eraseCell, if_neg hk, List.pairwise_cons]
      exact ⟨fun b hb => h.1 b (eraseCell_subset t k b hb), ih h.2⟩

theorem insertCell_sorted {t : Table α} (k : Nat) (v : α) (h : t.Pairwise fun a b => a.1 < b.1)
    (hk : ∀ c ∈ t, c.1 ≠ k) : (insertCell t k v).Pairwise fun a b => a.1 < b.1 := by
  induction t with
  | nil => simp [insertCell]
  | cons a t ih =>
    rw [List.pairwise_cons] at h
    by_cases hl : k < a.1
    · simp only [insertCell, if_pos hl, List.pairwise_cons]
      refine ⟨fun b hb => ?_, h.1, h.2⟩
      rcases List.mem_cons.1 hb with rfl | hb
      · exact hl
      · exact hl.trans (h.1 b hb)
    · simp only [insertCell, if_neg hl, List.pairwise_cons]
      refine ⟨fun b hb => ?_, ih h.2 fun c hc => hk c (List.mem_cons_of_mem _ hc)⟩
      rcases (mem_insertCell t k v b).1 hb with rfl | hb
      · have := hk a List.mem_cons_self
        dsimp only
        omega
      · exact h.1 b hb

theorem mem_of_readCell {t : Table α} {k : Nat} (h : readCell d t k ≠ d) : (k, readCell d t k) ∈ t := by
  induction t with
  | nil => exact absurd rfl h
  | cons a t ih =>
    by_cases hk : a.1 = k
    · subst hk
      simp [readCell]
    · simp only [readCell, if_neg hk] at h ⊢
      exact List.mem_cons_of_mem _ (ih h)

variable [DecidableEq α]

/-- The one law of a table write: the written index reads the written element, every other index reads as before.
It needs no canonical form. -/
theorem readCell_writeCell (t : Table α) (k j : Nat) (v : α) :
    readCell d (writeCell d t k v) j = if j = k then v else readCell d t j := by
  unfold writeCell
  by_cases h : j = k
  · subst h
    by_cases hv : v = d
    · simp [hv, readCell_eraseCell_same]
    · simp [hv, readCell_insertCell_same d _ _ _ (eraseCell_no_key t j)]
  · by_cases hv : v = d
    · simp [hv, h, readCell_eraseCell_ne d t h]
    · simp [hv, h, readCell_insertCell_ne d _ _ h, readCell_eraseCell_ne d t h]

theorem mem_writeCell {t : Table α} {k : Nat} {v : α} {c : Nat × α} (h : c ∈ writeCell d t k v) :
    (c = (k, v) ∧ v ≠ d) ∨ (c ∈ t ∧ c.1 ≠ k) := by
  unfold writeCell at h
  by_cases hv : v = d
  · rw [if_pos hv] at h
    exact .inr ⟨eraseCell_subset t k c h, eraseCell_no_key t k c h⟩
  · rw [if_neg hv, mem_insertCell] at h
    rcases h with h | h
    · exact .inl ⟨h, hv⟩
    · exact .inr ⟨eraseCell_subset t k c h, eraseCell_no_key t k c h⟩

theorem tableWf_iff (size : Nat) (t : Table α) :
    tableWf d size t = true ↔
      t.Pairwise (fun a b => a.1 < b.1) ∧ ∀ c ∈ t, c.1 < size ∧ c.2 ≠ d := by
  simp [tableWf]

/-- A write below the table's size keeps the canonical form. -/
theorem writeCell_keeps_wf {size : Nat} {t : Table α} (k : Nat) (v : α) (h : tableWf d size t = true)
    (hk : k < size) : tableWf d size (writeCell d t k v) = true := by
  rw [tableWf_iff] at h ⊢
  refine ⟨?_, fun c hc => ?_⟩
  · unfold writeCell
    by_cases hv : v = d
    · simpa [hv] using eraseCell_sorted k h.1
    · simpa [hv] using insertCell_sorted k v (eraseCell_sorted k h.1) (eraseCell_no_key t k)
  · rcases mem_writeCell d hc with ⟨rfl, hv⟩ | ⟨hc, _⟩
    · exact ⟨hk, hv⟩
    · exact h.2 c hc

@[simp] theorem tableWf_nil (size : Nat) : tableWf d size ([] : Table α) = true := rfl

theorem readCell_of_mem {size : Nat} {t : Table α} (h : tableWf d size t = true) {c : Nat × α} (hc : c ∈ t) :
    readCell d t c.1 = c.2 := by
  rw [tableWf_iff] at h
  induction t with
  | nil => cases hc
  | cons a t ih =>
    obtain ⟨hs, hm⟩ := h
    rw [List.pairwise_cons] at hs
    rcases List.mem_cons.1 hc with rfl | hc
    · simp [readCell]
    · have := hs.1 c hc
      rw [readCell, if_neg (by omega)]
      exact ih ⟨hs.2, fun e he => hm e (List.mem_cons_of_mem _ he)⟩ hc

/-- In a table of the canonical form every index at or above the size reads the reset value. -/
theorem readCell_of_size_le {size k : Nat} {t : Table α} (h : tableWf d size t = true) (hk : size ≤ k) :
    readCell d t k = d := by
  by_contra hne
  have hm := mem_of_readCell d hne
  have := (((tableWf_iff d size t).1 h).2 _ hm).1
  dsimp only at this
  omega

/-- The canonical form is canonical: tables that read alike are equal. -/
theorem table_ext {size : Nat} {t u : Table α} (ht : tableWf d size t = true) (hu : tableWf d size u = true)
    (h : ∀ k, readCell d t k = readCell d u k) : t = u := by
  rw [tableWf_iff] at ht hu
  induction t generalizing u with
  | nil =>
    cases u with
    | nil => rfl
    | cons b u =>
      have := h b.1
      simp [readCell] at this
      exact absurd this.symm (hu.2 b List.mem_cons_self).2
  | cons a t ih =>
    have ha := h a.1
    simp only [readCell, if_true] at ha
    have hs := (List.pairwise_cons.1 ht.1)
    cases u with
    | nil => exact absurd ha (ht.2 a List.mem_cons_self).2
    | cons b u =>
      have hsu := (List.pairwise_cons.1 hu.1)
      have low : ∀ {w : Table α} {c e : Nat × α}, (∀ x ∈ w, c.1 < x.1) → e.1 < c.1 → ∀ x ∈ c :: w, x.1 ≠ e.1 := by
        intro w c e hw hlt x hx
        rcases List.mem_cons.1 hx with rfl | hx
        · omega
        · have := hw x hx
          omega
      have hab : a.1 = b.1 := by
        rcases Nat.lt_trichotomy a.1 b.1 with hlt | heq | hgt
        · rw [readCell_of_no_key d (b :: u) a.1 (low hsu.1 hlt)] at ha
          exact absurd ha (ht.2 a List.mem_cons_self).2
        · exact heq
        · have hb := h b.1
          rw [readCell_of_no_key d (a :: t) b.1 (low hs.1 hgt)] at hb
          simp only [readCell, if_true] at hb
          exact absurd hb.symm (hu.2 b List.mem_cons_self).2
      have hv : a.2 = b.2 := by simpa [readCell, hab] using ha
      have : a = b := Prod.ext hab hv
      subst this
      congr 1
      refine ih ⟨hs.2, fun c hc => ht.2 c (List.mem_cons_of_mem _ hc)⟩
        ⟨hsu.2, fun c hc => hu.2 c (List.mem_cons_of_mem _ hc)⟩ fun k => ?_
      by_cases hk : a.1 = k
      · subst hk
        rw [readCell_of_no_key d t a.1 fun c hc => by have := hs.1 c hc; omega,
          readCell_of_no_key d u a.1 fun c hc => by have := hsu.1 c hc; omega]
      · simpa [readCell, hk] using h k

end

end Sys2Proof.Machine
end

