-- ==== Sys2Proof/Laws/Ops.lean ====
section
/-!
SUPPORT. What each shared operation of Machine/Ops.lean, Operands.lean and Channels.lean can do, said once.
-/
namespace Sys2Proof.Machine

/-! ### Table elements after a write -/

@[simp] theorem freqAt_setFreq (s : State) (c n j : Nat) :
    (s.setFreq c n).freqAt j = if j = c then n else s.freqAt j := readCell_writeCell 0 _ _ _ _

@[simp] theorem nodeAt_setNode (s : State) (i j : Nat) (n : Node) :
    (s.setNode i n).nodeAt j = if j = i then n else s.nodeAt j := readCell_writeCell Node.zero _ _ _ _

@[simp] theorem codeAt_setCode (s : State) (c j : Nat) (e : CodeEntry) :
    (s.setCode c e).codeAt j = if j = c then e else s.codeAt j := readCell_writeCell CodeEntry.zero _ _ _ _

@[simp] theorem freqAt_clearFreq (s : State) (c : Nat) : s.clearFreq.freqAt c = 0 := rfl
@[simp] theorem codeAt_clearCode (s : State) (c : Nat) : s.clearCode.codeAt c = CodeEntry.zero := rfl

/-- An element of FREQ depends on FREQ alone, and so on. -/
theorem freqAt_congr {s t : State} (h : t.eng.freq = s.eng.freq) (c : Nat) : t.freqAt c = s.freqAt c := by
  simp only [State.freqAt, h]

theorem nodeAt_congr {s t : State} (h : t.eng.node = s.eng.node) (i : Nat) : t.nodeAt i = s.nodeAt i := by
  simp only [State.nodeAt, h]

theorem codeAt_congr {s t : State} (h : t.eng.code = s.eng.code) (c : Nat) : t.codeAt c = s.codeAt c := by
  simp only [State.codeAt, h]

/-! ### Operand checks -/

theorem withOperand_in {s : State} {r : Fin 4} {bound : Nat} (k : Nat → Result) (h : (s.x r).toNat < bound) :
    withOperand s r bound k = k (s.x r).toNat := if_pos h

theorem withOperand_out {s : State} {r : Fin 4} {bound : Nat} (k : Nat → Result) (h : bound ≤ (s.x r).toNat) :
    withOperand s r bound k = .next (s.raiseFault .arg (BitVec.ofNat 64 r.val)) := if_neg (Nat.not_lt.2 h)

/-- An operand check answers the rest of the command, or E_ARG. -/
theorem withOperand_next {s t : State} {r : Fin 4} {bound : Nat} {k : Nat → Result}
    (h : withOperand s r bound k = .next t) :
    ((s.x r).toNat < bound ∧ k (s.x r).toNat = .next t) ∨
      (bound ≤ (s.x r).toNat ∧ t = s.raiseFault .arg (BitVec.ofNat 64 r.val)) := by
  rcases Nat.lt_or_ge (s.x r).toNat bound with hb | hb
  · exact .inl ⟨hb, by rwa [withOperand_in k hb] at h⟩
  · rw [withOperand_out k hb] at h
    exact .inr ⟨hb, (Host.Outcome.next.inj h).symm⟩

theorem withTree_none {s : State} (k : Result) (h : s.eng.tk = .none) :
    withTree s k = .next (s.raiseFault .noTree 0) := by
  simp only [withTree, h, raising]

theorem withTree_some {s : State} (k : Result) (h : s.eng.tk ≠ .none) : withTree s k = k := by
  cases hk : s.eng.tk
  · exact absurd hk h
  · simp only [withTree, hk]
  · simp only [withTree, hk]

/-- The tree check answers the rest of the command, or E_NOTREE. -/
theorem withTree_next {s t : State} {k : Result} (h : withTree s k = .next t) :
    (s.eng.tk ≠ .none ∧ k = .next t) ∨ (s.eng.tk = .none ∧ t = s.raiseFault .noTree 0) := by
  by_cases hk : s.eng.tk = .none
  · rw [withTree_none k hk] at h
    exact .inr ⟨hk, (Host.Outcome.next.inj h).symm⟩
  · exact .inl ⟨hk, by rwa [withTree_some k hk] at h⟩

theorem withCodeTable_none {s : State} (k : Result) (h : s.eng.ctv = false) :
    withCodeTable s k = .next (s.raiseFault .noTable 0) := by
  simp [withCodeTable, h, raising]

theorem withCodeTable_some {s : State} (k : Result) (h : s.eng.ctv = true) : withCodeTable s k = k := by
  simp [withCodeTable, h]

/-- The table check answers the rest of the command, or E_NOTABLE. -/
theorem withCodeTable_next {s t : State} {k : Result} (h : withCodeTable s k = .next t) :
    (s.eng.ctv = true ∧ k = .next t) ∨ (s.eng.ctv = false ∧ t = s.raiseFault .noTable 0) := by
  cases hc : s.eng.ctv
  · rw [withCodeTable_none k hc] at h
    exact .inr ⟨rfl, (Host.Outcome.next.inj h).symm⟩
  · exact .inl ⟨rfl, by rwa [withCodeTable_some k hc] at h⟩

/-! ### Channels -/

@[simp] theorem endSession_now {α : Type} (f : Feed α) (l : List α) :
    Feed.endSession { f with now := l } = f.endSession := rfl

theorem endSession_now_eq {α : Type} (f : Feed α) : f.endSession.now = f.later.headD [] := by
  unfold Feed.endSession
  cases f.later <;> rfl

theorem narrow_data {p : Params} {c : Nat} (h : c < p.nsym) : narrow p (.data c) = .data c := by
  simp [narrow, Nat.mod_eq_of_lt h]

@[simp] theorem narrow_eos (p : Params) : narrow p .eos = .eos := rfl
@[simp] theorem narrow_err (p : Params) : narrow p .err = .err := rfl

/-- A put on BO is answered only when the sink has given an answer; it uses that answer and is recorded with it. -/
theorem putBo_some {s t : State} {v : Byte} {a : Answer} (h : s.putBo v = some (a, t)) :
    s.env.bo.now = a :: t.env.bo.now ∧ t.params = s.params ∧ t.eng = s.eng ∧
      t.env = { s.env with bo := { s.env.bo with now := t.env.bo.now }, trace := s.env.trace ++ [.putBo v a] } := by
  unfold State.putBo at h
  split at h
  · cases h
  · cases h
    exact ⟨by assumption, rfl, rfl, rfl⟩

theorem putBo_none {s : State} {v : Byte} : s.putBo v = none ↔ s.env.bo.now = [] := by
  unfold State.putBo
  split <;> simp_all

theorem putBo_answered {s : State} {a : Answer} {l : List Answer} (v : Byte) (h : s.env.bo.now = a :: l) :
    s.putBo v = some (a, { s with env := { s.env with
      bo := { s.env.bo with now := l }, trace := s.env.trace ++ [.putBo v a] } }) := by
  unfold State.putBo
  rw [h]

/-- A put on SO, likewise. -/
theorem putSo_some {s t : State} {v : Nat} {a : Answer} (h : s.putSo v = some (a, t)) :
    s.env.so.now = a :: t.env.so.now ∧ t.params = s.params ∧ t.eng = s.eng ∧
      t.env = { s.env with so := { s.env.so with now := t.env.so.now }, trace := s.env.trace ++ [.putSo v a] } := by
  unfold State.putSo at h
  split at h
  · cases h
  · cases h
    exact ⟨by assumption, rfl, rfl, rfl⟩

theorem putSo_none {s : State} {v : Nat} : s.putSo v = none ↔ s.env.so.now = [] := by
  unfold State.putSo
  split <;> simp_all

theorem putSo_answered {s : State} {a : Answer} {l : List Answer} (v : Nat) (h : s.env.so.now = a :: l) :
    s.putSo v = some (a, { s with env := { s.env with
      so := { s.env.so with now := l }, trace := s.env.trace ++ [.putSo v a] } }) := by
  unfold State.putSo
  rw [h]

end Sys2Proof.Machine
end

