-- ==== Sys2Proof/Laws/Invariants.lean ====
section
/-!
SUPPORT. The canonical form of the tables and the bounds of their elements: reset has them, and every operation that
writes a table keeps them.
-/
namespace Sys2Proof

theorem Params.wf_iff (p : Params) :
    p.wf = true ↔ 1 ≤ p.symw ∧ p.symw ≤ 16 ∧ 1 ≤ p.freqw ∧ p.freqw + p.symw ≤ 64 := by
  simp only [Params.wf, Params.symwOk, Params.freqwOk, Params.sumOk, Bool.and_eq_true, decide_eq_true_eq]
  tauto

theorem Params.nsym_pos (p : Params) : 0 < p.nsym := Nat.two_pow_pos _

/-- Every node index fits a node operand's 20-bit field (30_encoding.md R109). -/
theorem Params.nnode_le {p : Params} (h : p.wf = true) : p.nnode < 2 ^ 20 := by
  have hs := (Params.wf_iff p).1 h
  have : p.nsym ≤ 2 ^ 16 := Nat.pow_le_pow_right (by omega) hs.2.1
  simp only [Params.nnode]
  omega

/-- R7: an index of NODE fits IDXW bits. -/
theorem Params.nnode_lt_idx (p : Params) : p.nnode < 2 ^ p.idxw := by
  have := p.nsym_pos
  simp only [Params.nnode, Params.idxw, Params.nsym] at *
  omega

/-- An aggregate of at most NSYM frequencies fits AGGW bits (42_tree_builder.md R174). -/
theorem Params.agg_bound (p : Params) {n f : Nat} (hn : n ≤ p.nsym) (hf : f ≤ n * (2 ^ p.freqw - 1)) :
    f < 2 ^ p.aggw := by
  have h1 : n * (2 ^ p.freqw - 1) ≤ p.nsym * (2 ^ p.freqw - 1) := Nat.mul_le_mul_right _ hn
  have h2 : p.nsym * (2 ^ p.freqw - 1) < p.nsym * 2 ^ p.freqw :=
    (Nat.mul_lt_mul_left p.nsym_pos).2 (by have := Nat.two_pow_pos p.freqw; omega)
  have h3 : p.nsym * 2 ^ p.freqw = 2 ^ p.aggw := by
    simp only [Params.nsym, Params.aggw]
    rw [← Nat.pow_add, Nat.add_comm]
  omega

namespace Machine

theorem memory_wf_iff (s : State) :
    Memory.wf s = true ↔ tableWf 0 s.params.nsym s.eng.freq = true ∧
      tableWf Node.zero s.params.nnode s.eng.node = true ∧
      tableWf CodeEntry.zero s.params.nsym s.eng.code = true := by
  simp only [Memory.wf, Bool.and_eq_true]
  tauto

/-! ### Reset -/

theorem resetOf_memory_wf (p : Params) : Memory.wf (State.resetOf p) = true := rfl
theorem clear_memory_wf (s : State) : Memory.wf s.clear = true := rfl
theorem assertReset_memory_wf (s : State) : Memory.wf s.assertReset = true := rfl

/-! ### The writes -/

theorem setFreq_keeps_memory_wf {s : State} {c : Nat} (n : Nat) (h : Memory.wf s = true) (hc : c < s.params.nsym) :
    Memory.wf (s.setFreq c n) = true :=
  have h := (memory_wf_iff s).1 h
  (memory_wf_iff _).2 ⟨writeCell_keeps_wf _ c n h.1 hc, h.2⟩

theorem clearFreq_keeps_memory_wf {s : State} (h : Memory.wf s = true) : Memory.wf s.clearFreq = true :=
  have h := (memory_wf_iff s).1 h
  (memory_wf_iff _).2 ⟨rfl, h.2⟩

theorem setNode_keeps_memory_wf {s : State} {i : Nat} (n : Node) (h : Memory.wf s = true)
    (hi : i < s.params.nnode) : Memory.wf (s.setNode i n) = true :=
  have h := (memory_wf_iff s).1 h
  (memory_wf_iff _).2 ⟨h.1, writeCell_keeps_wf _ i n h.2.1 hi, h.2.2⟩

theorem setCode_keeps_memory_wf {s : State} {c : Nat} (e : CodeEntry) (h : Memory.wf s = true)
    (hc : c < s.params.nsym) : Memory.wf (s.setCode c e) = true :=
  have h := (memory_wf_iff s).1 h
  (memory_wf_iff _).2 ⟨h.1, h.2.1, writeCell_keeps_wf _ c e h.2.2 hc⟩

theorem clearCode_keeps_memory_wf {s : State} (h : Memory.wf s = true) : Memory.wf s.clearCode = true :=
  have h := (memory_wf_iff s).1 h
  (memory_wf_iff _).2 ⟨h.1, h.2.1, rfl⟩

/-! ### The bounds of the elements -/

theorem setFreq_keeps_freqInv {s : State} {c n : Nat} (h : s.FreqInv) (hc : c < s.params.nsym)
    (hn : n < 2 ^ s.params.freqw) : (s.setFreq c n).FreqInv := by
  refine ⟨writeCell_keeps_wf _ c n h.1 hc, fun e he => ?_⟩
  rcases mem_writeCell _ he with ⟨h1, _⟩ | ⟨h1, _⟩
  · rw [h1]
    exact hn
  · exact h.2 e h1

theorem freqAt_lt {s : State} (h : s.FreqInv) (c : Nat) : s.freqAt c < 2 ^ s.params.freqw := by
  by_cases h0 : s.freqAt c = 0
  · rw [h0]
    exact Nat.two_pow_pos _
  · exact h.2 _ (mem_of_readCell 0 h0)

theorem setNode_keeps_nodeInv {s : State} {i : Nat} {n : Node} (h : s.NodeInv) (hi : i < s.params.nnode)
    (hn : n.fits s.params) : (s.setNode i n).NodeInv := by
  refine ⟨writeCell_keeps_wf _ i n h.1 hi, fun e he => ?_⟩
  rcases mem_writeCell _ he with ⟨h1, _⟩ | ⟨h1, _⟩
  · rw [h1]
    exact hn
  · exact h.2 e h1

theorem setCode_keeps_codeTableInv {s : State} {c : Nat} {e : CodeEntry} (h : s.CodeTableInv)
    (hc : c < s.params.nsym) (hv : e.valid = true) (h1 : 1 ≤ e.path.length)
    (h2 : e.path.length ≤ s.params.maxlen) : (s.setCode c e).CodeTableInv := by
  refine ⟨writeCell_keeps_wf _ c e h.1 hc, fun a ha => ?_⟩
  rcases mem_writeCell _ ha with ⟨h3, _⟩ | ⟨h3, _⟩
  · rw [h3]
    exact ⟨hv, h1, h2⟩
  · exact h.2 a h3

theorem clearCode_codeTableInv (s : State) : s.clearCode.CodeTableInv :=
  ⟨rfl, fun _ h => nomatch h⟩

end Machine
end Sys2Proof
end

