-- ==== Sys2Proof/Laws/Builder.lean ====
section
/-!
SUPPORT. What each operation of the tree builder (Machine/TreeBuilder.lean) does, said once.
-/
namespace Sys2Proof.Machine

/-! ### The tree ordering (42_tree_builder.md R160 to R162) -/

theorem ranksBelow_iff (s : State) (i j : Nat) :
    s.ranksBelow i j = true ↔
      (s.nodeAt i).freq < (s.nodeAt j).freq ∨ ((s.nodeAt i).freq = (s.nodeAt j).freq ∧ i < j) := by
  simp [State.ranksBelow]

theorem ranksBelow_irrefl (s : State) (i : Nat) : s.ranksBelow i i = false := by
  simp [State.ranksBelow]

/-- The order is total. -/
theorem ranksBelow_total (s : State) {i j : Nat} (h : i ≠ j) : s.ranksBelow i j = true ∨ s.ranksBelow j i = true := by
  rw [ranksBelow_iff, ranksBelow_iff]
  omega

theorem ranksBelow_asymm {s : State} {i j : Nat} (h : s.ranksBelow i j = true) : s.ranksBelow j i = false := by
  rw [ranksBelow_iff] at h
  rw [← Bool.not_eq_true, ranksBelow_iff]
  omega

theorem ranksBelow_trans {s : State} {i j k : Nat} (h1 : s.ranksBelow i j = true) (h2 : s.ranksBelow j k = true) :
    s.ranksBelow i k = true := by
  rw [ranksBelow_iff] at *
  omega

/-- A rank depends on the two records' frequencies alone. -/
theorem ranksBelow_congr {s t : State} {i j : Nat} (hi : (t.nodeAt i).freq = (s.nodeAt i).freq)
    (hj : (t.nodeAt j).freq = (s.nodeAt j).freq) : t.ranksBelow i j = s.ranksBelow i j := by
  simp only [State.ranksBelow, hi, hj]

/-! ### PQ (R163, R164) -/

theorem leastRank_mem (s : State) (b : Nat) (l : List Nat) : s.leastRank b l ∈ b :: l := by
  induction l generalizing b with
  | nil => exact List.mem_singleton.2 rfl
  | cons i l ih =>
    rw [State.leastRank]
    split
    · exact List.mem_cons_of_mem _ (ih i)
    · rcases List.mem_cons.1 (ih b) with h | h
      · rw [h]
        exact List.mem_cons_self
      · exact List.mem_cons_of_mem _ (List.mem_cons_of_mem _ h)

/-- No member ranks below the chosen one. -/
theorem leastRank_least (s : State) (b : Nat) (l : List Nat) :
    ∀ i ∈ b :: l, s.ranksBelow i (s.leastRank b l) = false := by
  induction l generalizing b with
  | nil =>
    intro i hi
    rw [List.mem_singleton.1 hi]
    exact ranksBelow_irrefl s b
  | cons j l ih =>
    intro i hi
    rw [State.leastRank]
    split
    case isTrue hj =>
      rcases List.mem_cons.1 hi with rfl | hi
      · have h1 := ih j j List.mem_cons_self
        rw [← Bool.not_eq_true]
        intro h2
        rw [ranksBelow_trans hj h2] at h1
        cases h1
      · exact ih j i hi
    case isFalse hj =>
      rcases List.mem_cons.1 hi with rfl | hi
      · exact ih i i List.mem_cons_self
      · rcases List.mem_cons.1 hi with rfl | hi
        · have h1 := ih b b List.mem_cons_self
          rw [← Bool.not_eq_true]
          intro h2
          by_cases hib : b = i
          · subst hib
            rw [h1] at h2
            cases h2
          · rcases ranksBelow_total s hib with h3 | h3
            · rw [ranksBelow_trans h3 h2] at h1
              cases h1
            · exact hj h3
        · exact ih b i (List.mem_cons_of_mem _ hi)

/-- `extractmin` answers a member, leaves the others in their order, and touches PQ alone. -/
theorem pqExtractMin_some {s t : State} {m : Nat} (h : s.pqExtractMin = some (m, t)) :
    m ∈ s.eng.pq ∧ (∀ i ∈ s.eng.pq, s.ranksBelow i m = false) ∧
      t = { s with eng := { s.eng with pq := s.eng.pq.erase m } } := by
  unfold State.pqExtractMin at h
  split at h
  · cases h
  case h_2 i l hl =>
    cases h
    rw [hl]
    exact ⟨leastRank_mem s i l, leastRank_least s i l, rfl⟩

theorem pqExtractMin_none {s : State} : s.pqExtractMin = none ↔ s.eng.pq = [] := by
  unfold State.pqExtractMin
  split <;> simp_all

/-- A nonempty PQ loses one member. -/
theorem pqExtractMin_length {s t : State} {m : Nat} (h : s.pqExtractMin = some (m, t)) :
    t.eng.pq.length + 1 = s.eng.pq.length := by
  obtain ⟨hm, -, rfl⟩ := pqExtractMin_some h
  have := List.length_pos_of_mem hm
  simp only [List.length_erase_of_mem hm]
  omega

/-- The rest of PQ. -/
theorem pqExtractMin_perm {s t : State} {m : Nat} (h : s.pqExtractMin = some (m, t)) :
    s.eng.pq.Perm (m :: t.eng.pq) := by
  obtain ⟨hm, -, rfl⟩ := pqExtractMin_some h
  exact List.perm_cons_erase hm

theorem insertAll_eq (is : List Nat) (s : State) :
    insertAll is s = { s with eng := { s.eng with pq := s.eng.pq ++ is } } := by
  induction is generalizing s with
  | nil => simp [insertAll]
  | cons i is ih =>
    rw [insertAll, ih]
    simp [State.pqInsert]

/-! ### The leaves (R166) -/

/-- The symbols of the list that FREQ counts. -/
def State.counted (s : State) (cs : List Nat) : List Nat := cs.filter fun c => s.freqAt c != 0

theorem present_eq (s : State) : s.present = s.counted (List.range s.params.nsym) := rfl

theorem makeLeaves_absent {s : State} {c : Nat} (cs : List Nat) (n : Nat) (h : s.freqAt c = 0) :
    makeLeaves (c :: cs) n s = makeLeaves cs n s := if_pos h

theorem makeLeaves_present {s : State} {c : Nat} (cs : List Nat) (n : Nat) (h : s.freqAt c ≠ 0) :
    makeLeaves (c :: cs) n s = makeLeaves cs (n + 1) (s.setNode n (Node.leafOf c (s.freqAt c))) := if_neg h

/-- One leaf for each counted symbol, in order, from index `n` on; no other record, and nothing but NODE, is
touched. -/
theorem makeLeaves_spec (cs : List Nat) (n : Nat) (s : State) :
    (makeLeaves cs n s).2 = n + (s.counted cs).length ∧
      (makeLeaves cs n s).1 = { s with eng := { s.eng with node := (makeLeaves cs n s).1.eng.node } } ∧
      (∀ k, (h : k < (s.counted cs).length) →
        (makeLeaves cs n s).1.nodeAt (n + k) = Node.leafOf (s.counted cs)[k] (s.freqAt (s.counted cs)[k])) ∧
      ∀ i, i < n ∨ n + (s.counted cs).length ≤ i → (makeLeaves cs n s).1.nodeAt i = s.nodeAt i := by
  induction cs generalizing n s with
  | nil => exact ⟨rfl, rfl, fun k h => absurd h (Nat.not_lt_zero k), fun _ _ => rfl⟩
  | cons c cs ih =>
    by_cases hc : s.freqAt c = 0
    · rw [makeLeaves_absent cs n hc]
      have he : s.counted (c :: cs) = s.counted cs := by simp [State.counted, hc]
      simp only [he]
      exact ih n s
    · rw [makeLeaves_present cs n hc]
      have he : s.counted (c :: cs) = c :: s.counted cs := by simp [State.counted, hc]
      obtain ⟨h1, h2, h3, h4⟩ := ih (n + 1) (s.setNode n (Node.leafOf c (s.freqAt c)))
      have hs : (s.setNode n (Node.leafOf c (s.freqAt c))).counted cs = s.counted cs := rfl
      rw [hs] at h1 h4
      simp only [hs] at h3
      simp only [he, List.length_cons]
      refine ⟨by rw [h1]; omega, h2, ?_, ?_⟩
      · intro k hk
        cases k with
        | zero =>
          rw [h4 _ (.inl (by omega))]
          simp
        | succ k =>
          have := h3 k (by omega)
          rw [show n + (k + 1) = n + 1 + k by omega, this]
          rfl
      · intro i hi
        rw [h4 i (by omega), nodeAt_setNode, if_neg (by omega)]

/-! ### The merges (R169) -/

theorem mergeLoop_stop {fuel m : Nat} {s : State} (h : s.eng.pq.length ≤ 1) : mergeLoop fuel m s = (s, m) := by
  cases fuel
  · rfl
  · exact if_pos h

/-- One merge: the two members of least rank, in that order, become the children of the record `m`. -/
theorem mergeLoop_merge (fuel m : Nat) {s : State} (h : 2 ≤ s.eng.pq.length) :
    ∃ t1 t2, t1 ∈ s.eng.pq ∧ t2 ∈ s.eng.pq.erase t1 ∧ (∀ i ∈ s.eng.pq, s.ranksBelow i t1 = false) ∧
      (∀ i ∈ s.eng.pq.erase t1, s.ranksBelow i t2 = false) ∧
      mergeLoop (fuel + 1) m s =
        mergeLoop fuel (m + 1)
          (({ s with eng := { s.eng with pq := (s.eng.pq.erase t1).erase t2 ++ [m] } } : State).setNode m
            (s.mergedNode t1 t2)) := by
  have h1 : s.pqExtractMin ≠ none := by
    rw [Ne, pqExtractMin_none]
    intro e
    rw [e] at h
    exact absurd h (by decide)
  obtain ⟨⟨t1, s1⟩, e1⟩ := Option.ne_none_iff_exists'.1 h1
  have l1 := pqExtractMin_length e1
  have h2 : s1.pqExtractMin ≠ none := by
    rw [Ne, pqExtractMin_none]
    intro e
    rw [e] at l1
    simp only [List.length_nil] at l1
    omega
  obtain ⟨⟨t2, s2⟩, e2⟩ := Option.ne_none_iff_exists'.1 h2
  obtain ⟨m1, r1, rfl⟩ := pqExtractMin_some e1
  obtain ⟨m2, r2, rfl⟩ := pqExtractMin_some e2
  refine ⟨t1, t2, m1, m2, r1, r2, ?_⟩
  rw [mergeLoop, if_neg (by omega), e1]
  simp only [e2]
  rfl

end Sys2Proof.Machine
end

