-- ==== Sys2Proof/Laws/Streams.lean ====
section
/-!
SUPPORT. Running micro-operations (Machine/Streams.lean): the bound of `settle` is never what stops it, so that a run
unrolls one micro-operation at a time and no proof reasons about fuel.
-/
namespace Sys2Proof.Machine

/-! ### The micro-operation at each point -/

section
variable {s : State}

theorem microStep_idle (h : s.eng.point = .idle) : s.microStep = none := by simp only [State.microStep, h]
theorem microStep_start {w : Word} (h : s.eng.point = .start w) : s.microStep = none := by
  simp only [State.microStep, h]
theorem microStep_countGet (h : s.eng.point = .countGet) : s.microStep = countGet s := by
  simp only [State.microStep, h]
theorem microStep_countRelease {f : Ending} (h : s.eng.point = .countRelease f) :
    s.microStep = some (countRelease f s) := by simp only [State.microStep, h]
theorem microStep_countFinish {f : Ending} (h : s.eng.point = .countFinish f) :
    s.microStep = some (countFinish f s) := by simp only [State.microStep, h]
theorem microStep_encGet (h : s.eng.point = .encGet) : s.microStep = encodeGet s := by
  simp only [State.microStep, h]
theorem microStep_encPut {rest : List Bool} (h : s.eng.point = .encPut rest) : s.microStep = encodePut rest s := by
  simp only [State.microStep, h]
theorem microStep_encFlush (h : s.eng.point = .encFlush) : s.microStep = encodeFlush s := by
  simp only [State.microStep, h]
theorem microStep_encAbort {e : ErrCode} {info : Word} (h : s.eng.point = .encAbort e info) :
    s.microStep = encodeAbortPut e info s := by simp only [State.microStep, h]
theorem microStep_encRelease {f : Ending} (h : s.eng.point = .encRelease f) :
    s.microStep = some (encodeRelease f s) := by simp only [State.microStep, h]
theorem microStep_encClose {f : Ending} (h : s.eng.point = .encClose f) :
    s.microStep = some (encodeClose f s) := by simp only [State.microStep, h]
theorem microStep_encFinish {f : Ending} (h : s.eng.point = .encFinish f) :
    s.microStep = some (encodeFinish f s) := by simp only [State.microStep, h]
theorem microStep_decGet (h : s.eng.point = .decGet) : s.microStep = decodeGet s := by
  simp only [State.microStep, h]
theorem microStep_decPut (h : s.eng.point = .decPut) : s.microStep = decodePut s := by
  simp only [State.microStep, h]
theorem microStep_decRelease {f : Ending} (h : s.eng.point = .decRelease f) :
    s.microStep = some (decodeRelease f s) := by simp only [State.microStep, h]
theorem microStep_decClose {f : Ending} (h : s.eng.point = .decClose f) :
    s.microStep = some (decodeClose f s) := by simp only [State.microStep, h]
theorem microStep_decFinish {f : Ending} (h : s.eng.point = .decFinish f) :
    s.microStep = some (decodeFinish f s) := by simp only [State.microStep, h]

end

/-! ### What is between two channel operations touches no channel -/

theorem encodeAbort_env (e : ErrCode) (info : Word) (s : State) : (encodeAbort e info s).env = s.env := by
  unfold encodeAbort
  split <;> rfl

theorem encodeBits_env (bs : List Bool) (s : State) : (encodeBits bs s).env = s.env := by
  induction bs generalizing s with
  | nil => rfl
  | cons b bs ih =>
    rw [encodeBits]
    split
    · exact encodeAbort_env _ _ _
    · dsimp only
      split
      · rfl
      · rw [ih]
        rfl

theorem encodeFinal_env (s : State) : (encodeFinal s).env = s.env := by
  unfold encodeFinal
  split <;> rfl

theorem decodeExhausted_env (s : State) : (decodeExhausted s).env = s.env := by
  unfold decodeExhausted
  split <;> rfl

theorem decodeBits_env (n : Nat) (s : State) : (decodeBits n s).env = s.env := by
  induction n generalizing s with
  | zero =>
    rw [decodeBits]
    split
    · exact decodeExhausted_env s
    · rfl
  | succ n ih =>
    rw [decodeBits]
    split
    · exact decodeExhausted_env s
    · dsimp only
      split
      · rfl
      · split
        · rfl
        · split
          · rfl
          · rw [ih]
            rfl

theorem decodeLoop_env (s : State) : (decodeLoop s).env = s.env := decodeBits_env _ _

/-! ### The bound -/

/-- The micro-operations still possible at a point, besides those that use an item or an answer. -/
def Point.reserve : Point → Nat
  | .idle => 0
  | .start _ => 0
  | .countFinish _ => 1
  | .encFinish _ => 1
  | .decFinish _ => 1
  | .encClose _ => 2
  | .decClose _ => 2
  | .countRelease _ => 2
  | .encRelease _ => 3
  | .decRelease _ => 3
  | .countGet => 4
  | .encGet => 4
  | .encPut _ => 4
  | .encFlush => 4
  | .encAbort _ _ => 4
  | .decGet => 4
  | .decPut => 4

/-- Whether a command at this point may still use items and answers. -/
def Point.uses (p : Point) : Bool := decide (4 ≤ p.reserve)

/-- The micro-operations still possible. -/
def State.workLeft (s : State) : Nat :=
  s.eng.point.reserve + if s.eng.point.uses then s.env.supplied else 0

theorem workLeft_le (s : State) : s.workLeft ≤ s.env.supplied + 4 := by
  unfold State.workLeft
  have : s.eng.point.reserve ≤ 4 := by cases s.eng.point <;> simp [Point.reserve]
  split <;> omega

theorem countTake_env (raw : Item Nat) (rest : List (Item Nat)) (s : State) :
    (countTake raw rest s).env = (s.tookSi (narrow s.params raw) rest).env := by
  unfold countTake
  dsimp only
  split
  case h_3 =>
    split <;> simp_all [countSymbol]
  all_goals simp_all

theorem encodeTake_env (raw : Item Nat) (rest : List (Item Nat)) (s : State) :
    (encodeTake raw rest s).env = (s.tookSi (narrow s.params raw) rest).env := by
  unfold encodeTake
  dsimp only
  split
  · rw [encodeFinal_env]
  · rw [encodeAbort_env]
  · split
    · rw [encodeBits_env]
    · rw [encodeAbort_env]

theorem decodeTake_env (it : Item Byte) (rest : List (Item Byte)) (s : State) :
    (decodeTake it rest s).env = (s.tookBi it rest).env := by
  unfold decodeTake
  dsimp only
  split
  · exact decodeExhausted_env _
  · rfl
  · rw [decodeLoop_env]
    rfl

/-- Every micro-operation leaves one fewer to perform. -/
theorem microStep_workLeft {s t : State} (h : s.microStep = some t) : t.workLeft < s.workLeft := by
  have use : ∀ t : State, s.eng.point.reserve = 4 → t.env.supplied + 1 ≤ s.env.supplied →
      t.workLeft < s.workLeft := by
    intro t h2 h3
    have h4 := workLeft_le t
    have h5 : s.workLeft = s.env.supplied + 4 := by
      simp only [State.workLeft, Point.uses, h2]
      simp
      omega
    omega
  cases hp : s.eng.point with
  | idle =>
    rw [microStep_idle hp] at h
    cases h
  | start w =>
    rw [microStep_start hp] at h
    cases h
  | countGet =>
    rw [microStep_countGet hp, countGet] at h
    split at h
    · cases h
    case h_2 raw rest hnow =>
      cases h
      refine use _ (by rw [hp]; rfl) ?_
      rw [countTake_env]
      simp [Env.supplied, hnow]
  | countRelease f =>
    rw [microStep_countRelease hp] at h
    cases h
    simp [countRelease, State.workLeft, hp, Point.reserve, Point.uses]
  | countFinish f =>
    rw [microStep_countFinish hp] at h
    cases h
    cases f <;> simp [countFinish, State.workLeft, hp, Point.reserve, Point.uses]
  | encGet =>
    rw [microStep_encGet hp, encodeGet] at h
    split at h
    · cases h
    case h_2 raw rest hnow =>
      cases h
      refine use _ (by rw [hp]; rfl) ?_
      rw [encodeTake_env]
      simp [Env.supplied, hnow]
  | encPut bits =>
    rw [microStep_encPut hp, encodePut] at h
    split at h
    · cases h
    case h_2 u hput =>
      cases h
      obtain ⟨h1, -, -, h4⟩ := putBo_some hput
      refine use _ (by rw [hp]; rfl) ?_
      simp only [encodeSinkFailed, goTo_env, Env.supplied, h1, List.length_cons]
      rw [h4]
      simp only
      omega
    case h_3 u hput =>
      cases h
      obtain ⟨h1, -, -, h4⟩ := putBo_some hput
      refine use _ (by rw [hp]; rfl) ?_
      rw [encodeBits_env]
      simp only [clearAcc_env, countByte_env, Env.supplied, h1, List.length_cons]
      rw [h4]
      simp only
      omega
  | encFlush =>
    rw [microStep_encFlush hp, encodeFlush] at h
    split at h
    · cases h
    case h_2 u hput =>
      cases h
      obtain ⟨h1, -, -, h4⟩ := putBo_some hput
      refine use _ (by rw [hp]; rfl) ?_
      simp only [encodeSinkFailed, goTo_env, Env.supplied, h1, List.length_cons]
      rw [h4]
      simp only
      omega
    case h_3 u hput =>
      cases h
      obtain ⟨h1, -, -, h4⟩ := putBo_some hput
      refine use _ (by rw [hp]; rfl) ?_
      simp only [goTo_env, clearAcc_env, countByte_env, Env.supplied, h1, List.length_cons]
      rw [h4]
      simp only
      omega
  | encAbort e info =>
    rw [microStep_encAbort hp, encodeAbortPut] at h
    split at h
    · cases h
    case h_2 a u hput =>
      cases h
      obtain ⟨h1, -, -, h4⟩ := putBo_some hput
      refine use _ (by rw [hp]; rfl) ?_
      simp only [goTo_env, clearAcc_env, Env.supplied, h1, List.length_cons]
      rw [h4]
      simp only
      omega
  | encRelease f =>
    rw [microStep_encRelease hp] at h
    cases h
    simp [encodeRelease, State.workLeft, hp, Point.reserve, Point.uses]
  | encClose f =>
    rw [microStep_encClose hp] at h
    cases h
    simp [encodeClose, State.workLeft, hp, Point.reserve, Point.uses]
  | encFinish f =>
    rw [microStep_encFinish hp] at h
    cases h
    cases f <;> simp [encodeFinish, State.workLeft, hp, Point.reserve, Point.uses]
  | decGet =>
    rw [microStep_decGet hp, decodeGet] at h
    split at h
    · cases h
    case h_2 it rest hnow =>
      cases h
      refine use _ (by rw [hp]; rfl) ?_
      rw [decodeTake_env]
      simp [Env.supplied, hnow]
  | decPut =>
    rw [microStep_decPut hp, decodePut] at h
    split at h
    · cases h
    case h_2 u hput =>
      cases h
      obtain ⟨h1, -, -, h4⟩ := putSo_some hput
      refine use _ (by rw [hp]; rfl) ?_
      simp only [decodeAbort, goTo_env, Env.supplied, h1, List.length_cons]
      rw [h4]
      simp only
      omega
    case h_3 u hput =>
      cases h
      obtain ⟨h1, -, -, h4⟩ := putSo_some hput
      refine use _ (by rw [hp]; rfl) ?_
      rw [decodeLoop_env]
      simp only [emitted_env, Env.supplied, h1, List.length_cons]
      rw [h4]
      simp only
      omega
  | decRelease f =>
    rw [microStep_decRelease hp] at h
    cases h
    simp [decodeRelease, State.workLeft, hp, Point.reserve, Point.uses]
  | decClose f =>
    rw [microStep_decClose hp] at h
    cases h
    simp [decodeClose, State.workLeft, hp, Point.reserve, Point.uses]
  | decFinish f =>
    rw [microStep_decFinish hp] at h
    cases h
    cases f <;> simp [decodeFinish, State.workLeft, hp, Point.reserve, Point.uses]

/-! ### Running on -/

theorem runFor_stuck {s : State} (fuel : Nat) (h : s.microStep = none) : s.runFor fuel = s := by
  cases fuel <;> simp [State.runFor, h]

theorem runFor_step {s t : State} (fuel : Nat) (h : s.microStep = some t) : s.runFor (fuel + 1) = t.runFor fuel := by
  simp [State.runFor, h]

/-- Enough fuel is as good as more. -/
theorem runFor_enough {n m : Nat} {s : State} (hn : s.workLeft ≤ n) (hm : s.workLeft ≤ m) :
    s.runFor n = s.runFor m := by
  induction n generalizing s m with
  | zero =>
    cases h : s.microStep with
    | none => rw [runFor_stuck _ h, runFor_stuck _ h]
    | some t =>
      have := microStep_workLeft h
      omega
  | succ n ih =>
    cases h : s.microStep with
    | none => rw [runFor_stuck _ h, runFor_stuck _ h]
    | some t =>
      have h1 := microStep_workLeft h
      obtain ⟨m, rfl⟩ : ∃ k, m = k + 1 := ⟨m - 1, by omega⟩
      rw [runFor_step _ h, runFor_step _ h]
      exact ih (by omega) (by omega)

/-- With enough fuel the run ends where there is no micro-operation. -/
theorem runFor_end {n : Nat} {s : State} (hn : s.workLeft ≤ n) : (s.runFor n).microStep = none := by
  induction n generalizing s with
  | zero =>
    cases h : s.microStep with
    | none => rwa [runFor_stuck _ h]
    | some t =>
      have := microStep_workLeft h
      omega
  | succ n ih =>
    cases h : s.microStep with
    | none => rwa [runFor_stuck _ h]
    | some t =>
      have h1 := microStep_workLeft h
      rw [runFor_step _ h]
      exact ih (by omega)

/-- Where the engine has no micro-operation it stays. -/
theorem settle_stuck {s : State} (h : s.microStep = none) : s.settle = s := runFor_stuck _ h

/-- A run unrolls by one micro-operation. -/
theorem settle_step {s t : State} (h : s.microStep = some t) : s.settle = t.settle := by
  have h1 := microStep_workLeft h
  have h2 := workLeft_le s
  have h3 := workLeft_le t
  have h4 : s.settle = s.runFor (s.env.supplied + 3 + 1) := rfl
  rw [h4, runFor_step _ h]
  exact runFor_enough (by omega) h3

/-- A run ends where the engine has no micro-operation. -/
theorem settle_end (s : State) : s.settle.microStep = none := runFor_end (workLeft_le s)

/-- What holds at the start and is kept by every micro-operation holds at the end of a run. -/
theorem settle_induction {P : State → Prop} {s : State} (h0 : P s)
    (hstep : ∀ u v, P u → u.microStep = some v → P v) : P s.settle := by
  suffices h : ∀ n (u : State), P u → P (u.runFor n) from h _ s h0
  intro n
  induction n with
  | zero => exact fun u hu => hu
  | succ n ih =>
    intro u hu
    cases h : u.microStep with
    | none => rwa [runFor_stuck _ h]
    | some v =>
      rw [runFor_step _ h]
      exact ih v (hstep u v hu h)

end Sys2Proof.Machine
end

