-- ==== Sys2Proof/Laws/Counter.lean ====
section
/-!
SUPPORT. The loop of COUNT (41_frequency_counter.md R150): what each item makes it do, and a run over data items that do
not overflow.
-/
namespace Sys2Proof.Machine

theorem countGet_waits {s : State} (h : s.env.si.now = []) : countGet s = none := by simp only [countGet, h]

theorem countGet_takes {s : State} {raw : Item Nat} {rest : List (Item Nat)} (h : s.env.si.now = raw :: rest) :
    countGet s = some (countTake raw rest s) := by simp only [countGet, h]

theorem countTake_eos (rest : List (Item Nat)) (s : State) :
    countTake .eos rest s = (s.tookSi .eos rest).goTo (.countRelease .done) := rfl

theorem countTake_err (rest : List (Item Nat)) (s : State) :
    countTake .err rest s = (s.tookSi .err rest).goTo (.countRelease (.fault .io 0)) := rfl

theorem countTake_data {s : State} {c : Nat} (rest : List (Item Nat)) (hc : c < s.params.nsym)
    (hf : s.freqAt c ≠ 2 ^ s.params.freqw - 1) :
    countTake (.data c) rest s = (countSymbol c (s.tookSi (.data c) rest)).goTo .countGet := by
  simp [countTake, narrow_data hc, hf]

theorem countTake_full {s : State} {c : Nat} (rest : List (Item Nat)) (hc : c < s.params.nsym)
    (hf : s.freqAt c = 2 ^ s.params.freqw - 1) :
    countTake (.data c) rest s = (s.tookSi (.data c) rest).goTo (.countRelease (.fault .ovf (BitVec.ofNat 64 c))) := by
  simp [countTake, narrow_data hc, hf]

/-- The run from the release to the end. -/
theorem settle_countRelease {s : State} {f : Ending} (h : s.eng.point = .countRelease f) :
    s.settle = countFinish f (countRelease f s) := by
  rw [settle_step (microStep_countRelease h), settle_step (microStep_countFinish rfl)]
  exact settle_stuck (by cases f <;> exact microStep_idle rfl)

/-- Over data items whose counts stay below 2^FREQW a run counts each of them and goes on at the next `get`. -/
theorem settle_counts (cs : List Nat) (rest : List (Item Nat)) (s : State) (hp : s.eng.point = .countGet)
    (hnow : s.env.si.now = cs.map .data ++ rest) (hc : ∀ c ∈ cs, c < s.params.nsym)
    (hf : ∀ c, s.freqAt c + cs.count c < 2 ^ s.params.freqw) :
    ∃ t : State, s.settle = t.settle ∧ t.params = s.params ∧
      (∀ c, t.freqAt c = s.freqAt c + cs.count c) ∧
      t.eng = { s.eng with freq := t.eng.freq, ns := s.eng.ns + BitVec.ofNat 64 cs.length } ∧
      t.env = { s.env with
        si := { s.env.si with now := rest }
        trace := s.env.trace ++ cs.map fun c => .tookSi (.data c) } := by
  induction cs generalizing s with
  | nil =>
    have hr : rest = s.env.si.now := hnow.symm
    subst hr
    exact ⟨s, rfl, rfl, by simp, by simp, by simp⟩
  | cons a cs ih =>
    have ha : a < s.params.nsym := hc a List.mem_cons_self
    have hfa := hf a
    simp only [List.count_cons_self] at hfa
    let u := (countSymbol a (s.tookSi (.data a) (cs.map .data ++ rest))).goTo .countGet
    have hu : ∀ c, u.freqAt c = s.freqAt c + if c = a then 1 else 0 := by
      intro c
      have h1 : u.freqAt c = ((s.tookSi (.data a) (cs.map .data ++ rest)).setFreq a (s.freqAt a + 1)).freqAt c := rfl
      rw [h1, freqAt_setFreq]
      by_cases h : c = a
      · simp [h]
      · simp only [if_neg h]
        rfl
    obtain ⟨t, h1, h2, h3, h4, h5⟩ := ih u rfl rfl (fun c h => hc c (List.mem_cons_of_mem _ h)) (by
      intro c
      rw [hu c]
      have := hf c
      have hp : u.params = s.params := rfl
      rw [hp]
      by_cases h : c = a
      · subst h
        simp only [List.count_cons_self] at this
        simp
        omega
      · have hne : a ≠ c := fun e => h e.symm
        rw [List.count_cons_of_ne hne] at this
        simpa [h] using this)
    refine ⟨t, ?_, h2, fun c => ?_, ?_, ?_⟩
    · rw [List.map_cons, List.cons_append] at hnow
      rw [← h1]
      refine settle_step ?_
      rw [microStep_countGet hp, countGet_takes hnow, countTake_data _ ha (by omega)]
    · rw [h3, hu]
      by_cases h : c = a
      · subst h
        simp
        omega
      · have hne : a ≠ c := fun e => h e.symm
        simp [h, List.count_cons_of_ne hne]
    · rw [h4]
      have : u.eng.ns + BitVec.ofNat 64 cs.length = s.eng.ns + BitVec.ofNat 64 (cs.length + 1) := by
        have e : u.eng.ns = s.eng.ns + 1 := rfl
        rw [e, BitVec.ofNat_add, BitVec.add_assoc, BitVec.add_comm 1]
        rfl
      rw [List.length_cons, ← this]
      have hs : s.eng = { s.eng with point := .countGet } := by rw [← hp]
      conv_rhs => rw [hs]
      rfl
    · rw [h5]
      simp [u, countSymbol]

end Sys2Proof.Machine
end

