-- ==== Sys2Proof/Laws/Encoder.lean ====
section
/-!
SUPPORT. The micro-operations of ENCODE (44_encoder.md R210), case by case, and the bits in the packer.
-/
namespace Sys2Proof.Machine

/-! ### The bits of one code (R216 to R222) -/

@[simp] theorem encodeBits_nil (s : State) : encodeBits [] s = s.countSymbol.goTo .encGet := rfl

theorem encodeBits_overflow {s : State} (b : Bool) (bs : List Bool) (h : s.eng.nb = BitVec.allOnes 64) :
    encodeBits (b :: bs) s = encodeAbort .ovf 0 s := by
  simp only [encodeBits, h, if_true]

/-- A bit that does not fill the byte. -/
theorem encodeBits_short {s : State} (b : Bool) (bs : List Bool) (h : s.eng.nb ≠ BitVec.allOnes 64)
    (h7 : s.eng.nacc ≠ 7) : encodeBits (b :: bs) s = encodeBits bs (s.appendBit b).countBit := by
  have h7' : (s.appendBit b).eng.nacc ≠ 7 := h7
  simp only [encodeBits, if_neg h, if_neg h7']

/-- A bit that fills the byte: the byte is to be put. -/
theorem encodeBits_full {s : State} (b : Bool) (bs : List Bool) (h : s.eng.nb ≠ BitVec.allOnes 64)
    (h7 : s.eng.nacc = 7) : encodeBits (b :: bs) s = (s.appendBit b).goTo (.encPut bs) := by
  have h7' : (s.appendBit b).eng.nacc = 7 := h7
  simp only [encodeBits, if_neg h, if_pos h7']

/-! ### One item (R214, R215, R221, R225) -/

theorem encodeGet_waits {s : State} (h : s.env.si.now = []) : encodeGet s = none := by simp only [encodeGet, h]

theorem encodeGet_takes {s : State} {raw : Item Nat} {rest : List (Item Nat)} (h : s.env.si.now = raw :: rest) :
    encodeGet s = some (encodeTake raw rest s) := by simp only [encodeGet, h]

theorem encodeTake_eos (rest : List (Item Nat)) (s : State) :
    encodeTake .eos rest s = encodeFinal (s.tookSi .eos rest) := rfl

theorem encodeTake_err (rest : List (Item Nat)) (s : State) :
    encodeTake .err rest s = encodeAbort .io 0 (s.tookSi .err rest) := rfl

theorem encodeTake_miss {s : State} {c : Nat} (rest : List (Item Nat)) (hc : c < s.params.nsym)
    (hv : (s.codeAt c).valid = false) :
    encodeTake (.data c) rest s = encodeAbort .miss (BitVec.ofNat 64 c) (s.tookSi (.data c) rest) := by
  simp [encodeTake, narrow_data hc, hv]

theorem encodeTake_data {s : State} {c : Nat} (rest : List (Item Nat)) (hc : c < s.params.nsym)
    (hv : (s.codeAt c).valid = true) :
    encodeTake (.data c) rest s = encodeBits (s.codeAt c).path (s.tookSi (.data c) rest) := by
  simp only [encodeTake, narrow_data hc, tookSi_codeAt, hv, if_true]

/-! ### The puts (R219, R220, R224, R225) -/

theorem encodePut_waits {s : State} (rest : List Bool) (h : s.putBo s.eng.acc = none) : encodePut rest s = none := by
  simp only [encodePut, h]

theorem encodePut_ok {s t : State} (rest : List Bool) (h : s.putBo s.eng.acc = some (.ok, t)) :
    encodePut rest s = some (encodeBits rest t.countByte.clearAcc) := by
  simp only [encodePut, h]

theorem encodePut_failed {s t : State} (rest : List Bool) (h : s.putBo s.eng.acc = some (.fail, t)) :
    encodePut rest s = some (encodeSinkFailed t) := by
  simp only [encodePut, h]

theorem encodeFlush_waits {s : State} (h : s.putBo s.eng.acc = none) : encodeFlush s = none := by
  simp only [encodeFlush, h]

theorem encodeFlush_ok {s t : State} (h : s.putBo s.eng.acc = some (.ok, t)) :
    encodeFlush s = some (t.countByte.clearAcc.goTo (.encRelease .done)) := by
  simp only [encodeFlush, h]

theorem encodeFlush_failed {s t : State} (h : s.putBo s.eng.acc = some (.fail, t)) :
    encodeFlush s = some (encodeSinkFailed t) := by
  simp only [encodeFlush, h]

theorem encodeAbortPut_waits {s : State} (e : ErrCode) (info : Word) (h : s.putBo s.eng.acc = none) :
    encodeAbortPut e info s = none := by
  simp only [encodeAbortPut, h]

theorem encodeAbortPut_answered {s t : State} {a : Answer} (e : ErrCode) (info : Word)
    (h : s.putBo s.eng.acc = some (a, t)) :
    encodeAbortPut e info s = some (t.clearAcc.goTo (.encRelease (.fault e info))) := by
  simp only [encodeAbortPut, h]

/-! ### The ends (R224 to R228) -/

theorem encodeFinal_aligned {s : State} (h : s.eng.nacc = 0) : encodeFinal s = s.goTo (.encRelease .done) := if_pos h

theorem encodeFinal_flush {s : State} (h : s.eng.nacc ≠ 0) : encodeFinal s = s.goTo .encFlush := if_neg h

theorem encodeAbort_aligned {s : State} (e : ErrCode) (info : Word) (h : s.eng.nacc = 0) :
    encodeAbort e info s = s.goTo (.encRelease (.fault e info)) := if_pos h

theorem encodeAbort_flush {s : State} (e : ErrCode) (info : Word) (h : s.eng.nacc ≠ 0) :
    encodeAbort e info s = s.goTo (.encAbort e info) := if_neg h

/-- The run from the release to the end. -/
theorem settle_encodeRelease {s : State} {f : Ending} (h : s.eng.point = .encRelease f) :
    s.settle = encodeFinish f (encodeClose f (encodeRelease f s)) := by
  rw [settle_step (microStep_encRelease h), settle_step (microStep_encClose rfl),
    settle_step (microStep_encFinish rfl)]
  exact settle_stuck (by cases f <;> exact microStep_idle rfl)

/-! ### The packer (20_memory.md R75, 44_encoder.md R218) -/

/-- ACC and NACC hold the bits `l` of a byte not yet full. -/
def Packs (acc : Byte) (nacc : BitVec 3) (l : List Bool) : Prop :=
  l.length < 8 ∧ nacc.toNat = l.length ∧ ∀ k, k < 8 → acc.getLsbD (7 - k) = l.getD k false

theorem packs_empty : Packs 0 0 [] := ⟨by decide, rfl, fun k _ => by simp⟩

theorem placeBit_get (acc : Byte) (nacc : BitVec 3) (b : Bool) {k : Nat} (hk : k < 8) :
    (placeBit acc nacc b).getLsbD (7 - k) = (acc.getLsbD (7 - k) || (decide (k = nacc.toNat) && b)) := by
  have hn : nacc.toNat < 8 := nacc.isLt
  simp only [placeBit, BitVec.getLsbD_or, BitVec.getLsbD_shiftLeft, BitVec.getLsbD_setWidth]
  congr 1
  by_cases h : k = nacc.toNat
  · subst h
    simp
    omega
  · by_cases h2 : 7 - k < 7 - nacc.toNat
    · simp [h, h2]
    · have h3 : 7 - k - (7 - nacc.toNat) ≠ 0 := by omega
      cases b <;> simp [h, h3]

/-- Appending a bit to the packer appends it to what the packer holds. -/
theorem packs_place {acc : Byte} {nacc : BitVec 3} {l : List Bool} (h : Packs acc nacc l) (b : Bool) :
    ∀ k, k < 8 → (placeBit acc nacc b).getLsbD (7 - k) = (l ++ [b]).getD k false := by
  obtain ⟨h1, h2, h3⟩ := h
  intro k hk
  rw [placeBit_get acc nacc b hk, h3 k hk, h2]
  rcases Nat.lt_trichotomy k l.length with h | h | h
  · rw [List.getD_append _ _ _ _ h]
    simp [Nat.ne_of_lt h]
  · subst h
    simp
  · have hne : k ≠ l.length := by omega
    have h4 : (l ++ [b]).length ≤ k := by
      simp only [List.length_append, List.length_singleton]
      omega
    rw [List.getD_eq_default _ _ (by omega), List.getD_eq_default _ _ h4]
    simp [hne]

/-- A byte whose packer holds eight bits is those bits, first to last. -/
theorem byte_bits_eq {v : Byte} {l : List Bool} (hl : l.length = 8)
    (h : ∀ k, k < 8 → v.getLsbD (7 - k) = l.getD k false) : streamBits [v] = l := by
  apply List.ext_getElem
  · simp [streamBits, hl]
  · intro k h1 h2
    have hk : k < 8 := by omega
    simp only [streamBits, List.flatMap_cons, List.flatMap_nil, List.append_nil, List.getElem_map,
      List.getElem_range]
    rw [h k hk, List.getD_eq_getElem _ _ h2]

@[simp] theorem streamBits_nil : streamBits [] = [] := rfl

theorem streamBits_append (l r : List Byte) : streamBits (l ++ r) = streamBits l ++ streamBits r := by
  simp [streamBits]

theorem streamBits_length (l : List Byte) : (streamBits l).length = 8 * l.length := by
  induction l with
  | nil => rfl
  | cons v l ih =>
    have : streamBits (v :: l) = streamBits [v] ++ streamBits l := streamBits_append [v] l
    rw [this, List.length_append, ih]
    simp [streamBits]
    omega

/-! ### What a trace shows -/

theorem bytesPut_append (l r : List Obs) : bytesPut (l ++ r) = bytesPut l ++ bytesPut r := List.filterMap_append
theorem putsBo_append (l r : List Obs) : putsBo (l ++ r) = putsBo l ++ putsBo r := List.filterMap_append
theorem symbolsPut_append (l r : List Obs) : symbolsPut (l ++ r) = symbolsPut l ++ symbolsPut r :=
  List.filterMap_append
theorem takenSi_append (l r : List Obs) : takenSi (l ++ r) = takenSi l ++ takenSi r := List.filterMap_append
theorem takenBi_append (l r : List Obs) : takenBi (l ++ r) = takenBi l ++ takenBi r := List.filterMap_append

end Sys2Proof.Machine
end

