-- ==== Sys2Proof/Laws/Extractor.lean ====
section
/-!
SUPPORT. What one iteration of the extractor's walk does (43_code_table_extractor.md R196), case by case, and how the
loop and the recursive walk unfold.
-/
namespace Sys2Proof.Machine

theorem isLeaf_iff (n : Node) : n.isLeaf = true ↔ n.lp = false ∧ n.rp = false := by
  cases hl : n.lp <;> cases hr : n.rp <;> simp [Node.isLeaf, hl, hr]

/-! ### One iteration -/

theorem walkStep_leaf {s : State} {i : Nat} {below : List Frame}
    (hw : s.eng.wstk = { node := i, phase := .ph0 } :: below) (hl : (s.nodeAt i).isLeaf = true) :
    walkStep s =
      (s.setCode (s.nodeAt i).ch { valid := true, path := s.eng.path }).setWalk
        ({ node := i, phase := .ph2 } :: below) s.eng.path := by
  simp only [walkStep, hw, walkEnter, hl, if_true]

theorem walkStep_left {s : State} {i : Nat} {below : List Frame}
    (hw : s.eng.wstk = { node := i, phase := .ph0 } :: below) (hp : (s.nodeAt i).lp = true) :
    walkStep s =
      s.setWalk ({ node := (s.nodeAt i).left, phase := .ph0 } :: { node := i, phase := .ph1 } :: below)
        (s.eng.path ++ [false]) := by
  have hl : (s.nodeAt i).isLeaf = false := by simp [Node.isLeaf, hp]
  simp only [walkStep, hw, walkEnter, hl, hp, if_true, Frame.enter, Bool.false_eq_true, if_false]

theorem walkStep_noLeft {s : State} {i : Nat} {below : List Frame}
    (hw : s.eng.wstk = { node := i, phase := .ph0 } :: below) (hl : (s.nodeAt i).isLeaf = false)
    (hp : (s.nodeAt i).lp = false) :
    walkStep s = s.setWalk ({ node := i, phase := .ph1 } :: below) s.eng.path := by
  simp only [walkStep, hw, walkEnter, hl, hp, Bool.false_eq_true, if_false]

theorem walkStep_right {s : State} {i : Nat} {below : List Frame}
    (hw : s.eng.wstk = { node := i, phase := .ph1 } :: below) (hp : (s.nodeAt i).rp = true) :
    walkStep s =
      s.setWalk ({ node := (s.nodeAt i).right, phase := .ph0 } :: { node := i, phase := .ph2 } :: below)
        (s.eng.path ++ [true]) := by
  simp only [walkStep, hw, walkRight, hp, if_true, Frame.enter]

theorem walkStep_noRight {s : State} {i : Nat} {below : List Frame}
    (hw : s.eng.wstk = { node := i, phase := .ph1 } :: below) (hp : (s.nodeAt i).rp = false) :
    walkStep s = s.setWalk ({ node := i, phase := .ph2 } :: below) s.eng.path := by
  simp only [walkStep, hw, walkRight, hp, Bool.false_eq_true, if_false]

theorem walkStep_leave {s : State} {i : Nat} {f : Frame} {fs : List Frame}
    (hw : s.eng.wstk = { node := i, phase := .ph2 } :: f :: fs) :
    walkStep s = s.setWalk (f :: fs) s.eng.path.dropLast := by
  simp only [walkStep, hw, walkLeave]

theorem walkStep_leaveRoot {s : State} {i : Nat} (hw : s.eng.wstk = [{ node := i, phase := .ph2 }]) :
    walkStep s = s.setWalk [] s.eng.path := by
  simp only [walkStep, hw, walkLeave]

/-- An iteration touches CODE, WSTK and PATH, and nothing else. -/
theorem walkStep_frame (s : State) :
    walkStep s = { s with eng := { s.eng with
      code := (walkStep s).eng.code, wstk := (walkStep s).eng.wstk, path := (walkStep s).eng.path } } := by
  unfold walkStep
  split
  · rfl
  · split
    · unfold walkEnter
      dsimp only
      split
      · rfl
      · split <;> rfl
    · unfold walkRight
      dsimp only
      split <;> rfl
    · unfold walkLeave
      split <;> rfl

/-! ### The loop -/

theorem walkLoop_done {fuel : Nat} {s : State} (h : s.eng.wstk = []) : walkLoop fuel s = some s := by
  cases fuel <;> simp [walkLoop, h]

theorem walkLoop_step {fuel : Nat} {s : State} (h : s.eng.wstk ≠ []) :
    walkLoop (fuel + 1) s = walkLoop fuel (walkStep s) := by
  simp [walkLoop, h]

/-- Whatever the loop answers, WSTK is empty, and nothing but CODE, WSTK and PATH has changed. -/
theorem walkLoop_some {fuel : Nat} {s t : State} (h : walkLoop fuel s = some t) :
    t.eng.wstk = [] ∧
      t = { s with eng := { s.eng with code := t.eng.code, wstk := t.eng.wstk, path := t.eng.path } } := by
  induction fuel generalizing s with
  | zero =>
    by_cases hw : s.eng.wstk = []
    · rw [walkLoop_done hw] at h
      cases h
      exact ⟨hw, rfl⟩
    · simp [walkLoop, hw] at h
  | succ fuel ih =>
    by_cases hw : s.eng.wstk = []
    · rw [walkLoop_done hw] at h
      cases h
      exact ⟨hw, rfl⟩
    · rw [walkLoop_step hw] at h
      obtain ⟨h1, h2⟩ := ih h
      refine ⟨h1, h2.trans ?_⟩
      rw [walkStep_frame s]

/-! ### The recursive walk (R191) -/

theorem walkEntries_leaf {s : State} {i : Nat} (depth : Nat) (p : List Bool) (h : (s.nodeAt i).isLeaf = true) :
    s.walkEntries (depth + 1) i p = [((s.nodeAt i).ch, p)] := by
  simp [State.walkEntries, h]

theorem walkEntries_node {s : State} {i : Nat} (depth : Nat) (p : List Bool) (h : (s.nodeAt i).isLeaf = false) :
    s.walkEntries (depth + 1) i p =
      (if (s.nodeAt i).lp then s.walkEntries depth (s.nodeAt i).left (p ++ [false]) else []) ++
        (if (s.nodeAt i).rp then s.walkEntries depth (s.nodeAt i).right (p ++ [true]) else []) := by
  simp [State.walkEntries, h]

theorem follow_append (s : State) (i : Nat) (p q : List Bool) :
    s.follow i (p ++ q) = (s.follow i p).bind fun j => s.follow j q := by
  induction p generalizing i with
  | nil => rfl
  | cons b p ih =>
    simp only [List.cons_append, State.follow]
    split
    · exact ih _
    · rfl

/-- A path that goes on from a leaf leads nowhere: it is why a code is prefix free. -/
theorem follow_leaf {s : State} {i : Nat} (h : (s.nodeAt i).isLeaf = true) (b : Bool) (p : List Bool) :
    s.follow i (b :: p) = none := by
  obtain ⟨hl, hr⟩ := (isLeaf_iff _).1 h
  cases b <;> simp [State.follow, Node.child, hl, hr]

end Sys2Proof.Machine
end

