-- ==== Sys2Proof/Laws/Decoder.lean ====
section
/-!
SUPPORT. The micro-operations of DECODE (45_decoder.md R240), case by case, and the bits in the unpacker.
-/
namespace Sys2Proof.Machine

/-! ### The bits of one byte (R244 to R249) -/

theorem decodeBits_limit {s : State} (n : Nat) (h : s.eng.nb = s.eng.lim) : decodeBits n s = decodeExhausted s := by
  cases n <;> exact if_pos h

theorem decodeBits_zero {s : State} (h : s.eng.nb ≠ s.eng.lim) : decodeBits 0 s = s.goTo .decGet := if_neg h

/-- One bit read and not the limit: the four outcomes of R246, R248 and R249, the cursor's record being `s`'s own. -/
theorem decodeBits_bit {s : State} (n : Nat) (h : s.eng.nb ≠ s.eng.lim) :
    decodeBits (n + 1) s =
      if s.eng.tk = .empty then decodeAbort .empty 0 s.readBit.2
      else if ((s.nodeAt s.eng.cur).child (s.eng.sh.getLsbD 7)).1 = false then
        decodeAbort .noChild (noChildInfo (s.eng.sh.getLsbD 7) s.eng.cur) s.readBit.2
      else if (s.nodeAt ((s.nodeAt s.eng.cur).child (s.eng.sh.getLsbD 7)).2).isLeaf = true then
        (s.readBit.2.setCur ((s.nodeAt s.eng.cur).child (s.eng.sh.getLsbD 7)).2).goTo .decPut
      else decodeBits n (s.readBit.2.setCur ((s.nodeAt s.eng.cur).child (s.eng.sh.getLsbD 7)).2) := by
  have h1 : s.readBit.2.nodeAt = s.nodeAt := rfl
  have h2 : s.readBit.2.eng.cur = s.eng.cur := rfl
  have h3 : s.readBit.2.eng.tk = s.eng.tk := rfl
  have h4 : s.readBit.1 = s.eng.sh.getLsbD 7 := rfl
  rw [decodeBits, if_neg h]
  simp only [h1, h2, h3, h4, Bool.not_eq_true']

/-- Between commands and at each `get` the shift register is empty. -/
theorem decodeLoop_empty {s : State} (h : s.eng.nsh = 0) : decodeLoop s = decodeBits 0 s := by
  have h0 : s.eng.nsh.toNat = 0 := by rw [h]; rfl
  rw [decodeLoop, h0]

theorem decodeLoop_load (v : Byte) (s : State) : decodeLoop (s.loadByte v) = decodeBits 8 (s.loadByte v) := rfl

/-! ### The items and the puts (R245, R249, R251, R252) -/

theorem decodeGet_waits {s : State} (h : s.env.bi.now = []) : decodeGet s = none := by simp only [decodeGet, h]

theorem decodeGet_takes {s : State} {it : Item Byte} {rest : List (Item Byte)} (h : s.env.bi.now = it :: rest) :
    decodeGet s = some (decodeTake it rest s) := by simp only [decodeGet, h]

theorem decodeTake_eos (rest : List (Item Byte)) (s : State) :
    decodeTake .eos rest s = decodeExhausted (s.tookBi .eos rest) := rfl

theorem decodeTake_err (rest : List (Item Byte)) (s : State) :
    decodeTake .err rest s = decodeAbort .io 2 (s.tookBi .err rest) := rfl

theorem decodeTake_data (v : Byte) (rest : List (Item Byte)) (s : State) :
    decodeTake (.data v) rest s = decodeBits 8 ((s.tookBi (.data v) rest).loadByte v) := rfl

theorem decodePut_waits {s : State} (h : s.putSo s.leafSymbol = none) : decodePut s = none := by
  simp only [decodePut, h]

theorem decodePut_ok {s t : State} (h : s.putSo s.leafSymbol = some (.ok, t)) :
    decodePut s = some (decodeLoop t.emitted) := by
  simp only [decodePut, h]

theorem decodePut_failed {s t : State} (h : s.putSo s.leafSymbol = some (.fail, t)) :
    decodePut s = some (decodeAbort .io 3 t) := by
  simp only [decodePut, h]
  rfl

theorem decodeExhausted_truncated {s : State} (h : s.eng.tk = .tree) (hc : s.eng.cur ≠ s.eng.root) :
    decodeExhausted s = decodeAbort .trunc (BitVec.ofNat 64 s.eng.cur) s := if_pos ⟨h, hc⟩

theorem decodeExhausted_done {s : State} (h : s.eng.tk = .tree → s.eng.cur = s.eng.root) :
    decodeExhausted s = s.goTo (.decRelease .done) := if_neg fun hc => hc.2 (h hc.1)

/-- The run from the release to the end. -/
theorem settle_decodeRelease {s : State} {f : Ending} (h : s.eng.point = .decRelease f) :
    s.settle = decodeFinish f (decodeClose f (decodeRelease f s)) := by
  rw [settle_step (microStep_decRelease h), settle_step (microStep_decClose rfl),
    settle_step (microStep_decFinish rfl)]
  exact settle_stuck (by cases f <;> exact microStep_idle rfl)

/-! ### The unpacker (R247) -/

/-- SH holds the bits `l` still to be read, the next of them first. -/
def Unpacks (sh : Byte) (l : List Bool) : Prop :=
  l.length ≤ 8 ∧ ∀ k, k < l.length → sh.getLsbD (7 - k) = l.getD k false

theorem unpacks_load (v : Byte) : Unpacks v (streamBits [v]) := by
  refine ⟨by simp [streamBits], fun k hk => ?_⟩
  have hk8 : k < 8 := by simpa [streamBits] using hk
  rw [List.getD_eq_getElem _ _ hk]
  simp [streamBits]

theorem unpacks_read {sh : Byte} {b : Bool} {l : List Bool} (h : Unpacks sh (b :: l)) :
    sh.getLsbD 7 = b ∧ Unpacks (sh <<< 1) l := by
  obtain ⟨h1, h2⟩ := h
  simp only [List.length_cons] at h1 h2
  refine ⟨by simpa using h2 0 (by omega), by omega, fun k hk => ?_⟩
  have h3 := h2 (k + 1) (by omega)
  rw [List.getD_cons_succ] at h3
  rw [← h3, BitVec.getLsbD_shiftLeft]
  have h4 : 7 - k < 8 := by omega
  have h5 : ¬ 7 - k < 1 := by omega
  have h6 : 7 - k - 1 = 7 - (k + 1) := by omega
  simp [h4, h5, h6]

end Sys2Proof.Machine
end

