-- ==== Sys2Proof/Laws/Host.lean ====
section
/-!
SUPPORT. The host port and the step (Machine/HostPort.lean, Machine/Step.lean): when a write is accepted, and what
each event makes a step do.
-/
namespace Sys2Proof.Machine

/-- 60_exceptions.md R290, (a) to (c). -/
theorem accepts_iff (s : State) (n : Fin 8) (v : Word) :
    s.accepts n v = true ↔
      n.val ≤ 4 ∧ s.eng.busy = false ∧ (n.val = 4 → s.eng.err = .none ∨ v = clrWord) := by
  simp only [State.accepts, Bool.and_eq_true, Bool.or_eq_true, Bool.not_eq_true', decide_eq_true_eq, bne_iff_ne,
    beq_iff_eq, ne_eq, Fin.ext_iff, Fin.le_def]
  constructor
  · rintro ⟨⟨h1, h2⟩, h3⟩
    exact ⟨h1, h2, fun h4 => by rcases h3 with (h | h) | h <;> tauto⟩
  · rintro ⟨h1, h2, h3⟩
    refine ⟨⟨h1, h2⟩, ?_⟩
    by_cases h4 : n.val = 4
    · rcases h3 h4 with h | h
      · exact .inl (.inr h)
      · exact .inr h
    · exact .inl (.inl h4)

theorem step_noEvent {s : State} (h : s.env.events = []) : step s = engineMove s := by
  simp only [step, moveOnce, h]

theorem step_event {s : State} {e : Event} {es : List Event} (h : s.env.events = e :: es) :
    step s = handle e (s.withEvents es) := by
  simp only [step, moveOnce, h]

theorem beginCommand_ok {w : Word} {i : Instr} (h : decode w = .ok i) (s : State) :
    beginCommand w s = exec i s := by
  simp only [beginCommand, h]

theorem beginCommand_error {w : Word} {e : Illegal} (h : decode w = .error e) (s : State) :
    beginCommand w s = .next (s.raiseFault .op w) := by
  simp only [beginCommand, h, raising]

theorem hostWrite_cmd {s : State} {v : Word} (h : s.accepts 4 v = true) :
    hostWrite 4 v s = beginCommand v (s.accept v) := by
  simp only [hostWrite, h, if_true]

theorem hostWrite_arg {s : State} {n : Fin 8} {v : Word} (h : s.accepts n v = true) (hn : n ≠ 4) :
    hostWrite n v s = .next (s.storeX n v) := by
  simp only [hostWrite, h, if_true, if_neg hn]

theorem hostWrite_refused {s : State} {n : Fin 8} {v : Word} (h : s.accepts n v = false) :
    hostWrite n v s = .next (s.refuseWrite n) := by
  simp only [hostWrite, h, Bool.false_eq_true, if_false]

theorem engineTick_start {s : State} {w : Word} (h : s.eng.point = .start w) : engineTick s = firstStepOf w s := by
  simp only [engineTick, h]

theorem engineTick_goesOn {s : State} (h : ∀ w, s.eng.point ≠ .start w) :
    engineTick s = .next (s.microStep.getD s) := by
  unfold engineTick
  split
  · exact absurd ‹_› (h _)
  · rfl

theorem engineMove_start {s : State} {w : Word} (h : s.eng.point = .start w) : engineMove s = beginCommand w s := by
  simp only [engineMove, h]

theorem engineMove_goesOn {s : State} (h : ∀ w, s.eng.point ≠ .start w) : engineMove s = .next s.settle := by
  unfold engineMove
  split
  · exact absurd ‹_› (h _)
  · rfl

/-- A command that ends at its first micro-operation has nothing to run on to. -/
theorem settle_ended {s : State} (h : s.eng.point = .idle) : s.settle = s := settle_stuck (microStep_idle h)

theorem withCodeTable_settle {s t u : State} (h : withCodeTable s (.next u) = .next t) :
    withCodeTable s (.next u.settle) = .next t.settle := by
  unfold withCodeTable at h ⊢
  split at h <;> rename_i hc <;> cases h
  · rw [if_pos hc]
  · rw [if_neg hc, settle_ended rfl]
    rfl

theorem withTree_settle {s t u : State} (h : withTree s (.next u) = .next t) :
    withTree s (.next u.settle) = .next t.settle := by
  unfold withTree at h ⊢
  split at h <;> cases h
  · rw [settle_ended rfl]
    rfl
  · rfl
  · rfl

/-- A refused write changes HERR, at most. -/
theorem refuseWrite_eq (s : State) (n : Fin 8) :
    s.refuseWrite n = { s with eng := { s.eng with herr := s.eng.herr || decide (n ≤ 4) } } := by
  by_cases h : n ≤ 4 <;> simp [State.refuseWrite, h]

end Sys2Proof.Machine
end

