-- ==== Sys2Proof/Laws/PerInstr.lean ====
section
/-!
SUPPORT. What holds of every command as syntax: it is well formed, and its word decodes to it (30_encoding.md R102,
R103).
-/
namespace Sys2Proof.Laws

/-- The command is well formed, its word is its opcode with the upper 56 bits zero, and the word decodes to it. -/
def EncodeRoundTrip.Statement (i : Instr) : Prop :=
  i.wf = true ∧ (encode i).toNat = i.opcode.toNat ∧ decode (encode i) = .ok i

theorem EncodeRoundTrip.nop : EncodeRoundTrip.Statement .nop := ⟨rfl, rfl, rfl⟩
theorem EncodeRoundTrip.clr : EncodeRoundTrip.Statement .clr := ⟨rfl, rfl, rfl⟩
theorem EncodeRoundTrip.setf : EncodeRoundTrip.Statement .setf := ⟨rfl, rfl, rfl⟩
theorem EncodeRoundTrip.getf : EncodeRoundTrip.Statement .getf := ⟨rfl, rfl, rfl⟩
theorem EncodeRoundTrip.count : EncodeRoundTrip.Statement .count := ⟨rfl, rfl, rfl⟩
theorem EncodeRoundTrip.build : EncodeRoundTrip.Statement .build := ⟨rfl, rfl, rfl⟩
theorem EncodeRoundTrip.gett : EncodeRoundTrip.Statement .gett := ⟨rfl, rfl, rfl⟩
theorem EncodeRoundTrip.getn : EncodeRoundTrip.Statement .getn := ⟨rfl, rfl, rfl⟩
theorem EncodeRoundTrip.extract : EncodeRoundTrip.Statement .extract := ⟨rfl, rfl, rfl⟩
theorem EncodeRoundTrip.getc : EncodeRoundTrip.Statement .getc := ⟨rfl, rfl, rfl⟩
theorem EncodeRoundTrip.encode : EncodeRoundTrip.Statement .encode := ⟨rfl, rfl, rfl⟩
theorem EncodeRoundTrip.decode : EncodeRoundTrip.Statement .decode := ⟨rfl, rfl, rfl⟩

end Sys2Proof.Laws
end

