-- ==== Sys2Proof/Tests/Slice0.lean ====
section
/-!
SUPPORT. The model's own tests. Expected values are those of spec/95_test_vectors.md (the vector is named; on the
small instance SYMW = 2, FREQW = 4 the symbols a, b, c, d are 0, 1, 2, 3 and SENT is 4, everything else being as in
the vector) or are read off the rule named. The witnesses at the end meet the hypotheses of the statements.
-/
namespace Sys2Proof.Tests

open Sys2Proof Sys2Proof.Machine

/-! ### Well-formedness -/

/-- R6: the reference instance and both ends of each range are well formed. -/
theorem test_wf_params_in_range :
    Params.reference.wf = true ∧ Params.wf { symw := 1, freqw := 1 } = true ∧
      Params.wf { symw := 16, freqw := 48 } = true ∧ Params.wf { symw := 1, freqw := 63 } = true := by decide

/-- Each check of R6 refuses its ill-formed term, the other two accepting it. -/
theorem test_wf_refuses_symw_zero :
    Params.wf { symw := 0, freqw := 32 } = false ∧ Params.symwOk { symw := 0, freqw := 32 } = false ∧
      Params.freqwOk { symw := 0, freqw := 32 } = true ∧ Params.sumOk { symw := 0, freqw := 32 } = true := by decide

theorem test_wf_refuses_symw_seventeen :
    Params.wf { symw := 17, freqw := 32 } = false ∧ Params.symwOk { symw := 17, freqw := 32 } = false ∧
      Params.freqwOk { symw := 17, freqw := 32 } = true ∧ Params.sumOk { symw := 17, freqw := 32 } = true := by decide

theorem test_wf_refuses_freqw_zero :
    Params.wf { symw := 8, freqw := 0 } = false ∧ Params.symwOk { symw := 8, freqw := 0 } = true ∧
      Params.freqwOk { symw := 8, freqw := 0 } = false ∧ Params.sumOk { symw := 8, freqw := 0 } = true := by decide

theorem test_wf_refuses_wide_aggregate :
    Params.wf { symw := 16, freqw := 49 } = false ∧ Params.symwOk { symw := 16, freqw := 49 } = true ∧
      Params.freqwOk { symw := 16, freqw := 49 } = true ∧ Params.sumOk { symw := 16, freqw := 49 } = false := by decide

/-- R104, R105: ill-formed words; the last is a lawful `op` under a set reserved bit (vector V1.24 to V1.26). -/
theorem test_wf_refuses_illegal_words :
    decode 0x000000000000000C = .error .reservedOpcode ∧ decode 0x0000000000000100 = .error .reservedBits ∧
      decode 0x8000000000000005 = .error .reservedBits := by decide

/-- R7: the derived constants of the reference instance, as the spec prints them. -/
theorem test_constants_of_reference :
    Params.reference.nsym = 256 ∧ Params.reference.nnode = 511 ∧ Params.reference.idxw = 9 ∧
      Params.reference.aggw = 40 ∧ Params.reference.maxlen = 255 ∧ Params.reference.lenw = 8 ∧
      Params.reference.sent = 256 ∧ Params.reference.kmax = 3 := by decide

/-! ### Decoding: each command's word written out from R103, most significant bits first -/

theorem test_decode_nop : decode (0#56 ++ 0b00000000#8) = .ok .nop := by decide
theorem test_decode_clr : decode (0#56 ++ 0b00000001#8) = .ok .clr := by decide
theorem test_decode_setf : decode (0#56 ++ 0b00000010#8) = .ok .setf := by decide
theorem test_decode_getf : decode (0#56 ++ 0b00000011#8) = .ok .getf := by decide
theorem test_decode_count : decode (0#56 ++ 0b00000100#8) = .ok .count := by decide
theorem test_decode_build : decode (0#56 ++ 0b00000101#8) = .ok .build := by decide
theorem test_decode_gett : decode (0#56 ++ 0b00000110#8) = .ok .gett := by decide
theorem test_decode_getn : decode (0#56 ++ 0b00000111#8) = .ok .getn := by decide
theorem test_decode_extract : decode (0#56 ++ 0b00001000#8) = .ok .extract := by decide
theorem test_decode_getc : decode (0#56 ++ 0b00001001#8) = .ok .getc := by decide
theorem test_decode_encode : decode (0#56 ++ 0b00001010#8) = .ok .encode := by decide
theorem test_decode_decode : decode (0#56 ++ 0b00001011#8) = .ok .decode := by decide

theorem test_decodeTableWord :
    decodeTableWord 64 5 = some .build ∧ decodeTableWord 8 0x0B = some .decode ∧ decodeTableWord 64 0x0C = none ∧
      decodeTableWord 64 0x105 = none := by decide

/-! ### States -/

/-- The small instance. -/
def small : Params := { symw := 2, freqw := 4 }

def leaf (c f : Nat) : Node := { ch := c, freq := f, lp := false, left := 0, rp := false, right := 0 }

def merge (f l r : Nat) : Node := { ch := 4, freq := f, lp := true, left := l, rp := true, right := r }

/-- After reset. -/
def blank : State := State.resetOf small

/-- The operands. -/
def withX (s : State) (a b : Nat) : State :=
  { s with eng := { s.eng with x0 := BitVec.ofNat 64 a, x1 := BitVec.ofNat 64 b } }

/-- The mapping of vector V3.10: a 4, b 2, c 1. -/
def counted : State := { blank with eng := { blank.eng with freq := [(0, 4), (1, 2), (2, 1)] } }

/-- Its tree, V3.10. -/
def built : State :=
  { counted with eng := { counted.eng with
      node := [(0, leaf 0 4), (1, leaf 1 2), (2, leaf 2 1), (3, merge 3 2 1), (4, merge 7 3 0)]
      root := 4
      ncnt := 5
      tk := .tree } }

/-- Its code table, V4.8: a 1, b 01, c 00. -/
def extracted : State :=
  { built with eng := { built.eng with
      code := [(0, { valid := true, path := [true] }), (1, { valid := true, path := [false, true] }),
        (2, { valid := true, path := [false, false] })]
      ctv := true } }

/-- The tree of the empty mapping. -/
def emptied : State := { blank with eng := { blank.eng with tk := .empty } }

def offeringSi (s : State) (l : List (Item Nat)) : State :=
  { s with env := { s.env with si := { now := l, later := [] } } }

def offeringBi (s : State) (l : List (Item Byte)) : State :=
  { s with env := { s.env with bi := { now := l, later := [] } } }

def answeringBo (s : State) (l : List Answer) : State :=
  { s with env := { s.env with bo := { now := l, later := [] } } }

def answeringSo (s : State) (l : List Answer) : State :=
  { s with env := { s.env with so := { now := l, later := [] } } }

/-- The state a step or a command answers. -/
def next? (o : Result) : Option State :=
  match o with
  | .next t => some t
  | .fault _ => none
  | .refused _ => none

/-- What `f` sees of the state a command answers. -/
def see {α : Type} (o : Result) (f : State → α) : Option α := (next? o).map f

/-! ### One step of each command -/

/-- V1.1: DONE and nothing else. -/
theorem test_nop : next? (exec .nop blank) = some { blank with eng := { blank.eng with done := true } } := by decide

/-- V1.23: from any state, the reset state with DONE. -/
theorem test_clr : see (exec .clr extracted) State.eng = some { Engine.reset with done := true } := by decide

/-- V1.4: the greatest frequency is stored. -/
theorem test_setf_greatest : see (exec .setf (withX blank 3 15)) (fun t => t.eng.freq) = some [(3, 15)] := by decide

/-- V1.7: both operands out of range, the first is reported. -/
theorem test_setf_first_operand_reported :
    see (exec .setf (withX blank 4 16)) (fun t => (t.eng.err, t.eng.finfo, t.eng.freq, t.eng.done)) =
      some (.arg, 0, [], true) := by decide

/-- V1.3 -/
theorem test_getf : see (exec .getf (withX counted 1 9)) (fun t => (t.eng.x0, t.eng.x1)) = some (1, 2) := by decide

/-- V2.1: a a b. -/
theorem test_count :
    see (exec .count (offeringSi blank [.data 0, .data 0, .data 1, .eos]))
      (fun t => (t.eng.freq, t.eng.x0, t.eng.x1, t.env.trace.length)) = some ([(0, 2), (1, 1)], 3, 2, 5) := by decide

/-- V2.6: the greatest count does not wrap; the fifth item is consumed and no sixth. -/
theorem test_count_overflow :
    see (exec .count (offeringSi (State.resetOf { symw := 2, freqw := 2 })
        [.data 1, .data 1, .data 1, .data 1, .data 1, .eos]))
      (fun t => (t.eng.err, t.eng.finfo, t.eng.freq, t.env.trace.length)) =
      some (.ovf, 1, [(1, 3)], 5) := by decide

/-- V3.10 -/
theorem test_build :
    see (exec .build counted) (fun t => (t.eng.node, t.eng.root, t.eng.ncnt, t.eng.tk)) =
      some (built.eng.node, 4, 5, .tree) := by decide

/-- V3.2: one symbol. -/
theorem test_build_one :
    see (exec .build (({ blank with eng := { blank.eng with freq := [(1, 1)] } } : State)))
      (fun t => (t.nodeAt 0, t.nodeAt 1, t.eng.root, t.eng.ncnt)) =
      some (leaf 1 1, { ch := 1, freq := 1, lp := true, left := 0, rp := false, right := 0 }, 1, 2) := by decide

/-- V1.9, on this tree. -/
theorem test_gett :
    see (exec .gett built) (fun t => (t.eng.x0, t.eng.x1, t.eng.x2, t.eng.x3)) = some (2, 4, 5, 7) := by decide

/-- R109 with V1.10's layout: left 2 at bit 20, right 1 at bit 40, both present, character SENT. -/
theorem test_getn :
    see (exec .getn (withX built 3 0)) (fun t => (t.eng.x1, t.eng.x2)) = some (0x0000010000260004, 3) := by decide

/-- V1.11: the index past the last. -/
theorem test_getn_past_the_last :
    see (exec .getn (withX built 5 0)) (fun t => (t.eng.err, t.eng.finfo)) = some (.arg, 0) := by decide

/-- V4.8 -/
theorem test_extract :
    see (exec .extract built) (fun t => (t.eng.code, t.eng.ctv, t.eng.wstk, t.eng.path)) =
      some (extracted.eng.code, true, [], []) := by decide

/-- V4.10 -/
theorem test_extract_no_tree :
    see (exec .extract blank) (fun t => (t.eng.err, t.eng.finfo, t.eng.ctv)) = some (.noTree, 0, false) := by decide

/-- R110, R138: b is 01: length 2, bit 0 of the chunk is the first step. -/
theorem test_getc :
    see (exec .getc (withX extracted 1 0)) (fun t => (t.eng.x2, t.eng.x3)) = some (0x8000000000000002, 2) := by decide

/-- R139: an absent symbol reads zeros. -/
theorem test_getc_absent :
    see (exec .getc (withX extracted 3 0)) (fun t => (t.eng.x2, t.eng.x3)) = some (0, 0) := by decide

/-- V5.8: aaaabbc is F5 00, 10 bits. -/
theorem test_encode :
    see (exec .encode (answeringBo (offeringSi extracted
        [.data 0, .data 0, .data 0, .data 0, .data 1, .data 1, .data 2, .eos]) [.ok, .ok]))
      (fun t => (bytesPut t.env.trace, t.eng.x0, t.eng.x1, t.eng.x2)) = some ([0xF5, 0x00], 10, 2, 7) := by decide

/-- V5.14, on this table: the symbol with no entry; the pending bit 1 is flushed as 80. -/
theorem test_encode_missing :
    see (exec .encode (answeringBo (offeringSi extracted [.data 0, .data 3, .data 0, .eos]) [.ok]))
      (fun t => (t.eng.err, t.eng.finfo, bytesPut t.env.trace, t.eng.x0)) = some (.miss, 3, [0x80], 0) := by decide

/-- V6.18: F5 00, 10 bits, is aaaabbc. -/
theorem test_decode :
    see (exec .decode (answeringSo (offeringBi (withX built 10 0) [.data 0xF5, .data 0x00, .eos])
        [.ok, .ok, .ok, .ok, .ok, .ok, .ok]))
      (fun t => (symbolsPut t.env.trace, t.eng.x0, t.eng.x1, t.eng.x2)) =
      some ([0, 0, 0, 0, 1, 1, 2], 10, 7, 2) := by decide

/-- R251: the fifth bit, 0, leaves the walk on record 3. -/
theorem test_decode_truncated :
    see (exec .decode (answeringSo (offeringBi (withX built 5 0) [.data 0xF5]) [.ok, .ok, .ok, .ok]))
      (fun t => (t.eng.err, t.eng.finfo, symbolsPut t.env.trace, t.eng.x0)) = some (.trunc, 3, [0, 0, 0, 0], 5) := by
  decide

/-! ### The host port -/

/-- V7.1: a write while BUSY sets HERR and nothing else. -/
theorem test_write_while_busy :
    see (step ({ blank with
        eng := { blank.eng with busy := true, point := .countGet, siOpen := true }
        env := { blank.env with events := [.write 0 7] } } : State)) (fun t => (t.eng.status, t.eng.x0)) =
      some (5, 0) := by decide

/-- V1.24: the whole illegal word in FINFO, OPR its low byte. -/
theorem test_illegal_word :
    see (step ({ blank with env := { blank.env with events := [.write 4 0x100] } } : State))
      (fun t => (t.eng.status, t.eng.finfo, t.eng.opr)) = some (0xA2, 0x100, 0) := by decide

/-- R114: the pseudo-instructions, and an access of each. -/
theorem test_host_program :
    hostEvents [.setf 1 2, .getc 3 0] =
      [.write 0 1, .write 1 2, .write 4 2, .read 5, .write 0 3, .write 1 0, .write 4 9, .read 5, .read 2, .read 3] := by
  decide

theorem test_withFetchWord :
    see (step (State.reset.withFetchWord 64 0)) (fun t => t.eng.status) = some 2 := by decide

/-! ### Witnesses: states and operands that meet the hypotheses of the statements, all together -/

def events (s : State) (es : List Event) : State := { s with env := { s.env with events := es } }

/-- In the middle of a COUNT that waits. -/
def counting : State :=
  { blank with eng := { blank.eng with opr := 4, busy := true, point := .countGet, siOpen := true } }

/-- After a fault. -/
def faulted : State := { blank with eng := { blank.eng with done := true, err := .arg, finfo := 1 } }

theorem witness_StepRunsTheDecodedCommand :
    (let s := events blank [.write 4 11];
      s.env.events = .write 4 11 :: [] ∧ s.eng.busy = false ∧ (s.eng.err = .none ∨ (11 : Word) = clrWord) ∧
        decode 11 = .ok .decode) ∧
      (let s := events faulted [.write 4 1];
        s.env.events = .write 4 1 :: [] ∧ s.eng.busy = false ∧ (s.eng.err = .none ∨ (1 : Word) = clrWord) ∧
          decode 1 = .ok .clr) := by decide

/-- The least reserved opcode, and a reserved bit alone. -/
theorem witness_IllegalWordRaisesEOp :
    (let s := events blank [.write 4 0x0C];
      s.env.events = .write 4 0x0C :: [] ∧ s.eng.busy = false ∧ s.eng.err = .none ∧
        0x0C ≤ (0x0C : Word).toNat % 256) ∧
      (let s := events blank [.write 4 0x100];
        s.env.events = .write 4 0x100 :: [] ∧ s.eng.busy = false ∧ s.eng.err = .none ∧
          (0x100 : Word).toNat / 256 ≠ 0) := by decide

/-- One state for each of the three ways a write is refused. -/
theorem witness_RefusedWriteOnlySetsHerr :
    (let s := events blank [.write 5 0];
      s.env.events = .write 5 0 :: [] ∧ 5 ≤ (5 : Fin 8).val) ∧
      (let s := events counting [.write 4 1];
        s.env.events = .write 4 1 :: [] ∧ s.eng.busy = true) ∧
      (let s := events faulted [.write 4 0];
        s.env.events = .write 4 0 :: [] ∧ (4 : Fin 8).val = 4 ∧ s.eng.err ≠ .none ∧
          (0 : Word) ≠ 0x0000000000000001) := by decide

theorem witness_AcceptedWriteStoresTheOperand :
    (let s := events faulted [.write 0 7];
      s.env.events = .write ⟨(0 : Fin 4).val, by omega⟩ 7 :: [] ∧ s.eng.busy = false) ∧
      (let s := events blank [.write 3 7];
        s.env.events = .write ⟨(3 : Fin 4).val, by omega⟩ 7 :: [] ∧ s.eng.busy = false) := by decide

theorem witness_HostReadChangesNothing :
    (events blank [.read 5]).env.events = .read 5 :: [] := by decide

/-- Reset in the middle of a COUNT: SI open, the others not; and of sessions the other way round. -/
theorem witness_ResetAbandonsTheCommand :
    (let s := events counting [.reset];
      s.env.events = .reset :: [] ∧ s.eng.siOpen = true ∧ s.eng.boOpen = false ∧ s.eng.biOpen = false ∧
        s.eng.soOpen = false) ∧
      (let s := events { blank with eng := { blank.eng with boOpen := true, biOpen := true, soOpen := true } } [.reset];
        s.env.events = .reset :: [] ∧ s.eng.siOpen = false ∧ s.eng.boOpen = true ∧ s.eng.biOpen = true ∧
          s.eng.soOpen = true) := by decide

theorem witness_WithNoEventTheEngineAloneMoves :
    (let s := blank.accept 5;
      s.env.events = [] ∧ s.eng.point = .start 5 ∧ decode 5 = .ok .build) ∧
      (let s := blank.accept 0x0C;
        s.env.events = [] ∧ s.eng.point = .start 0x0C ∧ 0x0C ≤ (0x0C : Word).toNat % 256) ∧
      (let s := blank.accept 0x100;
        s.env.events = [] ∧ s.eng.point = .start 0x100 ∧ (0x100 : Word).toNat / 256 ≠ 0) ∧
      (counting.env.events = [] ∧ counting.eng.point = .countGet ∧ counting.microStep = none) ∧
      (let s := offeringSi counting [.data 2, .eos];
        s.env.events = [] ∧ s.eng.point = .countGet ∧ see (step s) (fun t => t.eng.status) = some 2) ∧
      (let s := events faulted [.issue 1];
        s.env.events = .issue 1 :: [] ∧ s.eng.busy = false ∧ (1 : Word) = clrWord) ∧
      (let s := events counting [.issue 1];
        s.env.events = .issue 1 :: [] ∧ s.eng.busy = true) ∧
      (let s := events faulted [.issue 0];
        s.env.events = .issue 0 :: [] ∧ s.eng.err ≠ .none ∧ (0 : Word) ≠ clrWord) := by decide

/-- A state at the point `p`, a tick to come. -/
def ticking (s : State) (p : Point) : State := { s with eng := { s.eng with point := p }, env := { s.env with events := [.tick] } }

/-- Something supplied on every channel: `n` and `v` on the inputs, `a` from the sinks. -/
def supplied (s : State) (n : Item Nat) (v : Item Byte) (a : Answer) : State :=
  answeringSo (answeringBo (offeringBi (offeringSi s [n]) [v]) [a]) [a]

/-- Every point of a tick's clauses, with the event; the first steps' words; and the points at which nothing is
supplied. -/
theorem witness_TickPerformsOneMicroOperation_points :
    (∀ p ∈ [Point.start 0x0C, .start 0x100, .start 0, .start 4, .start 10, .start 11, .countGet, .encGet, .encPut [true],
        .encFlush, .encAbort .io 0, .decGet, .decPut, .countRelease .done, .encRelease .done, .decRelease .done,
        .encClose .done, .decClose .done, .countFinish .done, .encFinish .done, .decFinish .done,
        .encFinish (.fault .io 1)],
      (ticking extracted p).env.events = .tick :: [] ∧ (ticking extracted p).eng.point = p) ∧
    (0x0C ≤ (0x0C : Word).toNat % 256 ∧ (0x100 : Word).toNat / 256 ≠ 0) ∧
    (encode .nop = 0 ∧ encode .count = 4 ∧ encode .encode = 10 ∧ encode .decode = 11) ∧
    ((ticking counting .countGet).env.si.now = [] ∧ (ticking blank .encFlush).env.bo.now = [] ∧
      (ticking blank .decGet).env.bi.now = [] ∧ (ticking blank .decPut).env.so.now = []) := by decide

/-- And what is supplied at the points that use it: every item and answer, the entry valid and not, a count at the
greatest and below. -/
theorem witness_TickPerformsOneMicroOperation_supplies :
    (∀ n ∈ [Item.eos, .err, .data 1, .data 3],
      ∀ v ∈ [Item.eos, .err, .data 0x80],
        ∀ a ∈ [Answer.ok, .fail],
          let s := ticking (supplied extracted n v a) .countGet;
          s.env.si.now = n :: [] ∧ s.env.bi.now = v :: [] ∧ s.env.bo.now = a :: [] ∧ s.env.so.now = a :: []) ∧
    (3 < 2 ^ extracted.params.symw ∧ (extracted.codeAt 1).valid = true ∧ (extracted.codeAt 3).valid = false) ∧
    (extracted.freqAt 1 ≠ 2 ^ extracted.params.freqw - 1 ∧
      ({ blank with eng := { blank.eng with freq := [(1, 15)] } } : State).freqAt 1 = 2 ^ blank.params.freqw - 1) := by
  decide

/-- R81: the first step of ENCODE, and of DECODE, opens both its channels. -/
theorem test_first_step_opens_both :
    see (engineTick (extracted.accept 10)) (fun t => t.eng.sessions) = some (true, true, false, false) ∧
      see (engineTick (extracted.accept 11)) (fun t => t.eng.sessions) = some (false, false, true, true) := by decide

/-- A reset falls between the EOS of a COUNT and its release (R311): no release is seen. -/
theorem test_reset_before_the_release :
    (match Host.Core.run Sys2Proof.core 5
        (events (offeringSi blank [.data 1, .eos]) [.issue 4, .tick, .tick, .tick, .reset]) with
      | .next t => some (t.eng, t.env.trace)
      | .fault _ => none
      | .refused _ => none) = some (Engine.reset, [.tookSi (.data 1), .tookSi .eos, .reset]) := by decide

/-- And between the release of SI and the close of BO. -/
theorem test_reset_between_release_and_close :
    see (step (ticking (offeringSi { extracted with eng := { extracted.eng with siOpen := true, boOpen := true } } [])
        (.encRelease .done))) (fun t => (t.eng.siOpen, t.eng.boOpen, t.eng.point, t.env.trace)) =
      some (false, true, .encClose .done, [.release .si]) := by decide

/-- A command written to an idle engine, and one in progress. -/
theorem witness_TicksReachWhatARunReaches :
    (let s := offeringSi blank [.data 1, .eos];
      s.env.supplied + 5 ≤ 7 ∧ s.eng.busy = false ∧ s.eng.err = .none ∧
        see (step (s.withEvents [.write 4 4])) (fun t => (t.eng.status, t.eng.x0)) = some (2, 1)) ∧
      (let s := offeringSi counting [.data 1, .eos];
        s.env.supplied + 5 ≤ 7 ∧ see (step (s.withEvents [.run])) (fun t => (t.eng.status, t.eng.x0)) = some (2, 1)) := by
  decide

/-- For NopOnlyEnds and ClrLeavesTheResetStateWithDone: the refused word, and CLR's. -/
theorem witness_WhileFaulted :
    (let s := events faulted [.write 4 0];
      s.env.events = .write 4 0 :: [] ∧ s.eng.busy = false ∧ s.eng.err ≠ .none ∧
        (0 : Word) ≠ 0x0000000000000001) ∧
      (let s := events faulted [.write 4 1];
        s.env.events = .write 4 1 :: [] ∧ s.eng.busy = false ∧ s.eng.err ≠ .none ∧
          (1 : Word) = 0x0000000000000001) := by decide

/-- Both ends of each operand's range, and the first value out of it. -/
theorem witness_SetfWritesOneEntry :
    (let s := withX blank 0 0;
      s.eng.x0.toNat < 2 ^ s.params.symw ∧ s.eng.x1.toNat < 2 ^ s.params.freqw) ∧
      (let s := withX blank 3 15;
        s.eng.x0.toNat < 2 ^ s.params.symw ∧ s.eng.x1.toNat < 2 ^ s.params.freqw) ∧
      (let s := withX blank 4 0;
        2 ^ s.params.symw ≤ s.eng.x0.toNat) ∧
      (let s := withX blank 3 16;
        s.eng.x0.toNat < 2 ^ s.params.symw ∧ 2 ^ s.params.freqw ≤ s.eng.x1.toNat) := by decide

theorem witness_GetfReturnsTheEntry :
    (let s := withX counted 3 0;
      s.eng.x0.toNat < 2 ^ s.params.symw) ∧
      (let s := withX counted 4 0;
        2 ^ s.params.symw ≤ s.eng.x0.toNat) := by decide

theorem witness_NoTreeRaisesENotree :
    blank.eng.tk = .none ∧ (emptied.eng.tk = .empty ∧ emptied.eng.err ≠ .noTree) ∧
      ∀ i : Instr, i = .getn ∨ i = .extract ∨ i = .decode → i ∈ Instr.all := by
  refine ⟨rfl, by decide, ?_⟩
  rintro i (rfl | rfl | rfl) <;> decide

theorem witness_NoTableRaisesENotable :
    built.eng.ctv = false ∧ (extracted.eng.ctv = true ∧ extracted.eng.err ≠ .noTable) ∧
      ∀ i : Instr, i = .getc ∨ i = .encode → i ∈ Instr.all := by
  refine ⟨rfl, by decide, ?_⟩
  rintro i (rfl | rfl) <;> decide

/-- No tree; the first index not in use; the last in use. -/
theorem witness_GetnReturnsTheDescriptor :
    blank.eng.tk = .none ∧
      (let s := withX built 5 0;
        s.eng.tk ≠ .none ∧ s.eng.ncnt ≤ s.eng.x0.toNat) ∧
      (let s := withX built 4 0;
        s.eng.tk ≠ .none ∧ s.eng.x0.toNat < s.eng.ncnt) := by decide

/-- No table; each operand at the first value out of range; a valid entry, and an invalid one with the chunk at KMAX. -/
theorem witness_GetcReturnsTheEntryAndChunk :
    built.eng.ctv = false ∧
      (let s := withX extracted 4 0;
        s.eng.ctv = true ∧ 2 ^ s.params.symw ≤ s.eng.x0.toNat) ∧
      (let s := withX extracted 3 1;
        s.eng.ctv = true ∧ s.eng.x0.toNat < 2 ^ s.params.symw ∧
          (2 ^ s.params.symw - 1 - 1) / 64 < s.eng.x1.toNat) ∧
      (let s := withX extracted 1 0;
        s.eng.ctv = true ∧ s.eng.x0.toNat < 2 ^ s.params.symw ∧
          s.eng.x1.toNat ≤ (2 ^ s.params.symw - 1 - 1) / 64 ∧ (s.codeAt s.eng.x0.toNat).valid = true) ∧
      (let s := withX { extracted with params := Params.reference } 255 3;
        s.eng.ctv = true ∧ s.eng.x0.toNat < 2 ^ s.params.symw ∧
          s.eng.x1.toNat ≤ (2 ^ s.params.symw - 1 - 1) / 64 ∧ (s.codeAt s.eng.x0.toNat).valid = false) := by decide

/-- A count is at most the length, so a short list keeps every count in range. -/
theorem count_small (cs : List Nat) (h : cs.length < 2 ^ 4) (c : Nat) : cs.count c < 2 ^ small.freqw :=
  Nat.lt_of_le_of_lt List.count_le_length h

theorem witness_CountCountsTheSession :
    let s := offeringSi blank [.data 0, .data 3, .data 0, .eos, .err]
    let cs := [0, 3, 0]
    s.env.si.now = cs.map .data ++ .eos :: [.err] ∧ (∀ c ∈ cs, c < 2 ^ s.params.symw) ∧
      ∀ c, cs.count c < 2 ^ s.params.freqw :=
  ⟨rfl, by decide, count_small _ (by decide)⟩

theorem witness_CountReportsSourceFailure :
    let s := offeringSi blank [.data 0, .data 3, .err]
    let cs := [0, 3]
    s.env.si.now = cs.map .data ++ .err :: [] ∧ (∀ c ∈ cs, c < 2 ^ s.params.symw) ∧
      ∀ c, cs.count c < 2 ^ s.params.freqw :=
  ⟨rfl, by decide, count_small _ (by decide)⟩

/-- With FREQW = 2 the fourth of the same symbol overflows. -/
theorem witness_CountNeverWraps :
    let s := offeringSi (State.resetOf { symw := 2, freqw := 2 }) [.data 1, .data 1, .data 1, .data 1]
    let cs := [1, 1, 1]
    s.env.si.now = cs.map .data ++ .data 1 :: [] ∧ (∀ d ∈ cs, d < 2 ^ s.params.symw) ∧ 1 < 2 ^ s.params.symw ∧
      (∀ d, cs.count d < 2 ^ s.params.freqw) ∧ cs.count 1 = 2 ^ s.params.freqw - 1 :=
  ⟨rfl, by decide, by decide, fun d => Nat.lt_of_le_of_lt List.count_le_length (by decide), by decide⟩

theorem witness_ExtractMinTakesTheLeastRank :
    let s : State := { built with eng := { built.eng with pq := [0, 2, 1] } }
    s.eng.pq ≠ [] ∧ s.eng.pq.Nodup := by decide

theorem witness_BuildOfTheEmptyMapping : blank.present = [] := by decide

theorem witness_BuildOfOneSymbol :
    ({ blank with eng := { blank.eng with freq := [(3, 15)] } } : State).present = [3] := by decide

/-- For BuildMergesTheTwoLeast, and the last clause of BuildNumbersLeavesThenMerges; the clause before it. -/
theorem witness_BuildOfTwoOrMore :
    2 ≤ counted.present.length ∧
      ({ blank with eng := { blank.eng with freq := [(3, 15)] } } : State).present.length = 1 := by decide

/-- For BuildMakesAWellFormedTree and BuildConservesFrequency. -/
theorem witness_BuildMakesAWellFormedTree :
    counted.params.wf = true ∧ counted.FreqInv ∧ counted.present ≠ [] := by decide

/-- The same mapping beside a whole tree and table, and alone. -/
theorem witness_BuildDependsOnlyOnFreq :
    counted.params = extracted.params ∧ ∀ c, c < 2 ^ counted.params.symw → counted.freqAt c = extracted.freqAt c :=
  ⟨rfl, fun _ _ => rfl⟩

/-- For the statements about EXTRACT on a built tree; the tree of two or more symbols. -/
theorem witness_ExtractOnATree :
    built.params.wf = true ∧ built.eng.tk = .tree ∧ built.treeOk := by decide

/-- The same, the tree of one symbol. -/
theorem witness_ExtractOnASingleSymbolTree :
    let s : State := { blank with eng := { blank.eng with
      node := [(0, leaf 3 9), (1, { ch := 3, freq := 9, lp := true, left := 0, rp := false, right := 0 })]
      root := 1
      ncnt := 2
      tk := .tree } }
    s.params.wf = true ∧ s.eng.tk = .tree ∧ s.treeOk := by decide

theorem witness_ExtractOfTheEmptyTree : emptied.eng.tk = .empty := by decide

/-- ExtractedCodeIsPrefixFree: a tree with two valid entries to compare, and the empty tree. -/
theorem witness_ExtractedCodeIsPrefixFree :
    (built.eng.tk ≠ .none ∧ built.TreeInv) ∧ (emptied.eng.tk ≠ .none ∧ emptied.TreeInv) ∧
      see (exec .extract built) (fun t => ((t.codeAt 0).valid, (t.codeAt 1).valid)) = some (true, true) :=
  ⟨⟨by decide, witness_ExtractOnATree.2.2⟩, ⟨by decide, rfl, rfl⟩, by decide⟩

/-- Bits 1 01 00: one byte, the second symbol filling none. -/
theorem witness_EncodePacksTheCodes :
    let s := answeringBo (offeringSi extracted [.data 0, .data 1, .data 2, .eos]) [.ok, .fail]
    let cs := [0, 1, 2]
    let bits := [true, false, true, false, false]
    s.eng.ctv = true ∧ s.env.si.now = cs.map .data ++ .eos :: [] ∧
      (∀ c ∈ cs, c < 2 ^ s.params.symw ∧ (s.codeAt c).valid = true) ∧
      bits = cs.flatMap (fun c => (s.codeAt c).path) ∧ bits.length < 2 ^ 64 ∧
      s.env.bo.now = List.replicate ((bits.length + 7) / 8) .ok ++ [.fail] := by decide

/-- A symbol with no entry, a partial byte pending, the sink failing the flush. -/
theorem witness_EncodeAbortFlushesThePartialByte_missing :
    let s := answeringBo (offeringSi extracted [.data 0, .data 3]) [.fail]
    let cs := [0]
    let bits := [true]
    s.eng.ctv = true ∧ s.env.si.now = cs.map .data ++ .data 3 :: [] ∧
      (∀ c ∈ cs, c < 2 ^ s.params.symw ∧ (s.codeAt c).valid = true) ∧
      (3 < 2 ^ s.params.symw ∧ (s.codeAt 3).valid = false) ∧
      bits = cs.flatMap (fun c => (s.codeAt c).path) ∧ bits.length < 2 ^ 64 ∧
      s.env.bo.now =
        List.replicate (bits.length / 8) .ok ++ (if bits.length % 8 = 0 then [] else .fail :: []) := by decide

/-- An ERR item at a byte boundary: nothing to flush. -/
theorem witness_EncodeAbortFlushesThePartialByte_err :
    let s := answeringBo (offeringSi extracted [.data 1, .data 1, .data 1, .data 1, .err]) [.ok]
    let cs := [1, 1, 1, 1]
    let bits := [false, true, false, true, false, true, false, true]
    s.eng.ctv = true ∧ s.env.si.now = cs.map .data ++ .err :: [] ∧
      (∀ c ∈ cs, c < 2 ^ s.params.symw ∧ (s.codeAt c).valid = true) ∧
      bits = cs.flatMap (fun c => (s.codeAt c).path) ∧ bits.length < 2 ^ 64 ∧
      s.env.bo.now =
        List.replicate (bits.length / 8) .ok ++ (if bits.length % 8 = 0 then [] else .ok :: []) := by decide

/-- The put of the final partial byte is the one that fails. -/
theorem witness_EncodeSinkFailureStopsThePuts :
    let s := answeringBo (offeringSi extracted [.data 1, .data 1, .data 1, .data 1, .data 0, .eos]) [.ok, .fail]
    let cs := [1, 1, 1, 1, 0]
    let bits := [false, true, false, true, false, true, false, true, true]
    s.eng.ctv = true ∧ s.env.si.now = cs.map .data ++ .eos :: [] ∧
      (∀ c ∈ cs, c < 2 ^ s.params.symw ∧ (s.codeAt c).valid = true) ∧
      bits = cs.flatMap (fun c => (s.codeAt c).path) ∧ bits.length < 2 ^ 64 ∧ 1 < (bits.length + 7) / 8 ∧
      s.env.bo.now = List.replicate 1 .ok ++ .fail :: [] := by decide

/-- A byte in the middle of a session is the one that fails, with items behind it that are never taken. -/
theorem witness_EncodeSinkFailureStopsThePuts_inside :
    let s := answeringBo (offeringSi extracted [.data 1, .data 1, .data 1, .data 1, .data 0, .err]) [.fail]
    let cs := [1, 1, 1, 1, 0]
    let bits := [false, true, false, true, false, true, false, true, true]
    s.eng.ctv = true ∧ s.env.si.now = cs.map .data ++ [.err] ∧
      (∀ c ∈ cs, c < 2 ^ s.params.symw ∧ (s.codeAt c).valid = true) ∧
      bits = cs.flatMap (fun c => (s.codeAt c).path) ∧ 0 < bits.length / 8 ∧
      s.env.bo.now = List.replicate 0 .ok ++ .fail :: [] ∧
      see (exec .encode s) (fun t => (takenSi t.env.trace, putsBo t.env.trace)) =
        some ([.data 1, .data 1, .data 1, .data 1], [(0x55, .fail)]) := by decide

/-- An ENCODE in progress with this packer, after this many bits. -/
def encoding (s : State) (p : Point) (acc : Byte) (nacc : BitVec 3) (nb : Word) : State :=
  { s with eng := { s.eng with
      busy := true, point := p, siOpen := true, boOpen := true, acc := acc, nacc := nacc, nb := nb } }

/-- Where all eight positions of ACC below the bits placed are seen to be 0. -/
theorem accClean_of {e : Engine} (h : ∀ k < 8, e.nacc.toNat ≤ k → e.acc.getLsbD (7 - k) = false) : e.accClean :=
  fun k h1 h2 => h k h2 h1

/-- Engine.Appends, its three cases: the code ends before the byte, the byte is full before the code ends, NB stops it;
and the packer is clean. -/
theorem witness_Appends :
    (encoding extracted .encGet 0x80 1 5).eng.accClean ∧
      [true] = (encoding extracted .encGet 0x80 1 5).eng.heldBits ∧
      ([false, true].length < 8 - [true].length ∧ [false, true].length ≤ 2 ^ 64 - 1 - (5 : Word).toNat) ∧
      (8 - (List.replicate 7 true).length ≤ [false, true].length ∧
        8 - (List.replicate 7 true).length ≤ 2 ^ 64 - 1 - (5 : Word).toNat) ∧
      (2 ^ 64 - 1 - (BitVec.allOnes 64 - 1 : Word).toNat < [false, true].length ∧
        2 ^ 64 - 1 - (BitVec.allOnes 64 - 1 : Word).toNat < 8 - [true].length) :=
  ⟨accClean_of (by decide), by decide, by decide, by decide, by decide⟩

/-- State.Walks, its cases: the bits end on the way to record 3, and at the limit; a leaf after two bits; the empty tree's
first bit; the single-symbol tree's absent child. -/
theorem witness_Walks :
    (let s : State := { built with eng := { built.eng with cur := 4, lim := 9, nb := 8 } };
      [false, true].take (s.eng.lim - s.eng.nb).toNat = [false] ∧ s.follow 4 [false] = some 3 ∧
        (s.nodeAt 3).isLeaf = false ∧ s.eng.tk ≠ .empty) ∧
      (let s : State := { built with eng := { built.eng with cur := 4, lim := 99 } };
        [false, true, true].take (s.eng.lim - s.eng.nb).toNat = [false, true, true] ∧
          [false, true] <+: [false, true, true] ∧ s.follow 4 [false, true] = some 1 ∧ (s.nodeAt 1).isLeaf = true) ∧
      (emptied.eng.tk = .empty ∧ [true].take (1 - emptied.eng.nb).toNat ≠ []) ∧
      (let s : State := { blank with eng := { blank.eng with
          node := [(0, leaf 3 9), (1, { ch := 3, freq := 9, lp := true, left := 0, rp := false, right := 0 })]
          root := 1, ncnt := 2, tk := .tree, cur := 1, lim := 9 } };
        [] ++ [true] <+: [true, true].take (s.eng.lim - s.eng.nb).toNat ∧ s.follow 1 [] = some 1 ∧
          ((s.nodeAt 1).child true).1 = false) := by decide

/-- About to take b, whose code is 0 1, with seven bits held and one bit short of the greatest count. -/
def nearTheEnd : State :=
  events (encoding (answeringBo (offeringSi extracted [.data 1]) [.ok]) .encGet 0xAA 7 (BitVec.allOnes 64 - 1)) [.run]

/-- The second bit of the code overflows, after the first has filled a byte. -/
theorem witness_EncodeCounterNeverWraps :
    nearTheEnd.env.events = .run :: [] ∧ nearTheEnd.eng.point = .encGet ∧ nearTheEnd.eng.accClean ∧
      [true, false, true, false, true, false, true] = nearTheEnd.eng.heldBits ∧
      1 < 2 ^ nearTheEnd.params.symw ∧ (nearTheEnd.codeAt 1).valid = true ∧
      [false, true] = (nearTheEnd.codeAt 1).path ∧ nearTheEnd.env.si.now = [.data 1] ++ [] ∧
      1 < [false, true].length ∧ nearTheEnd.eng.nb.toNat + 1 = 2 ^ 64 - 1 ∧
      nearTheEnd.env.bo.now = List.replicate (8 / 8) .ok ++ [] ∧
      see (step nearTheEnd) (fun t => (t.eng.err, t.eng.nb, putsBo t.env.trace)) =
        some (.ovf, BitVec.allOnes 64, [(0xAA, .ok)]) :=
  ⟨rfl, rfl, accClean_of (by decide), by decide, by decide, by decide, by decide, rfl, by decide, by decide, rfl,
    by decide⟩

/-- The first bit, nothing held. -/
theorem witness_EncodeCounterNeverWraps_atOnce :
    let s := events (encoding (offeringSi extracted [.data 1]) .encGet 0 0 (BitVec.allOnes 64)) [.run]
    s.eng.accClean ∧ [] = s.eng.heldBits ∧ s.eng.nb.toNat + 0 = 2 ^ 64 - 1 ∧ s.env.bo.now = List.replicate 0 .ok ++ [] :=
  ⟨accClean_of (by decide), by decide, by decide, rfl⟩

/-- The second of two bits left after a put that is answered; the flush is failed. -/
theorem witness_EncodeCounterNeverWraps_afterAPut :
    let s := events (encoding (answeringBo extracted [.ok, .fail]) (.encPut [true, true]) 0xF0 7
      (BitVec.allOnes 64 - 1)) [.run]
    s.eng.point = .encPut [true, true] ∧ s.env.si.now = [] ++ [] ∧ 1 < [true, true].length ∧
      s.eng.nb.toNat + 1 = 2 ^ 64 - 1 ∧ (streamBits [s.eng.acc] ++ [true]).length = 9 ∧
      s.env.bo.now = List.replicate (9 / 8) .ok ++ .fail :: [] ∧
      see (step s) (fun t => (t.eng.err, t.eng.nb, putsBo t.env.trace)) =
        some (.ovf, BitVec.allOnes 64, [(0xF0, .ok), (0x80, .fail)]) := by decide

/-- 10101000 up to bit 5 is a, b, b. -/
theorem witness_DecodeEmitsTheLeaves :
    let s := answeringSo (offeringBi (withX built 5 0) [.data 0xA8, .eos]) [.ok, .ok, .ok, .fail]
    let steps := [([true], 0), ([false, true], 1), ([false, true], 1)]
    let bits := [true, false, true, false, true]
    s.eng.tk = .tree ∧ (s.nodeAt s.eng.root).isLeaf = false ∧
      s.env.bi.now = [0xA8].map .data ++ .eos :: [] ∧ bits = (streamBits [0xA8]).take s.eng.x0.toNat ∧
      bits = steps.flatMap Prod.fst ∧
      (∀ p ∈ steps, s.follow s.eng.root p.1 = some p.2 ∧ (s.nodeAt p.2).isLeaf = true) ∧
      s.env.so.now = List.replicate steps.length .ok ++ [.fail] := by decide

/-- The same bits, the limit reached in a byte that nothing follows, and one that ERR follows. -/
theorem witness_DecodeEmitsTheLeaves_limit :
    ∀ unread ∈ [[], [Item.err]],
      let s := answeringSo (offeringBi (withX built 5 0) (.data 0xA8 :: unread)) [.ok, .ok, .ok]
      let steps := [([true], 0), ([false, true], 1), ([false, true], 1)]
      s.env.bi.now = [0xA8].map .data ++ unread ∧ s.eng.x0.toNat ≤ 8 * [(0xA8 : Byte)].length ∧
        [true, false, true, false, true] = (streamBits [0xA8]).take s.eng.x0.toNat ∧
        [true, false, true, false, true] = steps.flatMap Prod.fst ∧
        s.env.so.now = List.replicate steps.length .ok ++ [] ∧
        see (exec .decode s) (fun t => (symbolsPut t.env.trace, t.eng.err)) = some ([0, 1, 1], .none) := by decide

/-- Two bits, 1 0: the walk ends on record 3. -/
theorem witness_DecodeReportsADanglingPath_truncated :
    let s := answeringSo (offeringBi (withX built 2 0) [.data 0x80, .eos]) [.ok]
    let steps := [([true], 0)]
    let bits := [true, false]
    s.eng.tk = .tree ∧ (s.nodeAt s.eng.root).isLeaf = false ∧
      s.env.bi.now = [0x80].map .data ++ .eos :: [] ∧ bits = (streamBits [0x80]).take s.eng.x0.toNat ∧
      (∀ p ∈ steps, s.follow s.eng.root p.1 = some p.2 ∧ (s.nodeAt p.2).isLeaf = true) ∧
      s.follow s.eng.root [false] = some 3 ∧ (s.nodeAt 3).isLeaf = false ∧
      s.env.so.now = List.replicate steps.length .ok ++ [] ∧
      bits = steps.flatMap Prod.fst ++ [false] ∧ 3 ≠ s.eng.root := by decide

/-- The single-symbol tree has no right child: the bits 0 1. -/
theorem witness_DecodeReportsADanglingPath_noChild :
    let s : State := answeringSo (offeringBi { blank with eng := { blank.eng with
      x0 := 3
      node := [(0, leaf 3 9), (1, { ch := 3, freq := 9, lp := true, left := 0, rp := false, right := 0 })]
      root := 1
      ncnt := 2
      tk := .tree } } [.data 0x40, .eos]) [.ok]
    let steps := [([false], 0)]
    let bits := [false, true, false]
    s.eng.tk = .tree ∧ (s.nodeAt s.eng.root).isLeaf = false ∧
      s.env.bi.now = [0x40].map .data ++ .eos :: [] ∧ bits = (streamBits [0x40]).take s.eng.x0.toNat ∧
      (∀ p ∈ steps, s.follow s.eng.root p.1 = some p.2 ∧ (s.nodeAt p.2).isLeaf = true) ∧
      s.follow s.eng.root [] = some 1 ∧ (s.nodeAt 1).isLeaf = false ∧
      s.env.so.now = List.replicate steps.length .ok ++ [] ∧
      steps.flatMap Prod.fst ++ [] ++ [true] <+: bits ∧ ((s.nodeAt 1).child true).1 = false := by decide

/-- Both ways of the first clause, and the second. -/
theorem witness_DecodeOfTheEmptyTree :
    (emptied.eng.tk = .empty ∧ emptied.eng.x0 = 0) ∧
      (let s := offeringBi (withX emptied 5 0) [.eos];
        s.eng.tk = .empty ∧ s.env.bi.now = .eos :: []) ∧
      (let s := offeringBi (withX emptied 1 0) [.data 0x80];
        s.eng.tk = .empty ∧ s.eng.x0 ≠ 0 ∧ s.env.bi.now = .data 0x80 :: []) := by decide

/-- The empty tree; seven a and 0, on the way to record 3; and the second symbol's put failing. -/
theorem witness_DecodeReportsIoFaults :
    (let s := offeringBi (withX emptied 1 0) [.err];
      s.eng.tk = .empty ∧ s.eng.x0 ≠ 0 ∧ s.env.bi.now = .err :: []) ∧
    (let s := answeringSo (offeringBi (withX built 9 0) [.data 0xFE, .err]) (List.replicate 7 .ok)
     let steps := List.replicate 7 ([true], 0);
      s.eng.tk = .tree ∧ (s.nodeAt s.eng.root).isLeaf = false ∧
        (∀ p ∈ steps, s.follow s.eng.root p.1 = some p.2 ∧ (s.nodeAt p.2).isLeaf = true) ∧
        s.env.bi.now = [0xFE].map .data ++ .err :: [] ∧ 8 * [0xFE].length < s.eng.x0.toNat ∧
        streamBits [0xFE] = steps.flatMap Prod.fst ++ [false] ∧ s.follow s.eng.root [false] = some 3 ∧
        (s.nodeAt 3).isLeaf = false ∧ s.env.so.now = List.replicate steps.length .ok ++ []) ∧
      (let s := answeringSo (offeringBi (withX built 3 0) [.data 0xA0]) [.ok, .fail]
       let steps := [([true], 0), ([false, true], 1)];
        s.eng.tk = .tree ∧ (s.nodeAt s.eng.root).isLeaf = false ∧
          (∀ p ∈ steps, s.follow s.eng.root p.1 = some p.2 ∧ (s.nodeAt p.2).isLeaf = true) ∧
          s.env.bi.now = [0xA0].map .data ++ [] ∧
          steps.flatMap Prod.fst <+: (streamBits [0xA0]).take s.eng.x0.toNat ∧ 1 < steps.length ∧
          s.env.so.now = List.replicate 1 .ok ++ .fail :: []) := by decide

theorem control_idle {s : State} (h1 : s.eng.busy = false) (h2 : s.eng.point = .idle)
    (h3 : s.eng.sessions = (false, false, false, false)) (h4 : s.eng.pq = []) (h5 : s.eng.wstk = [])
    (h6 : s.eng.path = []) : s.ControlInv := by
  refine ⟨?_, ?_, ?_, ?_, ?_, ?_, h4, h5, h6⟩ <;> simp [h1, h2, h3, Point.opcode, Point.sessions, Point.pendingFault]

/-- A tree, a table and sessions to come meet the whole invariant. -/
theorem witness_Inv : (answeringBo (offeringSi extracted [.data 0, .data 1, .data 2, .eos]) [.ok, .fail]).Inv where
  params := by decide
  control := control_idle rfl rfl rfl rfl rfl rfl
  freq := by decide
  node := by decide
  tree := by
    show built.treeOk
    decide
  codeTable := by decide
  code := fun _ => by
    show extracted.eng.code = built.walkTable
    decide

/-- DecodeUndoesEncode: its hypotheses on the state ENCODE starts from are those of EncodePacksTheCodes and the invariant. -/
theorem witness_DecodeUndoesEncode :
    let s := answeringBo (offeringSi extracted [.data 0, .data 1, .data 2, .eos]) [.ok, .fail]
    let cs := [0, 1, 2]
    let bits := [true, false, true, false, false]
    s.Inv ∧ s.eng.ctv = true ∧ s.env.si.now = cs.map .data ++ .eos :: [] ∧
      (∀ c ∈ cs, c < 2 ^ s.params.symw ∧ (s.codeAt c).valid = true) ∧
      bits = cs.flatMap (fun c => (s.codeAt c).path) ∧ bits.length < 2 ^ 64 ∧
      s.env.bo.now = List.replicate ((bits.length + 7) / 8) .ok ++ [.fail] :=
  ⟨witness_Inv, witness_EncodePacksTheCodes⟩

theorem witness_PipelineRoundTrip :
    let s := offeringSi blank [.data 0, .data 3, .data 0, .eos]
    let cs := [0, 3, 0]
    s.params.wf = true ∧ (∀ c ∈ cs, c < 2 ^ s.params.symw) ∧ (∀ c, cs.count c < 2 ^ s.params.freqw) ∧
      cs.length * 2 ^ s.params.symw < 2 ^ 64 ∧ s.env.si.now = cs.map .data ++ [.eos] :=
  ⟨by decide, by decide, count_small _ (by decide), by decide, rfl⟩

/-- Between two commands of the two round trips the environment can supply whatever the statements ask of it. -/
theorem witness_RoundTripEnvironment (t : State) (items : List (Item Nat)) (bytes : List (Item Byte))
    (answers : List Answer) :
    ∃ u : State, u.params = t.params ∧ u.eng = t.eng ∧ u.env.si.now = items ∧ u.env.bo.now = answers ∧
      u.env.bi.now = bytes ∧ u.env.so.now = answers :=
  ⟨answeringSo (answeringBo (offeringBi (offeringSi t items) bytes) answers) answers, rfl, rfl, rfl, rfl, rfl, rfl⟩

theorem witness_StreamCommandsWait_count :
    let s := offeringSi blank [.data 0, .data 3]
    let cs := [0, 3]
    s.env.si.now = cs.map .data ∧ (∀ c ∈ cs, c < 2 ^ s.params.symw) ∧ (∀ c, cs.count c < 2 ^ s.params.freqw) ∧
      see (exec .count s) (fun t => t.eng.point) = some .countGet :=
  ⟨rfl, by decide, count_small _ (by decide), by decide⟩

/-- ENCODE at a `get` and at its three puts: one state for each clause, and where it waits. -/
theorem witness_StreamCommandsWait_encode :
    (let s := answeringBo (offeringSi extracted [.data 0]) [.ok];
        s.eng.ctv = true ∧ (∀ c ∈ [0], c < 2 ^ s.params.symw ∧ (s.codeAt c).valid = true) ∧
          [true] = [0].flatMap (fun c => (s.codeAt c).path) ∧ s.env.si.now = [0].map .data ∧
          s.env.bo.now = List.replicate (1 / 8) .ok ++ [.ok] ∧
          see (exec .encode s) (fun t => t.eng.point) = some .encGet) ∧
      (let s := offeringSi extracted [.data 0, .data 1, .data 1, .data 1, .data 1, .data 0]
       let cs := [0, 1, 1, 1, 1];
        s.eng.ctv = true ∧ (∀ c ∈ cs, c < 2 ^ s.params.symw ∧ (s.codeAt c).valid = true) ∧
          s.env.si.now = cs.map .data ++ [.data 0] ∧ 0 < (cs.flatMap fun c => (s.codeAt c).path).length / 8 ∧
          s.env.bo.now = List.replicate 0 .ok ∧
          see (exec .encode s) (fun t => t.eng.point) = some (.encPut [true])) ∧
      (∀ l ∈ [Item.eos, .err, .data 3],
        let s := offeringSi extracted [.data 0, l, .eos];
        s.env.si.now = [0].map .data ++ l :: [.eos] ∧ 3 < 2 ^ s.params.symw ∧ (s.codeAt 3).valid = false ∧
          ([0].flatMap fun c => (s.codeAt c).path).length % 8 ≠ 0 ∧ s.env.bo.now = List.replicate (1 / 8) .ok ∧
          see (exec .encode s) (fun t => decide (t.eng.point = .idle)) = some false) := by decide

/-- DECODE at a `get`, on the empty tree and inside a tree, and at a put. -/
theorem witness_StreamCommandsWait_decode :
    (let s := withX emptied 1 0;
        s.eng.tk = .empty ∧ s.eng.x0 ≠ 0 ∧ s.env.bi.now = []) ∧
      (let s := answeringSo (offeringBi (withX built 9 0) [.data 0xFE]) (List.replicate 7 .ok)
       let steps := List.replicate 7 ([true], 0);
        s.eng.tk = .tree ∧ (s.nodeAt s.eng.root).isLeaf = false ∧
          (∀ p ∈ steps, s.follow s.eng.root p.1 = some p.2 ∧ (s.nodeAt p.2).isLeaf = true) ∧
          s.env.bi.now = [0xFE].map .data ∧ 8 * [(0xFE : Byte)].length < s.eng.x0.toNat ∧
          streamBits [0xFE] = steps.flatMap Prod.fst ++ [false] ∧ s.follow s.eng.root [false] = some 3 ∧
          (s.nodeAt 3).isLeaf = false ∧ s.env.so.now = List.replicate steps.length .ok ++ [] ∧
          see (exec .decode s) (fun t => t.eng.point) = some .decGet) ∧
      (let s := answeringSo (offeringBi (withX built 3 0) [.data 0xA0]) [.ok]
       let steps := [([true], 0), ([false, true], 1)];
        (∀ p ∈ steps, s.follow s.eng.root p.1 = some p.2 ∧ (s.nodeAt p.2).isLeaf = true) ∧
          s.env.bi.now = [0xA0].map .data ++ [] ∧ steps.flatMap Prod.fst <+: (streamBits [0xA0]).take s.eng.x0.toNat ∧
          1 < steps.length ∧ s.env.so.now = List.replicate 1 .ok ∧
          see (exec .decode s) (fun t => t.eng.point) = some .decPut) := by decide

/-- A command that waits, and one that has ended. -/
theorem witness_WaitingLosesNothing :
    see (exec .decode (offeringBi (withX built 1 0) [.data 0x80])) (fun t => decide (t.eng.point = .idle)) = some false ∧
      see (exec .nop blank) (fun t => decide (t.eng.point = .idle)) = some true := by decide

/-- A command of several events keeps the invariants: the premises of the statements about every step. -/
theorem witness_StepKeepsTheInvariant :
    let s := answeringBo (offeringSi extracted [.data 0, .data 1, .data 2, .eos]) [.ok, .fail]
    s.Inv ∧ s.ControlInv ∧ ∃ t, step s = .next t :=
  ⟨witness_Inv, witness_Inv.control, _, rfl⟩

/-- A fault, and the CLR that leaves it. -/
theorem witness_OnlyClrAndResetLeaveAFault :
    (let s := events faulted [.write 4 1];
      s.ControlInv ∧ s.eng.err ≠ .none ∧ see (step s) (fun t => t.eng.err) = some .none) ∧
      (let s := events faulted [.write 4 5];
        s.ControlInv ∧ s.eng.err ≠ .none ∧ see (step s) (fun t => t.eng.err) = some .arg) :=
  ⟨⟨control_idle rfl rfl rfl rfl rfl rfl, by decide, by decide⟩,
    control_idle rfl rfl rfl rfl rfl rfl, by decide, by decide⟩

/-- HERR set by a refused write, and by a refused issue; and cleared by CLR. -/
theorem witness_HerrIsStickyAndOnlyARefusalSetsIt :
    (blank.eng.herr = false ∧ see (step (events counting [.write 0 0])) (fun t => t.eng.herr) = some true) ∧
      see (step (events counting [.issue 0])) (fun t => t.eng.herr) = some true ∧
      (let s := events { blank with eng := { blank.eng with herr := true } } [.write 4 1];
        s.eng.herr = true ∧ see (step s) (fun t => t.eng.herr) = some false) := by decide

theorem witness_EachTableHasItsWriters : ∃ t, exec .build counted = .next t ∧ Instr.build ≠ .clr :=
  ⟨_, rfl, by decide⟩

theorem witness_CommandsEndInOneStep :
    (blank.eng.err = .none ∧ see (exec .extract blank) (fun t => decide (t.eng.err = .none)) = some false) ∧
      (let s := offeringSi (blank.accept 4) [.eos];
        s.eng.busy = true ∧ s.eng.sessions = (false, false, false, false) ∧
          see (exec .count s) (fun t => t.eng.busy) = some false) ∧
      (let s := ticking counting (.countFinish (.fault .io 0));
        s.microStep.map (fun t => (t.eng.err, t.eng.done)) = some (.io, true)) := by decide

end Sys2Proof.Tests
end

section
/-!
The state after reset (10_state.md R46): what each reading of it returns, whatever the parameters, and CLR's state.
-/
namespace Sys2Proof.Machine

section
variable (p : Params)

@[simp] theorem resetOf_eng : (State.resetOf p).eng = Engine.reset := rfl

@[simp] theorem resetOf_x (i : Fin 4) : (State.resetOf p).x i = 0 := by
  match i with
  | 0 | 1 | 2 | 3 => rfl

@[simp] theorem resetOf_freqAt (c : Nat) : (State.resetOf p).freqAt c = 0 := readCell_nil 0 c

@[simp] theorem resetOf_nodeAt (i : Nat) : (State.resetOf p).nodeAt i = Node.zero := readCell_nil Node.zero i

@[simp] theorem resetOf_codeAt (c : Nat) : (State.resetOf p).codeAt c = CodeEntry.zero :=
  readCell_nil CodeEntry.zero c

end

@[simp] theorem codeEntry_zero_valid : CodeEntry.zero.valid = false := rfl

@[simp] theorem codeEntry_zero_len : CodeEntry.zero.len = 0 := rfl

@[simp] theorem codeEntry_zero_bit (k : Nat) : CodeEntry.zero.bit k = false := rfl

/-- R34, R46: every field of STATUS is zero after reset. -/
@[simp] theorem reset_status : Engine.reset.status = 0 := by decide

@[simp] theorem exec_clr (s : State) : exec .clr s = .next s.clear := rfl

/-- Settles O11: the registers and the three tables by what a reading of the reset state returns, the flags and hidden
registers by `Engine.reset` itself, and CLR by its one transition, `State.clear`. -/
theorem resetLeavesTheStatedValues : Obligations.ResetLeavesTheStatedValues := by
  have hx : ∀ i, State.reset.x i = 0 := resetOf_x Params.reference
  have hstatus : State.reset.eng.status = 0 := reset_status
  have hfreq : ∀ c, State.reset.freqAt c = 0 := resetOf_freqAt Params.reference
  have hnode : ∀ i, State.reset.nodeAt i = Node.zero := resetOf_nodeAt Params.reference
  have hcode : ∀ c, (State.reset.codeAt c).valid = false ∧ (State.reset.codeAt c).len = 0 ∧
      ∀ k, (State.reset.codeAt c).bit k = false := by
    simp [State.reset]
  have hclr : ∀ s : State, exec .clr s = .next { s with eng := { State.reset.eng with done := true } } := exec_clr
  refine ⟨hx, rfl, hstatus, rfl, rfl, rfl, rfl, rfl, rfl, rfl, rfl, rfl, hfreq, hnode, hcode, ?_⟩
  exact ⟨rfl, rfl, rfl, rfl, rfl, rfl, rfl, rfl, rfl, rfl, rfl, rfl, rfl, rfl, rfl, rfl, rfl, hclr⟩

end Sys2Proof.Machine
end

section
/-!
The packer over a run of bits (20_memory.md R75, 44_encoder.md R218): the bits it holds, by `Engine.heldBits` and
`Engine.accClean`, and how bytes put and a padded last byte carry a string of bits (30_encoding.md R111).
-/
namespace Sys2Proof.Machine

@[simp] theorem heldBits_length (e : Engine) : e.heldBits.length = e.nacc.toNat := by simp [Engine.heldBits]

theorem heldBits_getD {e : Engine} {k : Nat} (hk : k < e.nacc.toNat) :
    e.heldBits.getD k false = e.acc.getLsbD (7 - k) := by
  rw [List.getD_eq_getElem _ _ (by simpa using hk)]
  simp [Engine.heldBits]

/-- A clean packer packs the bits it holds. -/
theorem packs_heldBits {e : Engine} (h : e.accClean) : Packs e.acc e.nacc e.heldBits := by
  refine ⟨by simpa using e.nacc.isLt, (heldBits_length e).symm, fun k hk => ?_⟩
  rcases Nat.lt_or_ge k e.nacc.toNat with hlt | hge
  · exact (heldBits_getD hlt).symm
  · rw [h k hge hk, List.getD_eq_default _ _ (by simpa using hge)]

theorem Packs.accClean {e : Engine} {l : List Bool} (h : Packs e.acc e.nacc l) : e.accClean := by
  obtain ⟨-, hn, hbit⟩ := h
  intro k hk hk8
  rw [hbit k hk8, List.getD_eq_default _ _ (by omega)]

theorem Packs.heldBits_eq {e : Engine} {l : List Bool} (h : Packs e.acc e.nacc l) : e.heldBits = l := by
  obtain ⟨hl, hn, hbit⟩ := h
  refine List.ext_getElem (by simp [hn]) fun k h1 h2 => ?_
  rw [← List.getD_eq_getElem _ false h1, ← List.getD_eq_getElem _ false h2,
    heldBits_getD (by simpa using h1), hbit k (by omega)]

/-- A bit that does not fill the byte is one more bit held. -/
theorem packs_short {acc : Byte} {nacc : BitVec 3} {l : List Bool} (h : Packs acc nacc l) (b : Bool) (h7 : nacc ≠ 7) :
    Packs (placeBit acc nacc b) (nacc + 1) (l ++ [b]) := by
  have ⟨hl, hn, _⟩ := h
  have hne : nacc.toNat ≠ 7 := fun h => h7 (BitVec.eq_of_toNat_eq h)
  have hsucc : (nacc + 1).toNat = nacc.toNat + 1 := by
    refine BitVec.toNat_add_of_lt ?_
    have := nacc.isLt
    simp
    omega
  refine ⟨?_, ?_, packs_place h b⟩
  · rw [List.length_append, List.length_singleton]
    omega
  · rw [hsucc, hn, List.length_append, List.length_singleton]

/-- A bit that fills the byte makes it the eight bits held. -/
theorem packs_full {acc : Byte} {nacc : BitVec 3} {l : List Bool} (h : Packs acc nacc l) (b : Bool) (h7 : nacc = 7) :
    streamBits [placeBit acc nacc b] = l ++ [b] := by
  refine byte_bits_eq ?_ (packs_place h b)
  have hl : l.length = 7 := h.2.1.symm.trans (congrArg BitVec.toNat h7)
  rw [List.length_append, List.length_singleton, hl]

/-- A byte put before it is full carries the bits held and zeros. -/
theorem packs_padded {acc : Byte} {nacc : BitVec 3} {l : List Bool} (h : Packs acc nacc l) :
    streamBits [acc] = l ++ List.replicate (8 - l.length) false := by
  obtain ⟨hl, -, hbit⟩ := h
  refine byte_bits_eq (by simp; omega) fun k hk => ?_
  rw [hbit k hk]
  rcases Nat.lt_or_ge k l.length with hlt | hge
  · rw [List.getD_append _ _ _ _ hlt]
  · rw [List.getD_append_right _ _ _ _ hge, List.getD_eq_default _ _ hge]
    simp

theorem packs_nil_acc {acc : Byte} {nacc : BitVec 3} (h : Packs acc nacc []) : acc = 0 := by
  obtain ⟨-, -, hbit⟩ := h
  refine BitVec.eq_of_getLsbD_eq fun k hk => ?_
  have := hbit (7 - k) (by omega)
  rw [show 7 - (7 - k) = k by omega] at this
  simpa using this

/-- The partial byte the packer would flush (44_encoder.md R224, R225), if it holds any bits. -/
def Engine.partialByte (e : Engine) : List Byte := if e.nacc = 0 then [] else [e.acc]

theorem partialByte_aligned {e : Engine} (h : e.nacc = 0) : e.partialByte = [] := if_pos h
theorem partialByte_pending {e : Engine} (h : e.nacc ≠ 0) : e.partialByte = [e.acc] := if_neg h

theorem partialByte_length (e : Engine) : e.partialByte.length = (e.nacc.toNat + 7) / 8 := by
  by_cases h0 : e.nacc = 0
  · rw [partialByte_aligned h0, h0]
    rfl
  · have hpos : e.nacc.toNat ≠ 0 := fun hz => h0 (BitVec.eq_of_toNat_eq hz)
    have hlt : e.nacc.toNat < 8 := e.nacc.isLt
    rw [partialByte_pending h0, List.length_singleton]
    omega

/-- Full bytes, then the partial one, carry the bits they and the packer hold, padded with zeros (R111, R225). -/
theorem carries_partialByte {e : Engine} {bytes : List Byte} {bits : List Bool} (hclean : e.accClean)
    (h : streamBits bytes ++ e.heldBits = bits) : Carries (bytes ++ e.partialByte) bits := by
  have hlen : bits.length = 8 * bytes.length + e.nacc.toNat := by
    rw [← h, List.length_append, streamBits_length, heldBits_length]
  have hbytes : (bytes ++ e.partialByte).length = bytes.length + (e.nacc.toNat + 7) / 8 := by
    rw [List.length_append, partialByte_length]
  have hlt : e.nacc.toNat < 8 := e.nacc.isLt
  refine ⟨by omega, ?_⟩
  by_cases h0 : e.nacc = 0
  · have hz : e.nacc.toNat = 0 := congrArg BitVec.toNat h0
    have hheld : e.heldBits = [] := List.eq_nil_of_length_eq_zero ((heldBits_length e).trans hz)
    have hpad : 8 * (bytes ++ e.partialByte).length - bits.length = 0 := by omega
    rw [hpad, partialByte_aligned h0, ← h, hheld]
    simp
  · have hpos : e.nacc.toNat ≠ 0 := fun hz => h0 (BitVec.eq_of_toNat_eq hz)
    have hpad : 8 * (bytes ++ e.partialByte).length - bits.length = 8 - e.nacc.toNat := by omega
    rw [hpad, partialByte_pending h0, streamBits_append, packs_padded (packs_heldBits hclean), ← List.append_assoc, h,
      heldBits_length]

/-- What crosses the boundary from EOS on when the sink takes the partial byte (R225). -/
def Engine.eosTrace (e : Engine) : List Obs := .tookSi .eos :: e.partialByte.map fun v => .putBo v .ok

@[simp] theorem takenSi_eosTrace (e : Engine) : takenSi e.eosTrace = [.eos] := by
  simp [takenSi, Engine.eosTrace, List.filterMap_map]

@[simp] theorem bytesPut_eosTrace (e : Engine) : bytesPut e.eosTrace = e.partialByte := by
  simp [bytesPut, Engine.eosTrace, List.filterMap_map]

@[simp] theorem putsBo_eosTrace (e : Engine) : putsBo e.eosTrace = e.partialByte.map fun v => (v, .ok) := by
  simp [putsBo, Engine.eosTrace, List.filterMap_map]

end Sys2Proof.Machine
end

section
/-!
The run of ENCODE over symbols that all have codes, up to any point before it ends (44_encoder.md R210, R214 to R219):
each micro-operation appends some bits, and what two of them do after each other is the sum of what each does.
-/
namespace Sys2Proof.Machine

/-- What ENCODE has done between the states `s` and `t`: it has appended `bits`, counted `n` symbols and crossed the
boundary by `tr`, every byte put being full and taken; the packer holds the bits not yet put, and the rest of the engine
and of the environment is as it was. -/
structure State.Encodes (s t : State) (tr : List Obs) (bits : List Bool) (n : Nat) : Prop where
  params : t.params = s.params
  eng : t.eng = { s.eng with
    acc := t.eng.acc
    nacc := t.eng.nacc
    nb := s.eng.nb + BitVec.ofNat 64 bits.length
    nby := s.eng.nby + BitVec.ofNat 64 (bytesPut tr).length
    ns := s.eng.ns + BitVec.ofNat 64 n
    point := t.eng.point }
  env : t.env = { s.env with
    si := { s.env.si with now := t.env.si.now }
    bo := { s.env.bo with now := t.env.bo.now }
    trace := s.env.trace ++ tr }
  allTaken : putsBo tr = (bytesPut tr).map fun v => (v, .ok)
  clean : t.eng.accClean
  packed : streamBits (bytesPut tr) ++ t.eng.heldBits = s.eng.heldBits ++ bits

namespace State.Encodes
variable {s t u : State} {tr tr' : List Obs} {bits bits' : List Bool} {n n' : Nat}

theorem refl (h : s.eng.accClean) : s.Encodes s [] [] 0 where
  params := rfl
  eng := by simp [bytesPut]
  env := by simp
  allTaken := rfl
  clean := h
  packed := by simp [bytesPut]

theorem trans (h : s.Encodes t tr bits n) (h' : t.Encodes u tr' bits' n') :
    s.Encodes u (tr ++ tr') (bits ++ bits') (n + n') where
  params := h'.params.trans h.params
  eng := by
    rw [h'.eng, h.eng]
    simp [bytesPut_append, BitVec.ofNat_add, BitVec.add_assoc]
  env := by
    rw [h'.env, h.env]
    simp
  allTaken := by rw [putsBo_append, bytesPut_append, h.allTaken, h'.allTaken, List.map_append]
  clean := h'.clean
  packed := by
    rw [bytesPut_append, streamBits_append, List.append_assoc, h'.packed, ← List.append_assoc, h.packed,
      List.append_assoc]

theorem codeAt (h : s.Encodes t tr bits n) (c : Nat) : t.codeAt c = s.codeAt c :=
  codeAt_congr (by rw [h.eng]) c

theorem nb_toNat (h : s.Encodes t tr bits n) (hlt : s.eng.nb.toNat + bits.length < 2 ^ 64) :
    t.eng.nb.toNat = s.eng.nb.toNat + bits.length := by
  have hbits : (BitVec.ofNat 64 bits.length).toNat = bits.length := Nat.mod_eq_of_lt (by omega)
  rw [h.eng, BitVec.toNat_add_of_lt (by rwa [hbits]), hbits]

/-- The bits held and the bits appended are those of the bytes put and those still held. -/
theorem bits_length (h : s.Encodes t tr bits n) :
    s.eng.nacc.toNat + bits.length = 8 * (bytesPut tr).length + t.eng.nacc.toNat := by
  have hlen := congrArg List.length h.packed
  rw [List.length_append, List.length_append, streamBits_length, heldBits_length, heldBits_length] at hlen
  exact hlen.symm

/-! ### The micro-operations' parts -/

/-- R216, R218: a bit that does not fill the byte. -/
theorem appendBit (h : s.eng.accClean) (b : Bool) (h7 : s.eng.nacc ≠ 7) :
    s.Encodes (s.appendBit b).countBit [] [b] 0 := by
  have hp : Packs (s.appendBit b).countBit.eng.acc (s.appendBit b).countBit.eng.nacc (s.eng.heldBits ++ [b]) :=
    packs_short (packs_heldBits h) b h7
  exact
    { params := rfl
      eng := by simp [bytesPut]
      env := by simp
      allTaken := rfl
      clean := hp.accClean
      packed := hp.heldBits_eq }

/-- R218, R219: a bit that fills the byte, and the put the sink takes. -/
theorem putByte (h : s.eng.accClean) (b : Bool) (h7 : s.eng.nacc = 7) {rest : List Bool}
    (hput : ((s.appendBit b).goTo (.encPut rest)).putBo (s.appendBit b).eng.acc = some (.ok, t)) :
    s.Encodes t.countByte.clearAcc [.putBo (s.appendBit b).eng.acc .ok] [b] 0 := by
  obtain ⟨-, hparams, heng, henv⟩ := putBo_some hput
  have hempty : Packs t.countByte.clearAcc.eng.acc t.countByte.clearAcc.eng.nacc [] := packs_empty
  exact
    { params := hparams
      eng := by
        rw [clearAcc_eng, countByte_eng, heng]
        simp [bytesPut]
      env := by
        rw [clearAcc_env, countByte_env, henv]
        simp
      allTaken := rfl
      clean := hempty.accClean
      packed := by
        rw [hempty.heldBits_eq, List.append_nil]
        exact packs_full (packs_heldBits h) b h7 }

/-- R214: an item taken. -/
theorem tookSi (h : s.eng.accClean) (it : Item Nat) (rest : List (Item Nat)) :
    s.Encodes (s.tookSi it rest) [.tookSi it] [] 0 where
  params := rfl
  eng := by simp [bytesPut]
  env := rfl
  allTaken := rfl
  clean := h
  packed := by simp [bytesPut]

/-- R210: the symbol is counted once its bits are appended. -/
theorem countSymbol (h : s.eng.accClean) : s.Encodes (s.countSymbol.goTo .encGet) [] [] 1 where
  params := rfl
  eng := by simp [bytesPut]
  env := by simp
  allTaken := rfl
  clean := h
  packed := by simp [bytesPut, Engine.heldBits]

end State.Encodes

/-! ### Runs -/

/-- R218, R219: one bit, the put of the byte it may fill included. -/
theorem settle_encodeBit {s : State} (b : Bool) (rest : List Bool) {more : List Answer} (hclean : s.eng.accClean)
    (hnb : s.eng.nb ≠ BitVec.allOnes 64)
    (hbo : s.env.bo.now = List.replicate ((s.eng.nacc.toNat + 1) / 8) .ok ++ more) :
    ∃ t tr, (encodeBits (b :: rest) s).settle = (encodeBits rest t).settle ∧ s.Encodes t tr [b] 0 ∧
      takenSi tr = [] ∧ t.env.si.now = s.env.si.now ∧ t.env.bo.now = more := by
  by_cases h7 : s.eng.nacc = 7
  · rw [h7] at hbo
    obtain ⟨t, hput⟩ : ∃ t, ((s.appendBit b).goTo (.encPut rest)).putBo (s.appendBit b).eng.acc = some (.ok, t) :=
      ⟨_, putBo_answered _ hbo⟩
    obtain ⟨hnow, -, -, henv⟩ := putBo_some hput
    refine ⟨t.countByte.clearAcc, _, ?_, .putByte hclean b h7 hput, rfl, ?_, ?_⟩
    · rw [encodeBits_full b _ hnb h7]
      exact settle_step ((microStep_encPut rfl).trans (encodePut_ok _ hput))
    · rw [clearAcc_env, countByte_env, henv]
      rfl
    · exact (List.cons.inj (hnow.symm.trans hbo)).2
  · have hne : s.eng.nacc.toNat ≠ 7 := fun h => h7 (BitVec.eq_of_toNat_eq h)
    have hlt : s.eng.nacc.toNat < 8 := s.eng.nacc.isLt
    rw [show (s.eng.nacc.toNat + 1) / 8 = 0 by omega] at hbo
    exact ⟨_, _, by rw [encodeBits_short b _ hnb h7], .appendBit hclean b h7, rfl, rfl, hbo⟩

/-- A run over the first bits of a code: with the sink taking the bytes that fill, and NB far enough from its end, it
comes to the bits after them. -/
theorem settle_encodeBits (pre rest : List Bool) (s : State) (k : Nat) (more : List Answer)
    (hclean : s.eng.accClean) (hnb : s.eng.nb.toNat + pre.length < 2 ^ 64)
    (hbo : s.env.bo.now = List.replicate k .ok ++ more) (hk : k = (s.eng.nacc.toNat + pre.length) / 8) :
    ∃ t tr, (encodeBits (pre ++ rest) s).settle = (encodeBits rest t).settle ∧ s.Encodes t tr pre 0 ∧
      takenSi tr = [] ∧ t.env.si.now = s.env.si.now ∧ t.env.bo.now = more := by
  have hnacc : s.eng.nacc.toNat < 8 := s.eng.nacc.isLt
  induction pre generalizing s k with
  | nil =>
    obtain rfl : k = 0 := by
      rw [hk, List.length_nil]
      omega
    exact ⟨s, [], rfl, .refl hclean, rfl, rfl, hbo⟩
  | cons b pre ih =>
    rw [List.length_cons] at hnb hk
    have hovf : s.eng.nb ≠ BitVec.allOnes 64 := by
      intro h
      rw [h, BitVec.toNat_allOnes] at hnb
      omega
    obtain ⟨k', hk'⟩ : ∃ k', k = (s.eng.nacc.toNat + 1) / 8 + k' := ⟨k - (s.eng.nacc.toNat + 1) / 8, by omega⟩
    rw [hk', List.replicate_add, List.append_assoc] at hbo
    obtain ⟨t, tr, hrun, henc, htook, hsi, hbo1⟩ := settle_encodeBit b (pre ++ rest) hclean hovf hbo
    have hnb1 := henc.nb_toNat (by rw [List.length_singleton]; omega)
    have hnacc1 := henc.bits_length
    have hnacc2 : t.eng.nacc.toNat < 8 := t.eng.nacc.isLt
    rw [List.length_singleton] at hnb1 hnacc1
    obtain ⟨u, tr', hrun', henc', htook', hsi', hbo2⟩ :=
      ih t k' henc.clean (by omega) hbo1 (by omega) hnacc2
    refine ⟨u, tr ++ tr', hrun.trans hrun', henc.trans henc', ?_, hsi'.trans hsi, hbo2⟩
    rw [takenSi_append, htook, htook', List.append_nil]

/-- A run over one data item whose symbol has a code: it appends the code and comes to the next `get`. -/
theorem settle_encodeSymbol {s : State} {c : Nat} {rest : List (Item Nat)} {more : List Answer}
    (hp : s.eng.point = .encGet) (hclean : s.eng.accClean) (hsi : s.env.si.now = .data c :: rest)
    (hc : c < s.params.nsym) (hvalid : (s.codeAt c).valid = true)
    (hnb : s.eng.nb.toNat + (s.codeAt c).path.length < 2 ^ 64)
    (hbo : s.env.bo.now =
      List.replicate ((s.eng.nacc.toNat + (s.codeAt c).path.length) / 8) .ok ++ more) :
    ∃ t tr, s.settle = t.settle ∧ s.Encodes t tr (s.codeAt c).path 1 ∧ t.eng.point = .encGet ∧
      takenSi tr = [.data c] ∧ t.env.si.now = rest ∧ t.env.bo.now = more := by
  obtain ⟨t, tr, hrun, henc, htook, hsi', hbo'⟩ :=
    settle_encodeBits (s.codeAt c).path [] (s.tookSi (.data c) rest) _ more hclean hnb hbo rfl
  refine ⟨t.countSymbol.goTo .encGet, [.tookSi (.data c)] ++ tr, ?_, ?_, rfl, ?_, hsi', hbo'⟩
  · rw [← encodeBits_nil, ← hrun, List.append_nil, ← encodeTake_data rest hc hvalid]
    exact settle_step ((microStep_encGet hp).trans (encodeGet_takes hsi))
  · simpa using ((State.Encodes.tookSi hclean _ _).trans henc).trans (.countSymbol henc.clean)
  · rw [takenSi_append, htook]
    rfl

/-- A run over data items whose symbols all have codes: it appends the codes in order and goes on at the next `get`. -/
theorem settle_encodes (cs : List Nat) (rest : List (Item Nat)) (s : State) (k : Nat) (more : List Answer)
    (hp : s.eng.point = .encGet) (hclean : s.eng.accClean) (hsi : s.env.si.now = cs.map .data ++ rest)
    (hcs : ∀ c ∈ cs, c < s.params.nsym ∧ (s.codeAt c).valid = true)
    (hnb : s.eng.nb.toNat + (cs.flatMap fun c => (s.codeAt c).path).length < 2 ^ 64)
    (hbo : s.env.bo.now = List.replicate k .ok ++ more)
    (hk : k = (s.eng.nacc.toNat + (cs.flatMap fun c => (s.codeAt c).path).length) / 8) :
    ∃ t tr, s.settle = t.settle ∧ s.Encodes t tr (cs.flatMap fun c => (s.codeAt c).path) cs.length ∧
      t.eng.point = .encGet ∧ takenSi tr = cs.map .data ∧ t.env.si.now = rest ∧ t.env.bo.now = more := by
  induction cs generalizing s k with
  | nil =>
    obtain rfl : k = 0 := by
      have hnacc : s.eng.nacc.toNat < 8 := s.eng.nacc.isLt
      rw [hk, List.flatMap_nil, List.length_nil]
      omega
    exact ⟨s, [], rfl, .refl hclean, hp, rfl, hsi, hbo⟩
  | cons c cs ih =>
    obtain ⟨hc, hvalid⟩ := hcs c List.mem_cons_self
    rw [List.flatMap_cons, List.length_append] at hnb hk
    obtain ⟨k', hk'⟩ : ∃ k', k = (s.eng.nacc.toNat + (s.codeAt c).path.length) / 8 + k' :=
      ⟨k - (s.eng.nacc.toNat + (s.codeAt c).path.length) / 8, by omega⟩
    rw [hk', List.replicate_add, List.append_assoc] at hbo
    obtain ⟨t, tr, hrun, henc, hpt, htook, hsi1, hbo1⟩ :=
      settle_encodeSymbol hp hclean hsi hc hvalid (by omega) hbo
    have hnb1 := henc.nb_toNat (by omega)
    have hnacc1 := henc.bits_length
    have hnacc2 : t.eng.nacc.toNat < 8 := t.eng.nacc.isLt
    obtain ⟨u, tr', hrun', henc', hpu, htook', hsi2, hbo2⟩ := ih t k' hpt henc.clean hsi1
      (fun d hd => by rw [henc.params, henc.codeAt]; exact hcs d (List.mem_cons_of_mem _ hd))
      (by simp only [henc.codeAt]; omega) hbo1 (by simp only [henc.codeAt]; omega)
    simp only [henc.codeAt] at henc'
    refine ⟨u, tr ++ tr', hrun.trans hrun', ?_, hpu, ?_, hsi2, hbo2⟩
    · rw [List.flatMap_cons, List.length_cons, Nat.add_comm]
      exact henc.trans henc'
    · rw [takenSi_append, htook, htook']
      rfl

/-! ### The end -/

/-- R227, R228: SI released, BO closed, the results written. -/
def State.encodeDone (s : State) : State := encodeFinish .done (encodeClose .done (encodeRelease .done s))

theorem encodeFinish_done (s : State) :
    encodeFinish .done s = s.complete [(0, s.eng.nb), (1, s.eng.nby), (2, s.eng.ns)] := rfl

@[simp] theorem encodeDone_params (s : State) : s.encodeDone.params = s.params := by
  simp [State.encodeDone, encodeFinish_done, encodeClose, encodeRelease]

@[simp] theorem encodeDone_eng (s : State) : s.encodeDone.eng =
    { s.eng with
      siOpen := false
      boOpen := false
      x0 := s.eng.nb
      x1 := s.eng.nby
      x2 := s.eng.ns }.ended := by
  simp [State.encodeDone, encodeFinish_done, encodeClose, encodeRelease, Engine.ended]

@[simp] theorem encodeDone_env (s : State) : s.encodeDone.env =
    { s.env with
      si := s.env.si.endSession
      bo := s.env.bo.endSession
      trace := s.env.trace ++ [.release .si] ++ [.close .bo] } := by
  simp [State.encodeDone, encodeFinish_done, encodeClose, encodeRelease]

/-- R225 to R228: past EOS the partial byte is put and taken, SI is released, BO is closed and the command is done. -/
theorem settle_encodeEos {s : State} {rest : List (Item Nat)} {more : List Answer} (hp : s.eng.point = .encGet)
    (hclean : s.eng.accClean) (hsi : s.env.si.now = .eos :: rest)
    (hbo : s.env.bo.now = List.replicate s.eng.partialByte.length .ok ++ more) :
    ∃ t : State, s.settle = t.encodeDone ∧ t.params = s.params ∧
      t.eng = { s.eng with
        acc := 0
        nacc := 0
        nby := s.eng.nby + BitVec.ofNat 64 s.eng.partialByte.length
        point := .encRelease .done } ∧
      t.env = { s.env with
        si := { s.env.si with now := rest }
        bo := { s.env.bo with now := more }
        trace := s.env.trace ++ s.eng.eosTrace } := by
  have htake : s.settle = (encodeFinal (s.tookSi .eos rest)).settle :=
    settle_step ((microStep_encGet hp).trans (encodeGet_takes hsi))
  rw [htake]
  unfold Engine.eosTrace
  by_cases h0 : s.eng.nacc = 0
  · rw [partialByte_aligned h0] at hbo ⊢
    have hheld : s.eng.heldBits = [] := List.eq_nil_of_length_eq_zero (by rw [heldBits_length, h0]; rfl)
    have hacc : s.eng.acc = 0 := packs_nil_acc (hheld ▸ packs_heldBits hclean)
    refine ⟨(s.tookSi .eos rest).goTo (.encRelease .done), ?_, rfl, ?_, ?_⟩
    · rw [encodeFinal_aligned (by exact h0)]
      exact settle_encodeRelease rfl
    · simp [← hacc, ← h0]
    · subst hbo
      rfl
  · rw [partialByte_pending h0] at hbo ⊢
    obtain ⟨v, hput⟩ : ∃ v, ((s.tookSi .eos rest).goTo .encFlush).putBo s.eng.acc = some (.ok, v) :=
      ⟨_, putBo_answered _ hbo⟩
    obtain ⟨hnow, hparams, heng, henv⟩ := putBo_some hput
    have hmore : v.env.bo.now = more := (List.cons.inj (hnow.symm.trans hbo)).2
    refine ⟨v.countByte.clearAcc.goTo (.encRelease .done), ?_, hparams, ?_, ?_⟩
    · rw [encodeFinal_flush (by exact h0), settle_step ((microStep_encFlush rfl).trans (encodeFlush_ok hput))]
      exact settle_encodeRelease rfl
    · rw [goTo_eng, clearAcc_eng, countByte_eng, heng]
      rfl
    · rw [goTo_env, clearAcc_env, countByte_env, henv, hmore]
      simp

/-! ### The whole command -/

theorem encodeOpen_params (s : State) : (encodeOpen s).params = s.params := rfl

theorem encodeOpen_env (s : State) : (encodeOpen s).env = s.env := rfl

theorem encodeOpen_eng (s : State) : (encodeOpen s).eng =
    { s.eng with
      siOpen := true
      boOpen := true
      acc := 0
      nacc := 0
      nb := 0
      nby := 0
      ns := 0
      point := .encGet } := rfl

theorem exec_encode (s : State) : exec .encode s = withCodeTable s (.next (encodeOpen s).settle) := rfl

theorem encodeOpen_packs_nil (s : State) : Packs (encodeOpen s).eng.acc (encodeOpen s).eng.nacc [] := packs_empty

/-- Settles O41: the run over the symbols (`settle_encodes`), then the last byte and the end (`settle_encodeEos`). -/
theorem encodePacksTheCodes : Obligations.EncodePacksTheCodes := by
  intro s cs unread more bits hctv hsi hcs hbits hlen hbo
  have hnb0 : (encodeOpen s).eng.nb.toNat = 0 := rfl
  have hnacc0 : (encodeOpen s).eng.nacc.toNat = 0 := rfl
  have hpacks0 := encodeOpen_packs_nil s
  have hcodes : (cs.flatMap fun c => ((encodeOpen s).codeAt c).path) = bits := hbits.symm
  have hbytes : (bits.length + 7) / 8 = bits.length / 8 + (bits.length % 8 + 7) / 8 := by omega
  rw [hbytes, List.replicate_add, List.append_assoc] at hbo
  obtain ⟨t, tr, hrun, henc, hpoint, htook, hsi1, hbo1⟩ := settle_encodes cs (.eos :: unread) (encodeOpen s) _ _
    rfl hpacks0.accClean hsi hcs (by rw [hcodes]; omega) hbo (by rw [hcodes, hnacc0, Nat.zero_add])
  rw [hcodes] at henc
  have hpacked : streamBits (bytesPut tr) ++ t.eng.heldBits = bits := by
    rw [henc.packed, hpacks0.heldBits_eq, List.nil_append]
  have hcarries : Carries (bytesPut (tr ++ t.eng.eosTrace)) bits := by
    rw [bytesPut_append, bytesPut_eosTrace]
    exact carries_partialByte henc.clean hpacked
  have hpartial : t.eng.partialByte.length = (bits.length % 8 + 7) / 8 := by
    have hnacc : t.eng.nacc.toNat < 8 := t.eng.nacc.isLt
    have hlength := henc.bits_length
    rw [partialByte_length]
    omega
  obtain ⟨u, hdone, hparams, heng, henv⟩ := settle_encodeEos hpoint henc.clean hsi1 (hpartial ▸ hbo1)
  refine ⟨u.encodeDone, tr ++ t.eng.eosTrace, ?_, ?_, ?_, ?_, ?_, hcarries, ?_⟩
  · rw [exec_encode, withCodeTable_some _ hctv, hrun, hdone]
  · rw [encodeDone_params, hparams, henc.params, encodeOpen_params]
  · rw [encodeDone_env, henv, henc.env, encodeOpen_env]
    simp
  · have hnby : BitVec.ofNat 64 (bytesPut tr).length + BitVec.ofNat 64 ((bits.length % 8 + 7) / 8) =
        BitVec.ofNat 64 ((bits.length + 7) / 8) := by
      rw [← BitVec.ofNat_add, ← hpartial, ← List.length_append, ← bytesPut_eosTrace, ← bytesPut_append, hcarries.1]
    rw [encodeDone_eng, heng, hpartial, henc.eng, encodeOpen_eng, ← hnby]
    simp [Engine.ended]
  · rw [takenSi_append, htook, takenSi_eosTrace]
  · rw [putsBo_append, bytesPut_append, henc.allTaken, bytesPut_eosTrace, putsBo_eosTrace, List.map_append]

end Sys2Proof.Machine
end

section
/-!
The decoder's three answers (30_encoding.md R102, R104, R105), by the value of the word.
-/
namespace Sys2Proof

theorem opField_toNat (w : Word) : (opField w).toNat = w.toNat % 256 := by simp [opField]

theorem rsvField_eq_zero_iff (w : Word) : rsvField w = 0 ↔ w.toNat / 256 = 0 := by
  have hw : w.toNat < 2 ^ 64 := w.isLt
  have hval : (rsvField w).toNat = w.toNat / 256 := by
    simp [rsvField, Nat.shiftRight_eq_div_pow]
    omega
  rw [← BitVec.toNat_inj, hval]
  rfl

/-- R103, R105: the table has the opcodes below 0x0C and no other. -/
theorem lookupOp_eq_none_iff (op : Nat) : lookupOp op = none ↔ 0x0C ≤ op := by
  constructor
  · intro h
    by_contra hlt
    interval_cases op <;> cases h
  · intro h
    obtain ⟨k, rfl⟩ := Nat.exists_eq_add_of_le' h
    rfl

theorem decode_of_rsvField_ne_zero {w : Word} (h : rsvField w ≠ 0) : decode w = .error .reservedBits := if_neg h

theorem decode_of_lookupOp_none {w : Word} (h : rsvField w = 0) (hop : lookupOp (opField w).toNat = none) :
    decode w = .error .reservedOpcode := by
  rw [decode, if_pos h, hop]

theorem decode_of_lookupOp_some {w : Word} {i : Instr} (h : rsvField w = 0)
    (hop : lookupOp (opField w).toNat = some i) : decode w = .ok i := by
  rw [decode, if_pos h, hop]

/-- Settles O3: a case for each of the decoder's answers. -/
theorem everyWordIsACommandOrIllegal : Obligations.EveryWordIsACommandOrIllegal := by
  intro w
  by_cases hrsv : rsvField w = 0
  · have hhigh : w.toNat / 256 = 0 := (rsvField_eq_zero_iff w).1 hrsv
    cases hop : lookupOp (opField w).toNat with
    | none =>
      have hlow : 0x0C ≤ w.toNat % 256 := by rwa [lookupOp_eq_none_iff, opField_toNat] at hop
      have hbig : ¬ w.toNat ≤ 0x0B := by omega
      rw [decode_of_lookupOp_none hrsv hop]
      exact ⟨iff_of_false nofun fun h => h hhigh, iff_of_true rfl ⟨hhigh, hlow⟩, iff_of_false nofun hbig⟩
    | some i =>
      have hlow : ¬ 0x0C ≤ w.toNat % 256 := by
        rw [← opField_toNat, ← lookupOp_eq_none_iff, hop]
        exact Option.some_ne_none i
      have hsmall : w.toNat ≤ 0x0B := by omega
      rw [decode_of_lookupOp_some hrsv hop]
      exact ⟨iff_of_false nofun fun h => h hhigh, iff_of_false nofun fun h => hlow h.2,
        iff_of_true ⟨i, rfl⟩ hsmall⟩
  · have hhigh : w.toNat / 256 ≠ 0 := fun h => hrsv ((rsvField_eq_zero_iff w).2 h)
    have hbig : ¬ w.toNat ≤ 0x0B := by omega
    rw [decode_of_rsvField_ne_zero hrsv]
    exact ⟨iff_of_true rfl hhigh, iff_of_false nofun fun h => hhigh h.1, iff_of_false nofun hbig⟩

end Sys2Proof
end

section
/-!
GETC (40_control_and_access.md R138, R139): the bits of the code descriptor and of a chunk (30_encoding.md R110), and the
command by its operand checks.
-/
namespace Sys2Proof.Machine

theorem lowFirst_testBit (l : List Bool) (j : Nat) : (lowFirst l).testBit j = l.getD j false := by
  induction l generalizing j with
  | nil => simp [lowFirst]
  | cons b l ih =>
    have hbit : lowFirst (b :: l) = Nat.bit b (lowFirst l) := by
      rw [Nat.bit_val, lowFirst, Nat.add_comm]
    cases j with
    | zero => rw [hbit, Nat.testBit_bit_zero, List.getD_cons_zero]
    | succ j => rw [hbit, Nat.testBit_bit_succ, List.getD_cons_succ, ih]

/-- R138: bit `j` of chunk `k` is bit `64k + j` of the path. -/
theorem chunk_getLsbD (e : CodeEntry) (k : Nat) {j : Nat} (hj : j < 64) :
    (e.chunk k).getLsbD j = e.bit (64 * k + j) := by
  rw [CodeEntry.chunk, BitVec.getLsbD_ofNat, lowFirst_testBit, decide_eq_true hj, Bool.true_and]
  simp [List.getD_eq_getElem?_getD, hj, CodeEntry.bit]

theorem descriptor_valid_msb {e : CodeEntry} (h : e.valid = true) : e.descriptor.getLsbD 63 = true := by
  simp [CodeEntry.descriptor, h]

theorem descriptor_valid_len {e : CodeEntry} (h : e.valid = true) :
    e.descriptor.extractLsb' 0 63 = BitVec.ofNat 63 e.len := by
  refine BitVec.eq_of_getLsbD_eq fun j hj => ?_
  rw [CodeEntry.descriptor, if_pos h, BitVec.getLsbD_extractLsb', BitVec.getLsbD_or, BitVec.getLsbD_shiftLeft,
    BitVec.getLsbD_setWidth, Nat.zero_add]
  simp [hj]
  omega

theorem descriptor_invalid {e : CodeEntry} (h : e.valid = false) : e.descriptor = 0 := by
  simp [CodeEntry.descriptor, h]

theorem chunkResult_valid {e : CodeEntry} (h : e.valid = true) (k : Nat) : e.chunkResult k = e.chunk k := if_pos h

theorem chunkResult_invalid {e : CodeEntry} (h : e.valid = false) (k : Nat) : e.chunkResult k = 0 := by
  simp [CodeEntry.chunkResult, h]

/-! ### The command, by its checks -/

section
variable {s : State}

theorem exec_getc_noTable (h : s.eng.ctv = false) : exec .getc s = .next (s.raiseFault .noTable 0) :=
  withCodeTable_none _ h

theorem exec_getc_symbol_out (h : s.eng.ctv = true) (h0 : s.params.nsym ≤ s.eng.x0.toNat) :
    exec .getc s = .next (s.raiseFault .arg 0) :=
  (withCodeTable_some _ h).trans (withOperand_out _ h0)

theorem exec_getc_chunk_out (h : s.eng.ctv = true) (h0 : s.eng.x0.toNat < s.params.nsym)
    (h1 : s.params.kmax + 1 ≤ s.eng.x1.toNat) : exec .getc s = .next (s.raiseFault .arg 1) :=
  (withCodeTable_some _ h).trans ((withOperand_in _ h0).trans (withOperand_out _ h1))

theorem exec_getc_in (h : s.eng.ctv = true) (h0 : s.eng.x0.toNat < s.params.nsym)
    (h1 : s.eng.x1.toNat < s.params.kmax + 1) :
    exec .getc s = .next (s.complete
      [(2, (s.codeAt s.eng.x0.toNat).descriptor), (3, (s.codeAt s.eng.x0.toNat).chunkResult s.eng.x1.toNat)]) :=
  (withCodeTable_some _ h).trans ((withOperand_in _ h0).trans (withOperand_in _ h1))

end

/-- Settles O23: a case for each of GETC's checks, then the results bit by bit. -/
theorem getcReturnsTheEntryAndChunk : Obligations.GetcReturnsTheEntryAndChunk := by
  intro s
  refine ⟨exec_getc_noTable, exec_getc_symbol_out, exec_getc_chunk_out, fun hctv hsym hchunk => ?_⟩
  refine ⟨_, exec_getc_in hctv hsym (Nat.lt_succ_of_le hchunk), rfl, rfl, rfl, fun hvalid => ?_, fun hinvalid => ?_⟩
  · refine ⟨descriptor_valid_msb hvalid, descriptor_valid_len hvalid, fun j hj => ?_⟩
    exact (congrArg (BitVec.getLsbD · j) (chunkResult_valid hvalid _)).trans (chunk_getLsbD _ _ hj)
  · exact ⟨descriptor_invalid hinvalid, chunkResult_invalid hinvalid _⟩

end Sys2Proof.Machine
end

section
/-!
The commands NOP, CLR, SETF, GETF, GETT and GETN (40_control_and_access.md R131 to R137): an equation for each end of a
command, the fields of the node descriptor, and what a CMD write does while ERR is not 0 (60_exceptions.md R285, R290).
-/
namespace Sys2Proof.Machine

/-! ### The node descriptor, R136 -/

/-- R136: which bit of which field stands at position `j`. -/
theorem nodeDescriptor_getLsbD (n : Node) {j : Nat} (hj : j < 64) :
    n.descriptor.getLsbD j =
      if j < 17 then n.ch.testBit j else if j = 17 then n.lp else if j = 18 then n.rp else if j < 20 then false
      else if j < 40 then n.left.testBit (j - 20) else if j < 60 then n.right.testBit (j - 40) else false := by
  simp only [Node.descriptor, BitVec.getLsbD_or, BitVec.getLsbD_shiftLeft, BitVec.getLsbD_setWidth,
    BitVec.getLsbD_ofNat, BitVec.getLsbD_ofBool]
  grind

theorem extractLsb'_eq_ofNat {d : Word} {start len v : Nat} (h : ∀ j < len, d.getLsbD (start + j) = v.testBit j) :
    d.extractLsb' start len = BitVec.ofNat len v := by
  refine BitVec.eq_of_getLsbD_eq fun j hj => ?_
  rw [BitVec.getLsbD_extractLsb', h j hj, BitVec.getLsbD_ofNat, decide_eq_true hj]

section
variable (n : Node)

theorem nodeDescriptor_ch : n.descriptor.extractLsb' 0 17 = BitVec.ofNat 17 n.ch :=
  extractLsb'_eq_ofNat fun j hj => by
    rw [nodeDescriptor_getLsbD n (by omega), if_pos (by omega), Nat.zero_add]

theorem nodeDescriptor_lp : n.descriptor.getLsbD 17 = n.lp := nodeDescriptor_getLsbD n (by decide)

theorem nodeDescriptor_rp : n.descriptor.getLsbD 18 = n.rp := nodeDescriptor_getLsbD n (by decide)

theorem nodeDescriptor_reserved19 : n.descriptor.getLsbD 19 = false := nodeDescriptor_getLsbD n (by decide)

theorem nodeDescriptor_left : n.descriptor.extractLsb' 20 20 = BitVec.ofNat 20 n.left :=
  extractLsb'_eq_ofNat fun j hj => by
    rw [nodeDescriptor_getLsbD n (by omega)]
    simp (disch := omega) only [if_neg, if_pos, Nat.add_sub_cancel_left]

theorem nodeDescriptor_right : n.descriptor.extractLsb' 40 20 = BitVec.ofNat 20 n.right :=
  extractLsb'_eq_ofNat fun j hj => by
    rw [nodeDescriptor_getLsbD n (by omega)]
    simp (disch := omega) only [if_neg, if_pos, Nat.add_sub_cancel_left]

theorem nodeDescriptor_reserved60 : n.descriptor.extractLsb' 60 4 = 0 :=
  extractLsb'_eq_ofNat (v := 0) fun j hj => by
    rw [nodeDescriptor_getLsbD n (by omega)]
    simp (disch := omega) only [if_neg, Nat.zero_testBit]

end

/-! ### The commands, by their checks -/

theorem exec_nop (s : State) : exec .nop s = .next (s.complete []) := rfl

theorem exec_gett (s : State) : exec .gett s = .next { s with eng := { s.eng with
    x0 := s.eng.tk.code.setWidth 64
    x1 := BitVec.ofNat 64 s.eng.root
    x2 := BitVec.ofNat 64 s.eng.ncnt
    x3 := BitVec.ofNat 64 s.rootFreq }.ended } := rfl

theorem exec_setf (s : State) :
    exec .setf s = withOperand s 0 s.params.nsym fun c => withOperand s 1 (2 ^ s.params.freqw) fun n =>
      .next ((s.setFreq c n).complete []) := rfl

theorem exec_getf (s : State) :
    exec .getf s = withOperand s 0 s.params.nsym fun c => .next (s.complete [(1, BitVec.ofNat 64 (s.freqAt c))]) := rfl

theorem exec_getn (s : State) :
    exec .getn s = withTree s (withOperand s 0 s.eng.ncnt fun i =>
      .next (s.complete [(1, (s.nodeAt i).descriptor), (2, BitVec.ofNat 64 (s.nodeAt i).freq)])) := rfl

section
variable {s : State}

theorem rootFreq_none (h : s.eng.tk = .none) : s.rootFreq = 0 := by simp only [State.rootFreq, h]

theorem rootFreq_empty (h : s.eng.tk = .empty) : s.rootFreq = 0 := by simp only [State.rootFreq, h]

theorem rootFreq_tree (h : s.eng.tk = .tree) : s.rootFreq = (s.nodeAt s.eng.root).freq := by
  simp only [State.rootFreq, h]

theorem exec_getn_noTree (h : s.eng.tk = .none) : exec .getn s = .next (s.raiseFault .noTree 0) :=
  (exec_getn s).trans (withTree_none _ h)

theorem exec_getn_index_out (h : s.eng.tk ≠ .none) (h0 : s.eng.ncnt ≤ s.eng.x0.toNat) :
    exec .getn s = .next (s.raiseFault .arg 0) :=
  (exec_getn s).trans ((withTree_some _ h).trans (withOperand_out _ h0))

theorem exec_getn_in (h : s.eng.tk ≠ .none) (h0 : s.eng.x0.toNat < s.eng.ncnt) :
    exec .getn s = .next (s.complete
      [(1, (s.nodeAt s.eng.x0.toNat).descriptor), (2, BitVec.ofNat 64 (s.nodeAt s.eng.x0.toNat).freq)]) :=
  (exec_getn s).trans ((withTree_some _ h).trans (withOperand_in _ h0))

theorem exec_setf_symbol_out (h0 : s.params.nsym ≤ s.eng.x0.toNat) : exec .setf s = .next (s.raiseFault .arg 0) :=
  (exec_setf s).trans (withOperand_out _ h0)

theorem exec_setf_frequency_out (h0 : s.eng.x0.toNat < s.params.nsym) (h1 : 2 ^ s.params.freqw ≤ s.eng.x1.toNat) :
    exec .setf s = .next (s.raiseFault .arg 1) :=
  (exec_setf s).trans ((withOperand_in _ h0).trans (withOperand_out _ h1))

theorem exec_setf_in (h0 : s.eng.x0.toNat < s.params.nsym) (h1 : s.eng.x1.toNat < 2 ^ s.params.freqw) :
    exec .setf s = .next ((s.setFreq s.eng.x0.toNat s.eng.x1.toNat).complete []) :=
  (exec_setf s).trans ((withOperand_in _ h0).trans (withOperand_in _ h1))

theorem exec_getf_symbol_out (h0 : s.params.nsym ≤ s.eng.x0.toNat) : exec .getf s = .next (s.raiseFault .arg 0) :=
  (exec_getf s).trans (withOperand_out _ h0)

theorem exec_getf_in (h0 : s.eng.x0.toNat < s.params.nsym) :
    exec .getf s = .next (s.complete [(1, BitVec.ofNat 64 (s.freqAt s.eng.x0.toNat))]) :=
  (exec_getf s).trans (withOperand_in _ h0)

end

/-! ### CMD writes while ERR is not 0 -/

section
variable {s : State} {es : List Event}

/-- R290, R291: while ERR is not 0 a word that is not CLR's sets HERR, whether or not the engine is idle. -/
theorem step_cmdWrite_refused {w : Word} (hev : s.env.events = .write 4 w :: es) (herr : s.eng.err ≠ .none)
    (hw : w ≠ clrWord) :
    step s = .next { s with eng := { s.eng with herr := true }, env := { s.env with events := es } } := by
  have hno : (s.withEvents es).accepts 4 w = false := by
    rw [← Bool.not_eq_true, accepts_iff]
    rintro ⟨-, -, h⟩
    exact (h rfl).elim herr hw
  rw [step_event hev]
  exact hostWrite_refused hno

/-- R285: an idle engine runs the CLR word whatever ERR is. -/
theorem step_cmdWrite_clr (hev : s.env.events = .write 4 clrWord :: es) (hbusy : s.eng.busy = false) :
    step s = .next { s with eng := { Engine.reset with done := true }, env := { s.env with events := es } } := by
  have hyes : (s.withEvents es).accepts 4 clrWord = true := (accepts_iff _ _ _).2 ⟨by decide, hbusy, fun _ => .inr rfl⟩
  rw [step_event hev]
  exact hostWrite_cmd hyes

end

/-! ### The statements -/

/-- Settles O22: a case for each of GETN's checks, then the descriptor field by field. -/
theorem getnReturnsTheDescriptor : Obligations.GetnReturnsTheDescriptor := by
  intro s
  refine ⟨exec_getn_noTree, exec_getn_index_out, fun htk hindex => ⟨_, exec_getn_in htk hindex, rfl, rfl, rfl, ?_⟩⟩
  exact ⟨nodeDescriptor_ch _, nodeDescriptor_lp _, nodeDescriptor_rp _, nodeDescriptor_reserved19 _,
    nodeDescriptor_left _, nodeDescriptor_right _, nodeDescriptor_reserved60 _⟩

/-- Settles O15: NOP's one transition, and its word refused while ERR is not 0 because it is not CLR's. -/
theorem nopOnlyEnds : Obligations.NopOnlyEnds :=
  ⟨rfl, exec_nop, fun _ _ hev _ herr => step_cmdWrite_refused hev herr (by decide)⟩

/-- Settles O16: CLR's one transition, and the two ends of a CMD write under a fault. -/
theorem clrLeavesTheResetStateWithDone : Obligations.ClrLeavesTheResetStateWithDone := by
  refine ⟨rfl, exec_clr, fun s w es hev hbusy herr => ⟨?_, step_cmdWrite_refused hev herr⟩⟩
  rintro rfl
  exact step_cmdWrite_clr hev hbusy

/-- Settles O17: a case for each of SETF's checks; in range, the one entry written is read back. -/
theorem setfWritesOneEntry : Obligations.SetfWritesOneEntry := by
  intro s
  refine ⟨fun hsym hfreq => ?_, exec_setf_symbol_out, exec_setf_frequency_out⟩
  exact ⟨_, exec_setf_in hsym hfreq, rfl, rfl, rfl, freqAt_setFreq s _ _⟩

/-- Settles O18: a case for each answer of GETF's check. -/
theorem getfReturnsTheEntry : Obligations.GetfReturnsTheEntry := fun _ => ⟨exec_getf_in, exec_getf_symbol_out⟩

/-- Settles O21: GETT's four results, for each kind of tree. -/
theorem gettReportsTheTree : Obligations.GettReportsTheTree := by
  intro s
  rw [exec_gett]
  cases htk : s.eng.tk with
  | none => simp [rootFreq_none htk, TreeKind.code]
  | empty => simp [rootFreq_empty htk, TreeKind.code]
  | tree => simp [rootFreq_tree htk, TreeKind.code]

end Sys2Proof.Machine
end

section
/-!
The whole run of COUNT (41_frequency_counter.md R150): up to the item that ends it (`exec_count_counts`), then that item,
the release of SI and the end (`settle_countStops`).
-/
namespace Sys2Proof.Machine

/-- COUNT, begun in `s`, has in `t` counted the symbols `cs` and is to take the first of the items `rest`. -/
structure State.HasCounted (s t : State) (cs : List Nat) (rest : List (Item Nat)) : Prop where
  params : t.params = s.params
  freq : ∀ c, t.freqAt c = cs.count c
  eng : t.eng = { s.eng with
    freq := t.eng.freq
    ns := BitVec.ofNat 64 cs.length
    siOpen := true
    point := .countGet }
  env : t.env = { s.env with
    si := { s.env.si with now := rest }
    trace := s.env.trace ++ cs.map fun c => .tookSi (.data c) }

/-- R150, R151: COUNT starts a fresh mapping, counts data items whose counts stay below 2^FREQW, and goes on from the
next `get`. -/
theorem exec_count_counts {s : State} {cs : List Nat} {rest : List (Item Nat)}
    (hnow : s.env.si.now = cs.map .data ++ rest) (hcs : ∀ c ∈ cs, c < s.params.nsym)
    (hcount : ∀ c, cs.count c < 2 ^ s.params.freqw) :
    ∃ t, exec .count s = .next t.settle ∧ s.HasCounted t cs rest := by
  have hfresh : ∀ c, (countOpen s).freqAt c = 0 := readCell_nil 0
  obtain ⟨t, hrun, hparams, hfreq, heng, henv⟩ :=
    settle_counts cs rest (countOpen s) rfl hnow hcs fun c => by
      rw [hfresh, Nat.zero_add]
      exact hcount c
  exact ⟨t, congrArg Host.Outcome.next hrun,
    { params := hparams
      freq := fun c => by rw [hfreq, hfresh, Nat.zero_add]
      eng := by
        rw [heng]
        simp [countOpen]
      env := henv }⟩

/-! ### The end -/

/-- COUNT once it has taken the item `raw`, released SI and ended by `f`. -/
def State.countEnded (s : State) (raw : Item Nat) (rest : List (Item Nat)) (f : Ending) : State :=
  countFinish f (countRelease f ((s.tookSi raw rest).goTo (.countRelease f)))

/-- An item that sends COUNT to its release is the last it takes. -/
theorem settle_countStops {s : State} {raw : Item Nat} {rest : List (Item Nat)} {f : Ending}
    (hp : s.eng.point = .countGet) (hnow : s.env.si.now = raw :: rest)
    (htake : countTake raw rest s = (s.tookSi raw rest).goTo (.countRelease f)) :
    s.settle = s.countEnded raw rest f := by
  rw [settle_step ((microStep_countGet hp).trans (countGet_takes hnow)), htake]
  exact settle_countRelease rfl

section
variable (s : State) (raw : Item Nat) (rest : List (Item Nat)) (f : Ending)

@[simp] theorem countEnded_params : (s.countEnded raw rest f).params = s.params := by
  cases f <;> simp [State.countEnded, countFinish, countRelease]

@[simp] theorem countEnded_env : (s.countEnded raw rest f).env = { s.env with
    si := s.env.si.endSession
    trace := s.env.trace ++ [.tookSi raw] ++ [.release .si] } := by
  cases f <;> simp [State.countEnded, countFinish, countRelease]

@[simp] theorem countEnded_done_eng : (s.countEnded raw rest .done).eng = { s.eng with
    siOpen := false
    x0 := s.eng.ns
    x1 := BitVec.ofNat 64 s.distinct }.ended := by
  simp [State.countEnded, countFinish, countRelease, State.distinct, Engine.ended]

@[simp] theorem countEnded_fault_eng (e : ErrCode) (info : Word) :
    (s.countEnded raw rest (.fault e info)).eng = { s.eng with siOpen := false }.faulted e info := by
  simp [State.countEnded, countFinish, countRelease, Engine.faulted]

@[simp] theorem countEnded_freqAt (c : Nat) : (s.countEnded raw rest f).freqAt c = s.freqAt c := by
  refine freqAt_congr ?_ c
  cases f <;> simp [Engine.ended, Engine.faulted]

end

/-- R152: the symbols with an entry that is not 0 are the distinct symbols of the session. -/
theorem distinct_eq_dedup_length {s : State} {cs : List Nat} (hcs : ∀ c ∈ cs, c < s.params.nsym)
    (hfreq : ∀ c, s.freqAt c = cs.count c) : s.distinct = cs.dedup.length := by
  refine List.Perm.length_eq ((List.perm_ext_iff_of_nodup (List.nodup_range.filter _) cs.nodup_dedup).2 fun c => ?_)
  have hmem : cs.count c ≠ 0 ↔ c ∈ cs := by rw [← Nat.pos_iff_ne_zero, List.count_pos_iff]
  rw [List.mem_filter, List.mem_range, bne_iff_ne, hfreq, hmem, List.mem_dedup]
  exact and_iff_right_of_imp (hcs c)

/-- R153, R154: the run over a session whose item after `cs` is one on which COUNT faults. -/
theorem exec_count_faults {s : State} {cs : List Nat} {raw : Item Nat} {rest : List (Item Nat)} {e : ErrCode}
    {info : Word} (hnow : s.env.si.now = cs.map .data ++ raw :: rest) (hcs : ∀ c ∈ cs, c < s.params.nsym)
    (hcount : ∀ c, cs.count c < 2 ^ s.params.freqw)
    (htake : ∀ t, s.HasCounted t cs (raw :: rest) →
      countTake raw rest t = (t.tookSi raw rest).goTo (.countRelease (.fault e info))) :
    ∃ t, exec .count s = .next t ∧ t.params = s.params ∧ (∀ c, t.freqAt c = cs.count c) ∧
      t.eng = { s.eng with
        freq := t.eng.freq
        ns := BitVec.ofNat 64 cs.length
        siOpen := false }.faulted e info ∧
      t.env = { s.env with
        si := s.env.si.endSession
        trace := s.env.trace ++ cs.map (fun c => .tookSi (.data c)) ++ [.tookSi raw, .release .si] } := by
  obtain ⟨t, hrun, h⟩ := exec_count_counts hnow hcs hcount
  have hend := settle_countStops (by rw [h.eng]) (by rw [h.env]) (htake t h)
  refine ⟨t.countEnded raw rest (.fault e info), by rw [hrun, hend], ?_, fun c => ?_, ?_, ?_⟩
  · rw [countEnded_params, h.params]
  · rw [countEnded_freqAt, h.freq]
  · rw [countEnded_fault_eng, h.eng]
    rfl
  · simp [h.env]

/-! ### The statements -/

/-- Settles O24: the run to EOS, and the results written at the end. -/
theorem countCountsTheSession : Obligations.CountCountsTheSession := by
  intro s cs unread hnow hcs hcount
  obtain ⟨t, hrun, h⟩ := exec_count_counts hnow hcs hcount
  have hend := settle_countStops (by rw [h.eng]) (by rw [h.env]) (countTake_eos unread t)
  have hdistinct : t.distinct = cs.dedup.length := distinct_eq_dedup_length (h.params ▸ hcs) h.freq
  refine ⟨t.countEnded .eos unread .done, by rw [hrun, hend], ?_, fun c => ?_, ?_, ?_⟩
  · rw [countEnded_params, h.params]
  · rw [countEnded_freqAt, h.freq]
  · rw [countEnded_done_eng, hdistinct, h.eng]
    rfl
  · simp [h.env]

/-- Settles O25: an ERR item is one on which COUNT faults, whatever it has counted. -/
theorem countReportsSourceFailure : Obligations.CountReportsSourceFailure :=
  fun _ _ unread hnow hcs hcount => exec_count_faults hnow hcs hcount fun t _ => countTake_err unread t

/-- Settles O26: COUNT faults on the symbol `c` because its entry, the count of `c` so far, is the greatest. -/
theorem countNeverWraps : Obligations.CountNeverWraps := by
  intro s cs c unread hnow hcs hc hcount hfull
  refine exec_count_faults hnow hcs hcount fun t h => countTake_full unread ?_ ?_
  · rw [h.params]
    exact hc
  · rw [h.freq, h.params, hfull]

end Sys2Proof.Machine
end

section
/-!
The priority structure as the tree builder uses it (42_tree_builder.md R162, R164), and the loop of merges (R169): what
one merge does, by `State.TwoLeast` and `State.merge`, and how what every merge keeps holds of the loop's end.
-/
namespace Sys2Proof.Machine

/-! ### PQ -/

theorem pqExtractMin_single {s : State} {root : Nat} (h : s.eng.pq = [root]) :
    s.pqExtractMin = some (root, { s with eng := { s.eng with pq := [] } }) := by
  simp [State.pqExtractMin, h, State.leastRank]

/-- R162: the rank is a total order, so only one member is least. -/
theorem least_unique {s : State} {l : List Nat} {i j : Nat} (hi : i ∈ l) (hj : j ∈ l)
    (hleast : ∀ k ∈ l, s.ranksBelow k i = false) (hleast' : ∀ k ∈ l, s.ranksBelow k j = false) : i = j := by
  by_contra hne
  rcases ranksBelow_total s hne with h | h
  · exact Bool.false_ne_true ((hleast' i hi).symm.trans h)
  · exact Bool.false_ne_true ((hleast j hj).symm.trans h)

/-- Settles O27: what `extractmin` answers, its least rank written out, and a set without one of its members. -/
theorem extractMinTakesTheLeastRank : Obligations.ExtractMinTakesTheLeastRank := by
  intro s hne hnodup
  obtain ⟨⟨m, t⟩, hmin⟩ := Option.ne_none_iff_exists'.1 (mt pqExtractMin_none.1 hne)
  obtain ⟨hmem, hleast, rfl⟩ := pqExtractMin_some hmin
  refine ⟨m, _, hmin, hmem, fun i hi => ?_, rfl, fun i => ?_⟩
  · have hrank := Bool.eq_false_iff.1 (hleast i hi)
    rw [Ne, ranksBelow_iff] at hrank
    omega
  · exact (hnodup.mem_erase_iff).trans and_comm

/-! ### One merge -/

/-- The members `t1` and `t2` of PQ are the two of least rank, in that order (R169). -/
structure State.TwoLeast (s : State) (t1 t2 : Nat) : Prop where
  first : t1 ∈ s.eng.pq
  second : t2 ∈ s.eng.pq.erase t1
  firstLeast : ∀ i ∈ s.eng.pq, s.ranksBelow i t1 = false
  secondLeast : ∀ i ∈ s.eng.pq.erase t1, s.ranksBelow i t2 = false

/-- R169: `t1` and `t2` taken from PQ and the record `m` of their merge inserted. -/
def State.merge (s : State) (m t1 t2 : Nat) : State :=
  ({ s with eng := { s.eng with pq := (s.eng.pq.erase t1).erase t2 ++ [m] } } : State).setNode m (s.mergedNode t1 t2)

section
variable (s : State) (m t1 t2 : Nat)

@[simp] theorem merge_params : (s.merge m t1 t2).params = s.params := rfl
@[simp] theorem merge_pq : (s.merge m t1 t2).eng.pq = (s.eng.pq.erase t1).erase t2 ++ [m] := rfl

theorem merge_nodeAt_same : (s.merge m t1 t2).nodeAt m = s.mergedNode t1 t2 :=
  (nodeAt_setNode _ m m _).trans (if_pos rfl)

theorem merge_nodeAt_ne {i : Nat} (h : i ≠ m) : (s.merge m t1 t2).nodeAt i = s.nodeAt i :=
  (nodeAt_setNode _ m i _).trans (if_neg h)

/-- The members stay below the next free index. -/
theorem merge_members_lt {s : State} {m : Nat} (t1 t2 : Nat) (h : ∀ i ∈ s.eng.pq, i < m) :
    ∀ i ∈ (s.merge m t1 t2).eng.pq, i < m + 1 := by
  intro i hi
  rcases List.mem_append.1 hi with hold | hnew
  · exact Nat.lt_succ_of_lt (h i (List.mem_of_mem_erase (List.mem_of_mem_erase hold)))
  · exact Nat.lt_succ_of_le (List.mem_singleton.1 hnew).le

end

section
variable {s : State} {t1 t2 : Nat}

theorem State.TwoLeast.second_mem (h : s.TwoLeast t1 t2) : t2 ∈ s.eng.pq := List.mem_of_mem_erase h.second

theorem State.TwoLeast.perm (h : s.TwoLeast t1 t2) :
    s.eng.pq.Perm (t1 :: t2 :: (s.eng.pq.erase t1).erase t2) :=
  (List.perm_cons_erase h.first).trans ((List.perm_cons_erase h.second).cons t1)

/-- A merge leaves one tree fewer. -/
theorem State.TwoLeast.length (h : s.TwoLeast t1 t2) (m : Nat) :
    (s.merge m t1 t2).eng.pq.length + 1 = s.eng.pq.length := by
  simp [h.perm.length_eq]

/-- R164: the two least are unique. -/
theorem State.TwoLeast.unique {u1 u2 : Nat} (h : s.TwoLeast t1 t2) (h' : s.TwoLeast u1 u2) : t1 = u1 ∧ t2 = u2 := by
  obtain rfl := least_unique h.first h'.first h.firstLeast h'.firstLeast
  exact ⟨rfl, least_unique h.second h'.second h.secondLeast h'.secondLeast⟩

end

/-! ### The loop -/

theorem mergeLoop_step (fuel m : Nat) {s : State} (h : 2 ≤ s.eng.pq.length) :
    ∃ t1 t2, s.TwoLeast t1 t2 ∧ mergeLoop (fuel + 1) m s = mergeLoop fuel (m + 1) (s.merge m t1 t2) := by
  obtain ⟨t1, t2, hfirst, hsecond, hleast1, hleast2, hrun⟩ := mergeLoop_merge fuel m h
  exact ⟨t1, t2, ⟨hfirst, hsecond, hleast1, hleast2⟩, hrun⟩

/-- R169: with `k + 1` trees in PQ there are `k` merges and one tree remains; what every merge keeps holds at the end. -/
theorem mergeLoop_induction {P : Nat → State → Prop}
    (hmerge : ∀ m s t1 t2, P m s → s.TwoLeast t1 t2 → P (m + 1) (s.merge m t1 t2)) (k fuel m : Nat) (s : State)
    (hfuel : k ≤ fuel) (hlen : s.eng.pq.length = k + 1) (hs : P m s) :
    ∃ t root, mergeLoop fuel m s = (t, m + k) ∧ t.eng.pq = [root] ∧ P (m + k) t := by
  induction k generalizing fuel m s with
  | zero =>
    obtain ⟨root, hroot⟩ := List.length_eq_one_iff.1 hlen
    exact ⟨s, root, mergeLoop_stop hlen.le, hroot, hs⟩
  | succ k ih =>
    obtain ⟨fuel, rfl⟩ := Nat.exists_eq_add_one.2 (Nat.zero_lt_of_lt hfuel)
    obtain ⟨t1, t2, htwo, hrun⟩ := mergeLoop_step fuel m (s := s) (by omega)
    have hnext : (s.merge m t1 t2).eng.pq.length = k + 1 := by
      have := htwo.length m
      omega
    rw [hrun, show m + (k + 1) = m + 1 + k by omega]
    exact ih fuel (m + 1) _ (by omega) hnext (hmerge m s t1 t2 hs htwo)

/-! ### Two runs of the loop -/

/-- The states `s` and `u` have the same trees to merge: the same PQ over the same records below `m`. -/
structure State.SameTrees (s u : State) (m : Nat) : Prop where
  params : s.params = u.params
  pq : s.eng.pq = u.eng.pq
  members : ∀ i ∈ s.eng.pq, i < m
  nodes : ∀ i, i < m → s.nodeAt i = u.nodeAt i

section
variable {s u : State} {m t1 t2 : Nat}

theorem State.SameTrees.ranksBelow (h : s.SameTrees u m) {i j : Nat} (hi : i ∈ s.eng.pq) (hj : j ∈ s.eng.pq) :
    u.ranksBelow i j = s.ranksBelow i j :=
  ranksBelow_congr (by rw [h.nodes i (h.members i hi)]) (by rw [h.nodes j (h.members j hj)])

theorem State.SameTrees.twoLeast (h : s.SameTrees u m) (htwo : s.TwoLeast t1 t2) : u.TwoLeast t1 t2 where
  first := h.pq ▸ htwo.first
  second := h.pq ▸ htwo.second
  firstLeast := by
    rw [← h.pq]
    intro i hi
    rw [h.ranksBelow hi htwo.first]
    exact htwo.firstLeast i hi
  secondLeast := by
    rw [← h.pq]
    intro i hi
    rw [h.ranksBelow (List.mem_of_mem_erase hi) htwo.second_mem]
    exact htwo.secondLeast i hi

theorem State.SameTrees.mergedNode (h : s.SameTrees u m) (htwo : s.TwoLeast t1 t2) :
    s.mergedNode t1 t2 = u.mergedNode t1 t2 := by
  simp only [State.mergedNode, h.params, h.nodes t1 (h.members t1 htwo.first),
    h.nodes t2 (h.members t2 htwo.second_mem)]

theorem State.SameTrees.merge (h : s.SameTrees u m) (htwo : s.TwoLeast t1 t2) :
    (s.merge m t1 t2).SameTrees (u.merge m t1 t2) (m + 1) where
  params := h.params
  pq := by rw [merge_pq, merge_pq, h.pq]
  members := merge_members_lt t1 t2 h.members
  nodes i hi := by
    rcases Nat.lt_succ_iff_lt_or_eq.1 hi with hlt | rfl
    · rw [merge_nodeAt_ne s m t1 t2 hlt.ne, merge_nodeAt_ne u m t1 t2 hlt.ne, h.nodes i hlt]
    · rw [merge_nodeAt_same, merge_nodeAt_same, h.mergedNode htwo]

/-- R172: the loop does the same to the same trees. -/
theorem State.SameTrees.mergeLoop (fuel : Nat) (h : s.SameTrees u m) :
    (mergeLoop fuel m s).1.SameTrees (mergeLoop fuel m u).1 (mergeLoop fuel m s).2 := by
  induction fuel generalizing m s u with
  | zero => exact h
  | succ fuel ih =>
    rcases Nat.lt_or_ge s.eng.pq.length 2 with hlen | hlen
    · rw [mergeLoop_stop (by omega), mergeLoop_stop (by rw [← h.pq]; omega)]
      exact h
    · obtain ⟨t1, t2, htwo, hrun⟩ := mergeLoop_step fuel m hlen
      obtain ⟨u1, u2, htwo', hrun'⟩ := mergeLoop_step fuel m (h.pq ▸ hlen)
      obtain ⟨rfl, rfl⟩ := (h.twoLeast htwo).unique htwo'
      rw [hrun, hrun']
      exact ih (h.merge htwo)

end

end Sys2Proof.Machine
end

section
/-!
BUILD as a whole (42_tree_builder.md R165): its leaves (R166), then, by their number, the empty tree, the single-symbol
tree or the merges. `State.Merging` is what every merge keeps, `State.BuildsTree` what every tree BUILD makes has.
-/
namespace Sys2Proof.Machine

/-! ### The leaves, R166 -/

/-- BUILD, begun in `s`, has emptied PQ and made its leaves. -/
def State.leafed (s : State) : State :=
  (makeLeaves (List.range s.params.nsym) 0 { s with eng := { s.eng with pq := [] } }).1

section
variable (s : State)

theorem makeLeaves_count :
    (makeLeaves (List.range s.params.nsym) 0 { s with eng := { s.eng with pq := [] } }).2 = s.present.length :=
  (makeLeaves_spec _ 0 _).1.trans (Nat.zero_add _)

theorem leafed_eq : s.leafed = { s with eng := { s.eng with node := s.leafed.eng.node, pq := [] } } :=
  (makeLeaves_spec _ 0 _).2.1

@[simp] theorem leafed_params : s.leafed.params = s.params := by rw [leafed_eq]

theorem leafed_leaf {i : Nat} (h : i < s.present.length) :
    s.leafed.nodeAt i = Node.leafOf s.present[i] (s.freqAt s.present[i]) := by
  obtain ⟨-, -, hleaf, -⟩ := makeLeaves_spec (List.range s.params.nsym) 0 { s with eng := { s.eng with pq := [] } }
  have := hleaf i h
  rwa [Nat.zero_add] at this

theorem leafed_above {i : Nat} (h : s.present.length ≤ i) : s.leafed.nodeAt i = s.nodeAt i := by
  obtain ⟨-, -, -, hrest⟩ := makeLeaves_spec (List.range s.params.nsym) 0 { s with eng := { s.eng with pq := [] } }
  exact hrest i (.inr ((Nat.zero_add _).trans_le h))

/-- The present symbols carry all of the frequency (10_state.md R25). -/
theorem present_freq_sum : (s.present.map s.freqAt).sum = ((List.range s.params.nsym).map s.freqAt).sum := by
  rw [← List.sum_filter_bne_zero ((List.range s.params.nsym).map s.freqAt), List.filter_map]
  rfl

/-- The leaves have the frequencies of the present symbols. -/
theorem leafed_freq_map :
    (List.range s.present.length).map (fun i => (s.leafed.nodeAt i).freq) = s.present.map s.freqAt := by
  refine List.ext_getElem (by simp) fun i hi _ => ?_
  have hlt : i < s.present.length := by simpa using hi
  simp [leafed_leaf s hlt, Node.leafOf]

end

/-! ### The merges, R169 -/

/-- PQ filled with the leaves. -/
def State.filled (s : State) : State := insertAll (List.range s.present.length) s.leafed

/-- The state after the last merge, and the next free index. -/
def State.mergesEnd (s : State) : State × Nat := mergeLoop s.present.length s.present.length s.filled

section
variable (s : State)

theorem filled_eq : s.filled = { s.leafed with eng := { s.leafed.eng with pq := List.range s.present.length } } := by
  rw [State.filled, insertAll_eq, leafed_eq]
  rfl

@[simp] theorem filled_pq : s.filled.eng.pq = List.range s.present.length := by rw [filled_eq]

@[simp] theorem filled_params : s.filled.params = s.params := by rw [filled_eq, leafed_params]

@[simp] theorem filled_nodeAt (i : Nat) : s.filled.nodeAt i = s.leafed.nodeAt i :=
  nodeAt_congr (by rw [filled_eq]) i

end

/-- BUILD, begun in `s`, has made the merges below the index `m`: the leaves and the records from `m` on are as they
were, each merge has its children below it, and the trees in PQ, the newest among them, weigh what the leaves do. -/
structure State.Merging (s : State) (m : Nat) (t : State) : Prop where
  eq : t = { s with eng := { s.eng with node := t.eng.node, pq := t.eng.pq } }
  low : s.present.length ≤ m
  kept : ∀ i, i < s.present.length ∨ m ≤ i → t.nodeAt i = s.leafed.nodeAt i
  merges : ∀ i, s.present.length ≤ i → i < m → t.mergeOk i
  members : ∀ i ∈ t.eng.pq, i < m
  newest : m - 1 ∈ t.eng.pq
  weight : (t.eng.pq.map fun i => (t.nodeAt i).freq).sum = (s.present.map s.freqAt).sum

theorem merging_filled {s : State} (h : s.present ≠ []) : s.Merging s.present.length s.filled where
  eq := by rw [filled_eq, leafed_eq]
  low := le_rfl
  kept i _ := filled_nodeAt s i
  merges i hi hlt := absurd hlt (Nat.not_lt.2 hi)
  members i hi := by simpa using hi
  newest := by
    have := List.length_pos_of_ne_nil h
    simp only [filled_pq, List.mem_range]
    omega
  weight := by simp [leafed_freq_map]

/-- A merge is a record as R31 and R173 ask, over records that are not written again. -/
theorem merge_mergeOk {s : State} {m t1 t2 : Nat} (h1 : t1 < m) (h2 : t2 < m) : (s.merge m t1 t2).mergeOk m := by
  simp only [State.mergeOk, merge_nodeAt_same, State.mergedNode, merge_nodeAt_ne s m t1 t2 h1.ne,
    merge_nodeAt_ne s m t1 t2 h2.ne, merge_params]
  exact ⟨trivial, trivial, h1, h2, trivial, trivial⟩

theorem merge_keeps_mergeOk {s : State} {m i : Nat} (t1 t2 : Nat) (hi : i < m) (h : s.mergeOk i) :
    (s.merge m t1 t2).mergeOk i := by
  have ⟨_, _, hleft, hright, _⟩ := h
  simpa only [State.mergeOk, merge_nodeAt_ne s m t1 t2 hi.ne, merge_nodeAt_ne s m t1 t2 (hleft.trans hi).ne,
    merge_nodeAt_ne s m t1 t2 (hright.trans hi).ne, merge_params] using h

/-- The weight of PQ does not change: the two trees taken are the tree put back (R174). -/
theorem merge_weight {s : State} {m t1 t2 : Nat} (h : s.TwoLeast t1 t2) (hlt : ∀ i ∈ s.eng.pq, i < m) :
    ((s.merge m t1 t2).eng.pq.map fun i => ((s.merge m t1 t2).nodeAt i).freq).sum =
      (s.eng.pq.map fun i => (s.nodeAt i).freq).sum := by
  have hold : ((s.eng.pq.erase t1).erase t2).map (fun i => ((s.merge m t1 t2).nodeAt i).freq) =
      ((s.eng.pq.erase t1).erase t2).map fun i => (s.nodeAt i).freq := by
    refine List.map_congr_left fun i hi => ?_
    rw [merge_nodeAt_ne s m t1 t2 (hlt i (List.mem_of_mem_erase (List.mem_of_mem_erase hi))).ne]
  rw [(h.perm.map _).sum_eq, merge_pq, List.map_append, hold]
  simp [merge_nodeAt_same, State.mergedNode]
  omega

theorem merging_merge {s t : State} {m t1 t2 : Nat} (h : s.Merging m t) (htwo : t.TwoLeast t1 t2) :
    s.Merging (m + 1) (t.merge m t1 t2) where
  eq := by
    rw [State.merge, h.eq]
    rfl
  low := Nat.le_succ_of_le h.low
  kept i hi := by
    have hne : i ≠ m := by
      have := h.low
      omega
    rw [merge_nodeAt_ne t m t1 t2 hne, h.kept i (by omega)]
  merges i hi hlt := by
    rcases Nat.lt_succ_iff_lt_or_eq.1 hlt with hlt | rfl
    · exact merge_keeps_mergeOk t1 t2 hlt (h.merges i hi hlt)
    · exact merge_mergeOk (h.members t1 htwo.first) (h.members t2 htwo.second_mem)
  members := merge_members_lt t1 t2 h.members
  newest := by simp
  weight := (merge_weight htwo h.members).trans h.weight


/-- The one tree left weighs what the leaves do (R175). -/
theorem State.Merging.root_weight {s t : State} {m root : Nat} (h : s.Merging m t) (hpq : t.eng.pq = [root]) :
    (t.nodeAt root).freq = (s.present.map s.freqAt).sum := by
  simpa [hpq] using h.weight

/-- R169: the merges of `n ≥ 1` leaves end with one tree, the record 2n−2, the last one written. -/
theorem mergesEnd_spec {s : State} (h : s.present ≠ []) :
    ∃ t, s.mergesEnd = (t, 2 * s.present.length - 2 + 1) ∧ t.eng.pq = [2 * s.present.length - 2] ∧
      s.Merging (2 * s.present.length - 2 + 1) t := by
  have hpos := List.length_pos_of_ne_nil h
  have hlen : s.filled.eng.pq.length = s.present.length - 1 + 1 := by
    rw [filled_pq, List.length_range]
    omega
  obtain ⟨t, root, hrun, hpq, hmerging⟩ :=
    mergeLoop_induction (P := s.Merging) (fun _ _ _ _ => merging_merge) _ s.present.length s.present.length s.filled
      (Nat.sub_le _ 1) hlen (merging_filled h)
  rw [show s.present.length + (s.present.length - 1) = 2 * s.present.length - 2 + 1 by omega] at hrun hmerging
  obtain rfl : 2 * s.present.length - 2 = root := by simpa [hpq] using hmerging.newest
  exact ⟨t, hrun, hpq, hmerging⟩

/-! ### BUILD, R165 -/

section
variable {s : State}

theorem buildTree_none (h : s.present = []) : buildTree s = s.leafed.publish .empty 0 0 := by
  simp only [buildTree, makeLeaves_count, h, List.length_nil]
  rfl

theorem buildTree_one (h : s.present.length = 1) :
    buildTree s = (s.leafed.setNode 1 (s.leafed.nodeAt 0).onlyRoot).publish .tree 1 2 := by
  simp only [buildTree, makeLeaves_count, h]
  rfl

theorem buildTree_many (h : 2 ≤ s.present.length) {t : State} {root m : Nat} (hrun : s.mergesEnd = (t, m))
    (hpq : t.eng.pq = [root]) :
    buildTree s = ({ t with eng := { t.eng with pq := [] } } : State).publish .tree root m := by
  have hmany : buildTree s = buildMany s.present.length s.leafed := by
    obtain ⟨n, hn⟩ := Nat.exists_eq_add_of_le' h
    simp only [buildTree, makeLeaves_count, hn]
    rfl
  simp only [State.mergesEnd, State.filled] at hrun
  simp only [hmany, buildMany, hrun, pqExtractMin_single hpq]

end

theorem exec_build {s t : State} (h : buildTree s = t) : exec .build s = .next (t.complete []) := by
  rw [← h]
  rfl

@[simp] theorem complete_nil_nodeAt (s : State) (i : Nat) : (s.complete []).nodeAt i = s.nodeAt i := rfl

theorem present_cases (s : State) : s.present = [] ∨ (∃ c, s.present = [c]) ∨ 2 ≤ s.present.length := by
  match s.present with
  | [] => exact .inl rfl
  | [c] => exact .inr (.inl ⟨c, rfl⟩)
  | _ :: _ :: l => exact .inr (.inr (Nat.le_add_left 2 l.length))

/-- BUILD, begun in `s` with some symbol present, has ended in `t` with a tree whose root is the record `root`: the
leaves stand first, the root weighs what they do, and no record past it, nor the rest of the engine, is touched (R170). -/
structure State.BuildsTree (s : State) (root : Nat) (t : State) : Prop where
  eq : t = { s with eng := { s.eng with
    node := t.eng.node
    tk := .tree
    root := root
    ncnt := root + 1
    ctv := false
    pq := [] }.ended }
  leaf : ∀ i, (h : i < s.present.length) → t.nodeAt i = Node.leafOf s.present[i] (s.freqAt s.present[i])
  kept : ∀ i, root < i → t.nodeAt i = s.nodeAt i
  weight : (t.nodeAt root).freq = (s.present.map s.freqAt).sum

section
variable {s t : State} {root : Nat}

theorem State.BuildsTree.tk_eq (h : s.BuildsTree root t) : t.eng.tk = .tree := by
  rw [h.eq]
  rfl

theorem State.BuildsTree.root_eq (h : s.BuildsTree root t) : t.eng.root = root := by
  rw [h.eq]
  rfl

theorem State.BuildsTree.ncnt_eq (h : s.BuildsTree root t) : t.eng.ncnt = root + 1 := by
  rw [h.eq]
  rfl

/-- R168: the leaf, and the root that duplicates it. -/
theorem exec_build_one {c : Nat} (h : s.present = [c]) :
    ∃ t, exec .build s = .next t ∧ s.BuildsTree 1 t ∧ t.nodeAt 0 = Node.leafOf c (s.freqAt c) ∧
      t.nodeAt 1 = (Node.leafOf c (s.freqAt c)).onlyRoot := by
  have hlen : s.present.length = 1 := congrArg List.length h
  have hleaf : s.leafed.nodeAt 0 = Node.leafOf c (s.freqAt c) := by
    rw [leafed_leaf s (i := 0) (by omega)]
    simp only [h, List.getElem_cons_zero]
  have hbuild := buildTree_one hlen
  rw [hleaf] at hbuild
  refine ⟨_, exec_build hbuild, ⟨?_, fun i hi => ?_, fun i hi => ?_, ?_⟩, ?_, ?_⟩
  · rw [leafed_eq]
    rfl
  · rw [complete_nil_nodeAt, publish_nodeAt, nodeAt_setNode, if_neg (by omega), leafed_leaf s hi]
  · rw [complete_nil_nodeAt, publish_nodeAt, nodeAt_setNode, if_neg (by omega), leafed_above s (by omega)]
  · simp [h, Node.onlyRoot, Node.leafOf]
  · simp [hleaf]
  · simp

/-- R169: the records are those the merges leave, and the last of them is the root. -/
theorem exec_build_many (h : 2 ≤ s.present.length) :
    ∃ t, exec .build s = .next t ∧ s.BuildsTree (2 * s.present.length - 2) t ∧ t.eng.ncnt = s.mergesEnd.2 ∧
      (∀ i, t.nodeAt i = s.mergesEnd.1.nodeAt i) ∧
      ∀ i, s.present.length ≤ i → i < t.eng.ncnt → t.mergeOk i := by
  obtain ⟨t, hrun, hpq, hmerging⟩ := mergesEnd_spec (List.ne_nil_of_length_pos (Nat.zero_lt_of_lt h))
  refine ⟨_, exec_build (buildTree_many h hrun hpq), ⟨?_, fun i hi => ?_, fun i hi => ?_, ?_⟩, ?_, fun i => ?_,
    hmerging.merges⟩
  · rw [hmerging.eq]
    rfl
  · exact (hmerging.kept i (.inl hi)).trans (leafed_leaf s hi)
  · exact (hmerging.kept i (.inr hi)).trans (leafed_above s (by omega))
  · exact hmerging.root_weight hpq
  · rw [hrun]
    rfl
  · rw [hrun]
    rfl

theorem exec_build_tree (h : s.present ≠ []) : ∃ root t, exec .build s = .next t ∧ s.BuildsTree root t := by
  rcases present_cases s with hnone | ⟨c, hone⟩ | hmany
  · exact absurd hnone h
  · obtain ⟨t, hrun, htree, -⟩ := exec_build_one hone
    exact ⟨1, t, hrun, htree⟩
  · obtain ⟨t, hrun, htree, -⟩ := exec_build_many hmany
    exact ⟨_, t, hrun, htree⟩

end

/-! ### Two states with the same FREQ, R172 -/

/-- The states `s` and `u` have the same parameters and the same contents of FREQ. -/
structure State.SameFreq (s u : State) : Prop where
  params : s.params = u.params
  freq : ∀ c, c < s.params.nsym → s.freqAt c = u.freqAt c

section
variable {s u : State}

theorem State.SameFreq.present (h : s.SameFreq u) : s.present = u.present := by
  rw [State.present, State.present, ← h.params]
  exact List.filter_congr fun c hc => by rw [h.freq c (List.mem_range.1 hc)]

theorem State.SameFreq.freq_present (h : s.SameFreq u) {c : Nat} (hc : c ∈ s.present) : s.freqAt c = u.freqAt c :=
  h.freq c (List.mem_range.1 (List.mem_of_mem_filter hc))

theorem State.SameFreq.leafed (h : s.SameFreq u) {i : Nat} (hi : i < s.present.length) :
    s.leafed.nodeAt i = u.leafed.nodeAt i := by
  rw [leafed_leaf s hi, leafed_leaf u (h.present ▸ hi), h.freq_present (List.getElem_mem hi)]
  simp only [h.present]

theorem State.SameFreq.filled (h : s.SameFreq u) : s.filled.SameTrees u.filled s.present.length where
  params := by rw [filled_params, filled_params, h.params]
  pq := by rw [filled_pq, filled_pq, h.present]
  members i hi := by simpa using hi
  nodes i hi := by rw [filled_nodeAt, filled_nodeAt, h.leafed hi]

theorem State.SameFreq.mergesEnd (h : s.SameFreq u) : s.mergesEnd.1.SameTrees u.mergesEnd.1 s.mergesEnd.2 := by
  have := h.filled.mergeLoop s.present.length
  rwa [State.mergesEnd, State.mergesEnd, ← h.present]

end

/-! ### The statements -/

/-- Settles O28: the empty mapping by itself, and every other by the tree BUILD makes of it. -/
theorem buildEndsNormallyAndKeepsTheRest : Obligations.BuildEndsNormallyAndKeepsTheRest := by
  intro s
  by_cases h : s.present = []
  · refine ⟨_, exec_build (buildTree_none h), ?_, ?_, ?_, TreeKind.noConfusion, fun i _ => ?_⟩
    · exact leafed_params s
    · rw [leafed_eq]
      rfl
    · rw [leafed_eq]
      rfl
    · exact leafed_above s (by simp [h])
  · obtain ⟨root, t, hrun, htree⟩ := exec_build_tree h
    refine ⟨t, hrun, by rw [htree.eq], by rw [htree.eq], ?_, ?_, fun i hi => htree.kept i ?_⟩
    · rw [htree.eq]
      rfl
    · rw [htree.tk_eq]
      exact TreeKind.noConfusion
    · rwa [htree.ncnt_eq] at hi

/-- Settles O30: the single-symbol tree and its two records. -/
theorem buildOfOneSymbol : Obligations.BuildOfOneSymbol := by
  intro s c h
  obtain ⟨t, hrun, htree, hleaf, hroot⟩ := exec_build_one h
  exact ⟨t, hrun, htree.tk_eq, htree.root_eq, htree.ncnt_eq, hleaf, hroot⟩

/-- Settles O31: by the number of symbols; the leaves and the root by the tree BUILD makes, the merges by what every
merge keeps. -/
theorem buildNumbersLeavesThenMerges : Obligations.BuildNumbersLeavesThenMerges := by
  intro s
  rcases present_cases s with h | ⟨c, h⟩ | h
  · exact ⟨_, exec_build rfl, by simp [h], by simp [h], by simp [h]⟩
  · obtain ⟨t, hrun, htree, -⟩ := exec_build_one h
    exact ⟨t, hrun, htree.leaf, fun _ => ⟨htree.root_eq, htree.ncnt_eq⟩, by simp [h]⟩
  · obtain ⟨t, hrun, htree, -, -, hmerges⟩ := exec_build_many h
    have hncnt : t.eng.ncnt = 2 * s.present.length - 1 := htree.ncnt_eq.trans (by omega)
    exact ⟨t, hrun, htree.leaf, by omega, fun _ => ⟨htree.tk_eq, htree.root_eq, hncnt, hmerges⟩⟩

/-- Settles O33: the root weighs what the leaves do, which is all of FREQ; GETT reports the root's record. -/
theorem buildConservesFrequency : Obligations.BuildConservesFrequency := by
  intro s h
  obtain ⟨root, t, hrun, htree⟩ := exec_build_tree h
  have hweight : (t.nodeAt t.eng.root).freq = ((List.range s.params.nsym).map s.freqAt).sum := by
    rw [htree.root_eq, htree.weight, present_freq_sum]
  refine ⟨t, _, hrun, htree.tk_eq, hweight, exec_gett t, ?_⟩
  exact congrArg (BitVec.ofNat 64) ((rootFreq_tree htree.tk_eq).trans hweight)

/-- Settles O35: by the number of symbols; the records below NCNT are none, the same leaf and root, or those of the same
merges. -/
theorem buildDependsOnlyOnFreq : Obligations.BuildDependsOnlyOnFreq := by
  intro s u hparams hfreq
  have hsame : s.SameFreq u := ⟨hparams, hfreq⟩
  have hpresent := hsame.present
  rcases present_cases s with h | ⟨c, h⟩ | h
  · exact ⟨_, _, exec_build (buildTree_none h), exec_build (buildTree_none (hpresent ▸ h)), rfl, rfl, rfl,
      fun i hi => absurd hi (Nat.not_lt_zero i)⟩
  · obtain ⟨t, hrun, htree, hleaf, hroot⟩ := exec_build_one h
    obtain ⟨v, hrun', htree', hleaf', hroot'⟩ := exec_build_one (hpresent ▸ h)
    have hc : s.freqAt c = u.freqAt c := hsame.freq_present (h ▸ List.mem_singleton_self c)
    refine ⟨t, v, hrun, hrun', htree.tk_eq.trans htree'.tk_eq.symm, htree.root_eq.trans htree'.root_eq.symm,
      htree.ncnt_eq.trans htree'.ncnt_eq.symm, fun i hi => ?_⟩
    rw [htree.ncnt_eq] at hi
    interval_cases i
    · rw [hleaf, hleaf', hc]
    · rw [hroot, hroot', hc]
  · obtain ⟨t, hrun, htree, hncnt, hnodes, -⟩ := exec_build_many h
    obtain ⟨v, hrun', htree', -, hnodes', -⟩ := exec_build_many (hpresent ▸ h)
    rw [← hpresent] at htree'
    refine ⟨t, v, hrun, hrun', htree.tk_eq.trans htree'.tk_eq.symm, htree.root_eq.trans htree'.root_eq.symm,
      htree.ncnt_eq.trans htree'.ncnt_eq.symm, fun i hi => ?_⟩
    rw [hnodes, hnodes', hsame.mergesEnd.nodes i (hncnt ▸ hi)]

end Sys2Proof.Machine
end

section
/-!
EXTRACT as a whole (43_code_table_extractor.md R190): the walk of a subtree with stack and path buffer (R196) writes the
entries of the recursive walk (R191) in at most three iterations a node, and a built tree has NCNT nodes, so the walk of
the root ends within its bound. Every valid entry of the table is the path to a leaf (R197), which is why the code is
prefix free (R198).
-/
namespace Sys2Proof.Machine

/-! ### The children of a record -/

section
variable {n : Node}

@[simp] theorem mem_children {c : Nat} :
    c ∈ n.children ↔ (n.lp = true ∧ n.left = c) ∨ (n.rp = true ∧ n.right = c) := by
  cases hl : n.lp <;> cases hr : n.rp <;> simp [Node.children, hl, hr, eq_comm]

theorem left_mem_children (h : n.lp = true) : n.left ∈ n.children := mem_children.2 (.inl ⟨h, rfl⟩)

theorem right_mem_children (h : n.rp = true) : n.right ∈ n.children := mem_children.2 (.inr ⟨h, rfl⟩)

theorem sum_map_children (n : Node) (f : Nat → Nat) :
    (n.children.map f).sum = (if n.lp then f n.left else 0) + (if n.rp then f n.right else 0) := by
  cases hl : n.lp <;> cases hr : n.rp <;> simp [Node.children, hl, hr]

end

theorem children_eq_nil_of_isLeaf {n : Node} (h : n.isLeaf = true) : n.children = [] := by
  obtain ⟨hl, hr⟩ := (isLeaf_iff n).1 h
  simp [Node.children, hl, hr]

/-- R173: a child's index is below its parent's, in the single-symbol tree too. -/
theorem State.treeOk.child_lt {s : State} (h : s.treeOk) {i c : Nat} (hi : i < s.eng.ncnt)
    (hc : c ∈ (s.nodeAt i).children) : c < i := by
  obtain ⟨-, -, -, ⟨hncnt, honly, hl, hr, -⟩ | hrecords, -⟩ := h
  · rw [hncnt] at hi
    interval_cases i
    · simp [hl, hr] at hc
    · simp [honly, Node.onlyRoot] at hc
      omega
  · rcases hrecords i hi with ⟨hl, hr, -⟩ | ⟨-, -, hleft, hright, -⟩
    · simp [hl, hr] at hc
    · rcases mem_children.1 hc with ⟨-, rfl⟩ | ⟨-, rfl⟩
      · exact hleft
      · exact hright

/-! ### The number of nodes the walk visits -/

/-- The nodes `walk(i, p)` visits, descending at most `depth` levels. -/
def State.visits (s : State) : Nat → Nat → Nat
  | 0, _ => 0
  | depth + 1, i => 1 + ((s.nodeAt i).children.map (s.visits depth)).sum

theorem visits_le_succ (s : State) (depth i : Nat) : s.visits depth i ≤ s.visits (depth + 1) i := by
  induction depth generalizing i with
  | zero => exact Nat.zero_le _
  | succ depth ih => exact Nat.add_le_add_left (List.sum_le_sum fun c _ => ih c) 1

/-- Every index but the root is one record's child (R31), so what is below all the records together is what all the
records but the root have: the root has one visit for every record. -/
theorem visits_root_le {s : State} (h : s.treeOk) (depth : Nat) : s.visits (depth + 1) s.eng.root ≤ s.eng.ncnt := by
  obtain ⟨hroot, -, -, -, hchildren, -⟩ := h
  have hbelow : ((List.range s.eng.ncnt).map (s.visits (depth + 1))).sum =
      s.eng.ncnt + ((List.range s.eng.root).map (s.visits depth)).sum := by
    rw [← (hchildren.map (s.visits depth)).sum_eq, List.map_flatMap, List.flatMap, List.sum_flatten, List.map_map]
    simp only [State.visits, List.sum_map_add]
    simp [Function.comp_def]
  have hmono : ((List.range s.eng.root).map (s.visits depth)).sum ≤
      ((List.range s.eng.root).map (s.visits (depth + 1))).sum :=
    List.sum_le_sum fun i _ => visits_le_succ s depth i
  have hsplit : ((List.range s.eng.ncnt).map (s.visits (depth + 1))).sum =
      ((List.range s.eng.root).map (s.visits (depth + 1))).sum + s.visits (depth + 1) s.eng.root := by
    rw [← hroot, List.range_succ]
    simp
  omega

/-! ### Runs of the walk -/

/-- At most `n` iterations of the walk lead from `s` to `t`. -/
def State.WalksIn (s : State) (n : Nat) (t : State) : Prop := ∃ k ≤ n, walkStep^[k] s = t

section
variable {s t u : State} {m n : Nat}

theorem State.WalksIn.step (h : walkStep s = t) : s.WalksIn 1 t := ⟨1, le_rfl, h⟩

theorem State.WalksIn.trans (h : s.WalksIn m t) (h' : t.WalksIn n u) : s.WalksIn (m + n) u := by
  obtain ⟨j, hj, rfl⟩ := h
  obtain ⟨k, hk, rfl⟩ := h'
  exact ⟨k + j, by omega, Function.iterate_add_apply walkStep k j s⟩

theorem State.WalksIn.mono (h : s.WalksIn m t) (hmn : m ≤ n) : s.WalksIn n t := by
  obtain ⟨k, hk, hrun⟩ := h
  exact ⟨k, hk.trans hmn, hrun⟩

/-- The loop answers the first state with WSTK empty. -/
theorem State.WalksIn.walkLoop (h : s.WalksIn n t) (ht : t.eng.wstk = []) : walkLoop n s = some t := by
  obtain ⟨k, hk, rfl⟩ := h
  induction k generalizing n s with
  | zero => exact walkLoop_done ht
  | succ k ih =>
    obtain ⟨n, rfl⟩ := Nat.exists_eq_add_one.2 (Nat.zero_lt_of_lt hk)
    rw [Function.iterate_succ_apply] at ht ⊢
    by_cases hw : s.eng.wstk = []
    · have hstay : walkStep s = s := by simp only [walkStep, hw]
      have hfix : walkStep^[k] (walkStep s) = s := by rw [hstay, Function.iterate_fixed hstay]
      rw [hfix]
      exact walkLoop_done hw
    · rw [walkLoop_step hw]
      exact ih (Nat.le_of_succ_le_succ hk) ht

end

/-! ### The walk of a subtree -/

/-- The table `t` after these entries have been written over it, in order. -/
def writeEntries (t : Table CodeEntry) (es : List (Nat × List Bool)) : Table CodeEntry :=
  es.foldl (fun t e => writeCell CodeEntry.zero t e.1 { valid := true, path := e.2 }) t

theorem writeEntries_singleton (t : Table CodeEntry) (e : Nat × List Bool) :
    writeEntries t [e] = writeCell CodeEntry.zero t e.1 { valid := true, path := e.2 } := rfl

theorem writeEntries_append (t : Table CodeEntry) (es fs : List (Nat × List Bool)) :
    writeEntries t (es ++ fs) = writeEntries (writeEntries t es) fs := List.foldl_append

theorem tableOfEntries_eq (es : List (Nat × List Bool)) : tableOfEntries es = writeEntries [] es := rfl

/-- The state `s` within EXTRACT's walk, with these CODE, WSTK and PATH. -/
def State.walking (s : State) (t : Table CodeEntry) (w : List Frame) (p : List Bool) : State :=
  { s with eng := { s.eng with code := t, wstk := w, path := p } }

section
variable {s : State} {i : Nat} (t : Table CodeEntry) (below : List Frame) (p : List Bool)

theorem walking_leaf (h : (s.nodeAt i).isLeaf = true) :
    walkStep (s.walking t (Frame.enter i :: below) p) =
      s.walking (writeEntries t [((s.nodeAt i).ch, p)]) ({ node := i, phase := .ph2 } :: below) p :=
  walkStep_leaf rfl h

theorem walking_left (h : (s.nodeAt i).isLeaf = false) :
    walkStep (s.walking t (Frame.enter i :: below) p) =
      if (s.nodeAt i).lp then
        s.walking t (Frame.enter (s.nodeAt i).left :: { node := i, phase := .ph1 } :: below) (p ++ [false])
      else s.walking t ({ node := i, phase := .ph1 } :: below) p := by
  split
  case isTrue hp => exact walkStep_left rfl hp
  case isFalse hp => exact walkStep_noLeft rfl h (Bool.eq_false_iff.2 hp)

theorem walking_right :
    walkStep (s.walking t ({ node := i, phase := .ph1 } :: below) p) =
      if (s.nodeAt i).rp then
        s.walking t (Frame.enter (s.nodeAt i).right :: { node := i, phase := .ph2 } :: below) (p ++ [true])
      else s.walking t ({ node := i, phase := .ph2 } :: below) p := by
  split
  case isTrue hp => exact walkStep_right rfl hp
  case isFalse hp => exact walkStep_noRight rfl (Bool.eq_false_iff.2 hp)

/-- The root, which has nothing below it, was entered with PATH empty, so dropping its last bit changes nothing. -/
theorem walking_leave (hp : below = [] → p = []) :
    walkStep (s.walking t ({ node := i, phase := .ph2 } :: below) p) = s.walking t below p.dropLast := by
  cases below with
  | nil =>
    obtain rfl := hp rfl
    exact walkStep_leaveRoot rfl
  | cons f fs => exact walkStep_leave rfl

end

/-- The run of the walk from one phase of a node to the next: through the subtree of the child `c`, when there is
one. -/
theorem walksIn_child {s x : State} {present : Bool} {c n : Nat} {b : Bool} {f : Frame} {below : List Frame}
    {t : Table CodeEntry} {p : List Bool} {es : List (Nat × List Bool)}
    (hstep : walkStep x = if present then s.walking t (Frame.enter c :: f :: below) (p ++ [b])
      else s.walking t (f :: below) p)
    (hchild : present = true → (s.walking t (Frame.enter c :: f :: below) (p ++ [b])).WalksIn n
      (s.walking (writeEntries t es) (f :: below) (p ++ [b]).dropLast)) :
    x.WalksIn (1 + if present then n else 0)
      (s.walking (writeEntries t (if present then es else [])) (f :: below) p) := by
  cases present with
  | false => exact .step hstep
  | true =>
    have hrun := hchild rfl
    rw [List.dropLast_concat] at hrun
    exact (State.WalksIn.step hstep).trans hrun

/-- R191, R196: from a node entered to the node left, the engine's walk writes the entries of the recursive one. -/
theorem walksIn_subtree {s : State} (hs : s.treeOk) (depth : Nat) {i : Nat} (hdepth : i < depth)
    (hi : i < s.eng.ncnt) (t : Table CodeEntry) (below : List Frame) (p : List Bool) (hp : below = [] → p = []) :
    (s.walking t (Frame.enter i :: below) p).WalksIn (3 * s.visits depth i)
      (s.walking (writeEntries t (s.walkEntries depth i p)) below p.dropLast) := by
  induction depth generalizing i t below p with
  | zero => exact absurd hdepth (Nat.not_lt_zero i)
  | succ depth ih =>
    by_cases hleaf : (s.nodeAt i).isLeaf = true
    · rw [walkEntries_leaf depth p hleaf, State.visits, children_eq_nil_of_isLeaf hleaf]
      exact ((State.WalksIn.step (walking_leaf t below p hleaf)).trans (.step (walking_leave _ below p hp))).mono
        (by simp)
    · have hnode := Bool.eq_false_iff.2 hleaf
      have hchild : ∀ c ∈ (s.nodeAt i).children, ∀ t f b,
          (s.walking t (Frame.enter c :: f :: below) (p ++ [b])).WalksIn (3 * s.visits depth c)
            (s.walking (writeEntries t (s.walkEntries depth c (p ++ [b]))) (f :: below) (p ++ [b]).dropLast) := by
        intro c hc t f b
        have hlt := hs.child_lt hi hc
        exact ih (by omega) (by omega) t (f :: below) _ (fun h => absurd h (List.cons_ne_nil f below))
      have hleft := walksIn_child (walking_left t below p hnode)
        fun h => hchild _ (left_mem_children h) t { node := i, phase := .ph1 } false
      have hright := fun t => walksIn_child (walking_right t below p)
        fun h => hchild _ (right_mem_children h) t { node := i, phase := .ph2 } true
      rw [walkEntries_node depth p hnode, writeEntries_append, State.visits, sum_map_children]
      refine ((hleft.trans (hright _)).trans (.step (walking_leave _ below p hp))).mono ?_
      split <;> split <;> omega

/-! ### EXTRACT, R190 -/

section
variable {s : State}

theorem exec_extract_some (h : s.eng.tk ≠ .none) : exec .extract s = extractTable s := withTree_some _ h

theorem exec_extract_empty (h : s.eng.tk = .empty) : exec .extract s = .next (extractDone s.clearCode) := by
  rw [exec_extract_some (by simp [h])]
  simp [extractTable, h]

theorem exec_extract_tree (h : s.eng.tk = .tree) {u : State}
    (hwalk : walkLoop (Params.walkFuel s.params) (s.walking [] [Frame.enter s.eng.root] []) = some u) :
    exec .extract s = .next (extractDone u) := by
  have hstart : s.clearCode.setWalk [Frame.enter s.eng.root] [] = s.walking [] [Frame.enter s.eng.root] [] := rfl
  rw [exec_extract_some (by simp [h])]
  simp [extractTable, h, hstart, hwalk]

/-- Three iterations a node, for as many nodes as NODE has, are within the loop's bound. -/
theorem walkLoop_root (h : s.treeOk) :
    walkLoop (Params.walkFuel s.params) (s.walking [] [Frame.enter s.eng.root] []) =
      some (s.walking s.walkTable [] []) := by
  have ⟨hroot, hsize, _⟩ := h
  have hvisits := visits_root_le h s.eng.root
  have hwalk := walksIn_subtree h (s.eng.root + 1) (Nat.lt_succ_self _) (by omega) [] [] [] fun _ => rfl
  exact (hwalk.mono (by simp only [Params.walkFuel]; omega)).walkLoop rfl

end

/-- Settles O36: the walk of the root, which the loop's bound lets end. -/
theorem extractWritesTheRecursiveWalk : Obligations.ExtractWritesTheRecursiveWalk :=
  fun _ htk h => exec_extract_tree htk (walkLoop_root h)

/-- Settles O37: with the empty tree the body only invalidates CODE. -/
theorem extractOfTheEmptyTree : Obligations.ExtractOfTheEmptyTree := fun _ htk => exec_extract_empty htk

/-! ### The paths of the table, R197, R198 -/

/-- An entry read from the table is what stood there, or one that was written. -/
theorem readCell_writeEntries (t : Table CodeEntry) (es : List (Nat × List Bool)) (c : Nat) :
    readCell CodeEntry.zero (writeEntries t es) c = readCell CodeEntry.zero t c ∨
      ∃ p, (c, p) ∈ es ∧ readCell CodeEntry.zero (writeEntries t es) c = { valid := true, path := p } := by
  induction es using List.reverseRecOn with
  | nil => exact .inl rfl
  | append_singleton es e ih =>
    obtain ⟨d, p⟩ := e
    have hread : readCell CodeEntry.zero (writeEntries t (es ++ [(d, p)])) c =
        if c = d then { valid := true, path := p } else readCell CodeEntry.zero (writeEntries t es) c := by
      rw [writeEntries_append, writeEntries_singleton, readCell_writeCell]
    by_cases hcd : c = d
    · exact .inr ⟨p, by simp [hcd], by rw [hread, if_pos hcd]⟩
    · rw [hread, if_neg hcd]
      exact ih.imp_right fun ⟨q, hq, hvalid⟩ => ⟨q, List.mem_append_left _ hq, hvalid⟩

theorem mem_of_valid_tableOfEntries {es : List (Nat × List Bool)} {c : Nat}
    (h : (readCell CodeEntry.zero (tableOfEntries es) c).valid = true) :
    (c, (readCell CodeEntry.zero (tableOfEntries es) c).path) ∈ es := by
  rw [tableOfEntries_eq] at h ⊢
  rcases readCell_writeEntries [] es c with hnone | ⟨p, hmem, hread⟩
  · rw [hnone] at h
    exact absurd h Bool.false_ne_true
  · rwa [hread]

theorem mem_walkEntries_node {s : State} {depth i c : Nat} {p q : List Bool} (hnode : (s.nodeAt i).isLeaf = false)
    (h : (c, q) ∈ s.walkEntries (depth + 1) i p) :
    ∃ b, ((s.nodeAt i).child b).1 = true ∧ (c, q) ∈ s.walkEntries depth ((s.nodeAt i).child b).2 (p ++ [b]) := by
  rw [walkEntries_node depth p hnode, List.mem_append] at h
  rcases h with h | h
  · exact ⟨false, List.mem_ite_nil_right.1 h⟩
  · exact ⟨true, List.mem_ite_nil_right.1 h⟩

/-- The walk has come to the node `i` by `p`, and each entry's path goes on from there to the leaf whose symbol it
names. -/
theorem follow_of_mem_walkEntries {s : State} {depth i c : Nat} {p q : List Bool}
    (h : (c, q) ∈ s.walkEntries depth i p) :
    ∃ r j, q = p ++ r ∧ s.follow i r = some j ∧ (s.nodeAt j).isLeaf = true ∧ (s.nodeAt j).ch = c := by
  induction depth generalizing i p with
  | zero => exact absurd h List.not_mem_nil
  | succ depth ih =>
    by_cases hleaf : (s.nodeAt i).isLeaf = true
    · rw [walkEntries_leaf depth p hleaf, List.mem_singleton] at h
      cases h
      exact ⟨[], i, by simp, rfl, hleaf, rfl⟩
    · obtain ⟨b, hpresent, hmem⟩ := mem_walkEntries_node (Bool.eq_false_iff.2 hleaf) h
      obtain ⟨r, j, rfl, hfollow, hj⟩ := ih hmem
      exact ⟨b :: r, j, List.append_assoc p [b] r, by rwa [State.follow, if_pos hpresent], hj⟩

/-- R197: the path of a valid entry of the walk's table leads from the root to a leaf with the entry's symbol. -/
theorem follow_path_of_walkTable {s t : State} (ht : t.eng.code = s.walkTable) {c : Nat}
    (h : (t.codeAt c).valid = true) :
    ∃ j, s.follow s.eng.root (t.codeAt c).path = some j ∧ (s.nodeAt j).isLeaf = true ∧ (s.nodeAt j).ch = c := by
  rw [State.codeAt, ht] at h ⊢
  obtain ⟨r, j, hpath, hj⟩ := follow_of_mem_walkEntries (mem_of_valid_tableOfEntries h)
  rw [State.walkTable, hpath]
  exact ⟨j, hj⟩

/-- A path that extends one to a leaf and leads somewhere is that path. -/
theorem follow_leaf_prefix {s : State} {i j k : Nat} {p q : List Bool} (hp : s.follow i p = some j)
    (hleaf : (s.nodeAt j).isLeaf = true) (hq : s.follow i q = some k) (hpq : p <+: q) : j = k := by
  obtain ⟨r, rfl⟩ := hpq
  rw [follow_append, hp, Option.bind_some] at hq
  cases r with
  | nil => exact Option.some.inj hq
  | cons b r => exact absurd ((follow_leaf hleaf b r).symm.trans hq) (Option.some_ne_none k).symm

/-- R198: of two valid entries, the leaf of one would be the leaf of the other. -/
theorem walkTable_prefixFree {s t : State} (ht : t.eng.code = s.walkTable) {c d : Nat}
    (hc : (t.codeAt c).valid = true) (hd : (t.codeAt d).valid = true)
    (hprefix : (t.codeAt c).path <+: (t.codeAt d).path) : c = d := by
  obtain ⟨j, hj, hleaf, rfl⟩ := follow_path_of_walkTable ht hc
  obtain ⟨k, hk, -, rfl⟩ := follow_path_of_walkTable ht hd
  rw [follow_leaf_prefix hj hleaf hk hprefix]

/-- Settles O39: the empty tree leaves no valid entry, and of a tree the table is that of the recursive walk. -/
theorem extractedCodeIsPrefixFree : Obligations.ExtractedCodeIsPrefixFree := by
  intro s htk htree
  cases hkind : s.eng.tk with
  | none => exact absurd hkind htk
  | empty =>
    exact ⟨_, extractOfTheEmptyTree s hkind, fun _ _ _ hvalid => absurd hvalid Bool.false_ne_true⟩
  | tree =>
    have hok : s.treeOk := by rwa [State.TreeInv, hkind] at htree
    exact ⟨_, extractWritesTheRecursiveWalk s hkind hok,
      fun _ _ hne hc hd hprefix => hne (walkTable_prefixFree rfl hc hd hprefix)⟩

end Sys2Proof.Machine
end

section
/-!
The end of ENCODE by a fault (44_encoder.md R215, R221, R224): the run up to the item that ends it, counted from the start
of the command, then the flush of the partial byte, the release, the close and the fault.
-/
namespace Sys2Proof.Machine

/-! ### From the start of the command -/

namespace State.Encodes
variable {s t : State} {tr : List Obs} {bits : List Bool} {n : Nat}

theorem eng_of_open (h : (encodeOpen s).Encodes t tr bits n) : t.eng =
    { s.eng with
      acc := t.eng.acc
      nacc := t.eng.nacc
      nb := BitVec.ofNat 64 bits.length
      nby := BitVec.ofNat 64 (bytesPut tr).length
      ns := BitVec.ofNat 64 n
      siOpen := true
      boOpen := true
      point := t.eng.point } := by
  rw [h.eng, encodeOpen_eng]
  simp

theorem packed_of_open (h : (encodeOpen s).Encodes t tr bits n) :
    streamBits (bytesPut tr) ++ t.eng.heldBits = bits := by
  rw [h.packed, (encodeOpen_packs_nil s).heldBits_eq, List.nil_append]

/-- R218, R219: every eight bits are a byte put, and the packer holds the others. -/
theorem counts_of_open (h : (encodeOpen s).Encodes t tr bits n) :
    (bytesPut tr).length = bits.length / 8 ∧ t.eng.nacc.toNat = bits.length % 8 := by
  have hlength : 0 + bits.length = 8 * (bytesPut tr).length + t.eng.nacc.toNat := h.bits_length
  have hnacc : t.eng.nacc.toNat < 8 := t.eng.nacc.isLt
  omega

end State.Encodes

/-- R212 to R219: ENCODE, begun on a session that starts with symbols in the table, comes to the `get` after them. -/
theorem exec_encode_encodes {s : State} {cs : List Nat} {rest : List (Item Nat)} {more : List Answer}
    {bits : List Bool} (hctv : s.eng.ctv = true) (hsi : s.env.si.now = cs.map .data ++ rest)
    (hcs : ∀ c ∈ cs, c < s.params.nsym ∧ (s.codeAt c).valid = true)
    (hbits : bits = cs.flatMap fun c => (s.codeAt c).path) (hlen : bits.length < 2 ^ 64)
    (hbo : s.env.bo.now = List.replicate (bits.length / 8) .ok ++ more) :
    ∃ t tr, exec .encode s = .next t.settle ∧ (encodeOpen s).Encodes t tr bits cs.length ∧
      t.eng.point = .encGet ∧ takenSi tr = cs.map .data ∧ t.env.si.now = rest ∧ t.env.bo.now = more := by
  have hnb0 : (encodeOpen s).eng.nb.toNat = 0 := rfl
  have hnacc0 : (encodeOpen s).eng.nacc.toNat = 0 := rfl
  have hcodes : (cs.flatMap fun c => ((encodeOpen s).codeAt c).path) = bits := hbits.symm
  obtain ⟨t, tr, hrun, h⟩ := settle_encodes cs rest (encodeOpen s) _ more rfl (encodeOpen_packs_nil s).accClean hsi hcs
    (by rw [hcodes, hnb0, Nat.zero_add]; exact hlen) hbo (by rw [hcodes, hnacc0, Nat.zero_add])
  rw [hcodes] at h
  exact ⟨t, tr, by rw [exec_encode, withCodeTable_some _ hctv, hrun], h⟩

/-! ### The end by a fault -/

/-- R227, R228: SI released, BO closed, the fault raised. -/
def State.encodeFaulted (s : State) (e : ErrCode) (info : Word) : State :=
  encodeFinish (.fault e info) (encodeClose (.fault e info) (encodeRelease (.fault e info) s))

section
variable (s : State) (e : ErrCode) (info : Word)

theorem encodeFinish_fault : encodeFinish (.fault e info) s = s.raiseFault e info := rfl

@[simp] theorem encodeFaulted_params : (s.encodeFaulted e info).params = s.params := by
  simp [State.encodeFaulted, encodeFinish_fault, encodeClose, encodeRelease]

@[simp] theorem encodeFaulted_eng : (s.encodeFaulted e info).eng =
    { s.eng with siOpen := false, boOpen := false }.faulted e info := by
  simp [State.encodeFaulted, encodeFinish_fault, encodeClose, encodeRelease, Engine.faulted]

@[simp] theorem encodeFaulted_env : (s.encodeFaulted e info).env =
    { s.env with
      si := s.env.si.endSession
      bo := s.env.bo.endSession
      trace := s.env.trace ++ [.release .si] ++ [.close .bo] } := by
  simp [State.encodeFaulted, encodeFinish_fault, encodeClose, encodeRelease]

end

/-! ### The flush of an abort -/

/-- What crosses the boundary when an abort's flush is answered by `a` (R224). -/
def Engine.flushTrace (e : Engine) (a : Answer) : List Obs := e.partialByte.map fun v => .putBo v a

@[simp] theorem takenSi_flushTrace (e : Engine) (a : Answer) : takenSi (e.flushTrace a) = [] := by
  simp [takenSi, Engine.flushTrace, List.filterMap_map]

@[simp] theorem putsBo_flushTrace (e : Engine) (a : Answer) :
    putsBo (e.flushTrace a) = e.partialByte.map fun v => (v, a) := by
  simp [putsBo, Engine.flushTrace, List.filterMap_map]

/-- The answers a flush leaves are those behind the one it uses, if it uses one. -/
theorem replicate_partialByte (e : Engine) (a : Answer) (l : List Answer) :
    List.replicate e.partialByte.length a ++ l = if e.nacc.toNat = 0 then l else a :: l := by
  have hzero : e.nacc.toNat = 0 ↔ e.nacc = 0 := BitVec.toNat_inj (y := 0)
  by_cases h0 : e.nacc = 0
  · rw [partialByte_aligned h0, if_pos (hzero.2 h0)]
    rfl
  · rw [partialByte_pending h0, if_neg (mt hzero.1 h0)]
    rfl

/-- R224: an abort puts the partial byte, if there is one, and ends the command whatever the answer. -/
theorem settle_encodeAbort {s : State} (e : ErrCode) (info : Word) {a : Answer} {more : List Answer}
    (hclean : s.eng.accClean) (hbo : s.env.bo.now = List.replicate s.eng.partialByte.length a ++ more) :
    ∃ t : State, (encodeAbort e info s).settle = t.encodeFaulted e info ∧ t.params = s.params ∧
      t.eng = { s.eng with acc := 0, nacc := 0, point := .encRelease (.fault e info) } ∧
      t.env = { s.env with
        bo := { s.env.bo with now := more }
        trace := s.env.trace ++ s.eng.flushTrace a } := by
  unfold Engine.flushTrace
  by_cases h0 : s.eng.nacc = 0
  · rw [partialByte_aligned h0] at hbo ⊢
    have hheld : s.eng.heldBits = [] := List.eq_nil_of_length_eq_zero (by rw [heldBits_length, h0]; rfl)
    have hacc : s.eng.acc = 0 := packs_nil_acc (hheld ▸ packs_heldBits hclean)
    refine ⟨s.goTo (.encRelease (.fault e info)), ?_, rfl, ?_, ?_⟩
    · rw [encodeAbort_aligned e info h0]
      exact settle_encodeRelease rfl
    · simp [← hacc, ← h0]
    · subst hbo
      simp
  · rw [partialByte_pending h0] at hbo ⊢
    obtain ⟨v, hput⟩ : ∃ v, (s.goTo (.encAbort e info)).putBo s.eng.acc = some (a, v) := ⟨_, putBo_answered _ hbo⟩
    obtain ⟨hnow, hparams, heng, henv⟩ := putBo_some hput
    have hmore : v.env.bo.now = more := (List.cons.inj (hnow.symm.trans hbo)).2
    refine ⟨v.clearAcc.goTo (.encRelease (.fault e info)), ?_, hparams, ?_, ?_⟩
    · rw [encodeAbort_flush e info h0,
        settle_step ((microStep_encAbort rfl).trans (encodeAbortPut_answered e info hput))]
      exact settle_encodeRelease rfl
    · rw [goTo_eng, clearAcc_eng, heng]
      rfl
    · rw [goTo_env, clearAcc_env, henv, hmore]
      rfl

/-- R215, R221, R224: the run over a session whose item after `cs` makes ENCODE abort. -/
theorem exec_encode_aborts {s : State} {cs : List Nat} {raw : Item Nat} {unread : List (Item Nat)} {a : Answer}
    {more : List Answer} {bits : List Bool} {e : ErrCode} {info : Word} (hctv : s.eng.ctv = true)
    (hsi : s.env.si.now = cs.map .data ++ raw :: unread)
    (hcs : ∀ c ∈ cs, c < s.params.nsym ∧ (s.codeAt c).valid = true)
    (hbits : bits = cs.flatMap fun c => (s.codeAt c).path) (hlen : bits.length < 2 ^ 64)
    (hbo : s.env.bo.now = List.replicate (bits.length / 8) .ok ++ if bits.length % 8 = 0 then more else a :: more)
    (htake : ∀ t, t.params = s.params → t.eng.code = s.eng.code →
      encodeTake raw unread t = encodeAbort e info (t.tookSi raw unread)) :
    ∃ t tr, exec .encode s = .next t ∧ t.params = s.params ∧
      t.env = { s.env with
        si := s.env.si.endSession
        bo := s.env.bo.endSession
        trace := s.env.trace ++ tr ++ [.release .si, .close .bo] } ∧
      t.eng = { s.eng with
        acc := 0
        nacc := 0
        nb := BitVec.ofNat 64 bits.length
        nby := BitVec.ofNat 64 (bits.length / 8)
        ns := BitVec.ofNat 64 cs.length
        siOpen := false
        boOpen := false }.faulted e info ∧
      takenSi tr = cs.map .data ++ [raw] ∧ Carries ((putsBo tr).map Prod.fst) bits ∧
      (putsBo tr).map Prod.snd =
        List.replicate (bits.length / 8) .ok ++ if bits.length % 8 = 0 then [] else [a] := by
  obtain ⟨t, tr, hrun, henc, hpoint, htook, hsi1, hbo1⟩ := exec_encode_encodes hctv hsi hcs hbits hlen hbo
  obtain ⟨hbytes, hnacc⟩ := henc.counts_of_open
  have hflush (l : List Answer) : (if bits.length % 8 = 0 then l else a :: l) =
      List.replicate t.eng.partialByte.length a ++ l := by
    rw [replicate_partialByte, hnacc]
  rw [hflush] at hbo1
  obtain ⟨u, hend, hparams, heng, henv⟩ := settle_encodeAbort (s := t.tookSi raw unread) e info henc.clean hbo1
  have hsettle : t.settle = u.encodeFaulted e info := by
    rw [settle_step ((microStep_encGet hpoint).trans (encodeGet_takes hsi1)),
      htake t henc.params (by rw [henc.eng_of_open]), hend]
  have hputs : putsBo (tr ++ .tookSi raw :: t.eng.flushTrace a) =
      (bytesPut tr).map (fun v => (v, .ok)) ++ t.eng.partialByte.map fun v => (v, a) := by
    rw [putsBo_append, henc.allTaken, ← putsBo_flushTrace]
    rfl
  refine ⟨u.encodeFaulted e info, tr ++ .tookSi raw :: t.eng.flushTrace a, by rw [hrun, hsettle],
    ?_, ?_, ?_, ?_, ?_, ?_⟩
  · rw [encodeFaulted_params, hparams, tookSi_params, henc.params, encodeOpen_params]
  · rw [encodeFaulted_env, henv, tookSi_env, tookSi_eng, henc.env, encodeOpen_env]
    simp
  · rw [encodeFaulted_eng, heng, tookSi_eng, henc.eng_of_open, hbytes]
    rfl
  · rw [takenSi_append, htook, ← List.singleton_append, takenSi_append, takenSi_flushTrace]
    rfl
  · simpa [hputs, Function.comp_def] using carries_partialByte henc.clean henc.packed_of_open
  · rw [hputs, hflush []]
    simp [Function.comp_def, hbytes]

/-- Settles O42: an ERR item and a symbol with no entry are the two items on which ENCODE aborts. -/
theorem encodeAbortFlushesThePartialByte : Obligations.EncodeAbortFlushesThePartialByte := by
  intro s cs last unread a more bits hctv hsi hcs hlast hbits hlen hbo
  rcases hlast with rfl | ⟨c, rfl, hc, hmiss⟩
  · exact exec_encode_aborts hctv hsi hcs hbits hlen hbo fun t _ _ => encodeTake_err unread t
  · refine exec_encode_aborts hctv hsi hcs hbits hlen hbo fun t hparams hcode => encodeTake_miss unread ?_ ?_
    · rw [hparams]
      exact hc
    · rw [codeAt_congr hcode, hmiss]

end Sys2Proof.Machine
end

section
/-!
ENCODE up to the put of one byte of its code bits (44_encoder.md R218, R219, R225), a full byte inside the session or
the final partial one, and the end when the sink fails that put (R220).
-/
namespace Sys2Proof.Machine

/-! ### One byte among the code bits -/

theorem carries_streamBits (bytes : List Byte) : Carries bytes (streamBits bytes) := by
  constructor
  · rw [streamBits_length]
    omega
  · simp [streamBits_length]

/-- The packer's bits, put before they fill a byte, are carried by that byte alone. -/
theorem carries_pending {e : Engine} (hclean : e.accClean) (h : e.nacc ≠ 0) : Carries [e.acc] e.heldBits := by
  have hcarries := carries_partialByte (bytes := []) hclean rfl
  rwa [partialByte_pending h, List.nil_append] at hcarries

/-- The element at a position of a `flatMap` lies in the image of one element, behind those before it. -/
theorem exists_flatMap_split {α β : Type} (f : α → List β) (l : List α) {k : Nat} (hk : k < (l.flatMap f).length) :
    ∃ before a after pre b post, l = before ++ a :: after ∧ f a = pre ++ b :: post ∧
      (before.flatMap f ++ pre).length = k := by
  induction l generalizing k with
  | nil => exact absurd hk (Nat.not_lt_zero k)
  | cons a l ih =>
    rw [List.flatMap_cons, List.length_append] at hk
    rcases Nat.lt_or_ge k (f a).length with hin | hout
    · refine ⟨[], a, l, (f a).take k, (f a)[k], (f a).drop (k + 1), rfl, ?_, ?_⟩
      · rw [← List.drop_eq_getElem_cons hin, List.take_append_drop]
      · simpa using hin.le
    · obtain ⟨before, a', after, pre, b, post, rfl, hfa, hlen⟩ := ih (k := k - (f a).length) (by omega)
      refine ⟨a :: before, a', after, pre, b, post, rfl, hfa, ?_⟩
      rw [List.flatMap_cons, List.append_assoc, List.length_append, hlen]
      omega

/-! ### Up to a put -/

/-- ENCODE, begun in `s` over the code bits `bits`, has in `u` counted `n` symbols and crossed the boundary by `tr`; it has
put bytes `0` to `j - 1`, all taken, and is to put byte `j`. -/
structure State.ReachesPut (s u : State) (tr : List Obs) (bits : List Bool) (j n : Nat) : Prop where
  run : exec .encode s = .next u.settle
  point : u.eng.point = .encFlush ∨ ∃ rest, u.eng.point = .encPut rest
  params : u.params = s.params
  eng : u.eng = { s.eng with
    acc := u.eng.acc
    nacc := u.eng.nacc
    nb := BitVec.ofNat 64 (min (8 * j + 8) bits.length)
    nby := BitVec.ofNat 64 j
    ns := BitVec.ofNat 64 n
    siOpen := true
    boOpen := true
    point := u.eng.point }
  env : u.env = { s.env with
    si := { s.env.si with now := u.env.si.now }
    bo := { s.env.bo with now := u.env.bo.now }
    trace := s.env.trace ++ tr }
  allTaken : putsBo tr = (bytesPut tr).map fun v => (v, .ok)
  put : Carries (bytesPut tr) (bits.take (8 * j))
  offered : Carries [u.eng.acc] ((bits.drop (8 * j)).take 8)

/-- R214, R216: a run over a data item and the first bits of its symbol's code. -/
theorem settle_encodeInto {s : State} {c : Nat} {rest : List (Item Nat)} {pre post : List Bool} {more : List Answer}
    (hp : s.eng.point = .encGet) (hclean : s.eng.accClean) (hsi : s.env.si.now = .data c :: rest)
    (hc : c < s.params.nsym) (hvalid : (s.codeAt c).valid = true) (hpath : (s.codeAt c).path = pre ++ post)
    (hnb : s.eng.nb.toNat + pre.length < 2 ^ 64)
    (hbo : s.env.bo.now = List.replicate ((s.eng.nacc.toNat + pre.length) / 8) .ok ++ more) :
    ∃ t tr, s.settle = (encodeBits post t).settle ∧ s.Encodes t tr pre 0 ∧ takenSi tr = [.data c] ∧
      t.env.bo.now = more := by
  obtain ⟨t, tr, hrun, henc, htook, -, hbo'⟩ :=
    settle_encodeBits pre post (s.tookSi (.data c) rest) _ more hclean hnb hbo rfl
  refine ⟨t, [.tookSi (.data c)] ++ tr, ?_, (State.Encodes.tookSi hclean _ _).trans henc, ?_, hbo'⟩
  · rw [← hrun, ← hpath, ← encodeTake_data rest hc hvalid]
    exact settle_step ((microStep_encGet hp).trans (encodeGet_takes hsi))
  · rw [takenSi_append, htook]
    rfl

/-- R212 to R219: ENCODE, begun on a session that starts with symbols in the table and one more, comes to any bit of that
one's code. -/
theorem exec_encode_encodesInto {s : State} {before : List Nat} {c : Nat} {rest : List (Item Nat)}
    {pre post : List Bool} {more : List Answer} (hctv : s.eng.ctv = true)
    (hsi : s.env.si.now = before.map .data ++ .data c :: rest)
    (hbefore : ∀ d ∈ before, d < s.params.nsym ∧ (s.codeAt d).valid = true)
    (hc : c < s.params.nsym) (hvalid : (s.codeAt c).valid = true) (hpath : (s.codeAt c).path = pre ++ post)
    (hlen : ((before.flatMap fun c => (s.codeAt c).path) ++ pre).length < 2 ^ 64)
    (hbo : s.env.bo.now =
      List.replicate (((before.flatMap fun c => (s.codeAt c).path) ++ pre).length / 8) .ok ++ more) :
    ∃ t tr, exec .encode s = .next (encodeBits post t).settle ∧
      (encodeOpen s).Encodes t tr ((before.flatMap fun c => (s.codeAt c).path) ++ pre) before.length ∧
      takenSi tr = (before ++ [c]).map .data ∧ t.env.bo.now = more := by
  rw [List.length_append] at hlen hbo
  obtain ⟨bits, hbits⟩ : ∃ bits, bits = before.flatMap fun c => (s.codeAt c).path := ⟨_, rfl⟩
  rw [← hbits] at hlen hbo ⊢
  have hsplit : (bits.length + pre.length) / 8 = bits.length / 8 + (bits.length % 8 + pre.length) / 8 := by omega
  rw [hsplit, List.replicate_add, List.append_assoc] at hbo
  obtain ⟨t, tr, hrun, henc, hpoint, htook, hsi1, hbo1⟩ :=
    exec_encode_encodes hctv hsi hbefore hbits (by omega) hbo
  have hnacc : t.eng.nacc.toNat = bits.length % 8 := henc.counts_of_open.2
  have hnb : t.eng.nb.toNat = 0 + bits.length := henc.nb_toNat (show 0 + bits.length < 2 ^ 64 by omega)
  have hcode : t.codeAt c = s.codeAt c := henc.codeAt c
  obtain ⟨u, tr', hrun', henc', htook', hbo2⟩ := settle_encodeInto hpoint henc.clean hsi1 (henc.params ▸ hc)
    (by rw [hcode, hvalid]) (by rw [hcode, hpath]) (by omega) (by rw [hnacc, hbo1])
  refine ⟨u, tr ++ tr', by rw [hrun, hrun'], henc.trans henc', ?_, hbo2⟩
  rw [takenSi_append, htook, htook', List.map_append]
  rfl

/-- R218, R219: after `8 * j + 7` bits the next one fills byte `j`, which is to be put. -/
theorem State.Encodes.reachesPut_full {s t : State} {tr : List Obs} {before tail post : List Bool} {b : Bool} {j n : Nat}
    (h : (encodeOpen s).Encodes t tr before n) (hrun : exec .encode s = .next (encodeBits (b :: post) t).settle)
    (hbefore : before.length = 8 * j + 7) (hlen : before.length < 2 ^ 64 - 1) :
    s.ReachesPut ((t.appendBit b).goTo (.encPut post)) tr (before ++ b :: tail) j n := by
  obtain ⟨hbytes, hnacc⟩ := h.counts_of_open
  have hj : (bytesPut tr).length = j := by omega
  have h7 : t.eng.nacc = 7 := BitVec.eq_of_toNat_eq (by rw [hnacc, hbefore]; simp)
  have hnb : t.eng.nb ≠ BitVec.allOnes 64 := by
    intro hall
    have hcount : t.eng.nb.toNat = 0 + before.length := h.nb_toNat (show 0 + before.length < 2 ^ 64 by omega)
    rw [hall, BitVec.toNat_allOnes] at hcount
    omega
  have hbyte : streamBits [placeBit t.eng.acc t.eng.nacc b] = t.eng.heldBits ++ [b] :=
    packs_full (packs_heldBits h.clean) b h7
  have hbits : before ++ b :: tail =
      streamBits (bytesPut tr) ++ (streamBits [placeBit t.eng.acc t.eng.nacc b] ++ tail) := by
    rw [hbyte, ← h.packed_of_open]
    simp
  exact
    { run := by rw [hrun, encodeBits_full b post hnb h7]
      point := .inr ⟨post, rfl⟩
      params := h.params
      eng := by
        have hmin : min (8 * j + 8) (before ++ b :: tail).length = before.length + 1 := by
          rw [List.length_append, List.length_cons]
          omega
        rw [hmin, BitVec.ofNat_add, goTo_eng, appendBit_eng, h.eng_of_open, hj]
        rfl
      env := h.env
      allTaken := h.allTaken
      put := by
        rw [hbits, ← hj, ← streamBits_length, List.take_left]
        exact carries_streamBits _
      offered := by
        rw [hbits, ← hj, ← streamBits_length, List.drop_left, List.take_left' (by rw [streamBits_length]; rfl)]
        exact carries_streamBits _ }

/-- R225: at EOS the packer's bits are the final byte, if there are any. -/
theorem State.Encodes.reachesPut_final {s t : State} {tr : List Obs} {bits : List Bool} {rest : List (Item Nat)} {n : Nat}
    (h : (encodeOpen s).Encodes t tr bits n) (hrun : exec .encode s = .next t.settle) (hpoint : t.eng.point = .encGet)
    (hsi : t.env.si.now = .eos :: rest) (hpartial : bits.length % 8 ≠ 0) :
    s.ReachesPut ((t.tookSi .eos rest).goTo .encFlush) (tr ++ [.tookSi .eos]) bits (bits.length / 8) n := by
  obtain ⟨hbytes, hnacc⟩ := h.counts_of_open
  have h0 : t.eng.nacc ≠ 0 := fun h0 => hpartial (by rw [← hnacc, h0]; rfl)
  have hput : bytesPut (tr ++ [.tookSi .eos]) = bytesPut tr := by
    rw [bytesPut_append]
    exact List.append_nil _
  have hheld : t.eng.heldBits.length ≤ 8 := by
    rw [heldBits_length]
    exact t.eng.nacc.isLt.le
  exact
    { run := by
        rw [hrun, settle_step ((microStep_encGet hpoint).trans (encodeGet_takes hsi)), encodeTake_eos,
          encodeFinal_flush (by exact h0)]
      point := .inl rfl
      params := h.params
      eng := by
        have hmin : min (8 * (bits.length / 8) + 8) bits.length = bits.length := by omega
        rw [hmin, ← hbytes, goTo_eng, tookSi_eng, h.eng_of_open]
      env := by
        rw [goTo_env, tookSi_env, h.env, encodeOpen_env]
        simp
      allTaken := by
        rw [hput, putsBo_append, h.allTaken]
        exact List.append_nil _
      put := by
        rw [hput, ← hbytes, ← streamBits_length, ← h.packed_of_open, List.take_left]
        exact carries_streamBits _
      offered := by
        rw [← hbytes, ← streamBits_length, ← h.packed_of_open, List.drop_left, List.take_of_length_le hheld]
        exact carries_pending h.clean h0 }

/-! ### The failed put -/

/-- R220: the failed put of a byte sends ENCODE to its end, with nothing more put. -/
theorem settle_encodeSinkFails {u : State} {more : List Answer}
    (hpoint : u.eng.point = .encFlush ∨ ∃ rest, u.eng.point = .encPut rest) (hbo : u.env.bo.now = .fail :: more) :
    ∃ v : State, u.settle = v.encodeFaulted .io 1 ∧ v.params = u.params ∧
      v.eng = { u.eng with point := .encRelease (.fault .io 1) } ∧
      v.env = { u.env with
        bo := { u.env.bo with now := more }
        trace := u.env.trace ++ [.putBo u.eng.acc .fail] } := by
  obtain ⟨v, hput⟩ : ∃ v, u.putBo u.eng.acc = some (.fail, v) := ⟨_, putBo_answered _ hbo⟩
  obtain ⟨hnow, hparams, heng, henv⟩ := putBo_some hput
  have hmore : v.env.bo.now = more := (List.cons.inj (hnow.symm.trans hbo)).2
  have hstep : u.microStep = some (encodeSinkFailed v) := by
    rcases hpoint with hflush | ⟨rest, hfull⟩
    · exact (microStep_encFlush hflush).trans (encodeFlush_failed hput)
    · exact (microStep_encPut hfull).trans (encodePut_failed rest hput)
  refine ⟨encodeSinkFailed v, (settle_step hstep).trans (settle_encodeRelease rfl), hparams, ?_, henv.trans ?_⟩
  · rw [← heng]
    rfl
  · rw [hmore]

/-- R220: the end of an ENCODE whose put of byte `j` fails. -/
theorem State.ReachesPut.fails {s u : State} {tr : List Obs} {bits : List Bool} {j n : Nat} {more : List Answer}
    (h : s.ReachesPut u tr bits j n) (hbo : u.env.bo.now = .fail :: more) :
    ∃ t, exec .encode s = .next t ∧ t.params = s.params ∧
      t.env = { s.env with
        si := s.env.si.endSession
        bo := s.env.bo.endSession
        trace := s.env.trace ++ tr ++ [.putBo u.eng.acc .fail, .release .si, .close .bo] } ∧
      t.eng = { s.eng with
        acc := u.eng.acc
        nacc := t.eng.nacc
        nb := BitVec.ofNat 64 (min (8 * j + 8) bits.length)
        nby := BitVec.ofNat 64 j
        ns := BitVec.ofNat 64 n
        siOpen := false
        boOpen := false }.faulted .io 1 := by
  obtain ⟨v, hend, hparams, heng, henv⟩ := settle_encodeSinkFails h.point hbo
  refine ⟨v.encodeFaulted .io 1, by rw [h.run, hend], ?_, ?_, ?_⟩
  · rw [encodeFaulted_params, hparams, h.params]
  · rw [encodeFaulted_env, henv, h.env]
    simp
  · rw [encodeFaulted_eng, heng, h.eng]
    rfl

/-! ### The whole command -/

/-- R214 to R219: a full byte is reached in the code of the symbol that fills it, no later item having been taken. -/
theorem exec_encode_reachesPut_full {s : State} {cs : List Nat} {unread : List (Item Nat)} {j : Nat} {more : List Answer}
    {bits : List Bool} (hctv : s.eng.ctv = true) (hsi : s.env.si.now = cs.map .data ++ unread)
    (hcs : ∀ c ∈ cs, c < s.params.nsym ∧ (s.codeAt c).valid = true)
    (hbits : bits = cs.flatMap fun c => (s.codeAt c).path) (hlen : bits.length < 2 ^ 64) (hj : j < bits.length / 8)
    (hbo : s.env.bo.now = List.replicate j .ok ++ more) :
    ∃ u tr n, s.ReachesPut u tr bits j n ∧ u.env.bo.now = more ∧ n < cs.length ∧
      takenSi tr = (cs.take (n + 1)).map .data ∧
      ((cs.take n).flatMap fun c => (s.codeAt c).path).length < 8 * j + 8 ∧
      8 * j + 8 ≤ ((cs.take (n + 1)).flatMap fun c => (s.codeAt c).path).length := by
  obtain ⟨before, c, after, pre, b, post, rfl, hpath, hpos⟩ :=
    exists_flatMap_split (fun c => (s.codeAt c).path) cs (k := 8 * j + 7) (by rw [← hbits]; omega)
  obtain ⟨hc, hvalid⟩ := hcs c (by simp)
  have hbits' : bits = (before.flatMap (fun c => (s.codeAt c).path) ++ pre) ++
      b :: (post ++ after.flatMap fun c => (s.codeAt c).path) := by
    rw [hbits, List.flatMap_append, List.flatMap_cons, hpath]
    simp
  obtain ⟨t, tr, hrun, henc, htook, hbo1⟩ := exec_encode_encodesInto (rest := after.map .data ++ unread) hctv
    (by simpa using hsi) (fun d hd => hcs d (List.mem_append_left _ hd)) hc hvalid hpath (by omega)
    (show s.env.bo.now = List.replicate (_ / 8) .ok ++ more by
      rw [hbo, hpos, show (8 * j + 7) / 8 = j by omega])
  have htake : (before ++ c :: after).take (before.length + 1) = before ++ [c] := List.take_length_add_append 1
  refine ⟨(t.appendBit b).goTo (.encPut post), tr, before.length, ?_, hbo1, by simp, ?_, ?_, ?_⟩
  · rw [hbits']
    exact henc.reachesPut_full hrun hpos (by omega)
  · rw [htook, htake]
  · rw [List.take_left]
    rw [List.length_append] at hpos
    omega
  · rw [htake, List.flatMap_append, List.flatMap_singleton, hpath, ← List.singleton_append, ← List.append_assoc,
      ← List.append_assoc, List.length_append, List.length_append, hpos, List.length_singleton]
    omega

/-- Settles O43: a full byte's put and the final one's, each reached and then failed. -/
theorem encodeSinkFailureStopsThePuts : Obligations.EncodeSinkFailureStopsThePuts := by
  intro s cs unread j more bits hctv hsi hcs hbits hlen hj hbo
  rcases Nat.lt_or_ge j (bits.length / 8) with hfull | hfinal
  · obtain ⟨u, tr, n, h, hbo1, hn, htook, hlo, hhi⟩ :=
      exec_encode_reachesPut_full hctv hsi hcs hbits hlen hfull hbo
    obtain ⟨t, hrun, hparams, henv, heng⟩ := h.fails hbo1
    exact ⟨t, tr, u.eng.acc, n, hrun, hparams, henv, heng, h.put, h.allTaken, h.offered,
      fun _ => ⟨hn, htook, hlo, hhi⟩, fun hge => absurd hfull (Nat.not_lt.2 hge)⟩
  · obtain ⟨hpartial, heos⟩ := hj.resolve_left (Nat.not_lt.2 hfinal)
    obtain rfl : j = bits.length / 8 := by omega
    obtain ⟨rest, rfl⟩ := List.head?_eq_some_iff.1 heos
    obtain ⟨t, tr, hrun, henc, hpoint, htook, hsi1, hbo1⟩ := exec_encode_encodes hctv hsi hcs hbits hlen hbo
    have h := henc.reachesPut_final hrun hpoint hsi1 (by omega)
    obtain ⟨v, hend, hparams, henv, heng⟩ := h.fails hbo1
    refine ⟨v, _, _, _, hend, hparams, henv, heng, h.put, h.allTaken, h.offered,
      fun hfull => absurd hfull (Nat.lt_irrefl _), fun _ => ⟨rfl, ?_⟩⟩
    rw [takenSi_append, htook]
    rfl

end Sys2Proof.Machine
end

section
/-!
The run of DECODE over bits that are paths of the tree, up to any point before it ends (45_decoder.md R240, R244 to
R249): the bits still to be read are one list, of which each micro-operation takes the first ones, and what two of them
do after each other is the sum of what each does. Then its ends (R246, R251 to R254).
-/
namespace Sys2Proof.Machine

/-- Where a path leads depends on NODE alone. -/
theorem follow_congr {s t : State} (h : t.eng.node = s.eng.node) (i : Nat) (p : List Bool) :
    t.follow i p = s.follow i p := by
  induction p generalizing i with
  | nil => rfl
  | cons b p ih => simp only [State.follow, nodeAt_congr h, ih]

/-! ### The bits still to be read -/

/-- The bits of the data items a source offers before any other item. -/
def offeredBits : List (Item Byte) → List Bool
  | .data v :: l => streamBits [v] ++ offeredBits l
  | _ => []

theorem offeredBits_data (bytes : List Byte) (l : List (Item Byte)) :
    offeredBits (bytes.map .data ++ l) = streamBits bytes ++ offeredBits l := by
  induction bytes with
  | nil => rfl
  | cons v bytes ih =>
    rw [List.map_cons, List.cons_append, offeredBits, ih, ← List.append_assoc, ← streamBits_append]
    rfl

/-- A bit a source offers is the first of a byte. -/
theorem offeredBits_first {l : List (Item Byte)} {b : Bool} (h : [b] <+: offeredBits l) :
    ∃ v rest, l = .data v :: rest ∧ b = v.getLsbD 7 := by
  rcases l with - | ⟨v | - | -, rest⟩
  · simp [offeredBits] at h
  · exact ⟨v, rest, rfl, (List.cons_prefix_cons.1 h).1⟩
  · simp [offeredBits] at h
  · simp [offeredBits] at h

/-- The bits DECODE can read before its limit: those the unpacker holds, then those BI offers. -/
def State.ahead (s : State) : List Bool :=
  (s.eng.unreadBits ++ offeredBits s.env.bi.now).take (s.eng.lim - s.eng.nb).toNat

theorem ahead_limit {s : State} (h : s.eng.nb = s.eng.lim) : s.ahead = [] := by simp [State.ahead, h]

@[simp] theorem unreadBits_length (e : Engine) : e.unreadBits.length = e.nsh.toNat := by simp [Engine.unreadBits]

theorem unreadBits_empty {e : Engine} (h : e.nsh = 0) : e.unreadBits = [] :=
  List.eq_nil_of_length_eq_zero (by rw [unreadBits_length, h]; rfl)

theorem unreadBits_loadByte (s : State) (v : Byte) : (s.loadByte v).eng.unreadBits = streamBits [v] := by
  have hhigh : ∀ k ∈ List.range 8, (decide (k < 8) && v.getLsbD (7 - k)) = v.getLsbD (7 - k) := fun k hk => by
    simp [List.mem_range.1 hk]
  rw [streamBits, List.flatMap_singleton]
  exact List.map_congr_left hhigh

/-- The unread bits but one, as `decodeBits` counts them down. -/
theorem nsh_sub_one {n : BitVec 4} (h : n ≠ 0) : n.toNat = (n - 1).toNat + 1 := by bv_omega

/-- R247: the bit read is the first of those the unpacker holds. -/
theorem unreadBits_readBit {s : State} (h : s.eng.nsh ≠ 0) :
    s.eng.unreadBits = s.eng.sh.getLsbD 7 :: s.readBit.2.eng.unreadBits := by
  have hshift : ∀ k, (decide (k + 1 < 8) && s.eng.sh.getLsbD (7 - (k + 1))) =
      (decide (k < 8) && (s.eng.sh <<< 1).getLsbD (7 - k)) := by
    intro k
    rw [BitVec.getLsbD_shiftLeft, Nat.sub_sub]
    by_cases hk : k + 1 < 8
    · have h1 : ¬ 7 - k < 1 := by omega
      have h2 : 7 - k < 8 := by omega
      simp [hk, h1, h2, Nat.lt_of_succ_lt hk]
    · have h1 : 7 - k < 1 := by omega
      simp [hk, h1]
  simp only [Engine.unreadBits, readBit_eng, nsh_sub_one h, List.range_succ_eq_map, List.map_cons, List.map_map,
    Function.comp_def, Nat.succ_eq_add_one, hshift]
  rfl

/-- R245: the state `s` once DECODE has come to a `get` and taken `it`. -/
def State.gotBi (s : State) (it : Item Byte) (rest : List (Item Byte)) : State := (s.goTo .decGet).tookBi it rest

/-- R245, R247: the state `s` once an empty unpacker has taken the byte `v`. -/
def State.fetched (s : State) (v : Byte) (rest : List (Item Byte)) : State := (s.gotBi (.data v) rest).loadByte v

theorem fetched_eng (s : State) (v : Byte) (rest : List (Item Byte)) : (s.fetched v rest).eng =
    { s.eng with sh := v, nsh := 8, nby := s.eng.nby + 1, point := .decGet } := rfl

theorem fetched_nsh (s : State) (v : Byte) (rest : List (Item Byte)) : (s.fetched v rest).eng.nsh ≠ 0 := by
  rw [fetched_eng]
  simp

/-! ### Between two points of a run -/

/-- What DECODE has done between the states `s` and `t`: it has taken the bytes `taken`, read `bits`, put the symbols
`syms`, all taken by the sink, and crossed the boundary by `tr`; the unpacker holds the bits not yet read, less than a
byte of them, and the rest of the engine and of the environment is as it was. -/
structure State.Decodes (s t : State) (tr : List Obs) (taken : List Byte) (bits : List Bool) (syms : List Nat) :
    Prop where
  params : t.params = s.params
  eng : t.eng = { s.eng with
    cur := t.eng.cur
    sh := t.eng.sh
    nsh := t.eng.nsh
    nb := s.eng.nb + BitVec.ofNat 64 bits.length
    nby := s.eng.nby + BitVec.ofNat 64 taken.length
    ns := s.eng.ns + BitVec.ofNat 64 syms.length
    point := t.eng.point }
  env : t.env = { s.env with
    bi := { s.env.bi with now := t.env.bi.now }
    so := { s.env.so with now := t.env.so.now }
    trace := s.env.trace ++ tr }
  took : takenBi tr = taken.map .data
  put : symbolsPut tr = syms
  items : s.env.bi.now = taken.map .data ++ t.env.bi.now
  answers : s.env.so.now = List.replicate syms.length .ok ++ t.env.so.now
  unpacked : s.eng.unreadBits ++ streamBits taken = bits ++ t.eng.unreadBits
  short : t.eng.nsh.toNat < 8

namespace State.Decodes
variable {s t u : State} {tr tr' : List Obs} {taken taken' : List Byte} {bits bits' : List Bool} {syms syms' : List Nat}

theorem refl (h : s.eng.nsh.toNat < 8) : s.Decodes s [] [] [] [] where
  params := rfl
  eng := by simp
  env := by simp
  took := rfl
  put := rfl
  items := rfl
  answers := rfl
  unpacked := by simp
  short := h

theorem trans (h : s.Decodes t tr taken bits syms) (h' : t.Decodes u tr' taken' bits' syms') :
    s.Decodes u (tr ++ tr') (taken ++ taken') (bits ++ bits') (syms ++ syms') where
  params := h'.params.trans h.params
  eng := by
    rw [h'.eng, h.eng]
    simp [BitVec.ofNat_add, BitVec.add_assoc]
  env := by
    rw [h'.env, h.env]
    simp
  took := by rw [takenBi_append, h.took, h'.took, List.map_append]
  put := by rw [symbolsPut_append, h.put, h'.put]
  items := by rw [h.items, h'.items, List.map_append, List.append_assoc]
  answers := by rw [h.answers, h'.answers, List.length_append, List.replicate_add, List.append_assoc]
  unpacked := by
    rw [streamBits_append, ← List.append_assoc, h.unpacked, List.append_assoc, h'.unpacked, List.append_assoc]
  short := h'.short

theorem nodeAt (h : s.Decodes t tr taken bits syms) (i : Nat) : t.nodeAt i = s.nodeAt i :=
  nodeAt_congr (by rw [h.eng]) i

theorem follow (h : s.Decodes t tr taken bits syms) (i : Nat) (p : List Bool) : t.follow i p = s.follow i p :=
  follow_congr (by rw [h.eng]) i p

theorem tk (h : s.Decodes t tr taken bits syms) : t.eng.tk = s.eng.tk := by rw [h.eng]

theorem root (h : s.Decodes t tr taken bits syms) : t.eng.root = s.eng.root := by rw [h.eng]

/-- The bits read were the first of those to be read. -/
theorem ahead (h : s.Decodes t tr taken bits syms) (hbits : bits <+: s.ahead) : s.ahead = bits ++ t.ahead := by
  have hle : bits.length ≤ (s.eng.lim - s.eng.nb).toNat := hbits.length_le.trans (List.length_take_le _ _)
  have hleft : (t.eng.lim - t.eng.nb).toNat = (s.eng.lim - s.eng.nb).toNat - bits.length := by
    rw [h.eng]
    bv_omega
  rw [State.ahead, State.ahead, hleft, h.items, offeredBits_data, ← List.append_assoc, h.unpacked, List.append_assoc,
    List.take_append, List.take_of_length_le hle]

theorem ahead_prefix (h : s.Decodes t tr taken bits syms) (hbits : bits ++ bits' <+: s.ahead) : bits' <+: t.ahead := by
  rwa [h.ahead ((List.prefix_append _ _).trans hbits), List.prefix_append_right_inj] at hbits

/-! ### The micro-operations' parts -/

/-- R247, R248: a bit the unpacker holds, and the move. -/
theorem readBit (hnsh : s.eng.nsh ≠ 0) (h8 : s.eng.nsh.toNat ≤ 8) (i : Nat) :
    s.Decodes (s.readBit.2.setCur i) [] [] [s.eng.sh.getLsbD 7] [] where
  params := rfl
  eng := by simp
  env := by simp
  took := rfl
  put := rfl
  items := rfl
  answers := rfl
  unpacked := by
    rw [streamBits_nil, List.append_nil, unreadBits_readBit hnsh]
    rfl
  short := by
    have hnext : (s.eng.nsh - 1).toNat < 8 := by
      have := nsh_sub_one hnsh
      omega
    exact hnext

/-- R245, R247, R248: a byte taken because the unpacker is empty, its first bit, and the move. -/
theorem fetchBit {v : Byte} {rest : List (Item Byte)} (hnsh : s.eng.nsh = 0) (hbi : s.env.bi.now = .data v :: rest)
    (i : Nat) :
    s.Decodes ((s.fetched v rest).readBit.2.setCur i) [.tookBi (.data v)] [v] [v.getLsbD 7] [] where
  params := by simp [State.fetched, State.gotBi]
  eng := by
    rw [setCur_eng, readBit_eng, fetched_eng]
    simp
  env := rfl
  took := rfl
  put := rfl
  items := hbi
  answers := rfl
  unpacked := by
    have hread := unreadBits_readBit (fetched_nsh s v rest)
    rw [State.fetched, unreadBits_loadByte] at hread
    rw [unreadBits_empty hnsh, List.nil_append, hread]
    rfl
  short := by
    rw [setCur_eng, readBit_eng, fetched_eng]
    simp

/-- R249: the put of the leaf the cursor is on, taken by the sink, and the return to the root. -/
theorem emit (h8 : s.eng.nsh.toNat < 8)
    (hput : (s.goTo .decPut).putSo s.leafSymbol = some (.ok, t)) :
    s.Decodes t.emitted [.putSo s.leafSymbol .ok] [] [] [s.leafSymbol] := by
  obtain ⟨hnow, hparams, heng, henv⟩ := putSo_some hput
  exact
    { params := hparams
      eng := by
        rw [emitted_eng, heng]
        simp
      env := by
        rw [emitted_env, henv]
        simp
      took := rfl
      put := rfl
      items := by
        rw [emitted_env, henv]
        rfl
      answers := hnow
      unpacked := by
        rw [emitted_eng, heng]
        simp [Engine.unreadBits]
      short := by
        rw [emitted_eng, heng]
        exact h8 }

end State.Decodes

/-! ### Runs -/

theorem decodeLoop_limit {s : State} (h : s.eng.nb = s.eng.lim) : decodeLoop s = decodeExhausted s :=
  decodeBits_limit _ h

/-- R245: the `get` of an empty unpacker before the limit. -/
theorem settle_decodeLoop_takes {s : State} {it : Item Byte} {rest : List (Item Byte)} (hnb : s.eng.nb ≠ s.eng.lim)
    (hnsh : s.eng.nsh = 0) (hbi : s.env.bi.now = it :: rest) :
    (decodeLoop s).settle = (decodeTake it rest (s.goTo .decGet)).settle := by
  rw [decodeLoop_empty hnsh, decodeBits_zero hnb]
  exact settle_step ((microStep_decGet rfl).trans (decodeGet_takes hbi))

/-- R249: DECODE once the cursor has moved: the leaf it is on is to be put; elsewhere the next bit is to be read. -/
def State.arrived (s : State) : State := if (s.nodeAt s.eng.cur).isLeaf then s.goTo .decPut else decodeLoop s

theorem arrived_leaf {s : State} (h : (s.nodeAt s.eng.cur).isLeaf = true) : s.arrived = s.goTo .decPut := if_pos h

theorem arrived_node {s : State} (h : (s.nodeAt s.eng.cur).isLeaf = false) : s.arrived = decodeLoop s :=
  if_neg (Bool.eq_false_iff.1 h)

/-- R247 to R249: a bit the unpacker holds, before the limit, with a child to go to. -/
theorem decodeLoop_readBit {s : State} (htk : s.eng.tk ≠ .empty) (hnb : s.eng.nb ≠ s.eng.lim) (hnsh : s.eng.nsh ≠ 0)
    (hchild : ((s.nodeAt s.eng.cur).child (s.eng.sh.getLsbD 7)).1 = true) :
    decodeLoop s = (s.readBit.2.setCur ((s.nodeAt s.eng.cur).child (s.eng.sh.getLsbD 7)).2).arrived := by
  rw [decodeLoop, nsh_sub_one hnsh, decodeBits_bit _ hnb, if_neg htk, if_neg (ne_of_eq_of_ne hchild Bool.noConfusion)]
  rfl

/-- R244 to R249: one bit, the byte it needs taken if it needs one. -/
theorem settle_decodeBit {s : State} {b : Bool} (htk : s.eng.tk ≠ .empty) (h8 : s.eng.nsh.toNat < 8)
    (hahead : [b] <+: s.ahead) (hchild : ((s.nodeAt s.eng.cur).child b).1 = true) :
    ∃ t tr taken, (decodeLoop s).settle = t.arrived.settle ∧ s.Decodes t tr taken [b] [] ∧
      t.eng.cur = ((s.nodeAt s.eng.cur).child b).2 := by
  have hnb : s.eng.nb ≠ s.eng.lim := by
    intro h
    rw [ahead_limit h] at hahead
    simp at hahead
  have hfirst : [b] <+: s.eng.unreadBits ++ offeredBits s.env.bi.now := hahead.trans (List.take_prefix _ _)
  by_cases hnsh : s.eng.nsh = 0
  · rw [unreadBits_empty hnsh, List.nil_append] at hfirst
    obtain ⟨v, rest, hbi, rfl⟩ := offeredBits_first hfirst
    refine ⟨_, _, _, ?_, .fetchBit hnsh hbi _, rfl⟩
    rw [settle_decodeLoop_takes hnb hnsh hbi]
    exact congrArg State.settle (decodeLoop_readBit (s := s.fetched v rest) htk hnb (fetched_nsh s v rest) hchild)
  · obtain rfl : b = s.eng.sh.getLsbD 7 := by
      rw [unreadBits_readBit hnsh] at hfirst
      exact (List.cons_prefix_cons.1 hfirst).1
    exact ⟨_, [], [], by rw [decodeLoop_readBit htk hnb hnsh hchild], .readBit hnsh h8.le _, rfl⟩

/-- R244 to R249: a run along a path; only its last node can be a leaf. -/
theorem settle_decodePath (p : List Bool) {s : State} {i : Nat} (htk : s.eng.tk ≠ .empty) (h8 : s.eng.nsh.toNat < 8)
    (hahead : p <+: s.ahead) (hpath : s.follow s.eng.cur p = some i) :
    ∃ t tr taken, s.arrived.settle = t.arrived.settle ∧ s.Decodes t tr taken p [] ∧ t.eng.cur = i := by
  induction p generalizing s with
  | nil => exact ⟨s, [], [], rfl, .refl h8, Option.some.inj hpath⟩
  | cons b p ih =>
    have hnode : (s.nodeAt s.eng.cur).isLeaf = false :=
      Bool.eq_false_iff.2 fun hleaf => Option.some_ne_none i (hpath.symm.trans (follow_leaf hleaf b p))
    rw [State.follow] at hpath
    obtain ⟨hchild, hpath⟩ := Option.ite_none_right_eq_some.1 hpath
    rw [← List.singleton_append] at hahead ⊢
    obtain ⟨t, tr, taken, hrun, h, hcur⟩ :=
      settle_decodeBit htk h8 ((List.prefix_append _ _).trans hahead) hchild
    obtain ⟨u, tr', taken', hrun', h', hcur'⟩ := ih (h.tk ▸ htk) h.short (h.ahead_prefix hahead)
      (by rw [h.follow, hcur, hpath])
    exact ⟨u, _, _, by rw [arrived_node hnode, hrun, hrun'], h.trans h', hcur'⟩

/-- R249: a run along a path to a leaf, the put of its symbol and the return to the root. -/
theorem settle_decodeSymbol {s : State} {p : List Bool} {i : Nat} {more : List Answer} (htk : s.eng.tk ≠ .empty)
    (h8 : s.eng.nsh.toNat < 8) (hahead : p <+: s.ahead) (hpath : s.follow s.eng.cur p = some i)
    (hleaf : (s.nodeAt i).isLeaf = true) (hroot : (s.nodeAt s.eng.root).isLeaf = false)
    (hso : s.env.so.now = .ok :: more) :
    ∃ t tr taken, s.arrived.settle = t.arrived.settle ∧
      s.Decodes t tr taken p [(s.nodeAt i).ch % s.params.nsym] ∧ t.eng.cur = s.eng.root ∧ t.env.so.now = more := by
  obtain ⟨t, tr, taken, hrun, h, rfl⟩ := settle_decodePath p htk h8 hahead hpath
  have hsymbol : t.leafSymbol = (s.nodeAt t.eng.cur).ch % s.params.nsym := by
    rw [State.leafSymbol, h.nodeAt, h.params]
  have hso' : t.env.so.now = .ok :: more := h.answers.symm.trans hso
  obtain ⟨u, hput⟩ : ∃ u, (t.goTo .decPut).putSo t.leafSymbol = some (.ok, u) := ⟨_, putSo_answered _ hso'⟩
  have h' := State.Decodes.emit h.short hput
  have hcur : u.emitted.eng.cur = s.eng.root := by
    rw [← h.root, ← h'.root]
    rfl
  refine ⟨u.emitted, tr ++ [.putSo t.leafSymbol .ok], taken, ?_, ?_, hcur, ?_⟩
  · rw [hrun, arrived_leaf (by rw [h.nodeAt, hleaf]), arrived_node (by rw [hcur, h'.nodeAt, h.nodeAt, hroot])]
    exact settle_step ((microStep_decPut rfl).trans (decodePut_ok hput))
  · simpa [hsymbol] using h.trans h'
  · exact (List.cons.inj (h'.answers.symm.trans hso')).2

/-- R249: a run along paths from the root to leaves, one after another. -/
theorem settle_decodes (steps : List (List Bool × Nat)) {s : State} {more : List Answer} (htk : s.eng.tk ≠ .empty)
    (h8 : s.eng.nsh.toNat < 8) (hahead : steps.flatMap Prod.fst <+: s.ahead) (hcur : s.eng.cur = s.eng.root)
    (hroot : (s.nodeAt s.eng.root).isLeaf = false)
    (hsteps : ∀ p ∈ steps, s.follow s.eng.root p.1 = some p.2 ∧ (s.nodeAt p.2).isLeaf = true)
    (hso : s.env.so.now = List.replicate steps.length .ok ++ more) :
    ∃ t tr taken, s.arrived.settle = t.arrived.settle ∧
      s.Decodes t tr taken (steps.flatMap Prod.fst) (steps.map fun p => (s.nodeAt p.2).ch % s.params.nsym) ∧
      t.eng.cur = s.eng.root ∧ t.env.so.now = more := by
  induction steps generalizing s with
  | nil => exact ⟨s, [], [], rfl, .refl h8, hcur, hso⟩
  | cons p steps ih =>
    obtain ⟨hpath, hleaf⟩ := hsteps p List.mem_cons_self
    rw [List.flatMap_cons] at hahead ⊢
    obtain ⟨t, tr, taken, hrun, h, hcur1, hso1⟩ := settle_decodeSymbol htk h8 ((List.prefix_append _ _).trans hahead)
      (hcur ▸ hpath) hleaf hroot hso
    obtain ⟨u, tr', taken', hrun', h', hcur2, hso2⟩ := ih (h.tk ▸ htk) h.short (h.ahead_prefix hahead)
      (hcur1.trans h.root.symm) (by rw [h.root, h.nodeAt, hroot])
      (fun q hq => by simpa only [h.root, h.nodeAt, h.follow] using hsteps q (List.mem_cons_of_mem _ hq)) hso1
    simp only [h.nodeAt, h.params] at h'
    exact ⟨u, _, _, hrun.trans hrun', h.trans h', hcur2.trans h.root, hso2⟩

/-! ### From the start of the command -/

/-- R241, R243: DECODE with its channels open, about to read its first bit. -/
def State.decodeStart (s : State) : State :=
  { s with eng := { s.eng with
      biOpen := true
      soOpen := true
      lim := s.eng.x0
      cur := s.eng.root
      sh := 0
      nsh := 0
      nb := 0
      nby := 0
      ns := 0 } }

@[simp] theorem decodeStart_params (s : State) : s.decodeStart.params = s.params := rfl

@[simp] theorem decodeStart_nodeAt (s : State) (i : Nat) : s.decodeStart.nodeAt i = s.nodeAt i := rfl

@[simp] theorem decodeStart_follow (s : State) (i : Nat) (p : List Bool) : s.decodeStart.follow i p = s.follow i p :=
  follow_congr (s := s) (t := s.decodeStart) rfl i p

theorem exec_decode {s : State} (h : s.eng.tk ≠ .none) : exec .decode s = .next (decodeLoop s.decodeStart).settle :=
  withTree_some _ h

theorem decodeStart_ahead (s : State) : s.decodeStart.ahead = (offeredBits s.env.bi.now).take s.eng.x0.toNat := by
  have hlim : (s.decodeStart.eng.lim - s.decodeStart.eng.nb).toNat = s.eng.x0.toNat :=
    congrArg BitVec.toNat (BitVec.sub_zero s.eng.x0)
  rw [State.ahead, hlim, unreadBits_empty rfl]
  rfl

namespace State.Decodes
variable {s t : State} {tr : List Obs} {taken bytes : List Byte} {unread : List (Item Byte)} {bits : List Bool}
  {syms : List Nat}

theorem eng_of_start (h : s.decodeStart.Decodes t tr taken bits syms) : t.eng =
    { s.eng with
      cur := t.eng.cur
      lim := s.eng.x0
      sh := t.eng.sh
      nsh := t.eng.nsh
      nb := BitVec.ofNat 64 bits.length
      nby := BitVec.ofNat 64 taken.length
      ns := BitVec.ofNat 64 syms.length
      biOpen := true
      soOpen := true
      point := t.eng.point } := by
  rw [h.eng]
  simp [State.decodeStart]

/-- R245: no more bytes have been taken than the bits read need. -/
theorem counts_of_start (h : s.decodeStart.Decodes t tr taken bits syms) :
    8 * taken.length = bits.length + t.eng.nsh.toNat ∧ taken.length = (bits.length + 7) / 8 := by
  have hlength := congrArg List.length h.unpacked
  have hempty : s.decodeStart.eng.unreadBits = [] := unreadBits_empty rfl
  rw [hempty, List.nil_append, streamBits_length, List.length_append, unreadBits_length] at hlength
  have := h.short
  omega

/-- The bytes taken are the first of those offered. -/
theorem taken_of_start (h : s.decodeStart.Decodes t tr taken bits syms)
    (hbi : s.env.bi.now = bytes.map .data ++ unread) (hle : bits.length ≤ 8 * bytes.length) :
    taken = bytes.take ((bits.length + 7) / 8) ∧
      t.env.bi.now = (bytes.drop ((bits.length + 7) / 8)).map .data ++ unread := by
  have hcount := h.counts_of_start.2
  have hitems : taken.map .data ++ t.env.bi.now = (bytes.take taken.length).map .data ++
      ((bytes.drop taken.length).map .data ++ unread) := by
    rw [← List.append_assoc, ← List.map_append, List.take_append_drop, ← hbi]
    exact h.items.symm
  obtain ⟨htaken, hnow⟩ := List.append_inj hitems (by rw [List.length_map, List.length_map, List.length_take]; omega)
  rw [← hcount]
  exact ⟨List.map_injective_iff.2 (fun _ _ => Item.data.inj) htaken, hnow⟩

theorem nb_eq_lim (h : s.decodeStart.Decodes t tr taken bits syms) (hlen : bits.length = s.eng.x0.toNat) :
    t.eng.nb = t.eng.lim := by
  rw [h.eng_of_start, hlen]
  simp

theorem nb_ne_lim (h : s.decodeStart.Decodes t tr taken bits syms) (hlen : bits.length < s.eng.x0.toNat) :
    t.eng.nb ≠ t.eng.lim := by
  have hx0 : s.eng.x0.toNat < 2 ^ 64 := s.eng.x0.isLt
  have hne : BitVec.ofNat 64 bits.length ≠ s.eng.x0 := by
    intro heq
    have hval := congrArg BitVec.toNat heq
    rw [BitVec.toNat_ofNat, Nat.mod_eq_of_lt (by omega)] at hval
    omega
  rwa [h.eng_of_start]

/-- R244, R245: with all the bits of the bytes offered read, and the limit not reached, the item after them is taken. -/
theorem takes (h : s.decodeStart.Decodes t tr taken bits syms) {it : Item Byte} {rest : List (Item Byte)}
    (hbi : s.env.bi.now = bytes.map .data ++ it :: rest) (hlen : bits.length = 8 * bytes.length)
    (hlim : bits.length < s.eng.x0.toNat) :
    taken = bytes ∧ (decodeLoop t).settle = (decodeTake it rest (t.goTo .decGet)).settle := by
  have hall : (bits.length + 7) / 8 = bytes.length := by omega
  obtain ⟨htaken, hnow⟩ := h.taken_of_start hbi hlen.le
  rw [hall, List.take_length] at htaken
  rw [hall, List.drop_length] at hnow
  subst htaken
  have hnsh : t.eng.nsh = 0 := by
    have hcount := h.counts_of_start.1
    refine BitVec.eq_of_toNat_eq (Nat.add_left_cancel (n := bits.length) ?_)
    rw [← hcount, hlen]
    rfl
  exact ⟨rfl, settle_decodeLoop_takes (h.nb_ne_lim hlim) hnsh hnow⟩

end State.Decodes

/-- R240 to R249: DECODE, begun on bits that are paths to leaves and one more path, comes to the end of that one. -/
theorem exec_decode_arrives {s : State} {bytes : List Byte} {unread : List (Item Byte)}
    {steps : List (List Bool × Nat)} {rest : List Bool} {j : Nat} {more : List Answer} (htk : s.eng.tk = .tree)
    (hroot : (s.nodeAt s.eng.root).isLeaf = false)
    (hsteps : ∀ p ∈ steps, s.follow s.eng.root p.1 = some p.2 ∧ (s.nodeAt p.2).isLeaf = true)
    (hrest : s.follow s.eng.root rest = some j) (hbi : s.env.bi.now = bytes.map .data ++ unread)
    (hbits : steps.flatMap Prod.fst ++ rest <+: (streamBits bytes).take s.eng.x0.toNat)
    (hso : s.env.so.now = List.replicate steps.length .ok ++ more) :
    ∃ t tr taken, exec .decode s = .next t.arrived.settle ∧
      s.decodeStart.Decodes t tr taken (steps.flatMap Prod.fst ++ rest)
        (steps.map fun p => (s.nodeAt p.2).ch % s.params.nsym) ∧
      t.eng.cur = j ∧ t.env.so.now = more := by
  have hahead : steps.flatMap Prod.fst ++ rest <+: s.decodeStart.ahead := by
    rw [decodeStart_ahead, hbi, offeredBits_data]
    exact hbits.trans ((List.prefix_append _ _).take _)
  have hkind : s.decodeStart.eng.tk ≠ .empty := by simp [State.decodeStart, htk]
  obtain ⟨t, tr, taken, hrun, h, hcur, hso1⟩ := settle_decodes steps hkind (Nat.zero_lt_succ 7)
    ((List.prefix_append _ _).trans hahead) rfl hroot
    (fun p hp => (decodeStart_follow s _ _).symm ▸ hsteps p hp) hso
  obtain ⟨u, tr', taken', hrun', h', hcur'⟩ := settle_decodePath rest (h.tk ▸ hkind) h.short (h.ahead_prefix hahead)
    (by rw [hcur, h.follow, decodeStart_follow]; exact hrest)
  refine ⟨u, tr ++ tr', taken ++ taken', ?_, ?_, hcur', h'.answers.symm.trans hso1⟩
  · rw [exec_decode (by simp [htk]), ← hrun', ← hrun, arrived_node hroot]
  · simpa using h.trans h'

/-! ### The ends -/

/-- R253, R254: BI released, SO closed, the command ended by `f`. -/
def State.decodeEnded (s : State) (f : Ending) : State := decodeFinish f (decodeClose f (decodeRelease f s))

section
variable (s : State) (f : Ending)

@[simp] theorem decodeEnded_params : (s.decodeEnded f).params = s.params := by
  cases f <;> simp [State.decodeEnded, decodeFinish, decodeClose, decodeRelease]

@[simp] theorem decodeEnded_done_eng : (s.decodeEnded .done).eng =
    { s.eng with biOpen := false, soOpen := false, x0 := s.eng.nb, x1 := s.eng.ns, x2 := s.eng.nby }.ended := by
  simp [State.decodeEnded, decodeFinish, decodeClose, decodeRelease, Engine.ended]

@[simp] theorem decodeEnded_fault_eng (e : ErrCode) (info : Word) : (s.decodeEnded (.fault e info)).eng =
    { s.eng with biOpen := false, soOpen := false }.faulted e info := by
  simp [State.decodeEnded, decodeFinish, decodeClose, decodeRelease, Engine.faulted]

@[simp] theorem decodeEnded_env : (s.decodeEnded f).env =
    { s.env with
      bi := s.env.bi.endSession
      so := s.env.so.endSession
      trace := s.env.trace ++ [.release .bi, .close .so] } := by
  cases f <;> simp [State.decodeEnded, decodeFinish, decodeClose, decodeRelease]

theorem settle_goTo_decRelease : (s.goTo (.decRelease f)).settle = s.decodeEnded f := by
  rw [settle_decodeRelease rfl]
  cases f <;> rfl

theorem settle_decodeAbort (e : ErrCode) (info : Word) :
    (decodeAbort e info s).settle = s.decodeEnded (.fault e info) :=
  settle_goTo_decRelease s _

end

/-- R251: the bits end where no path has begun. -/
theorem settle_decodeExhausted {s : State} (h : s.eng.tk = .tree → s.eng.cur = s.eng.root) :
    (decodeExhausted s).settle = s.decodeEnded .done := by
  rw [decodeExhausted_done h, settle_goTo_decRelease]

/-! ### Completion -/

/-- R253, R254: the end of a DECODE that stands at the root, having crossed the boundary by `obs` since `t`. -/
theorem State.Decodes.completes {s t v : State} {tr obs : List Obs} {taken : List Byte} {bits : List Bool}
    {syms : List Nat} {p : Point} {l : List (Item Byte)} (h : s.decodeStart.Decodes t tr taken bits syms)
    (hcur : t.eng.cur = s.eng.root) (hparams : v.params = t.params) (heng : v.eng = { t.eng with point := p })
    (henv : v.env = { t.env with bi := { t.env.bi with now := l }, trace := t.env.trace ++ obs }) :
    (v.decodeEnded .done).params = s.params ∧
      (v.decodeEnded .done).env = { s.env with
        bi := s.env.bi.endSession
        so := s.env.so.endSession
        trace := s.env.trace ++ (tr ++ obs) ++ [.release .bi, .close .so] } ∧
      (v.decodeEnded .done).eng = { s.eng with
        cur := s.eng.root
        lim := s.eng.x0
        sh := (v.decodeEnded .done).eng.sh
        nsh := (v.decodeEnded .done).eng.nsh
        nb := BitVec.ofNat 64 bits.length
        ns := BitVec.ofNat 64 syms.length
        nby := BitVec.ofNat 64 ((bits.length + 7) / 8)
        biOpen := false
        soOpen := false
        x0 := BitVec.ofNat 64 bits.length
        x1 := BitVec.ofNat 64 syms.length
        x2 := BitVec.ofNat 64 ((bits.length + 7) / 8) }.ended := by
  refine ⟨?_, ?_, ?_⟩
  · rw [decodeEnded_params, hparams, h.params, decodeStart_params]
  · rw [decodeEnded_env, henv, h.env]
    simp [State.decodeStart]
  · rw [decodeEnded_done_eng, heng, h.eng_of_start, hcur, h.counts_of_start.2]
    rfl

/-- Settles O45: the run over the leaves' paths, then the limit or EOS. -/
theorem decodeEmitsTheLeaves : Obligations.DecodeEmitsTheLeaves := by
  intro s bytes unread steps more bits htk hroot hbi hend hbits hpaths hsteps hso
  have hread : steps.flatMap Prod.fst ++ [] <+: (streamBits bytes).take s.eng.x0.toNat := by
    rw [List.append_nil, ← hpaths, hbits]
  have hlen : bits.length = min s.eng.x0.toNat (8 * bytes.length) := by
    rw [hbits, List.length_take, streamBits_length]
  obtain ⟨t, tr, taken, hrun, h, hcur, -⟩ := exec_decode_arrives htk hroot hsteps rfl hbi hread hso
  rw [List.append_nil, ← hpaths] at h
  rw [arrived_node (by rw [hcur, h.nodeAt]; exact hroot)] at hrun
  have hroot' : t.eng.cur = t.eng.root := hcur.trans h.root.symm
  by_cases hlim : s.eng.x0.toNat ≤ 8 * bytes.length
  · obtain ⟨hparams, henv, heng⟩ := h.completes (v := t) (obs := []) (l := t.env.bi.now) hcur rfl rfl (by simp)
    rw [List.append_nil] at henv
    refine ⟨t.decodeEnded .done, tr, ?_, hparams, henv, by simpa using heng, h.put, ?_⟩
    · rw [hrun, decodeLoop_limit (h.nb_eq_lim (by omega)), settle_decodeExhausted fun _ => hroot']
    · rw [if_pos hlim, h.took, (h.taken_of_start hbi (by omega)).1]
  · obtain ⟨rest, rfl⟩ := List.head?_eq_some_iff.1 (hend.resolve_left hlim)
    obtain ⟨rfl, htake⟩ := h.takes hbi (by omega) (by omega)
    obtain ⟨hparams, henv, heng⟩ := h.completes (v := t.gotBi .eos rest) hcur rfl rfl rfl
    refine ⟨(t.gotBi .eos rest).decodeEnded .done, tr ++ [.tookBi .eos], ?_, hparams, henv, by simpa using heng, ?_, ?_⟩
    · rw [hrun, htake, ← settle_decodeExhausted (s := t.gotBi .eos rest) fun _ => hroot']
      rfl
    · rw [symbolsPut_append, h.put]
      exact List.append_nil _
    · rw [if_neg hlim, takenBi_append, h.took]
      rfl

/-! ### Faults of the channels -/

/-- R252, R253: the end of a DECODE that a channel failed, the failure having left `o` on the trace. -/
theorem State.Decodes.fails {s t v : State} {tr : List Obs} {taken : List Byte} {bits : List Bool} {syms : List Nat}
    {p : Point} {o : Obs} {info : Word} (h : s.decodeStart.Decodes t tr taken bits syms)
    (hrun : exec .decode s = .next (v.decodeEnded (.fault .io info))) (hparams : v.params = t.params)
    (heng : v.eng = { t.eng with point := p }) (htrace : v.env.trace = t.env.trace ++ [o]) :
    ∃ u, exec .decode s = .next u ∧ u.params = s.params ∧ u.eng.err = .io ∧ u.eng.finfo = info ∧
      u.eng.ns = BitVec.ofNat 64 syms.length ∧ u.eng.busy = false ∧ u.eng.done = true ∧ (∀ i, u.x i = s.x i) ∧
      u.eng.sessions = (s.eng.siOpen, s.eng.boOpen, false, false) ∧
      u.env.trace = s.env.trace ++ tr ++ [o, .release .bi, .close .so] ∧
      symbolsPut tr = syms ∧ takenBi tr = taken.map .data := by
  have heng' : (v.decodeEnded (.fault .io info)).eng = { s.eng with
      cur := t.eng.cur
      lim := s.eng.x0
      sh := t.eng.sh
      nsh := t.eng.nsh
      nb := BitVec.ofNat 64 bits.length
      nby := BitVec.ofNat 64 taken.length
      ns := BitVec.ofNat 64 syms.length
      biOpen := false
      soOpen := false }.faulted .io info := by
    rw [decodeEnded_fault_eng, heng, h.eng_of_start]
    rfl
  refine ⟨_, hrun, ?_, ?_, ?_, ?_, ?_, ?_, ?_, ?_, ?_, h.put, h.took⟩
  · rw [decodeEnded_params, hparams, h.params, decodeStart_params]
  · exact congrArg Engine.err heng'
  · exact congrArg Engine.finfo heng'
  · exact congrArg Engine.ns heng'
  · exact congrArg Engine.busy heng'
  · exact congrArg Engine.done heng'
  · intro i
    match i with
    | 0 => exact (congrArg Engine.x0 heng' :)
    | 1 => exact (congrArg Engine.x1 heng' :)
    | 2 => exact (congrArg Engine.x2 heng' :)
    | 3 => exact (congrArg Engine.x3 heng' :)
  · exact congrArg Engine.sessions heng'
  · rw [decodeEnded_env, htrace, h.env]
    simp [State.decodeStart]

/-- R252: ERR taken from BI. -/
theorem settle_decodeErr (s : State) (rest : List (Item Byte)) :
    (decodeTake .err rest (s.goTo .decGet)).settle = (s.gotBi .err rest).decodeEnded (.fault .io 2) :=
  settle_decodeAbort _ _ _

/-- R252: a put that SO fails. -/
theorem settle_decodePutFails {t : State} {more : List Answer} (hso : t.env.so.now = .fail :: more) :
    ∃ v : State, (t.goTo .decPut).settle = v.decodeEnded (.fault .io 3) ∧ v.params = t.params ∧
      v.eng = { t.eng with point := .decPut } ∧ v.env.trace = t.env.trace ++ [.putSo t.leafSymbol .fail] := by
  obtain ⟨v, hput⟩ : ∃ v, (t.goTo .decPut).putSo t.leafSymbol = some (.fail, v) := ⟨_, putSo_answered _ hso⟩
  obtain ⟨-, hparams, heng, henv⟩ := putSo_some hput
  refine ⟨v, ?_, hparams, heng, by rw [henv]; rfl⟩
  rw [settle_step ((microStep_decPut rfl).trans (decodePut_failed hput)), settle_decodeAbort]

/-! ### The empty tree -/

/-- R240, R244: before its first bit DECODE ends at LIM = 0. -/
theorem exec_decode_noLimit {s : State} (htk : s.eng.tk = .empty) (hlim : s.eng.x0 = 0) :
    exec .decode s = .next (s.decodeStart.decodeEnded .done) := by
  rw [exec_decode (by simp [htk]), decodeLoop_limit hlim.symm,
    settle_decodeExhausted (s := s.decodeStart) (by simp [State.decodeStart])]

/-- R244, R245: with LIM not 0 DECODE takes the first item. -/
theorem exec_decode_takes {s : State} {it : Item Byte} {rest : List (Item Byte)} (htk : s.eng.tk ≠ .none)
    (hlim : s.eng.x0 ≠ 0) (hbi : s.env.bi.now = it :: rest) :
    exec .decode s = .next (decodeTake it rest (s.decodeStart.goTo .decGet)).settle := by
  rw [exec_decode htk, settle_decodeLoop_takes (s := s.decodeStart) hlim.symm rfl hbi]

/-- R246: a bit read on the empty tree. -/
theorem decodeTake_data_empty {s : State} (htk : s.eng.tk = .empty) (hlim : s.eng.nb ≠ s.eng.lim) (v : Byte)
    (rest : List (Item Byte)) :
    decodeTake (.data v) rest (s.goTo .decGet) = decodeAbort .empty 0 (s.fetched v rest).readBit.2 := by
  have hbit := decodeBits_bit (s := s.fetched v rest) 7 hlim
  rw [decodeTake_data]
  exact hbit.trans (if_pos htk)

/-- Settles O47: no bit, at LIM = 0 or at EOS; or the first bit, which no tree takes. -/
theorem decodeOfTheEmptyTree : Obligations.DecodeOfTheEmptyTree := by
  intro s unread htk
  have hkind : s.eng.tk ≠ .none := by simp [htk]
  refine ⟨fun hnone => ?_, fun v hlim hbi => ?_⟩
  · by_cases hlim : s.eng.x0 = 0
    · refine ⟨_, [], exec_decode_noLimit htk hlim, ?_⟩
      simp [State.decodeStart, Engine.ended, symbolsPut]
    · refine ⟨(s.decodeStart.gotBi .eos unread).decodeEnded .done, [.tookBi .eos], ?_, ?_⟩
      · rw [exec_decode_takes hkind hlim (hnone.resolve_left hlim), decodeTake_eos, settle_decodeExhausted]
        · rfl
        · simp [State.decodeStart, htk]
      · simpa [State.gotBi, State.decodeStart, Engine.ended, symbolsPut] using hlim
  · refine ⟨((s.decodeStart.fetched v unread).readBit.2).decodeEnded (.fault .empty 0), ?_, ?_⟩
    · rw [exec_decode_takes hkind hlim hbi, decodeTake_data_empty (s := s.decodeStart) htk hlim.symm,
        settle_decodeAbort]
    · simp [State.fetched, State.gotBi, State.decodeStart, Engine.faulted]

/-- Settles O48: ERR on the empty tree, ERR inside a path, and a failed put at the leaf of path `k`. -/
theorem decodeReportsIoFaults : Obligations.DecodeReportsIoFaults := by
  refine ⟨fun s unread htk hlim hbi => ?_, fun s bytes steps htk hroot hsteps => ⟨?_, ?_⟩⟩
  · have hstart : s.decodeStart.Decodes s.decodeStart [] [] [] [] := .refl (Nat.zero_lt_succ 7)
    obtain ⟨u, hrun, hparams, herr, hfinfo, -, hbusy, hdone, hx, -, htrace, -⟩ :=
      hstart.fails (v := s.decodeStart.gotBi .err unread)
        (by rw [exec_decode_takes (by simp [htk]) hlim hbi, settle_decodeErr]) rfl rfl rfl
    exact ⟨u, hrun, hparams, herr, hfinfo, hbusy, hdone, hx, by simpa using htrace⟩
  · intro unread more rest j hbi hlim hbits hrest hnode hso
    have hlen : (steps.flatMap Prod.fst ++ rest).length = 8 * bytes.length := by rw [← hbits, streamBits_length]
    have hread : steps.flatMap Prod.fst ++ rest <+: (streamBits bytes).take s.eng.x0.toNat := by
      rw [hbits, List.take_of_length_le (by omega)]
    obtain ⟨t, tr, taken, hrun, h, hcur, -⟩ := exec_decode_arrives htk hroot hsteps hrest hbi hread hso
    rw [arrived_node (by rw [hcur, h.nodeAt]; exact hnode)] at hrun
    obtain ⟨rfl, htake⟩ := h.takes hbi hlen (by omega)
    obtain ⟨u, hu⟩ := h.fails (v := t.gotBi .err unread) (by rw [hrun, htake, settle_decodeErr]) rfl rfl rfl
    exact ⟨u, tr, by rwa [List.length_map] at hu⟩
  · intro unread more k n hk hbi hbits hso hn
    obtain ⟨hpath, hleaf⟩ := hsteps _ (List.getElem_mem hk)
    have hsplit : (steps.take (k + 1)).flatMap Prod.fst = (steps.take k).flatMap Prod.fst ++ steps[k].1 := by
      rw [List.take_succ_eq_append_getElem hk, List.flatMap_append, List.flatMap_singleton]
    have hread : (steps.take k).flatMap Prod.fst ++ steps[k].1 <+: (streamBits bytes).take s.eng.x0.toNat := by
      rw [← hsplit]
      exact ((List.take_prefix _ _).flatMap _).trans hbits
    have hlength : (steps.take k).length = k := List.length_take_of_le hk.le
    obtain ⟨t, tr, taken, hrun, h, hcur, hso1⟩ := exec_decode_arrives htk hroot
      (fun p hp => hsteps p (List.mem_of_mem_take hp)) hpath hbi hread (by rw [hlength, hso])
    rw [arrived_leaf (by rw [hcur, h.nodeAt]; exact hleaf)] at hrun
    have hle := hread.length_le
    rw [List.length_take, streamBits_length] at hle
    obtain ⟨htaken, -⟩ := h.taken_of_start hbi (by omega)
    have hsymbol : t.leafSymbol = (s.nodeAt steps[k].2).ch % s.params.nsym := by
      rw [State.leafSymbol, hcur, h.nodeAt, h.params]
      rfl
    obtain ⟨v, hend, hparams, heng, htrace⟩ := settle_decodePutFails hso1
    obtain ⟨u, hu⟩ := h.fails (by rw [hrun, hend]) hparams heng htrace
    rw [List.length_map, hlength, htaken, ← hsplit, ← hn, hsymbol] at hu
    exact ⟨u, tr, hu⟩

end Sys2Proof.Machine
end

section
/-!
Faults at the host port (60_exceptions.md R280, R286, R290 to R292): what an idle engine does with an illegal word and
with a read, and what a step can do while ERR is not 0.
-/
namespace Sys2Proof.Machine

section
variable {s t : State}

/-! ### An illegal word, R280 -/

theorem decode_illegal {w : Word} (h : w.toNat / 256 ≠ 0 ∨ 0x0C ≤ w.toNat % 256) : ∃ e, decode w = .error e := by
  obtain ⟨hreserved, hopcode, -⟩ := everyWordIsACommandOrIllegal w
  by_cases hhigh : w.toNat / 256 = 0
  · exact ⟨_, hopcode.2 ⟨hhigh, h.resolve_left (not_not_intro hhigh)⟩⟩
  · exact ⟨_, hreserved.2 hhigh⟩

/-- Settles O5: the write is accepted, and the word decodes to no command. -/
theorem illegalWordRaisesEOp : Obligations.IllegalWordRaisesEOp := by
  intro s w es hev hbusy herr hw
  have hyes : (s.withEvents es).accepts 4 w = true :=
    (accepts_iff _ _ _).2 ⟨by decide, hbusy, fun _ => .inl herr⟩
  obtain ⟨e, hdecode⟩ := decode_illegal hw
  calc step s = hostWrite 4 w (s.withEvents es) := step_event hev
    _ = beginCommand w ((s.withEvents es).accept w) := hostWrite_cmd hyes
    _ = .next (((s.withEvents es).accept w).raiseFault .op w) := beginCommand_error hdecode _

/-! ### A read, R292 -/

/-- Settles O8: a read records what R21 gives for its register, a case for each. -/
theorem hostReadChangesNothing : Obligations.HostReadChangesNothing := by
  intro s n es hev
  rw [step_event hev]
  match n with
  | 0 | 1 | 2 | 3 | 4 | 5 | 6 | 7 => rfl

/-! ### The engine under a fault, R286 -/

/-- R286, R290: while ERR is not 0 no command is in progress, but for a CLR not yet begun. -/
theorem State.ControlInv.idle_or_clr (h : s.ControlInv) (herr : s.eng.err ≠ .none) :
    s.eng.point = .idle ∨ s.eng.point = .start clrWord := by
  obtain ⟨-, hidle, hfault, -⟩ := h
  cases hbusy : s.eng.busy with
  | false => exact .inl (hidle.1 hbusy)
  | true => exact .inr ((hfault hbusy).resolve_left herr)

theorem engineMove_idle (h : s.eng.point = .idle) : engineMove s = .next s := by
  rw [engineMove_goesOn (by simp [h]), settle_ended h]

theorem engineTick_idle (h : s.eng.point = .idle) : engineTick s = .next s := by
  rw [engineTick_goesOn (by simp [h]), microStep_idle h, Option.getD_none]

theorem engineMove_clr (h : s.eng.point = .start clrWord) : engineMove s = .next s.clear :=
  (engineMove_start h).trans (beginCommand_ok (i := .clr) rfl s)

theorem engineTick_clr (h : s.eng.point = .start clrWord) : engineTick s = .next s.clear := by
  rw [engineTick_start h]
  rfl

/-- `t` has the ERR and FINFO of `s`. -/
def State.SameFault (s t : State) : Prop := t.eng.err = s.eng.err ∧ t.eng.finfo = s.eng.finfo

/-- While ERR is not 0 the engine does nothing, but for a CLR about to begin. -/
theorem engineMove_underFault (hpoint : s.eng.point = .idle ∨ s.eng.point = .start clrWord)
    (h : engineMove s = .next t) :
    s.SameFault t ∨ (t.eng.err = .none ∧ t.eng.finfo = 0 ∧ s.eng.point = .start clrWord) := by
  rcases hpoint with hidle | hclr
  · rw [engineMove_idle hidle] at h
    cases h
    exact .inl ⟨rfl, rfl⟩
  · rw [engineMove_clr hclr] at h
    cases h
    exact .inr ⟨rfl, rfl, hclr⟩

theorem engineTick_underFault (hpoint : s.eng.point = .idle ∨ s.eng.point = .start clrWord) :
    engineTick s = engineMove s := by
  rcases hpoint with hidle | hclr
  · rw [engineTick_idle hidle, engineMove_idle hidle]
  · rw [engineTick_clr hclr, engineMove_clr hclr]

/-! ### A host write under a fault -/

theorem sameFault_refuseWrite (s : State) (n : Fin 8) : s.SameFault (s.refuseWrite n) := by
  rw [refuseWrite_eq]
  exact ⟨rfl, rfl⟩

theorem sameFault_storeX (s : State) (n : Fin 8) (v : Word) : s.SameFault (s.storeX n v) := by
  match n with
  | 0 | 1 | 2 | 3 | 4 | 5 | 6 | 7 => exact ⟨rfl, rfl⟩

theorem sameFault_hostIssue (s : State) (w : Word) : s.SameFault (hostIssue w s) := by
  unfold hostIssue
  split
  · exact ⟨rfl, rfl⟩
  · exact sameFault_refuseWrite s 4

/-- R290: while ERR is not 0 the one word that begins a command is CLR's. -/
theorem hostWrite_underFault {n : Fin 8} {v : Word} (herr : s.eng.err ≠ .none) (h : hostWrite n v s = .next t) :
    s.SameFault t ∨ (n = 4 ∧ v = clrWord ∧ t = (s.accept v).clear) := by
  cases hacc : s.accepts n v with
  | false =>
    rw [hostWrite_refused hacc] at h
    cases h
    exact .inl (sameFault_refuseWrite s n)
  | true =>
    by_cases hn : n = 4
    · subst hn
      obtain ⟨-, -, hword⟩ := (accepts_iff s 4 v).1 hacc
      obtain rfl : v = clrWord := (hword rfl).resolve_left herr
      rw [hostWrite_cmd hacc, beginCommand_ok (i := .clr) rfl] at h
      exact .inr ⟨rfl, rfl, (Host.Outcome.next.inj h).symm⟩
    · rw [hostWrite_arg hacc hn] at h
      cases h
      exact .inl (sameFault_storeX s n v)

end

/-- Settles O57: a case for each event; only reset, a write of the CLR word and a CLR about to
begin touch ERR and FINFO. -/
theorem onlyClrAndResetLeaveAFault : Obligations.OnlyClrAndResetLeaveAFault := by
  intro s t hinv herr hstep
  have hpoint := hinv.idle_or_clr herr
  cases hev : s.env.events with
  | nil =>
    rw [step_noEvent hev] at hstep
    exact (engineMove_underFault hpoint hstep).imp_right fun ⟨hnone, hzero, hclr⟩ =>
      ⟨hnone, hzero, .inr (.inr hclr)⟩
  | cons ev es =>
    rw [step_event hev] at hstep
    have hpoint' : (s.withEvents es).eng.point = .idle ∨ (s.withEvents es).eng.point = .start clrWord := hpoint
    cases ev with
    | write n v =>
      obtain hsame | ⟨rfl, rfl, rfl⟩ := hostWrite_underFault (s := s.withEvents es) herr hstep
      · exact .inl hsame
      · exact .inr ⟨rfl, rfl, .inr (.inl rfl)⟩
    | issue w =>
      cases hstep
      exact .inl (sameFault_hostIssue (s.withEvents es) w)
    | reset =>
      cases hstep
      exact .inr ⟨rfl, rfl, .inl rfl⟩
    | tick =>
      have hmove : engineMove (s.withEvents es) = .next t := (engineTick_underFault hpoint').symm.trans hstep
      exact (engineMove_underFault hpoint' hmove).imp_right fun ⟨hnone, hzero, hclr⟩ =>
        ⟨hnone, hzero, .inr (.inr hclr)⟩
    | run =>
      exact (engineMove_underFault hpoint' hstep).imp_right fun ⟨hnone, hzero, hclr⟩ =>
        ⟨hnone, hzero, .inr (.inr hclr)⟩
    | read n | offerSi it | offerBi it | answerBo a | answerSo a =>
      cases hstep
      exact .inl ⟨rfl, rfl⟩

end Sys2Proof.Machine
end

section
/-!
Which faults a command can raise once its checks are past (60_exceptions.md R271 to R279): no micro-operation raises
E_NOTREE or E_NOTABLE, which the first check of a command raises (R276, R277).
-/
namespace Sys2Proof.Machine

/-- The faults a stream command raises with its channels open (R271 to R275, R279). -/
def ErrCode.inStream : ErrCode → Bool
  | .io | .miss | .trunc | .noChild | .empty | .ovf => true
  | .none | .noTree | .noTable | .arg | .op => false

/-- ERR is not `e`, and the command in progress, if it is about to raise a fault, will not raise `e`. -/
def State.Avoids (e : ErrCode) (s : State) : Prop := s.eng.err ≠ e ∧ s.eng.point.pendingFault ≠ some e

section
variable {e c : ErrCode} {s t : State}

theorem ne_of_inStream (he : e.inStream = false) (hc : c.inStream = true) : c ≠ e := by
  rintro rfl
  exact Bool.false_ne_true (he.symm.trans hc)

/-! ### The ends of a command -/

@[simp] theorem setXs_err (eng : Engine) (rs : List (Fin 4 × Word)) : (eng.setXs rs).err = eng.err := by
  induction rs generalizing eng with
  | nil => rfl
  | cons w ws ih =>
    rw [setXs_cons, ih]
    match w.1 with
    | 0 | 1 | 2 | 3 => rfl

theorem avoids_complete (rs : List (Fin 4 × Word)) (h : s.eng.err ≠ e) : (s.complete rs).Avoids e :=
  ⟨by simpa using h, nofun⟩

theorem avoids_raiseFault (info : Word) (hc : c ≠ e) : (s.raiseFault c info).Avoids e := ⟨hc, nofun⟩

theorem avoids_encodeAbort (info : Word) (h : s.eng.err ≠ e) (hc : c ≠ e) : (encodeAbort c info s).Avoids e := by
  unfold encodeAbort
  split <;> exact ⟨h, mt Option.some.inj hc⟩

theorem avoids_decodeAbort (info : Word) (h : s.eng.err ≠ e) (hc : c ≠ e) : (decodeAbort c info s).Avoids e :=
  ⟨h, mt Option.some.inj hc⟩

/-- The end of COUNT, ENCODE or DECODE: the results, or the fault that was about to be raised. -/
theorem avoids_finish {finish : Ending → State → State} {rs : List (Fin 4 × Word)} {f : Ending}
    (hdone : finish .done s = s.complete rs) (hfault : ∀ c info, finish (.fault c info) s = s.raiseFault c info)
    (h : s.eng.err ≠ e) (hf : f.fault? ≠ some e) : (finish f s).Avoids e := by
  cases f with
  | done =>
    rw [hdone]
    exact avoids_complete rs h
  | fault c info =>
    rw [hfault]
    exact avoids_raiseFault info (mt (congrArg some) hf)

/-! ### The micro-operations -/

theorem putBo_err_ne {v : Byte} {a : Answer} (hput : s.putBo v = some (a, t)) (h : s.eng.err ≠ e) : t.eng.err ≠ e := by
  obtain ⟨-, -, heng, -⟩ := putBo_some hput
  rwa [heng]

theorem putSo_err_ne {v : Nat} {a : Answer} (hput : s.putSo v = some (a, t)) (h : s.eng.err ≠ e) : t.eng.err ≠ e := by
  obtain ⟨-, -, heng, -⟩ := putSo_some hput
  rwa [heng]

theorem avoids_encodeAbortPut {info : Word} (h : s.eng.err ≠ e) (hc : some c ≠ some e)
    (hstep : encodeAbortPut c info s = some t) : t.Avoids e := by
  unfold encodeAbortPut at hstep
  split at hstep <;> cases hstep
  case h_2 a u hput =>
    have hu : u.eng.err ≠ e := putBo_err_ne hput h
    exact ⟨hu, hc⟩

theorem avoids_encodeFinal (h : s.eng.err ≠ e) : (encodeFinal s).Avoids e := by
  unfold encodeFinal
  split <;> exact ⟨h, nofun⟩

section
variable (he : e.inStream = false)
include he

theorem avoids_encodeBits (bs : List Bool) (h : s.eng.err ≠ e) : (encodeBits bs s).Avoids e := by
  induction bs generalizing s with
  | nil => exact ⟨h, nofun⟩
  | cons b bs ih =>
    by_cases hnb : s.eng.nb = BitVec.allOnes 64
    · rw [encodeBits_overflow b bs hnb]
      exact avoids_encodeAbort 0 h (ne_of_inStream he rfl)
    · by_cases h7 : s.eng.nacc = 7
      · rw [encodeBits_full b bs hnb h7]
        exact ⟨h, nofun⟩
      · rw [encodeBits_short b bs hnb h7]
        exact ih h

theorem avoids_encodeTake (raw : Item Nat) (rest : List (Item Nat)) (h : s.eng.err ≠ e) :
    (encodeTake raw rest s).Avoids e := by
  unfold encodeTake
  dsimp only
  split
  · exact avoids_encodeFinal h
  · exact avoids_encodeAbort _ h (ne_of_inStream he rfl)
  · split
    · exact avoids_encodeBits he _ h
    · exact avoids_encodeAbort _ h (ne_of_inStream he rfl)

theorem avoids_countTake (raw : Item Nat) (rest : List (Item Nat)) (h : s.eng.err ≠ e) :
    (countTake raw rest s).Avoids e := by
  unfold countTake
  dsimp only
  split
  · exact ⟨h, nofun⟩
  · exact ⟨h, mt Option.some.inj (ne_of_inStream he rfl)⟩
  · split
    · exact ⟨h, mt Option.some.inj (ne_of_inStream he rfl)⟩
    · exact ⟨h, nofun⟩

theorem avoids_decodeExhausted (h : s.eng.err ≠ e) : (decodeExhausted s).Avoids e := by
  unfold decodeExhausted
  split
  · exact avoids_decodeAbort _ h (ne_of_inStream he rfl)
  · exact ⟨h, nofun⟩

theorem avoids_decodeBits (n : Nat) (h : s.eng.err ≠ e) : (decodeBits n s).Avoids e := by
  induction n generalizing s with
  | zero =>
    by_cases hnb : s.eng.nb = s.eng.lim
    · rw [decodeBits_limit 0 hnb]
      exact avoids_decodeExhausted he h
    · rw [decodeBits_zero hnb]
      exact ⟨h, nofun⟩
  | succ n ih =>
    by_cases hnb : s.eng.nb = s.eng.lim
    · rw [decodeBits_limit _ hnb]
      exact avoids_decodeExhausted he h
    · rw [decodeBits_bit n hnb]
      split_ifs
      · exact avoids_decodeAbort _ h (ne_of_inStream he rfl)
      · exact avoids_decodeAbort _ h (ne_of_inStream he rfl)
      · exact ⟨h, nofun⟩
      · exact ih h

theorem avoids_decodeTake (it : Item Byte) (rest : List (Item Byte)) (h : s.eng.err ≠ e) :
    (decodeTake it rest s).Avoids e := by
  cases it with
  | eos => exact avoids_decodeExhausted he h
  | err => exact avoids_decodeAbort _ h (ne_of_inStream he rfl)
  | data v => exact avoids_decodeBits he _ h

theorem avoids_encodePut {bits : List Bool} (h : s.eng.err ≠ e) (hstep : encodePut bits s = some t) : t.Avoids e := by
  unfold encodePut at hstep
  split at hstep <;> cases hstep
  case h_2 u hput =>
    have hu : u.eng.err ≠ e := putBo_err_ne hput h
    exact ⟨hu, mt Option.some.inj (ne_of_inStream he rfl)⟩
  case h_3 u hput =>
    have hu : u.eng.err ≠ e := putBo_err_ne hput h
    exact avoids_encodeBits he bits hu

theorem avoids_encodeFlush (h : s.eng.err ≠ e) (hstep : encodeFlush s = some t) : t.Avoids e := by
  unfold encodeFlush at hstep
  split at hstep <;> cases hstep
  case h_2 u hput =>
    have hu : u.eng.err ≠ e := putBo_err_ne hput h
    exact ⟨hu, mt Option.some.inj (ne_of_inStream he rfl)⟩
  case h_3 u hput =>
    have hu : u.eng.err ≠ e := putBo_err_ne hput h
    exact ⟨hu, nofun⟩

theorem avoids_decodePut (h : s.eng.err ≠ e) (hstep : decodePut s = some t) : t.Avoids e := by
  unfold decodePut at hstep
  split at hstep <;> cases hstep
  case h_2 u hput => exact avoids_decodeAbort _ (putSo_err_ne hput h) (ne_of_inStream he rfl)
  case h_3 u hput =>
    have hu : u.eng.err ≠ e := putSo_err_ne hput h
    exact avoids_decodeBits he _ hu

/-- A micro-operation raises the fault that was about to be raised, or is about to raise one of a stream. -/
theorem microStep_avoids (h : s.Avoids e) (hstep : s.microStep = some t) : t.Avoids e := by
  obtain ⟨herr, hpending⟩ := h
  generalize hp : s.eng.point = p at hpending
  cases p with
  | idle => cases (microStep_idle hp).symm.trans hstep
  | start w => cases (microStep_start hp).symm.trans hstep
  | countGet =>
    rw [microStep_countGet hp, countGet] at hstep
    split at hstep <;> cases hstep
    exact avoids_countTake he _ _ herr
  | countRelease f =>
    cases (microStep_countRelease hp).symm.trans hstep
    exact ⟨herr, hpending⟩
  | countFinish f =>
    cases (microStep_countFinish hp).symm.trans hstep
    exact avoids_finish (finish := countFinish) rfl (fun _ _ => rfl) herr hpending
  | encGet =>
    rw [microStep_encGet hp, encodeGet] at hstep
    split at hstep <;> cases hstep
    exact avoids_encodeTake he _ _ herr
  | encPut bits => exact avoids_encodePut he herr ((microStep_encPut hp).symm.trans hstep)
  | encFlush => exact avoids_encodeFlush he herr ((microStep_encFlush hp).symm.trans hstep)
  | encAbort c info => exact avoids_encodeAbortPut herr hpending ((microStep_encAbort hp).symm.trans hstep)
  | encRelease f =>
    cases (microStep_encRelease hp).symm.trans hstep
    exact ⟨herr, hpending⟩
  | encClose f =>
    cases (microStep_encClose hp).symm.trans hstep
    exact ⟨herr, hpending⟩
  | encFinish f =>
    cases (microStep_encFinish hp).symm.trans hstep
    exact avoids_finish (finish := encodeFinish) rfl (fun _ _ => rfl) herr hpending
  | decGet =>
    rw [microStep_decGet hp, decodeGet] at hstep
    split at hstep <;> cases hstep
    exact avoids_decodeTake he _ _ herr
  | decPut => exact avoids_decodePut he herr ((microStep_decPut hp).symm.trans hstep)
  | decRelease f =>
    cases (microStep_decRelease hp).symm.trans hstep
    exact ⟨herr, hpending⟩
  | decClose f =>
    cases (microStep_decClose hp).symm.trans hstep
    exact ⟨herr, hpending⟩
  | decFinish f =>
    cases (microStep_decFinish hp).symm.trans hstep
    exact avoids_finish (finish := decodeFinish) rfl (fun _ _ => rfl) herr hpending

theorem settle_avoids (h : s.Avoids e) : s.settle.Avoids e :=
  settle_induction h fun _ _ hu hstep => microStep_avoids he hu hstep

end

/-! ### The commands, by their first check -/

theorem exec_extract_noTree (h : s.eng.tk = .none) : exec .extract s = .next (s.raiseFault .noTree 0) :=
  withTree_none _ h

theorem exec_decode_noTree (h : s.eng.tk = .none) : exec .decode s = .next (s.raiseFault .noTree 0) :=
  withTree_none _ h

theorem exec_encode_noTable (h : s.eng.ctv = false) : exec .encode s = .next (s.raiseFault .noTable 0) :=
  withCodeTable_none _ h

theorem exec_encode_table (h : s.eng.ctv = true) : exec .encode s = .next (encodeOpen s).settle :=
  withCodeTable_some _ h

/-- Past the check of a tree GETN completes or raises E_ARG. -/
theorem exec_getn_avoids (htk : s.eng.tk ≠ .none) (herr : s.eng.err ≠ e) (harg : .arg ≠ e) :
    ∃ t, exec .getn s = .next t ∧ t.eng.err ≠ e := by
  rcases Nat.lt_or_ge s.eng.x0.toNat s.eng.ncnt with hin | hout
  · exact ⟨_, exec_getn_in htk hin, (avoids_complete _ herr).1⟩
  · exact ⟨_, exec_getn_index_out htk hout, harg⟩

/-- Past the check of a table GETC completes or raises E_ARG. -/
theorem exec_getc_avoids (hctv : s.eng.ctv = true) (herr : s.eng.err ≠ e) (harg : .arg ≠ e) :
    ∃ t, exec .getc s = .next t ∧ t.eng.err ≠ e := by
  rcases Nat.lt_or_ge s.eng.x0.toNat s.params.nsym with hsym | hsym
  · rcases Nat.lt_or_ge s.eng.x1.toNat (s.params.kmax + 1) with hchunk | hchunk
    · exact ⟨_, exec_getc_in hctv hsym hchunk, (avoids_complete _ herr).1⟩
    · exact ⟨_, exec_getc_chunk_out hctv hsym hchunk, harg⟩
  · exact ⟨_, exec_getc_symbol_out hctv hsym, harg⟩

end

/-! ### The statements -/

/-- Settles O19: the check's own answer; and past it GETN's ends, EXTRACT of the empty tree, and the run of DECODE, none
of whose micro-operations raises E_NOTREE. -/
theorem noTreeRaisesENotree : Obligations.NoTreeRaisesENotree := by
  rintro s i (rfl | rfl | rfl)
  · exact ⟨exec_getn_noTree, fun htk herr => exec_getn_avoids (by simp [htk]) herr nofun⟩
  · exact ⟨exec_extract_noTree, fun htk herr => ⟨_, exec_extract_empty htk, herr⟩⟩
  · refine ⟨exec_decode_noTree, fun htk herr => ⟨_, exec_decode (by simp [htk]), ?_⟩⟩
    have hstart : (decodeLoop s.decodeStart).Avoids .noTree := avoids_decodeBits rfl _ herr
    exact (settle_avoids rfl hstart).1

/-- Settles O20: the check's own answer; and past it GETC's ends, and the run of ENCODE, none of whose micro-operations
raises E_NOTABLE. -/
theorem noTableRaisesENotable : Obligations.NoTableRaisesENotable := by
  rintro s i (rfl | rfl)
  · exact ⟨exec_getc_noTable, fun hctv herr => exec_getc_avoids hctv herr nofun⟩
  · refine ⟨exec_encode_noTable, fun hctv herr => ⟨_, exec_encode_table hctv, ?_⟩⟩
    have hopen : (encodeOpen s).Avoids .noTable := ⟨herr, nofun⟩
    exact (settle_avoids rfl hopen).1

end Sys2Proof.Machine
end

section
/-!
The command word both ways (30_encoding.md R100 to R105), STATUS field by field (10_state.md R34), and one step of the
host port: an accepted and a refused write, reset, and the engine left to itself (log 3, log 4).
-/
namespace Sys2Proof

/-! ### The command word -/

/-- The decoder takes each command's word (one certificate per command). -/
theorem decode_encode (i : Instr) : decode (encode i) = .ok i := by
  cases i
  case nop => exact Laws.EncodeRoundTrip.nop.2.2
  case clr => exact Laws.EncodeRoundTrip.clr.2.2
  case setf => exact Laws.EncodeRoundTrip.setf.2.2
  case getf => exact Laws.EncodeRoundTrip.getf.2.2
  case count => exact Laws.EncodeRoundTrip.count.2.2
  case build => exact Laws.EncodeRoundTrip.build.2.2
  case gett => exact Laws.EncodeRoundTrip.gett.2.2
  case getn => exact Laws.EncodeRoundTrip.getn.2.2
  case extract => exact Laws.EncodeRoundTrip.extract.2.2
  case getc => exact Laws.EncodeRoundTrip.getc.2.2
  case encode => exact Laws.EncodeRoundTrip.encode.2.2
  case decode => exact Laws.EncodeRoundTrip.decode.2.2

/-- R103: the `op` column names each command once. -/
theorem opcode_of_lookupOp {op : Nat} {i : Instr} (h : lookupOp op = some i) : op = i.opcode.toNat := by
  unfold lookupOp at h
  split at h <;> cases h <;> rfl

theorem lookupOp_of_decode {w : Word} {i : Instr} (h : decode w = .ok i) :
    rsvField w = 0 ∧ lookupOp (opField w).toNat = some i := by
  by_cases hrsv : rsvField w = 0
  · cases hop : lookupOp (opField w).toNat with
    | none => cases (decode_of_lookupOp_none hrsv hop).symm.trans h
    | some j =>
      cases (decode_of_lookupOp_some hrsv hop).symm.trans h
      exact ⟨hrsv, rfl⟩
  · cases (decode_of_rsvField_ne_zero hrsv).symm.trans h

theorem encode_toNat (i : Instr) : (encode i).toNat = i.opcode.toNat := by
  have hop : i.opcode.toNat < 2 ^ 8 := i.opcode.isLt
  rw [encode, BitVec.toNat_setWidth, Nat.mod_eq_of_lt (hop.trans (by decide))]

/-- Settles O2: a word that decodes has no reserved bit set and the opcode of its command, so it is that command's word. -/
theorem decodeAndEncodeAgree : Obligations.DecodeAndEncodeAgree := by
  intro w i
  constructor
  · intro h
    obtain ⟨hrsv, hop⟩ := lookupOp_of_decode h
    have hlow : w.toNat % 256 = i.opcode.toNat := (opField_toNat w).symm.trans (opcode_of_lookupOp hop)
    have hhigh : w.toNat / 256 = 0 := (rsvField_eq_zero_iff w).1 hrsv
    apply BitVec.eq_of_toNat_eq
    rw [encode_toNat]
    omega
  · rintro rfl
    exact decode_encode i

/-- Settles O1: sixteen fixed words, each decoded by computation. -/
theorem commandWordsDecode : Obligations.CommandWordsDecode := by
  unfold Obligations.CommandWordsDecode
  decide +revert

end Sys2Proof

namespace Sys2Proof.Machine

/-! ### STATUS, R34 -/

section
variable (e : Engine)

/-- Bit `k` of STATUS, by the field it lies in. -/
theorem status_getLsbD (k : Nat) : e.status.getLsbD k =
    if k < 1 then e.busy else if k < 2 then e.done else if k < 3 then e.herr else if k < 4 then false
    else if k < 8 then e.err.code.getLsbD (k - 4) else if k < 10 then e.tk.code.getLsbD (k - 8)
    else if k < 11 then e.ctv else false := by
  change BitVec.getLsbD (w := 53 + 1 + 2 + 4 + 1 + 1 + 1 + 1) _ k = _
  unfold Engine.status
  simp only [BitVec.getLsbD_append, BitVec.getLsbD_ofBool, BitVec.ofNat_eq_ofNat, BitVec.getLsbD_zero]
  by_cases hk : k < 11
  · interval_cases k <;> simp
  · have hpast (m : Nat) (hm : m < 11) : ¬ k < m := by omega
    have h10 : ¬ k - 1 - 1 - 1 - 1 - 4 - 2 < 1 := by omega
    grind

end

/-- Settles O9: each field by the bits of STATUS it takes. -/
theorem statusFieldsStandWhereR34Says : Obligations.StatusFieldsStandWhereR34Says := by
  intro e
  refine ⟨status_getLsbD e 0, status_getLsbD e 1, status_getLsbD e 2, status_getLsbD e 3, ?_, ?_, status_getLsbD e 10,
    fun k hk => ?_⟩
  · have herr : e.status.extractLsb' 4 4 = e.err.code := by
      ext k hk
      rw [← BitVec.getLsbD_eq_getElem, BitVec.getLsbD_extractLsb', status_getLsbD]
      grind
    rw [herr]
    cases e.err <;> rfl
  · have htk : e.status.extractLsb' 8 2 = e.tk.code := by
      ext k hk
      rw [← BitVec.getLsbD_eq_getElem, BitVec.getLsbD_extractLsb', status_getLsbD]
      grind
    rw [htk]
    cases e.tk <;> rfl
  · rw [status_getLsbD]
    grind

/-! ### Writes, R290, R291 -/

section
variable {s : State}

/-- Settles O4: the write is accepted, and the word it latches is the command that begins. -/
theorem stepRunsTheDecodedCommand : Obligations.StepRunsTheDecodedCommand := by
  intro s w es i hev hbusy herr hdecode
  have hyes : (s.withEvents es).accepts 4 w = true := (accepts_iff _ _ _).2 ⟨by decide, hbusy, fun _ => herr⟩
  calc step s = hostWrite 4 w (s.withEvents es) := step_event hev
    _ = beginCommand w ((s.withEvents es).accept w) := hostWrite_cmd hyes
    _ = exec i ((s.withEvents es).accept w) := beginCommand_ok hdecode _

/-- Settles O6: each of the three causes makes the write not accepted, and a refused write sets HERR alone. -/
theorem refusedWriteOnlySetsHerr : Obligations.RefusedWriteOnlySetsHerr := by
  intro s n v es hev hcause
  have hno : (s.withEvents es).accepts n v = false := by
    rw [Bool.eq_false_iff, Ne, accepts_iff]
    rintro ⟨hreg, hbusy, hcmd⟩
    rcases hcause with hhigh | hbusy' | ⟨hn, herr, hword⟩
    · omega
    · exact Bool.false_ne_true (hbusy.symm.trans hbusy')
    · exact (hcmd hn).elim herr hword
  rw [step_event hev, handle, hostWrite_refused hno, refuseWrite_eq]
  rfl

/-- Settles O7: the write is accepted whatever ERR is, and stores into one of the four registers, a case for each. -/
theorem acceptedWriteStoresTheOperand : Obligations.AcceptedWriteStoresTheOperand := by
  intro s n v es hev hbusy
  have hn : (⟨n.val, by omega⟩ : Fin 8) ≠ 4 := by
    intro h
    have := congrArg Fin.val h
    simp at this
    omega
  have hyes : (s.withEvents es).accepts ⟨n.val, by omega⟩ v = true :=
    (accepts_iff _ _ _).2 ⟨Nat.le_of_lt n.isLt, hbusy, fun h => absurd (Fin.ext h) hn⟩
  rw [step_event hev, handle, hostWrite_arg hyes hn]
  refine ⟨_, rfl, ?_⟩
  match n with
  | 0 | 1 | 2 | 3 =>
    refine ⟨rfl, rfl, rfl, fun m => ?_⟩
    match m with
    | 0 | 1 | 2 | 3 => rfl

/-! ### Reset, R310, R311 -/

/-- What a feed holds after reset: what it held, if its session was not open, and else the next session's list. -/
theorem abandonIf_spec {α : Type} (f : Feed α) (isOpen : Bool) :
    (isOpen = false → f.abandonIf isOpen = f) ∧
      (isOpen = true → (f.abandonIf isOpen).now = f.later.headD []) := by
  cases isOpen with
  | false => exact ⟨fun _ => rfl, nofun⟩
  | true => exact ⟨nofun, fun _ => endSession_now_eq f⟩

/-- Settles O10: reset is one transition, and each feed is abandoned as its session's flag says. -/
theorem resetAbandonsTheCommand : Obligations.ResetAbandonsTheCommand := by
  intro s es hev
  obtain ⟨hsi, hsi'⟩ := abandonIf_spec s.env.si s.eng.siOpen
  obtain ⟨hbi, hbi'⟩ := abandonIf_spec s.env.bi s.eng.biOpen
  obtain ⟨hbo, hbo'⟩ := abandonIf_spec s.env.bo s.eng.boOpen
  obtain ⟨hso, hso'⟩ := abandonIf_spec s.env.so s.eng.soOpen
  exact ⟨_, step_event hev, rfl, rfl, rfl, rfl, hsi, hsi', hbi, hbi', hbo, hbo', hso, hso'⟩

/-! ### The engine left to itself, log 3 and log 4 -/

theorem hostIssue_accepted {w : Word} (hbusy : s.eng.busy = false) (herr : s.eng.err = .none ∨ w = clrWord) :
    hostIssue w s = s.accept w :=
  if_pos ((accepts_iff s 4 w).2 ⟨by decide, hbusy, fun _ => herr⟩)

theorem hostIssue_refused {w : Word} (h : s.eng.busy = true ∨ (s.eng.err ≠ .none ∧ w ≠ clrWord)) :
    hostIssue w s = s.refuseWrite 4 := by
  refine if_neg fun hyes => ?_
  obtain ⟨-, hbusy, hcmd⟩ := (accepts_iff s 4 w).1 hyes
  rcases h with hbusy' | ⟨herr, hword⟩
  · exact Bool.false_ne_true (hbusy.symm.trans hbusy')
  · exact (hcmd rfl).elim herr hword

/-- Settles O12: with no event a step is `engineMove`, by the point it starts from; an issued word is latched or refused. -/
theorem withNoEventTheEngineAloneMoves : Obligations.WithNoEventTheEngineAloneMoves := by
  constructor
  · intro s hev
    rw [step_noEvent hev]
    refine ⟨fun w i hp hdecode => ?_, fun w hp hw => ?_, fun hp hstuck => ?_, fun hp => ?_⟩
    · rw [engineMove_start hp, beginCommand_ok hdecode]
    · obtain ⟨e, hdecode⟩ := decode_illegal hw
      rw [engineMove_start hp, beginCommand_error hdecode]
      rfl
    · rw [engineMove_goesOn hp, settle_stuck hstuck]
    · exact ⟨engineMove_goesOn hp, settle_end s⟩
  · intro s w es hev
    rw [step_event hev]
    refine ⟨fun hbusy herr => ?_, fun hcause => ?_⟩
    · exact congrArg _ (hostIssue_accepted (s := s.withEvents es) hbusy herr)
    · refine congrArg _ ((hostIssue_refused (s := s.withEvents es) hcause).trans ?_)
      simp [refuseWrite_eq, State.withEvents]

end

end Sys2Proof.Machine
end

section
/-!
What a micro-operation can do (10_state.md R24, R43; 60_exceptions.md R282, R283), said once: it goes on within its
command, or it is the command's end.
-/
namespace Sys2Proof.Machine

/-! ### What a command in progress leaves as it is -/

/-- The engine without what a command in progress works on: FREQ, the packer, the unpacker, the cursor, the counters,
the sessions and the point. -/
def Engine.lasting (e : Engine) : Engine :=
  { e with
    freq := [], acc := 0, nacc := 0, nb := 0, nby := 0, ns := 0, sh := 0, nsh := 0, lim := 0, cur := 0
    siOpen := false, boOpen := false, biOpen := false, soOpen := false, point := .idle }

/-- `t` is `s` but for what a command in progress works on. -/
structure State.WorksOn (s t : State) : Prop where
  params : t.params = s.params
  lasting : t.eng.lasting = s.eng.lasting

/-- `t` is `s` but for what a command in progress works on, with the sessions of `s` open, at a point of the command of
`p` with the sessions of `p`. -/
structure State.Within (p : Point) (s t : State) : Prop extends s.WorksOn t where
  opened : t.eng.sessions = s.eng.sessions
  opcode : t.eng.point.opcode = p.opcode
  sessions : t.eng.point.sessions = p.sessions
  pending : t.eng.point.pendingFault ≠ some .none
  freq : p ≠ .countGet → t.eng.freq = s.eng.freq

/-- A micro-operation from `s` to `t` that goes on within its command. -/
structure State.GoesOn (s t : State) : Prop extends s.WorksOn t where
  opcode : t.eng.point.opcode = s.eng.point.opcode
  sessions : s.eng.sessions = s.eng.point.sessions → t.eng.sessions = t.eng.point.sessions
  pending : s.eng.point.pendingFault ≠ some .none → t.eng.point.pendingFault ≠ some .none
  begun : ∀ w, t.eng.point ≠ .start w
  freq : s.eng.point ≠ .countGet → t.eng.freq = s.eng.freq

/-- The micro-operation from `s` to `t` that ends a command: its results, or the fault it was about to raise. -/
structure State.Finishes (s t : State) : Prop where
  closed : s.eng.point.sessions = Point.idle.sessions
  result : (∃ rs, t = s.complete rs) ∨ ∃ e info, s.eng.point.pendingFault = some e ∧ t = s.raiseFault e info

section
variable {s t u : State} {p : Point}

/-- The frame of what a command in progress works on, the sessions included. -/
theorem State.WorksOn.of_frame (hparams : t.params = s.params)
    (heng : t.eng = { s.eng with
      freq := t.eng.freq, acc := t.eng.acc, nacc := t.eng.nacc, nb := t.eng.nb, nby := t.eng.nby, ns := t.eng.ns
      sh := t.eng.sh, nsh := t.eng.nsh, lim := t.eng.lim, cur := t.eng.cur, siOpen := t.eng.siOpen
      boOpen := t.eng.boOpen, biOpen := t.eng.biOpen, soOpen := t.eng.soOpen, point := t.eng.point }) :
    s.WorksOn t := ⟨hparams, by rw [heng]; rfl⟩

theorem State.WorksOn.trans (h : s.WorksOn u) (h' : u.WorksOn t) : s.WorksOn t :=
  ⟨h'.params.trans h.params, h'.lasting.trans h.lasting⟩

/-- The frame of what is worked on between two channel operations: no session. -/
structure State.Works (s t : State) : Prop where
  params : t.params = s.params
  eng : t.eng = { s.eng with
    freq := t.eng.freq, acc := t.eng.acc, nacc := t.eng.nacc, nb := t.eng.nb, nby := t.eng.nby, ns := t.eng.ns
    sh := t.eng.sh, nsh := t.eng.nsh, cur := t.eng.cur, point := t.eng.point }

theorem State.Works.worksOn (h : s.Works t) : s.WorksOn t := .of_frame h.params (by rw [h.eng])

theorem State.Works.opened (h : s.Works t) : t.eng.sessions = s.eng.sessions := by
  rw [h.eng]
  rfl

/-- A put answered leaves the engine as it is. -/
theorem State.Works.of_eng (hparams : t.params = s.params) (heng : t.eng = s.eng) : s.Works t :=
  ⟨hparams, by rw [heng]⟩

theorem State.Within.of_works (h : s.Works t) (hopcode : t.eng.point.opcode = p.opcode)
    (hsessions : t.eng.point.sessions = p.sessions) (hpending : t.eng.point.pendingFault ≠ some .none)
    (hfreq : p ≠ .countGet → t.eng.freq = s.eng.freq) : s.Within p t :=
  ⟨h.worksOn, h.opened, hopcode, hsessions, hpending, hfreq⟩

theorem State.Within.after (h : u.Within p t) (hu : s.Works u) (hfreq : u.eng.freq = s.eng.freq) : s.Within p t where
  toWorksOn := hu.worksOn.trans h.toWorksOn
  opened := h.opened.trans hu.opened
  opcode := h.opcode
  sessions := h.sessions
  pending := h.pending
  freq hp := (h.freq hp).trans hfreq

/-- A put answered leaves the engine as it is. -/
theorem State.Within.of_put (h : u.Within p t) (hparams : u.params = s.params) (heng : u.eng = s.eng) : s.Within p t :=
  h.after (.of_eng hparams heng) (by rw [heng])

theorem State.Within.begun (h : s.Within p t) (hopen : p.sessions ≠ Point.idle.sessions) (w : Word) :
    t.eng.point ≠ .start w := fun hw => hopen (h.sessions.symm.trans (by rw [hw]; rfl))

theorem State.Within.goesOn (h : s.Within p t) (hopcode : s.eng.point.opcode = p.opcode)
    (hsessions : s.eng.point.sessions = p.sessions) (hopen : p.sessions ≠ Point.idle.sessions)
    (hget : s.eng.point ≠ .countGet → p ≠ .countGet) : s.GoesOn t where
  toWorksOn := h.toWorksOn
  opcode := h.opcode.trans hopcode.symm
  sessions hs := h.opened.trans (hs.trans (hsessions.trans h.sessions.symm))
  pending _ := h.pending
  begun := h.begun hopen
  freq hp := h.freq (hget hp)

/-! ### COUNT -/

theorem countTake_within (raw : Item Nat) (rest : List (Item Nat)) (s : State) :
    s.Within .countGet (countTake raw rest s) := by
  unfold countTake
  dsimp only
  split
  · exact .of_works ⟨rfl, rfl⟩ rfl rfl nofun (fun _ => rfl)
  · exact .of_works ⟨rfl, rfl⟩ rfl rfl nofun (fun _ => rfl)
  · split
    · exact .of_works ⟨rfl, rfl⟩ rfl rfl nofun (fun _ => rfl)
    · exact .of_works ⟨rfl, rfl⟩ rfl rfl nofun (fun hp => absurd rfl hp)

/-! ### ENCODE -/

theorem encodeAbort_within {e : ErrCode} (info : Word) (s : State) (he : e ≠ .none) :
    s.Within .encGet (encodeAbort e info s) := by
  unfold encodeAbort
  split <;> exact .of_works ⟨rfl, rfl⟩ rfl rfl (mt Option.some.inj he) (fun _ => rfl)

theorem encodeBits_within (bs : List Bool) (s : State) : s.Within .encGet (encodeBits bs s) := by
  induction bs generalizing s with
  | nil => exact .of_works ⟨rfl, rfl⟩ rfl rfl nofun (fun _ => rfl)
  | cons b bs ih =>
    by_cases hnb : s.eng.nb = BitVec.allOnes 64
    · rw [encodeBits_overflow b bs hnb]
      exact encodeAbort_within 0 s nofun
    · by_cases h7 : s.eng.nacc = 7
      · rw [encodeBits_full b bs hnb h7]
        exact .of_works ⟨rfl, rfl⟩ rfl rfl nofun (fun _ => rfl)
      · rw [encodeBits_short b bs hnb h7]
        exact (ih _).after ⟨rfl, rfl⟩ rfl

theorem encodeFinal_within (s : State) : s.Within .encGet (encodeFinal s) := by
  unfold encodeFinal
  split <;> exact .of_works ⟨rfl, rfl⟩ rfl rfl nofun (fun _ => rfl)

theorem encodeTake_within (raw : Item Nat) (rest : List (Item Nat)) (s : State) :
    s.Within .encGet (encodeTake raw rest s) := by
  unfold encodeTake
  dsimp only
  split
  · exact (encodeFinal_within _).after ⟨rfl, rfl⟩ rfl
  · exact (encodeAbort_within _ _ (by decide)).after ⟨rfl, rfl⟩ rfl
  · split
    · exact (encodeBits_within _ _).after ⟨rfl, rfl⟩ rfl
    · exact (encodeAbort_within _ _ (by decide)).after ⟨rfl, rfl⟩ rfl

theorem encodeSinkFailed_within (s : State) : s.Within .encGet (encodeSinkFailed s) :=
  .of_works ⟨rfl, rfl⟩ rfl rfl nofun (fun _ => rfl)

theorem encodePut_within {bits : List Bool} (h : encodePut bits s = some t) : s.Within .encGet t := by
  unfold encodePut at h
  split at h <;> cases h
  case h_2 u hput =>
    obtain ⟨-, hparams, heng, -⟩ := putBo_some hput
    exact (encodeSinkFailed_within u).of_put hparams heng
  case h_3 u hput =>
    obtain ⟨-, hparams, heng, -⟩ := putBo_some hput
    have hbits : u.Within .encGet (encodeBits bits u.countByte.clearAcc) :=
      (encodeBits_within bits _).after ⟨rfl, rfl⟩ rfl
    exact hbits.of_put hparams heng

theorem encodeFlush_within (h : encodeFlush s = some t) : s.Within .encGet t := by
  unfold encodeFlush at h
  split at h <;> cases h
  case h_2 u hput =>
    obtain ⟨-, hparams, heng, -⟩ := putBo_some hput
    exact (encodeSinkFailed_within u).of_put hparams heng
  case h_3 u hput =>
    obtain ⟨-, hparams, heng, -⟩ := putBo_some hput
    have hdone : u.Within .encGet (u.countByte.clearAcc.goTo (.encRelease .done)) :=
      .of_works ⟨rfl, rfl⟩ rfl rfl nofun (fun _ => rfl)
    exact hdone.of_put hparams heng

theorem encodeAbortPut_works {e : ErrCode} {info : Word} (h : encodeAbortPut e info s = some t) :
    s.Works t ∧ t.eng.point = .encRelease (.fault e info) ∧ t.eng.freq = s.eng.freq := by
  unfold encodeAbortPut at h
  split at h <;> cases h
  case h_2 a u hput =>
    obtain ⟨-, hparams, heng, -⟩ := putBo_some hput
    have hfrom : u.eng.freq = s.eng.freq := by rw [heng]
    refine ⟨⟨hparams, ?_⟩, rfl, hfrom⟩
    rw [← heng]
    rfl

/-! ### DECODE -/

theorem decodeAbort_within {e : ErrCode} (info : Word) (s : State) (he : e ≠ .none) :
    s.Within .decGet (decodeAbort e info s) := .of_works ⟨rfl, rfl⟩ rfl rfl (mt Option.some.inj he) (fun _ => rfl)

theorem decodeExhausted_within (s : State) : s.Within .decGet (decodeExhausted s) := by
  unfold decodeExhausted
  split
  · exact decodeAbort_within _ s nofun
  · exact .of_works ⟨rfl, rfl⟩ rfl rfl nofun (fun _ => rfl)

theorem decodeBits_within (n : Nat) (s : State) : s.Within .decGet (decodeBits n s) := by
  induction n generalizing s with
  | zero =>
    by_cases hnb : s.eng.nb = s.eng.lim
    · rw [decodeBits_limit 0 hnb]
      exact decodeExhausted_within s
    · rw [decodeBits_zero hnb]
      exact .of_works ⟨rfl, rfl⟩ rfl rfl nofun (fun _ => rfl)
  | succ n ih =>
    by_cases hnb : s.eng.nb = s.eng.lim
    · rw [decodeBits_limit _ hnb]
      exact decodeExhausted_within s
    · rw [decodeBits_bit n hnb]
      split_ifs
      · exact (decodeAbort_within _ _ (by decide)).after ⟨rfl, rfl⟩ rfl
      · exact (decodeAbort_within _ _ (by decide)).after ⟨rfl, rfl⟩ rfl
      · exact .of_works ⟨rfl, rfl⟩ rfl rfl nofun (fun _ => rfl)
      · exact (ih _).after ⟨rfl, rfl⟩ rfl

theorem decodeTake_within (it : Item Byte) (rest : List (Item Byte)) (s : State) :
    s.Within .decGet (decodeTake it rest s) := by
  cases it with
  | eos => exact (decodeExhausted_within _).after ⟨rfl, rfl⟩ rfl
  | err => exact (decodeAbort_within _ _ (by decide)).after ⟨rfl, rfl⟩ rfl
  | data v => exact (decodeBits_within _ _).after ⟨rfl, rfl⟩ rfl

theorem decodePut_within (h : decodePut s = some t) : s.Within .decGet t := by
  unfold decodePut at h
  split at h <;> cases h
  case h_2 u hput =>
    obtain ⟨-, hparams, heng, -⟩ := putSo_some hput
    exact (decodeAbort_within _ u (by decide)).of_put hparams heng
  case h_3 u hput =>
    obtain ⟨-, hparams, heng, -⟩ := putSo_some hput
    have hbits : u.Within .decGet (decodeLoop u.emitted) := (decodeBits_within _ _).after ⟨rfl, rfl⟩ rfl
    exact hbits.of_put hparams heng

/-! ### Every point -/

/-- The end of COUNT, ENCODE or DECODE, from its two branches. -/
theorem finishes_of_ending {finish : Ending → State → State} {rs : List (Fin 4 × Word)} {f : Ending}
    (hdone : finish .done s = s.complete rs) (hfault : ∀ c info, finish (.fault c info) s = s.raiseFault c info)
    (hclosed : s.eng.point.sessions = Point.idle.sessions) (hpending : s.eng.point.pendingFault = f.fault?) :
    s.Finishes (finish f s) := by
  refine ⟨hclosed, ?_⟩
  cases f with
  | done => exact .inl ⟨rs, hdone⟩
  | fault e info => exact .inr ⟨e, info, hpending, hfault e info⟩

/-- A release, a close or an abort's put, with the fault that was about to be raised still to come. -/
theorem State.GoesOn.of_samePending (hworks : s.WorksOn t) (hopcode : t.eng.point.opcode = s.eng.point.opcode)
    (hsessions : s.eng.sessions = s.eng.point.sessions → t.eng.sessions = t.eng.point.sessions)
    (hpending : t.eng.point.pendingFault = s.eng.point.pendingFault) (hbegun : ∀ w, t.eng.point ≠ .start w)
    (hfreq : t.eng.freq = s.eng.freq) : s.GoesOn t :=
  ⟨hworks, hopcode, hsessions, fun h => hpending ▸ h, hbegun, fun _ => hfreq⟩

/-- A micro-operation goes on within its command, or ends it. -/
theorem microStep_cases (h : s.microStep = some t) : s.GoesOn t ∨ s.Finishes t := by
  cases hp : s.eng.point with
  | idle => cases (microStep_idle hp).symm.trans h
  | start w => cases (microStep_start hp).symm.trans h
  | countGet =>
    rw [microStep_countGet hp, countGet] at h
    split at h <;> cases h
    exact .inl ((countTake_within _ _ s).goesOn (by rw [hp]) (by rw [hp]) (by decide) (absurd hp))
  | countRelease f =>
    cases (microStep_countRelease hp).symm.trans h
    refine .inl (.of_samePending (.of_frame rfl rfl) (by rw [hp]; rfl) (fun hs => ?_) (by rw [hp]; rfl) nofun rfl)
    simp_all [countRelease, Engine.sessions, Point.sessions]
  | countFinish f =>
    cases (microStep_countFinish hp).symm.trans h
    exact .inr (finishes_of_ending (finish := countFinish) rfl (fun _ _ => rfl) (by rw [hp]; rfl) (by rw [hp]; rfl))
  | encGet =>
    rw [microStep_encGet hp, encodeGet] at h
    split at h <;> cases h
    exact .inl ((encodeTake_within _ _ s).goesOn (by rw [hp]) (by rw [hp]) (by decide) fun _ => nofun)
  | encPut bits =>
    exact .inl ((encodePut_within ((microStep_encPut hp).symm.trans h)).goesOn (by rw [hp]; rfl) (by rw [hp]; rfl)
      (by decide) fun _ => nofun)
  | encFlush =>
    exact .inl ((encodeFlush_within ((microStep_encFlush hp).symm.trans h)).goesOn (by rw [hp]; rfl) (by rw [hp]; rfl)
      (by decide) fun _ => nofun)
  | encAbort e info =>
    obtain ⟨hworks, hpoint, hfreq⟩ := encodeAbortPut_works ((microStep_encAbort hp).symm.trans h)
    exact .inl (.of_samePending hworks.worksOn (by rw [hp, hpoint]; rfl)
      (fun hs => by rw [hworks.opened, hs, hp, hpoint]; rfl) (by rw [hp, hpoint]; rfl) (by rw [hpoint]; nofun) hfreq)
  | encRelease f =>
    cases (microStep_encRelease hp).symm.trans h
    refine .inl (.of_samePending (.of_frame rfl rfl) (by rw [hp]; rfl) (fun hs => ?_) (by rw [hp]; rfl) nofun rfl)
    simp_all [encodeRelease, Engine.sessions, Point.sessions]
  | encClose f =>
    cases (microStep_encClose hp).symm.trans h
    refine .inl (.of_samePending (.of_frame rfl rfl) (by rw [hp]; rfl) (fun hs => ?_) (by rw [hp]; rfl) nofun rfl)
    simp_all [encodeClose, Engine.sessions, Point.sessions]
  | encFinish f =>
    cases (microStep_encFinish hp).symm.trans h
    exact .inr (finishes_of_ending (finish := encodeFinish) rfl (fun _ _ => rfl) (by rw [hp]; rfl) (by rw [hp]; rfl))
  | decGet =>
    rw [microStep_decGet hp, decodeGet] at h
    split at h <;> cases h
    exact .inl ((decodeTake_within _ _ s).goesOn (by rw [hp]) (by rw [hp]) (by decide) fun _ => nofun)
  | decPut =>
    exact .inl ((decodePut_within ((microStep_decPut hp).symm.trans h)).goesOn (by rw [hp]; rfl) (by rw [hp]; rfl)
      (by decide) fun _ => nofun)
  | decRelease f =>
    cases (microStep_decRelease hp).symm.trans h
    refine .inl (.of_samePending (.of_frame rfl rfl) (by rw [hp]; rfl) (fun hs => ?_) (by rw [hp]; rfl) nofun rfl)
    simp_all [decodeRelease, Engine.sessions, Point.sessions]
  | decClose f =>
    cases (microStep_decClose hp).symm.trans h
    refine .inl (.of_samePending (.of_frame rfl rfl) (by rw [hp]; rfl) (fun hs => ?_) (by rw [hp]; rfl) nofun rfl)
    simp_all [decodeClose, Engine.sessions, Point.sessions]
  | decFinish f =>
    cases (microStep_decFinish hp).symm.trans h
    exact .inr (finishes_of_ending (finish := decodeFinish) rfl (fun _ _ => rfl) (by rw [hp]; rfl) (by rw [hp]; rfl))

end

end Sys2Proof.Machine
end

section
/-!
What a command can do (40_control_and_access.md R130, 20_memory.md R81), said once: it raises a fault, completes, writes its
table, or opens its channels and runs.
-/
namespace Sys2Proof.Machine

/-! ### What only CLR, BUILD and EXTRACT write -/

/-- The engine without the result registers and the flags and registers of an ended command. -/
def Engine.withoutResults (e : Engine) : Engine :=
  { e with x0 := 0, x1 := 0, x2 := 0, x3 := 0, busy := false, done := false, err := .none, finfo := 0 }

/-- What stays through a stream command: HERR, NODE, ROOT, NCNT, TK, CODE, CTV, OPR, PQ, WSTK and PATH. -/
def Engine.standing (e : Engine) : Engine := e.lasting.withoutResults

theorem setXs_frame (e : Engine) (rs : List (Fin 4 × Word)) :
    e.setXs rs = { e with
      x0 := (e.setXs rs).x0, x1 := (e.setXs rs).x1, x2 := (e.setXs rs).x2, x3 := (e.setXs rs).x3 } := by
  induction rs generalizing e with
  | nil => rfl
  | cons w ws ih =>
    rw [setXs_cons, ih]
    match w.1 with
    | 0 | 1 | 2 | 3 => rfl

/-- Completion writes result registers and ends. -/
theorem complete_frame (s : State) (rs : List (Fin 4 × Word)) :
    (s.complete rs).eng = { s.eng with
      x0 := (s.complete rs).eng.x0, x1 := (s.complete rs).eng.x1, x2 := (s.complete rs).eng.x2
      x3 := (s.complete rs).eng.x3, busy := false, done := true, point := .idle } := by
  rw [complete_eng, setXs_frame]

section
variable {s t u : State} {i : Instr}

theorem complete_standing (s : State) (rs : List (Fin 4 × Word)) : (s.complete rs).eng.standing = s.eng.standing := by
  rw [complete_frame]
  rfl

theorem raiseFault_standing (s : State) (e : ErrCode) (info : Word) :
    (s.raiseFault e info).eng.standing = s.eng.standing := by
  rw [raiseFault_eng]
  rfl

theorem State.WorksOn.standing (h : s.WorksOn t) : t.eng.standing = s.eng.standing :=
  congrArg Engine.withoutResults h.lasting

theorem State.Finishes.standing (h : s.Finishes t) : t.params = s.params ∧ t.eng.standing = s.eng.standing := by
  obtain ⟨-, ⟨rs, rfl⟩ | ⟨e, info, -, rfl⟩⟩ := h
  · exact ⟨rfl, complete_standing s rs⟩
  · exact ⟨rfl, raiseFault_standing s e info⟩

theorem State.Finishes.point_eq (h : s.Finishes t) : t.eng.point = .idle := by
  obtain ⟨-, ⟨rs, rfl⟩ | ⟨e, info, -, rfl⟩⟩ := h <;> rfl

theorem State.Finishes.freq_eq (h : s.Finishes t) : t.eng.freq = s.eng.freq := by
  obtain ⟨-, ⟨rs, rfl⟩ | ⟨e, info, -, rfl⟩⟩ := h
  · rw [complete_frame]
  · rfl

/-! ### The first step of a stream command, R81 -/

/-- From `s` the command `i` opens its channels and is in `u`. -/
structure State.Opens (i : Instr) (s u : State) : Prop extends s.WorksOn u where
  stream : i = .count ∨ i = .encode ∨ i = .decode
  env : u.env = s.env
  opcode : u.eng.point.opcode = some i.opcode
  sessions : s.eng.sessions = Point.idle.sessions → u.eng.sessions = u.eng.point.sessions
  pending : u.eng.point.pendingFault ≠ some .none
  begun : ∀ w, u.eng.point ≠ .start w
  freq : u.eng.freq = if i = .count then [] else s.eng.freq

theorem countOpen_opens (s : State) : s.Opens .count (countOpen s) where
  toWorksOn := .of_frame rfl rfl
  stream := .inl rfl
  env := rfl
  opcode := rfl
  sessions h := by simp_all [countOpen, Engine.sessions, Point.sessions]
  pending := nofun
  begun := nofun
  freq := rfl

theorem encodeOpen_opens (s : State) : s.Opens .encode (encodeOpen s) where
  toWorksOn := .of_frame rfl rfl
  stream := .inr (.inl rfl)
  env := rfl
  opcode := rfl
  sessions h := by simp_all [encodeOpen, Engine.sessions, Point.sessions]
  pending := nofun
  begun := nofun
  freq := rfl

theorem decodeOpen_opens (s : State) : s.Opens .decode (decodeOpen s) := by
  have hstart : s.WorksOn s.decodeStart := .of_frame rfl rfl
  have hloop : s.decodeStart.Within .decGet (decodeLoop s.decodeStart) := decodeBits_within _ _
  exact {
    toWorksOn := hstart.trans hloop.toWorksOn
    stream := .inr (.inr rfl)
    env := decodeLoop_env s.decodeStart
    opcode := hloop.opcode
    sessions := fun h => by
      change (decodeLoop s.decodeStart).eng.sessions = (decodeLoop s.decodeStart).eng.point.sessions
      rw [hloop.opened, hloop.sessions]
      simp_all [State.decodeStart, Engine.sessions, Point.sessions]
    pending := hloop.pending
    begun := hloop.begun (by decide)
    freq := hloop.freq nofun }

/-! ### Every command -/

/-- What the command `i` does in `s`: its whole effect, or, when it touches channels, its first step and then `go`. -/
inductive State.Executes (go : State → State) (s : State) : Instr → State → Prop
  | clears : s.Executes go .clr s.clear
  | faults (i : Instr) (e : ErrCode) (info : Word) (hi : i ≠ .clr) (he : e ≠ .none) :
    s.Executes go i (s.raiseFault e info)
  | completes (i : Instr) (rs : List (Fin 4 × Word)) (hi : i ≠ .clr) : s.Executes go i (s.complete rs)
  | setsFreq (c n : Nat) (hc : c < s.params.nsym) (hn : n < 2 ^ s.params.freqw) :
    s.Executes go .setf ((s.setFreq c n).complete [])
  | builds : s.Executes go .build ((buildTree s).complete [])
  | clearsCode (htk : s.eng.tk = .empty) : s.Executes go .extract (extractDone s.clearCode)
  | extracts (u : State) (htk : s.eng.tk = .tree)
    (hwalk : walkLoop (Params.walkFuel s.params) (s.walking [] [Frame.enter s.eng.root] []) = some u) :
    s.Executes go .extract (extractDone u)
  | streams (i : Instr) (u : State) (h : s.Opens i u) : s.Executes go i (go u)

theorem executes_setf (go : State → State) (h : exec .setf s = .next t) : s.Executes go .setf t := by
  rw [exec_setf] at h
  obtain ⟨hc, h⟩ | ⟨-, rfl⟩ := withOperand_next h
  · obtain ⟨hn, h⟩ | ⟨-, rfl⟩ := withOperand_next h
    · cases h
      exact .setsFreq _ _ hc hn
    · exact .faults _ _ _ nofun nofun
  · exact .faults _ _ _ nofun nofun

theorem executes_getf (go : State → State) (h : exec .getf s = .next t) : s.Executes go .getf t := by
  rw [exec_getf] at h
  obtain ⟨-, h⟩ | ⟨-, rfl⟩ := withOperand_next h
  · cases h
    exact .completes _ _ nofun
  · exact .faults _ _ _ nofun nofun

theorem executes_getn (go : State → State) (h : exec .getn s = .next t) : s.Executes go .getn t := by
  rw [exec_getn] at h
  obtain ⟨-, h⟩ | ⟨-, rfl⟩ := withTree_next h
  · obtain ⟨-, h⟩ | ⟨-, rfl⟩ := withOperand_next h
    · cases h
      exact .completes _ _ nofun
    · exact .faults _ _ _ nofun nofun
  · exact .faults _ _ _ nofun nofun

theorem executes_getc (go : State → State) (h : exec .getc s = .next t) : s.Executes go .getc t := by
  obtain ⟨-, h⟩ | ⟨-, rfl⟩ := withCodeTable_next h
  · obtain ⟨-, h⟩ | ⟨-, rfl⟩ := withOperand_next h
    · obtain ⟨-, h⟩ | ⟨-, rfl⟩ := withOperand_next h
      · cases h
        exact .completes _ _ nofun
      · exact .faults _ _ _ nofun nofun
    · exact .faults _ _ _ nofun nofun
  · exact .faults _ _ _ nofun nofun

theorem exec_extract_unending (htk : s.eng.tk = .tree)
    (hwalk : walkLoop (Params.walkFuel s.params) (s.walking [] [Frame.enter s.eng.root] []) = none) :
    exec .extract s = .fault .walkUnending := by
  have hstart : s.clearCode.setWalk [Frame.enter s.eng.root] [] = s.walking [] [Frame.enter s.eng.root] [] := rfl
  rw [exec_extract_some (by simp [htk])]
  simp [extractTable, htk, hstart, hwalk]

theorem executes_extract (go : State → State) (h : exec .extract s = .next t) : s.Executes go .extract t := by
  cases htk : s.eng.tk with
  | none =>
    cases (exec_extract_noTree htk).symm.trans h
    exact .faults _ _ _ nofun nofun
  | empty =>
    cases (exec_extract_empty htk).symm.trans h
    exact .clearsCode htk
  | tree =>
    cases hwalk : walkLoop (Params.walkFuel s.params) (s.walking [] [Frame.enter s.eng.root] []) with
    | none => cases (exec_extract_unending htk hwalk).symm.trans h
    | some u =>
      cases (exec_extract_tree htk hwalk).symm.trans h
      exact .extracts u htk hwalk

/-- The commands that touch no channel, whatever follows a first step. -/
theorem executes_of_exec_other (go : State → State) (hcount : i ≠ .count) (hencode : i ≠ .encode)
    (hdecode : i ≠ .decode) (h : exec i s = .next t) : s.Executes go i t := by
  cases i with
  | nop =>
    cases h
    exact .completes _ _ nofun
  | clr =>
    cases h
    exact .clears
  | setf => exact executes_setf go h
  | getf => exact executes_getf go h
  | build =>
    cases h
    exact .builds
  | gett =>
    cases h
    exact .completes _ _ nofun
  | getn => exact executes_getn go h
  | extract => exact executes_extract go h
  | getc => exact executes_getc go h
  | count => exact absurd rfl hcount
  | encode => exact absurd rfl hencode
  | decode => exact absurd rfl hdecode

/-- A command, run to its end or its first wait. -/
theorem executes_of_exec (h : exec i s = .next t) : s.Executes State.settle i t := by
  cases i with
  | count =>
    cases h
    exact .streams _ _ (countOpen_opens s)
  | encode =>
    obtain ⟨-, h⟩ | ⟨-, rfl⟩ := withCodeTable_next h
    · cases h
      exact .streams _ _ (encodeOpen_opens s)
    · exact .faults _ _ _ nofun nofun
  | decode =>
    obtain ⟨-, h⟩ | ⟨-, rfl⟩ := withTree_next h
    · cases h
      exact .streams _ _ (decodeOpen_opens s)
    · exact .faults _ _ _ nofun nofun
  | nop | clr | setf | getf | build | gett | getn | extract | getc =>
    exact executes_of_exec_other _ nofun nofun nofun h

/-- The first step of a command. -/
theorem executes_of_firstStep (h : firstStep i s = .next t) : s.Executes id i t := by
  cases i with
  | count =>
    cases h
    exact .streams (go := id) _ _ (countOpen_opens s)
  | encode =>
    obtain ⟨-, h⟩ | ⟨-, rfl⟩ := withCodeTable_next h
    · cases h
      exact .streams (go := id) _ _ (encodeOpen_opens s)
    · exact .faults _ _ _ nofun nofun
  | decode =>
    obtain ⟨-, h⟩ | ⟨-, rfl⟩ := withTree_next h
    · cases h
      exact .streams (go := id) _ _ (decodeOpen_opens s)
    · exact .faults _ _ _ nofun nofun
  | nop | clr | setf | getf | build | gett | getn | extract | getc =>
    exact executes_of_exec_other _ nofun nofun nofun h

end

end Sys2Proof.Machine
end

section
/-!
What every step keeps of the flags, the sessions and the hidden state (10_state.md R34, R37 to R39, R43; 60_exceptions.md
R282, R283, R291), and who writes what (10_state.md R47).
-/
namespace Sys2Proof.Machine

/-! ### The frames of BUILD and EXTRACT -/

theorem build_params (s : State) : ((buildTree s).complete []).params = s.params := by
  obtain ⟨t, hrun, hparams, -⟩ := buildEndsNormallyAndKeepsTheRest s
  cases hrun
  exact hparams

theorem build_frame (s : State) : ((buildTree s).complete []).eng = { s.eng with
    node := ((buildTree s).complete []).eng.node, tk := ((buildTree s).complete []).eng.tk
    root := ((buildTree s).complete []).eng.root, ncnt := ((buildTree s).complete []).eng.ncnt
    ctv := false, pq := [] }.ended := by
  obtain ⟨t, hrun, -, -, heng, -⟩ := buildEndsNormallyAndKeepsTheRest s
  cases hrun
  exact heng

/-- PATH holds one bit for each frame of WSTK but the root's (R196: the root is entered with no push). -/
def State.Balanced (s : State) : Prop := s.eng.path.length = s.eng.wstk.length - 1

theorem walkStep_balanced {s : State} (h : s.Balanced) : (walkStep s).Balanced := by
  cases hw : s.eng.wstk with
  | nil =>
    have hstay : walkStep s = s := by simp only [walkStep, hw]
    rwa [hstay]
  | cons f below =>
    have hlen : s.eng.path.length = below.length := by simpa [State.Balanced, hw] using h
    obtain ⟨i, phase⟩ := f
    simp only [walkStep, hw]
    cases phase with
    | ph0 =>
      simp only [walkEnter]
      split_ifs <;> simp [State.Balanced, hlen]
    | ph1 =>
      simp only [walkRight]
      split_ifs <;> simp [State.Balanced, hlen]
    | ph2 => cases below <;> simp_all [walkLeave, State.Balanced]

theorem walkLoop_balanced {fuel : Nat} {s t : State} (h : s.Balanced) (hwalk : walkLoop fuel s = some t) :
    t.Balanced := by
  induction fuel generalizing s with
  | zero =>
    unfold walkLoop at hwalk
    split at hwalk <;> cases hwalk
    exact h
  | succ fuel ih =>
    unfold walkLoop at hwalk
    split at hwalk
    · cases hwalk
      exact h
    · exact ih (walkStep_balanced h) hwalk

/-- EXTRACT writes CODE and CTV; WSTK and PATH are empty when its walk ends (R196). -/
theorem extract_frame {s u : State} {fuel : Nat}
    (hwalk : walkLoop fuel (s.walking [] [Frame.enter s.eng.root] []) = some u) :
    extractDone u = { s with eng := { s.eng with code := u.eng.code, ctv := true, wstk := [], path := [] }.ended } := by
  have hbalanced : u.Balanced := walkLoop_balanced (s := s.walking [] [Frame.enter s.eng.root] []) rfl hwalk
  obtain ⟨hwstk, hframe⟩ := walkLoop_some hwalk
  have hpath : u.eng.path = [] := List.eq_nil_of_length_eq_zero (by rw [hbalanced, hwstk]; rfl)
  rw [hwstk, hpath] at hframe
  rw [hframe]
  rfl

section
variable {s t u : State} {i : Instr} {w : Word} {go : State → State}

/-! ### The control invariant -/

theorem opcode_eq_none_iff (p : Point) : p.opcode = none ↔ p = .idle := by
  cases p <;> simp [Point.opcode]

theorem controlInv_of_idle (hbusy : t.eng.busy = false) (hpoint : t.eng.point = .idle)
    (hsessions : t.eng.sessions = Point.idle.sessions) (hpq : t.eng.pq = []) (hwstk : t.eng.wstk = [])
    (hpath : t.eng.path = []) : t.ControlInv := by
  refine ⟨?_, ?_, ?_, ?_, ?_, ?_, hpq, hwstk, hpath⟩ <;> simp_all [Point.pendingFault, Point.opcode]

theorem State.ControlInv.goesOn (hs : s.ControlInv) (hp : ∀ w, s.eng.point ≠ .start w) (hidle : s.eng.point ≠ .idle)
    (h : s.GoesOn t) : t.ControlInv := by
  obtain ⟨hflags, hbusy, hfault, hpending, hopcode, hsessions, hpq, hwstk, hpath⟩ := hs
  have hrun : s.eng.busy = true := Bool.eq_true_of_not_eq_false (mt hbusy.1 hidle)
  have hrun' : t.eng.busy = true := (congrArg Engine.busy h.lasting).trans hrun
  have hnone : t.eng.err = .none := (congrArg Engine.err h.lasting).trans ((hfault hrun).resolve_right (hp _))
  have hpoint : t.eng.point ≠ .idle := by
    rwa [Ne, ← opcode_eq_none_iff, h.opcode, opcode_eq_none_iff]
  refine ⟨fun _ => (congrArg Engine.done h.lasting).trans (hflags hrun), by simp [hrun', hpoint], fun _ => .inl hnone,
    h.pending hpending, ?_, h.sessions hsessions, (congrArg Engine.pq h.lasting).trans hpq,
    (congrArg Engine.wstk h.lasting).trans hwstk, (congrArg Engine.path h.lasting).trans hpath⟩
  intro op hop
  rw [h.opcode] at hop
  exact (congrArg Engine.opr h.lasting).trans (hopcode op hop)

theorem State.ControlInv.finishes (hs : s.ControlInv) (h : s.Finishes t) : t.ControlInv := by
  obtain ⟨-, -, -, -, -, hsessions, hpq, hwstk, hpath⟩ := hs
  rw [h.closed] at hsessions
  obtain ⟨-, ⟨rs, rfl⟩ | ⟨e, info, -, rfl⟩⟩ := h
  · refine controlInv_of_idle rfl rfl ?_ ?_ ?_ ?_ <;> rw [complete_frame] <;> assumption
  · exact controlInv_of_idle rfl rfl hsessions hpq hwstk hpath

theorem State.ControlInv.microStep (hs : s.ControlInv) (hstep : s.microStep = some t) : t.ControlInv := by
  have hp (w : Word) : s.eng.point ≠ .start w := fun hp => nomatch (microStep_start hp).symm.trans hstep
  have hidle : s.eng.point ≠ .idle := fun hp => nomatch (microStep_idle hp).symm.trans hstep
  exact (microStep_cases hstep).elim (hs.goesOn hp hidle) hs.finishes

theorem State.ControlInv.settle (hs : s.ControlInv) : s.settle.ControlInv :=
  settle_induction hs fun _ _ hu hstep => hu.microStep hstep

/-- R37: OPR holds the opcode of the command that begins. -/
theorem opcode_of_decode (h : decode w = .ok i) : opField w = i.opcode := by
  obtain ⟨-, hop⟩ := lookupOp_of_decode h
  exact BitVec.eq_of_toNat_eq (opcode_of_lookupOp hop)

theorem State.ControlInv.opens (hs : s.ControlInv) (hp : s.eng.point = .start w) (hdecode : decode w = .ok i)
    (h : s.Opens i u) : u.ControlInv := by
  obtain ⟨hflags, hbusy, hfault, -, hopcode, hsessions, hpq, hwstk, hpath⟩ := hs
  have hrun : s.eng.busy = true := by
    rw [hp] at hbusy
    simpa using hbusy
  have hrun' : u.eng.busy = true := (congrArg Engine.busy h.lasting).trans hrun
  have hword : s.eng.point ≠ .start clrWord := by
    rintro hclr
    cases hp.symm.trans hclr
    obtain rfl : Instr.clr = i := Except.ok.inj hdecode
    exact absurd h.stream (by decide)
  have hnone : u.eng.err = .none := (congrArg Engine.err h.lasting).trans ((hfault hrun).resolve_right hword)
  have hpoint : u.eng.point ≠ .idle := by
    rw [Ne, ← opcode_eq_none_iff, h.opcode]
    nofun
  have hopr : u.eng.opr = i.opcode :=
    ((congrArg Engine.opr h.lasting).trans (hopcode _ (by rw [hp]; rfl))).trans (opcode_of_decode hdecode)
  refine ⟨fun _ => (congrArg Engine.done h.lasting).trans (hflags hrun), by simp [hrun', hpoint], fun _ => .inl hnone,
    h.pending, ?_, h.sessions (hsessions.trans (by rw [hp]; rfl)), (congrArg Engine.pq h.lasting).trans hpq,
    (congrArg Engine.wstk h.lasting).trans hwstk, (congrArg Engine.path h.lasting).trans hpath⟩
  rw [h.opcode]
  rintro op ⟨⟩
  exact hopr

/-- What a command that has been accepted does keeps the control state in order. -/
theorem State.ControlInv.executes (hs : s.ControlInv) (hgo : ∀ u : State, u.ControlInv → (go u).ControlInv)
    (hp : s.eng.point = .start w) (hdecode : decode w = .ok i) (h : s.Executes go i t) : t.ControlInv := by
  obtain ⟨-, -, -, -, -, hsessions, hpq, hwstk, hpath⟩ := id hs
  replace hsessions : s.eng.sessions = Point.idle.sessions := hsessions.trans (by rw [hp]; rfl)
  cases h with
  | clears => exact controlInv_of_idle rfl rfl rfl rfl rfl rfl
  | faults _ e info => exact controlInv_of_idle rfl rfl hsessions hpq hwstk hpath
  | completes _ rs => refine controlInv_of_idle rfl rfl ?_ ?_ ?_ ?_ <;> rw [complete_frame] <;> assumption
  | setsFreq c n => exact controlInv_of_idle rfl rfl hsessions hpq hwstk hpath
  | builds =>
    refine controlInv_of_idle rfl rfl ?_ ?_ ?_ ?_ <;> rw [build_frame]
    · exact hsessions
    · rfl
    · exact hwstk
    · exact hpath
  | clearsCode => exact controlInv_of_idle rfl rfl hsessions hpq hwstk hpath
  | extracts u _ hwalk =>
    rw [extract_frame hwalk]
    exact controlInv_of_idle rfl rfl hsessions hpq rfl rfl
  | streams _ u hopens => exact hgo u (hs.opens hp hdecode hopens)

theorem State.ControlInv.raiseFault (hs : s.ControlInv) (hp : s.eng.point = .start w) (e : ErrCode) (info : Word) :
    (s.raiseFault e info).ControlInv := by
  obtain ⟨-, -, -, -, -, hsessions, hpq, hwstk, hpath⟩ := hs
  exact controlInv_of_idle rfl rfl (hsessions.trans (by rw [hp]; rfl)) hpq hwstk hpath

theorem State.ControlInv.beginCommand (hs : s.ControlInv) (hp : s.eng.point = .start w)
    (h : beginCommand w s = .next t) : t.ControlInv := by
  cases hdecode : decode w with
  | ok i =>
    rw [beginCommand_ok hdecode] at h
    exact hs.executes (fun _ hu => hu.settle) hp hdecode (executes_of_exec h)
  | error e =>
    cases (beginCommand_error hdecode s).symm.trans h
    exact hs.raiseFault hp .op w

theorem firstStepOf_ok (h : decode w = .ok i) (s : State) : firstStepOf w s = firstStep i s := by
  simp only [firstStepOf, h]

theorem firstStepOf_error {e : Illegal} (h : decode w = .error e) (s : State) :
    firstStepOf w s = .next (s.raiseFault .op w) := by
  simp only [firstStepOf, h, raising]

theorem State.ControlInv.firstStepOf (hs : s.ControlInv) (hp : s.eng.point = .start w)
    (h : firstStepOf w s = .next t) : t.ControlInv := by
  cases hdecode : decode w with
  | ok i =>
    rw [firstStepOf_ok hdecode] at h
    exact hs.executes (fun _ hu => hu) hp hdecode (executes_of_firstStep h)
  | error e =>
    cases (firstStepOf_error hdecode s).symm.trans h
    exact hs.raiseFault hp .op w

theorem State.ControlInv.engineMove (hs : s.ControlInv) (h : engineMove s = .next t) : t.ControlInv := by
  by_cases hstart : ∃ w, s.eng.point = .start w
  · obtain ⟨w, hp⟩ := hstart
    exact hs.beginCommand hp ((engineMove_start hp).symm.trans h)
  · cases (engineMove_goesOn (not_exists.1 hstart)).symm.trans h
    exact hs.settle

theorem State.ControlInv.engineTick (hs : s.ControlInv) (h : engineTick s = .next t) : t.ControlInv := by
  by_cases hstart : ∃ w, s.eng.point = .start w
  · obtain ⟨w, hp⟩ := hstart
    exact hs.firstStepOf hp ((engineTick_start hp).symm.trans h)
  · cases (engineTick_goesOn (not_exists.1 hstart)).symm.trans h
    cases hstep : s.microStep with
    | none => exact hs
    | some u => exact hs.microStep hstep

/-! ### The host's accesses -/

theorem State.ControlInv.accept (hs : s.ControlInv) (h : s.accepts 4 w = true) : (s.accept w).ControlInv := by
  obtain ⟨-, hbusy, hword⟩ := (accepts_iff s 4 w).1 h
  obtain ⟨-, hidle, -, -, -, hsessions, hpq, hwstk, hpath⟩ := hs
  rw [hidle.1 hbusy] at hsessions
  refine ⟨fun _ => rfl, by simp, fun _ => (hword rfl).imp_right fun hw => by simp [hw], nofun, ?_, hsessions, hpq, hwstk,
    hpath⟩
  rintro op ⟨⟩
  rfl

theorem State.ControlInv.storeX (hs : s.ControlInv) (n : Fin 8) (v : Word) : (s.storeX n v).ControlInv := by
  match n with
  | 0 | 1 | 2 | 3 | 4 | 5 | 6 | 7 => exact hs

theorem State.ControlInv.refuseWrite (hs : s.ControlInv) (n : Fin 8) : (s.refuseWrite n).ControlInv := by
  rw [refuseWrite_eq]
  exact hs

theorem State.ControlInv.hostWrite (hs : s.ControlInv) {n : Fin 8} {v : Word} (h : hostWrite n v s = .next t) :
    t.ControlInv := by
  cases hacc : s.accepts n v with
  | false =>
    cases (hostWrite_refused hacc).symm.trans h
    exact hs.refuseWrite n
  | true =>
    by_cases hn : n = 4
    · subst hn
      exact (hs.accept hacc).beginCommand rfl ((hostWrite_cmd hacc).symm.trans h)
    · cases (hostWrite_arg hacc hn).symm.trans h
      exact hs.storeX n v

theorem State.ControlInv.hostIssue (hs : s.ControlInv) (w : Word) : (hostIssue w s).ControlInv := by
  unfold Machine.hostIssue
  split
  case isTrue hacc => exact hs.accept hacc
  case isFalse => exact hs.refuseWrite 4

end

/-- Settles O54: a case for each event; the engine's own moves by what a micro-operation and a command can do. -/
theorem stepKeepsTheControlInvariant : Obligations.StepKeepsTheControlInvariant := by
  intro s t hs hstep
  cases hev : s.env.events with
  | nil => exact hs.engineMove ((step_noEvent hev).symm.trans hstep)
  | cons ev es =>
    rw [step_event hev] at hstep
    have hs' : (s.withEvents es).ControlInv := hs
    cases ev with
    | write n v => exact hs'.hostWrite hstep
    | issue w =>
      cases hstep
      exact hs'.hostIssue w
    | reset =>
      cases hstep
      exact controlInv_of_idle rfl rfl rfl rfl rfl rfl
    | tick => exact hs'.engineTick hstep
    | run => exact hs'.engineMove hstep
    | read n | offerSi it | offerBi it | answerBo a | answerSo a =>
      cases hstep
      exact hs

end Sys2Proof.Machine
end

section
/-!
Whole-machine rules of a command (10_state.md R22, R36, R43, R47; 60_exceptions.md R282, R283, R291): which command writes
which table, what sets and clears HERR, and what the step that ends a command writes.
-/
namespace Sys2Proof.Machine

section
variable {s t u : State} {i : Instr} {w : Word} {go : State → State}

/-! ### Along a run -/

theorem herr_of_standing {e e' : Engine} (h : e'.standing = e.standing) : e'.herr = e.herr := by
  have hherr := congrArg Engine.herr h
  exact hherr

/-- NODE, ROOT, NCNT, TK, CODE and CTV are as they were. -/
theorem tables_of_standing {e e' : Engine} (h : e'.standing = e.standing) :
    (e'.node = e.node ∧ e'.root = e.root ∧ e'.ncnt = e.ncnt ∧ e'.tk = e.tk) ∧ e'.code = e.code ∧ e'.ctv = e.ctv := by
  simp only [Engine.standing, Engine.lasting, Engine.withoutResults, Engine.mk.injEq] at h
  simp [h]

theorem microStep_standing (h : s.microStep = some t) : t.params = s.params ∧ t.eng.standing = s.eng.standing :=
  (microStep_cases h).elim (fun hgoes => ⟨hgoes.params, hgoes.standing⟩) fun hends => hends.standing

theorem settle_standing (s : State) : s.settle.params = s.params ∧ s.settle.eng.standing = s.eng.standing := by
  refine settle_induction (P := fun u => u.params = s.params ∧ u.eng.standing = s.eng.standing) ⟨rfl, rfl⟩ ?_
  rintro u v ⟨hparams, hstanding⟩ hstep
  obtain ⟨hparams', hstanding'⟩ := microStep_standing hstep
  exact ⟨hparams'.trans hparams, hstanding'.trans hstanding⟩

/-- `u` is reached from `s` by the stream command `i`, in progress or ended. -/
structure State.Runs (i : Instr) (s u : State) : Prop where
  params : u.params = s.params
  standing : u.eng.standing = s.eng.standing
  opcode : u.eng.point.opcode = some i.opcode ∨ u.eng.point = .idle
  freq : i ≠ .count → u.eng.freq = s.eng.freq

theorem State.Opens.runs (h : s.Opens i u) : s.Runs i u where
  params := h.params
  standing := h.standing
  opcode := .inl h.opcode
  freq hi := h.freq.trans (if_neg hi)

/-- The opcode column names COUNT once. -/
theorem count_of_opcode (h : some i.opcode = Point.countGet.opcode) : i = .count := by
  cases i <;> first | rfl | exact absurd h (by decide)

theorem State.Runs.microStep (h : s.Runs i u) (hstep : u.microStep = some t) : s.Runs i t := by
  have hopcode : u.eng.point.opcode = some i.opcode :=
    h.opcode.resolve_right fun hp => nomatch (microStep_idle hp).symm.trans hstep
  obtain ⟨hparams, hstanding⟩ := microStep_standing hstep
  refine ⟨hparams.trans h.params, hstanding.trans h.standing, ?_, fun hi => ?_⟩
  · exact (microStep_cases hstep).imp (fun hgoes => hgoes.opcode.trans hopcode) fun hends => hends.point_eq
  · have hget : u.eng.point ≠ .countGet := fun hp => hi (count_of_opcode (hopcode.symm.trans (by rw [hp])))
    exact ((microStep_cases hstep).elim (fun hgoes => hgoes.freq hget) fun hends => hends.freq_eq).trans (h.freq hi)

theorem State.Opens.runs_settle (h : s.Opens i u) : s.Runs i u.settle :=
  settle_induction h.runs fun _ _ hu hstep => hu.microStep hstep

/-! ### The tables' writers, R47 -/

/-- Settles O59: by what each command can do; a stream command by what its run keeps. -/
theorem eachTableHasItsWriters : Obligations.EachTableHasItsWriters := by
  intro i s t h hclr
  cases executes_of_exec h with
  | clears => exact absurd rfl hclr
  | faults => exact ⟨fun _ _ => rfl, fun _ => ⟨rfl, rfl, rfl, rfl⟩, fun _ => rfl, fun _ _ => rfl⟩
  | completes _ rs =>
    rw [complete_frame]
    exact ⟨fun _ _ => rfl, fun _ => ⟨rfl, rfl, rfl, rfl⟩, fun _ => rfl, fun _ _ => rfl⟩
  | setsFreq => exact ⟨fun hi => absurd rfl hi, fun _ => ⟨rfl, rfl, rfl, rfl⟩, fun _ => rfl, fun _ _ => rfl⟩
  | builds =>
    rw [build_frame]
    exact ⟨fun _ _ => rfl, fun hi => absurd rfl hi, fun _ => rfl, fun _ hi => absurd rfl hi⟩
  | clearsCode => exact ⟨fun _ _ => rfl, fun _ => ⟨rfl, rfl, rfl, rfl⟩, fun hi => absurd rfl hi, fun hi => absurd rfl hi⟩
  | extracts u _ hwalk =>
    rw [extract_frame hwalk]
    exact ⟨fun _ _ => rfl, fun _ => ⟨rfl, rfl, rfl, rfl⟩, fun hi => absurd rfl hi, fun hi => absurd rfl hi⟩
  | streams _ u hopens =>
    have hruns := hopens.runs_settle
    obtain ⟨htree, hcode, hctv⟩ := tables_of_standing hruns.standing
    exact ⟨fun _ => hruns.freq, fun _ => htree, fun _ => hcode, fun _ _ => hctv⟩

/-! ### HERR, R291 -/

theorem State.Executes.herr (hgo : ∀ u, s.Opens i u → (go u).eng.standing = s.eng.standing) (h : s.Executes go i t)
    (hi : i ≠ .clr) : t.eng.herr = s.eng.herr := by
  cases h with
  | clears => exact absurd rfl hi
  | faults => rfl
  | completes => rw [complete_frame]
  | setsFreq => rfl
  | builds =>
    rw [build_frame]
    rfl
  | clearsCode => rfl
  | extracts u _ hwalk =>
    rw [extract_frame hwalk]
    rfl
  | streams _ u hopens => exact herr_of_standing (hgo u hopens)

theorem clrWord_of_decode (h : decode w = .ok .clr) : w = clrWord := (decodeAndEncodeAgree w .clr).1 h

theorem beginCommand_herr (h : beginCommand w s = .next t) :
    t.eng.herr = s.eng.herr ∨ (t.eng.herr = false ∧ w = clrWord) := by
  cases hdecode : decode w with
  | ok i =>
    rw [beginCommand_ok hdecode] at h
    by_cases hi : i = .clr
    · subst hi
      cases h
      exact .inr ⟨rfl, clrWord_of_decode hdecode⟩
    · exact .inl ((executes_of_exec h).herr (fun _ hopens => hopens.runs_settle.standing) hi)
  | error e =>
    cases (beginCommand_error hdecode s).symm.trans h
    exact .inl rfl

theorem firstStepOf_herr (h : firstStepOf w s = .next t) :
    t.eng.herr = s.eng.herr ∨ (t.eng.herr = false ∧ w = clrWord) := by
  cases hdecode : decode w with
  | ok i =>
    rw [firstStepOf_ok hdecode] at h
    by_cases hi : i = .clr
    · subst hi
      cases h
      exact .inr ⟨rfl, clrWord_of_decode hdecode⟩
    · exact .inl ((executes_of_firstStep h).herr (fun _ hopens => hopens.standing) hi)
  | error e =>
    cases (firstStepOf_error hdecode s).symm.trans h
    exact .inl rfl

theorem engineMove_herr (h : engineMove s = .next t) :
    t.eng.herr = s.eng.herr ∨ (t.eng.herr = false ∧ s.eng.point = .start clrWord) := by
  by_cases hstart : ∃ w, s.eng.point = .start w
  · obtain ⟨w, hp⟩ := hstart
    rw [hp]
    exact (beginCommand_herr ((engineMove_start hp).symm.trans h)).imp_right fun ⟨hherr, hw⟩ => ⟨hherr, hw ▸ rfl⟩
  · cases (engineMove_goesOn (not_exists.1 hstart)).symm.trans h
    exact .inl (herr_of_standing (settle_standing s).2)

theorem engineTick_herr (h : engineTick s = .next t) :
    t.eng.herr = s.eng.herr ∨ (t.eng.herr = false ∧ s.eng.point = .start clrWord) := by
  by_cases hstart : ∃ w, s.eng.point = .start w
  · obtain ⟨w, hp⟩ := hstart
    rw [hp]
    exact (firstStepOf_herr ((engineTick_start hp).symm.trans h)).imp_right fun ⟨hherr, hw⟩ => ⟨hherr, hw ▸ rfl⟩
  · cases (engineTick_goesOn (not_exists.1 hstart)).symm.trans h
    cases hstep : s.microStep with
    | none => exact .inl rfl
    | some u => exact .inl (herr_of_standing (microStep_standing hstep).2)

theorem storeX_herr (s : State) (n : Fin 8) (v : Word) : (s.storeX n v).eng.herr = s.eng.herr := by
  match n with
  | 0 | 1 | 2 | 3 | 4 | 5 | 6 | 7 => rfl

/-- A write keeps HERR, or it is the CLR word's, or it is refused and went to register 0 to 4. -/
theorem hostWrite_herr {n : Fin 8} {v : Word} (h : hostWrite n v s = .next t) :
    t.eng.herr = s.eng.herr ∨ (t.eng.herr = false ∧ n = 4 ∧ v = clrWord) ∨
      (t.eng.herr = true ∧ n.val ≤ 4 ∧ s.accepts n v = false) := by
  cases hacc : s.accepts n v with
  | false =>
    cases (hostWrite_refused hacc).symm.trans h
    rw [refuseWrite_eq]
    by_cases hn : n ≤ 4
    · exact .inr (.inr ⟨by simp [hn], hn, rfl⟩)
    · exact .inl (by simp [hn])
  | true =>
    by_cases hn : n = 4
    · subst hn
      exact (beginCommand_herr ((hostWrite_cmd hacc).symm.trans h)).imp_right fun ⟨hherr, hv⟩ => .inl ⟨hherr, rfl, hv⟩
    · cases (hostWrite_arg hacc hn).symm.trans h
      exact .inl (storeX_herr s n v)

theorem hostIssue_herr (s : State) (w : Word) :
    (hostIssue w s).eng.herr = s.eng.herr ∨ ((hostIssue w s).eng.herr = true ∧ s.accepts 4 w = false) := by
  unfold hostIssue
  split
  case isTrue => exact .inl rfl
  case isFalse hacc => exact .inr ⟨by simp [refuseWrite_eq], Bool.eq_false_of_not_eq_true hacc⟩

/-- A step keeps HERR, or clears it by reset or CLR, or sets it by refusing a write. -/
theorem step_herr (h : step s = .next t) :
    t.eng.herr = s.eng.herr ∨
      (t.eng.herr = false ∧ (s.env.events.head? = some .reset ∨ s.env.events.head? = some (.write 4 clrWord) ∨
        s.eng.point = .start clrWord)) ∨
      (t.eng.herr = true ∧
        ((∃ n v, n.val ≤ 4 ∧ s.env.events.head? = some (.write n v) ∧ s.accepts n v = false) ∨
          ∃ w, s.env.events.head? = some (.issue w) ∧ s.accepts 4 w = false)) := by
  cases hev : s.env.events with
  | nil =>
    rw [step_noEvent hev] at h
    exact (engineMove_herr h).imp_right fun ⟨hherr, hp⟩ => .inl ⟨hherr, .inr (.inr hp)⟩
  | cons ev es =>
    rw [step_event hev] at h
    cases ev with
    | write n v =>
      rcases hostWrite_herr h with hsame | ⟨hherr, rfl, rfl⟩ | ⟨hherr, hn, hacc⟩
      · exact .inl hsame
      · exact .inr (.inl ⟨hherr, .inr (.inl rfl)⟩)
      · exact .inr (.inr ⟨hherr, .inl ⟨n, v, hn, rfl, hacc⟩⟩)
    | issue w =>
      cases h
      exact (hostIssue_herr (s.withEvents es) w).imp_right fun ⟨hherr, hacc⟩ => .inr ⟨hherr, .inr ⟨w, rfl, hacc⟩⟩
    | reset =>
      cases h
      exact .inr (.inl ⟨rfl, .inl rfl⟩)
    | tick => exact (engineTick_herr h).imp_right fun ⟨hherr, hp⟩ => .inl ⟨hherr, .inr (.inr hp)⟩
    | run => exact (engineMove_herr h).imp_right fun ⟨hherr, hp⟩ => .inl ⟨hherr, .inr (.inr hp)⟩
    | read n | offerSi it | offerBi it | answerBo a | answerSo a =>
      cases h
      exact .inl rfl

/-- Settles O58: whatever changes HERR is, of the three things a step can do to it, the one that gives its new value. -/
theorem herrIsStickyAndOnlyARefusalSetsIt : Obligations.HerrIsStickyAndOnlyARefusalSetsIt := by
  intro s t hstep
  rcases step_herr hstep with hsame | ⟨hherr, hclear⟩ | ⟨hherr, hset⟩
  · rw [hsame]
    cases s.eng.herr <;> exact ⟨nofun, nofun⟩
  · simp [hherr, hclear]
  · simp only [hherr, hset, implies_true, and_true]
    nofun

/-! ### The step that ends a command, R22, R43, R282, R283 -/

theorem raiseFault_x (s : State) (e : ErrCode) (info : Word) (k : Fin 4) : (s.raiseFault e info).x k = s.x k := by
  match k with
  | 0 | 1 | 2 | 3 => rfl

theorem x_of_lasting (h : t.eng.lasting = s.eng.lasting) (k : Fin 4) : t.x k = s.x k := by
  simp only [Engine.lasting, Engine.mk.injEq] at h
  match k with
  | 0 | 1 | 2 | 3 => simp [h]

/-- What a micro-operation at a channel, or the one that ends the command, does to flags and host registers. -/
theorem microStep_results (h : s.microStep = some t) :
    (t.eng.err = s.eng.err ∧ t.eng.finfo = s.eng.finfo ∧ t.eng.busy = s.eng.busy ∧ t.eng.done = s.eng.done ∧
        ∀ k, t.x k = s.x k) ∨
      (t.env = s.env ∧ t.eng.busy = false ∧ t.eng.done = true ∧ t.eng.point = .idle ∧
        ((t.eng.err = s.eng.err ∧ t.eng.finfo = s.eng.finfo) ∨ ∀ k, t.x k = s.x k)) := by
  rcases microStep_cases h with hgoes | ⟨-, ⟨rs, rfl⟩ | ⟨e, info, -, rfl⟩⟩
  · have hlasting := hgoes.lasting
    simp only [Engine.lasting, Engine.mk.injEq] at hlasting
    exact .inl ⟨by simp [hlasting], by simp [hlasting], by simp [hlasting], by simp [hlasting],
      x_of_lasting hgoes.lasting⟩
  · rw [complete_frame]
    exact .inr ⟨rfl, rfl, rfl, rfl, .inl ⟨rfl, rfl⟩⟩
  · exact .inr ⟨rfl, rfl, rfl, rfl, .inr (raiseFault_x s e info)⟩

/-- Of a run begun in `s` with no fault: until it ends no fault is raised and x0..x3 are as they were, and a fault that
ended it left them. -/
def State.FaultFree (s u : State) : Prop :=
  (u.eng.err = .none ∧ (u.eng.point = .idle ∨ ∀ k, u.x k = s.x k)) ∨
    ((∀ k, u.x k = s.x k) ∧ u.eng.busy = false ∧ u.eng.done = true ∧ u.eng.point = .idle)

theorem State.FaultFree.microStep (h : s.FaultFree u) (hstep : u.microStep = some t) : s.FaultFree t := by
  have hp : u.eng.point ≠ .idle := fun hp => nomatch (microStep_idle hp).symm.trans hstep
  obtain ⟨herr, hx⟩ := h.resolve_right fun hended => hp hended.2.2.2
  replace hx := hx.resolve_left hp
  rcases microStep_results hstep with ⟨herr', -, -, -, hx'⟩ | ⟨-, hbusy, hdone, hpoint, ⟨herr', -⟩ | hx'⟩
  · exact .inl ⟨herr'.trans herr, .inr fun k => (hx' k).trans (hx k)⟩
  · exact .inl ⟨herr'.trans herr, .inl hpoint⟩
  · exact .inr ⟨fun k => (hx' k).trans (hx k), hbusy, hdone, hpoint⟩

theorem exec_faultFree (herr : s.eng.err = .none) (h : exec i s = .next t) : s.FaultFree t := by
  cases executes_of_exec h with
  | clears => exact .inl ⟨rfl, .inl rfl⟩
  | faults i e info => exact .inr ⟨raiseFault_x s e info, rfl, rfl, rfl⟩
  | completes _ rs => exact .inl ⟨by rw [complete_frame]; exact herr, .inl rfl⟩
  | setsFreq => exact .inl ⟨herr, .inl rfl⟩
  | builds => exact .inl ⟨by rw [build_frame]; exact herr, .inl rfl⟩
  | clearsCode => exact .inl ⟨herr, .inl rfl⟩
  | extracts u _ hwalk => exact .inl ⟨by rw [extract_frame hwalk]; exact herr, .inl rfl⟩
  | streams _ u hopens =>
    have herr' : u.eng.err = .none := (congrArg Engine.err hopens.lasting).trans herr
    exact settle_induction (.inl ⟨herr', .inr (x_of_lasting hopens.lasting)⟩) fun _ _ hu hstep => hu.microStep hstep

/-- The sessions open are those of the point, and a command is in progress or none. -/
def State.InSession (u : State) : Prop :=
  u.eng.sessions = u.eng.point.sessions ∧ (u.eng.busy = true ∨ u.eng.point = .idle)

theorem State.InSession.microStep (h : u.InSession) (hstep : u.microStep = some t) : t.InSession := by
  obtain ⟨hsessions, hbusy⟩ := h
  have hrun := hbusy.resolve_right fun hp => nomatch (microStep_idle hp).symm.trans hstep
  rcases microStep_cases hstep with hgoes | ⟨hclosed, ⟨rs, rfl⟩ | ⟨e, info, -, rfl⟩⟩
  · exact ⟨hgoes.sessions hsessions, .inl ((congrArg Engine.busy hgoes.lasting).trans hrun)⟩
  · rw [State.InSession, complete_frame]
    exact ⟨hsessions.trans hclosed, .inr rfl⟩
  · exact ⟨hsessions.trans hclosed, .inr rfl⟩

theorem exec_inSession (hbusy : s.eng.busy = true) (hclosed : s.eng.sessions = Point.idle.sessions)
    (h : exec i s = .next t) : t.InSession := by
  cases executes_of_exec h with
  | clears => exact ⟨rfl, .inr rfl⟩
  | faults => exact ⟨hclosed, .inr rfl⟩
  | completes _ rs =>
    rw [State.InSession, complete_frame]
    exact ⟨hclosed, .inr rfl⟩
  | setsFreq => exact ⟨hclosed, .inr rfl⟩
  | builds =>
    rw [State.InSession, build_frame]
    exact ⟨hclosed, .inr rfl⟩
  | clearsCode => exact ⟨hclosed, .inr rfl⟩
  | extracts u _ hwalk =>
    rw [extract_frame hwalk]
    exact ⟨hclosed, .inr rfl⟩
  | streams _ u hopens =>
    exact settle_induction ⟨hopens.sessions hclosed, .inl ((congrArg Engine.busy hopens.lasting).trans hbusy)⟩
      fun _ _ hu hstep => hu.microStep hstep

/-- Settles O60: what a run keeps until the step that ends it (`State.FaultFree`, `State.InSession`), and what that step
writes. -/
theorem commandsEndInOneStep : Obligations.CommandsEndInOneStep := by
  refine ⟨fun i s t herr h hfault => ?_, fun i s t hbusy hclosed h hended => ?_, fun s t hstep => ?_⟩
  · rcases exec_faultFree herr h with ⟨hnone, -⟩ | ⟨hx, hbusy, hdone, -⟩
    · exact absurd hnone hfault
    · exact ⟨hx, hbusy, hdone⟩
  · obtain ⟨hsessions, hpoint⟩ := exec_inSession hbusy hclosed h
    rw [hpoint.resolve_left (by simp [hended])] at hsessions
    exact hsessions
  · exact (microStep_results hstep).imp_right fun ⟨henv, hbusy, hdone, _, hresult⟩ => ⟨henv, hbusy, hdone, hresult⟩

end

end Sys2Proof.Machine
end

section
/-!
The engine's account of its environment (10_state.md R44; log 3): what lies between two channel operations does not look at
the environment, and what is supplied behind the next item or answer changes no micro-operation that uses one.
-/
namespace Sys2Proof.Machine

/-- `s` in the environment `v`. -/
def State.withEnv (s : State) (v : Env) : State := { s with env := v }

/-- `s` with its environment changed by `φ`. -/
def State.mapEnv (φ : Env → Env) (s : State) : State := s.withEnv (φ s.env)

/-- The environment after `SI.get()` has returned `it`, `rest` being left. -/
def Env.tookSi (v : Env) (it : Item Nat) (rest : List (Item Nat)) : Env :=
  { v with si := { v.si with now := rest }, trace := v.trace ++ [.tookSi it] }

/-- The environment after `BI.get()` has returned `it`, `rest` being left. -/
def Env.tookBi (v : Env) (it : Item Byte) (rest : List (Item Byte)) : Env :=
  { v with bi := { v.bi with now := rest }, trace := v.trace ++ [.tookBi it] }

/-- The environment after `BO.put(b)` has been answered `a`, `rest` being left. -/
def Env.answeredBo (v : Env) (b : Byte) (a : Answer) (rest : List Answer) : Env :=
  { v with bo := { v.bo with now := rest }, trace := v.trace ++ [.putBo b a] }

/-- The environment after `SO.put(c)` has been answered `a`, `rest` being left. -/
def Env.answeredSo (v : Env) (c : Nat) (a : Answer) (rest : List Answer) : Env :=
  { v with so := { v.so with now := rest }, trace := v.trace ++ [.putSo c a] }

section
variable {s t u : State} (v : Env)

theorem ite_withEnv (p : Prop) [Decidable p] (s t : State) :
    (if p then s else t).withEnv v = if p then s.withEnv v else t.withEnv v := apply_ite (State.withEnv · v) p s t

/-! ### Between two channel operations -/

theorem encodeAbort_withEnv (e : ErrCode) (info : Word) (s : State) :
    encodeAbort e info (s.withEnv v) = (encodeAbort e info s).withEnv v := by
  by_cases h : s.eng.nacc = 0
  · rw [encodeAbort_aligned e info h, encodeAbort_aligned e info (s := s.withEnv v) h]
    rfl
  · rw [encodeAbort_flush e info h, encodeAbort_flush e info (s := s.withEnv v) h]
    rfl

theorem encodeFinal_withEnv (s : State) : encodeFinal (s.withEnv v) = (encodeFinal s).withEnv v := by
  by_cases h : s.eng.nacc = 0
  · rw [encodeFinal_aligned h, encodeFinal_aligned (s := s.withEnv v) h]
    rfl
  · rw [encodeFinal_flush h, encodeFinal_flush (s := s.withEnv v) h]
    rfl

theorem encodeBits_withEnv (bs : List Bool) (s : State) : encodeBits bs (s.withEnv v) = (encodeBits bs s).withEnv v := by
  induction bs generalizing s with
  | nil => rfl
  | cons b bs ih =>
    by_cases hnb : s.eng.nb = BitVec.allOnes 64
    · rw [encodeBits_overflow b bs hnb, encodeBits_overflow b bs (s := s.withEnv v) hnb, encodeAbort_withEnv]
    · by_cases h7 : s.eng.nacc = 7
      · rw [encodeBits_full b bs hnb h7, encodeBits_full b bs (s := s.withEnv v) hnb h7]
        rfl
      · rw [encodeBits_short b bs hnb h7, encodeBits_short b bs (s := s.withEnv v) hnb h7]
        exact ih (s.appendBit b).countBit

theorem decodeExhausted_withEnv (s : State) : decodeExhausted (s.withEnv v) = (decodeExhausted s).withEnv v := by
  by_cases h : s.eng.tk = .tree ∧ s.eng.cur ≠ s.eng.root
  · rw [decodeExhausted_truncated h.1 h.2, decodeExhausted_truncated (s := s.withEnv v) h.1 h.2]
    rfl
  · have hdone : s.eng.tk = .tree → s.eng.cur = s.eng.root := fun htk => not_not.1 fun hcur => h ⟨htk, hcur⟩
    rw [decodeExhausted_done hdone, decodeExhausted_done (s := s.withEnv v) hdone]
    rfl

theorem decodeBits_withEnv (n : Nat) (s : State) : decodeBits n (s.withEnv v) = (decodeBits n s).withEnv v := by
  induction n generalizing s with
  | zero =>
    by_cases hnb : s.eng.nb = s.eng.lim
    · rw [decodeBits_limit 0 hnb, decodeBits_limit (s := s.withEnv v) 0 hnb, decodeExhausted_withEnv]
    · rw [decodeBits_zero hnb, decodeBits_zero (s := s.withEnv v) hnb]
      rfl
  | succ n ih =>
    by_cases hnb : s.eng.nb = s.eng.lim
    · rw [decodeBits_limit _ hnb, decodeBits_limit (s := s.withEnv v) _ hnb, decodeExhausted_withEnv]
    · rw [decodeBits_bit n hnb, decodeBits_bit (s := s.withEnv v) n hnb, ite_withEnv,
        ite_withEnv, ite_withEnv, ← ih]
      rfl

/-! ### Gets and puts -/

theorem countTake_withEnv (raw : Item Nat) (rest rest' : List (Item Nat)) (s : State) :
    countTake raw rest' (s.withEnv v) = (countTake raw rest s).withEnv (v.tookSi (narrow s.params raw) rest') := by
  have htook (it : Item Nat) : (s.withEnv v).tookSi it rest' = (s.tookSi it rest).withEnv (v.tookSi it rest') := rfl
  have hparams : (s.withEnv v).params = s.params := rfl
  unfold countTake
  dsimp only
  rw [hparams, htook]
  cases narrow s.params raw with
  | eos => rfl
  | err => rfl
  | data c =>
    dsimp only
    rw [ite_withEnv]
    rfl

theorem encodeTake_withEnv (raw : Item Nat) (rest rest' : List (Item Nat)) (s : State) :
    encodeTake raw rest' (s.withEnv v) = (encodeTake raw rest s).withEnv (v.tookSi (narrow s.params raw) rest') := by
  have htook (it : Item Nat) : (s.withEnv v).tookSi it rest' = (s.tookSi it rest).withEnv (v.tookSi it rest') := rfl
  have hparams : (s.withEnv v).params = s.params := rfl
  unfold encodeTake
  dsimp only
  rw [hparams, htook]
  cases narrow s.params raw with
  | eos => exact encodeFinal_withEnv _ _
  | err => exact encodeAbort_withEnv _ _ _ _
  | data c =>
    dsimp only
    rw [ite_withEnv, ← encodeBits_withEnv, ← encodeAbort_withEnv]
    rfl

theorem decodeTake_withEnv (it : Item Byte) (rest rest' : List (Item Byte)) (s : State) :
    decodeTake it rest' (s.withEnv v) = (decodeTake it rest s).withEnv (v.tookBi it rest') := by
  cases it with
  | eos => exact decodeExhausted_withEnv (v.tookBi .eos rest') (s.tookBi .eos rest)
  | err => rfl
  | data b => exact decodeBits_withEnv (v.tookBi (.data b) rest') 8 ((s.tookBi (.data b) rest).loadByte b)

end

/-! ### What is supplied behind the next item or answer -/

/-- `φ` supplies something to the environment, behind what is next on each channel: a get or a put finds the same item or
answer next, and `φ` may as well come after it. -/
structure Supplies (φ : Env → Env) : Prop where
  si : ∀ {v : Env} {raw : Item Nat} {rest : List (Item Nat)}, v.si.now = raw :: rest →
    ∃ rest', (φ v).si.now = raw :: rest' ∧ ∀ it, φ (v.tookSi it rest) = (φ v).tookSi it rest'
  bi : ∀ {v : Env} {it : Item Byte} {rest : List (Item Byte)}, v.bi.now = it :: rest →
    ∃ rest', (φ v).bi.now = it :: rest' ∧ φ (v.tookBi it rest) = (φ v).tookBi it rest'
  bo : ∀ {v : Env} {a : Answer} {rest : List Answer}, v.bo.now = a :: rest →
    ∃ rest', (φ v).bo.now = a :: rest' ∧ ∀ b, φ (v.answeredBo b a rest) = (φ v).answeredBo b a rest'
  so : ∀ {v : Env} {a : Answer} {rest : List Answer}, v.so.now = a :: rest →
    ∃ rest', (φ v).so.now = a :: rest' ∧ ∀ c, φ (v.answeredSo c a rest) = (φ v).answeredSo c a rest'

theorem supplies_offerSi (it : Item Nat) : Supplies fun v => { v with si := v.si.add it } where
  si {_ _ rest} h := ⟨rest ++ [it], by simp [Feed.add, h], fun _ => rfl⟩
  bi h := ⟨_, h, rfl⟩
  bo h := ⟨_, h, fun _ => rfl⟩
  so h := ⟨_, h, fun _ => rfl⟩

theorem supplies_offerBi (it : Item Byte) : Supplies fun v => { v with bi := v.bi.add it } where
  si h := ⟨_, h, fun _ => rfl⟩
  bi {_ _ rest} h := ⟨rest ++ [it], by simp [Feed.add, h], rfl⟩
  bo h := ⟨_, h, fun _ => rfl⟩
  so h := ⟨_, h, fun _ => rfl⟩

theorem supplies_answerBo (a : Answer) : Supplies fun v => { v with bo := v.bo.add a } where
  si h := ⟨_, h, fun _ => rfl⟩
  bi h := ⟨_, h, rfl⟩
  bo {_ _ rest} h := ⟨rest ++ [a], by simp [Feed.add, h], fun _ => rfl⟩
  so h := ⟨_, h, fun _ => rfl⟩

theorem supplies_answerSo (a : Answer) : Supplies fun v => { v with so := v.so.add a } where
  si h := ⟨_, h, fun _ => rfl⟩
  bi h := ⟨_, h, rfl⟩
  bo h := ⟨_, h, fun _ => rfl⟩
  so {_ _ rest} h := ⟨rest ++ [a], by simp [Feed.add, h], fun _ => rfl⟩

theorem supplies_events (es : List Event) : Supplies fun v => { v with events := es } where
  si h := ⟨_, h, fun _ => rfl⟩
  bi h := ⟨_, h, rfl⟩
  bo h := ⟨_, h, fun _ => rfl⟩
  so h := ⟨_, h, fun _ => rfl⟩

section
variable {φ : Env → Env} {s t : State}

theorem mapEnv_eq {v : Env} (h : t.env = v) : t.mapEnv φ = t.withEnv (φ v) := by rw [State.mapEnv, h]

theorem countGet_mapEnv (hφ : Supplies φ) (h : countGet s = some t) : countGet (s.mapEnv φ) = some (t.mapEnv φ) := by
  cases hnow : s.env.si.now with
  | nil => cases (countGet_waits hnow).symm.trans h
  | cons raw rest =>
    obtain ⟨rest', hnow', hcomm⟩ := hφ.si hnow
    cases (countGet_takes hnow).symm.trans h
    rw [countGet_takes (s := s.mapEnv φ) hnow', mapEnv_eq (countTake_env raw rest s)]
    exact congrArg some ((countTake_withEnv _ raw rest rest' s).trans (congrArg _ (hcomm _).symm))

theorem encodeGet_mapEnv (hφ : Supplies φ) (h : encodeGet s = some t) : encodeGet (s.mapEnv φ) = some (t.mapEnv φ) := by
  cases hnow : s.env.si.now with
  | nil => cases (encodeGet_waits hnow).symm.trans h
  | cons raw rest =>
    obtain ⟨rest', hnow', hcomm⟩ := hφ.si hnow
    cases (encodeGet_takes hnow).symm.trans h
    rw [encodeGet_takes (s := s.mapEnv φ) hnow', mapEnv_eq (encodeTake_env raw rest s)]
    exact congrArg some ((encodeTake_withEnv _ raw rest rest' s).trans (congrArg _ (hcomm _).symm))

theorem decodeGet_mapEnv (hφ : Supplies φ) (h : decodeGet s = some t) : decodeGet (s.mapEnv φ) = some (t.mapEnv φ) := by
  cases hnow : s.env.bi.now with
  | nil => cases (decodeGet_waits hnow).symm.trans h
  | cons it rest =>
    obtain ⟨rest', hnow', hcomm⟩ := hφ.bi hnow
    cases (decodeGet_takes hnow).symm.trans h
    rw [decodeGet_takes (s := s.mapEnv φ) hnow', mapEnv_eq (decodeTake_env it rest s)]
    exact congrArg some ((decodeTake_withEnv _ it rest rest' s).trans (congrArg _ hcomm.symm))

/-- A put on BO that is answered is answered alike, and `φ` may come after it. -/
theorem putBo_mapEnv (hφ : Supplies φ) {b : Byte} {a : Answer} {u : State} (h : s.putBo b = some (a, u)) :
    (s.mapEnv φ).putBo b = some (a, u.mapEnv φ) := by
  cases hnow : s.env.bo.now with
  | nil => cases (putBo_none.2 hnow).symm.trans h
  | cons a' rest =>
    obtain ⟨rest', hnow', hcomm⟩ := hφ.bo hnow
    cases (putBo_answered b hnow).symm.trans h
    rw [putBo_answered (s := s.mapEnv φ) b hnow']
    exact congrArg (fun v => some (_, s.withEnv v)) (hcomm b).symm

/-- A put on SO that is answered is answered alike, and `φ` may come after it. -/
theorem putSo_mapEnv (hφ : Supplies φ) {c : Nat} {a : Answer} {u : State} (h : s.putSo c = some (a, u)) :
    (s.mapEnv φ).putSo c = some (a, u.mapEnv φ) := by
  cases hnow : s.env.so.now with
  | nil => cases (putSo_none.2 hnow).symm.trans h
  | cons a' rest =>
    obtain ⟨rest', hnow', hcomm⟩ := hφ.so hnow
    cases (putSo_answered c hnow).symm.trans h
    rw [putSo_answered (s := s.mapEnv φ) c hnow']
    exact congrArg (fun v => some (_, s.withEnv v)) (hcomm c).symm

theorem encodeBits_mapEnv (bs : List Bool) (s : State) : encodeBits bs (s.mapEnv φ) = (encodeBits bs s).mapEnv φ := by
  rw [mapEnv_eq (encodeBits_env bs s)]
  exact encodeBits_withEnv _ bs s

theorem decodeLoop_mapEnv (s : State) : decodeLoop (s.mapEnv φ) = (decodeLoop s).mapEnv φ := by
  rw [mapEnv_eq (decodeLoop_env s)]
  exact decodeBits_withEnv _ _ s

theorem encodePut_mapEnv (hφ : Supplies φ) {bits : List Bool} (h : encodePut bits s = some t) :
    encodePut bits (s.mapEnv φ) = some (t.mapEnv φ) := by
  unfold encodePut at h
  split at h <;> cases h
  case h_2 u hput => exact encodePut_failed bits (putBo_mapEnv hφ hput)
  case h_3 u hput =>
    rw [encodePut_ok bits (putBo_mapEnv hφ hput), ← encodeBits_mapEnv]
    rfl

theorem encodeFlush_mapEnv (hφ : Supplies φ) (h : encodeFlush s = some t) :
    encodeFlush (s.mapEnv φ) = some (t.mapEnv φ) := by
  unfold encodeFlush at h
  split at h <;> cases h
  case h_2 u hput => exact encodeFlush_failed (putBo_mapEnv hφ hput)
  case h_3 u hput => exact encodeFlush_ok (putBo_mapEnv hφ hput)

theorem encodeAbortPut_mapEnv (hφ : Supplies φ) {e : ErrCode} {info : Word} (h : encodeAbortPut e info s = some t) :
    encodeAbortPut e info (s.mapEnv φ) = some (t.mapEnv φ) := by
  unfold encodeAbortPut at h
  split at h <;> cases h
  case h_2 a u hput => exact encodeAbortPut_answered e info (putBo_mapEnv hφ hput)

theorem decodePut_mapEnv (hφ : Supplies φ) (h : decodePut s = some t) : decodePut (s.mapEnv φ) = some (t.mapEnv φ) := by
  unfold decodePut at h
  split at h <;> cases h
  case h_2 u hput => exact decodePut_failed (s := s.mapEnv φ) (putSo_mapEnv hφ hput)
  case h_3 u hput =>
    rw [decodePut_ok (s := s.mapEnv φ) (putSo_mapEnv hφ hput), ← decodeLoop_mapEnv]
    rfl

/-- A get or a put that uses what is next does so whatever is supplied behind it. -/
theorem microStep_mapEnv (hφ : Supplies φ) (hp : s.eng.point.uses = true) (h : s.microStep = some t) :
    (s.mapEnv φ).microStep = some (t.mapEnv φ) := by
  cases hpoint : s.eng.point with
  | countGet =>
    rw [microStep_countGet hpoint] at h
    exact (microStep_countGet (s := s.mapEnv φ) hpoint).trans (countGet_mapEnv hφ h)
  | encGet =>
    rw [microStep_encGet hpoint] at h
    exact (microStep_encGet (s := s.mapEnv φ) hpoint).trans (encodeGet_mapEnv hφ h)
  | encPut bits =>
    rw [microStep_encPut hpoint] at h
    exact (microStep_encPut (s := s.mapEnv φ) hpoint).trans (encodePut_mapEnv hφ h)
  | encFlush =>
    rw [microStep_encFlush hpoint] at h
    exact (microStep_encFlush (s := s.mapEnv φ) hpoint).trans (encodeFlush_mapEnv hφ h)
  | encAbort e info =>
    rw [microStep_encAbort hpoint] at h
    exact (microStep_encAbort (s := s.mapEnv φ) hpoint).trans (encodeAbortPut_mapEnv hφ h)
  | decGet =>
    rw [microStep_decGet hpoint] at h
    exact (microStep_decGet (s := s.mapEnv φ) hpoint).trans (decodeGet_mapEnv hφ h)
  | decPut =>
    rw [microStep_decPut hpoint] at h
    exact (microStep_decPut (s := s.mapEnv φ) hpoint).trans (decodePut_mapEnv hφ h)
  | idle | start | countRelease | countFinish | encRelease | encClose | encFinish | decRelease | decClose | decFinish =>
    rw [hpoint] at hp
    cases hp

/-! ### Waiting, R78, R79 -/

theorem microStep_begun (h : s.microStep = some t) (w : Word) : t.eng.point ≠ .start w :=
  (microStep_cases h).elim (fun hgoes => hgoes.begun w) fun hends => by
    rw [hends.point_eq]
    nofun

theorem countGet_none (h : countGet s = none) : s.env.si.now = [] := by
  unfold countGet at h
  split at h
  · assumption
  · cases h

theorem encodeGet_none (h : encodeGet s = none) : s.env.si.now = [] := by
  unfold encodeGet at h
  split at h
  · assumption
  · cases h

theorem decodeGet_none (h : decodeGet s = none) : s.env.bi.now = [] := by
  unfold decodeGet at h
  split at h
  · assumption
  · cases h

theorem encodePut_none {bits : List Bool} (h : encodePut bits s = none) : s.env.bo.now = [] := by
  unfold encodePut at h
  split at h
  case h_1 hput => exact putBo_none.1 hput
  all_goals cases h

theorem encodeFlush_none (h : encodeFlush s = none) : s.env.bo.now = [] := by
  unfold encodeFlush at h
  split at h
  case h_1 hput => exact putBo_none.1 hput
  all_goals cases h

theorem encodeAbortPut_none {e : ErrCode} {info : Word} (h : encodeAbortPut e info s = none) : s.env.bo.now = [] := by
  unfold encodeAbortPut at h
  split at h
  case h_1 hput => exact putBo_none.1 hput
  all_goals cases h

theorem decodePut_none (h : decodePut s = none) : s.env.so.now = [] := by
  unfold decodePut at h
  split at h
  case h_1 hput => exact putSo_none.1 hput
  all_goals cases h

/-- The engine is at a get or a put, and nothing is supplied there. -/
def State.Waits (s : State) : Prop :=
  ((s.eng.point = .countGet ∨ s.eng.point = .encGet) ∧ s.env.si.now = []) ∨
    (((∃ r, s.eng.point = .encPut r) ∨ s.eng.point = .encFlush ∨ ∃ e info, s.eng.point = .encAbort e info) ∧
      s.env.bo.now = []) ∨
    (s.eng.point = .decGet ∧ s.env.bi.now = []) ∨ (s.eng.point = .decPut ∧ s.env.so.now = [])

/-- A command in progress that has no micro-operation to perform waits. -/
theorem waits_of_stuck (hbegun : ∀ w, s.eng.point ≠ .start w) (h : s.microStep = none) :
    s.eng.point = .idle ∨ s.Waits := by
  cases hp : s.eng.point with
  | idle => exact .inl rfl
  | start w => exact absurd hp (hbegun w)
  | countGet => exact .inr (.inl ⟨.inl hp, countGet_none ((microStep_countGet hp).symm.trans h)⟩)
  | encGet => exact .inr (.inl ⟨.inr hp, encodeGet_none ((microStep_encGet hp).symm.trans h)⟩)
  | encPut bits =>
    exact .inr (.inr (.inl ⟨.inl ⟨bits, hp⟩, encodePut_none ((microStep_encPut hp).symm.trans h)⟩))
  | encFlush => exact .inr (.inr (.inl ⟨.inr (.inl hp), encodeFlush_none ((microStep_encFlush hp).symm.trans h)⟩))
  | encAbort e info =>
    exact .inr (.inr (.inl ⟨.inr (.inr ⟨e, info, hp⟩), encodeAbortPut_none ((microStep_encAbort hp).symm.trans h)⟩))
  | decGet => exact .inr (.inr (.inr (.inl ⟨hp, decodeGet_none ((microStep_decGet hp).symm.trans h)⟩)))
  | decPut => exact .inr (.inr (.inr (.inr ⟨hp, decodePut_none ((microStep_decPut hp).symm.trans h)⟩)))
  | countRelease f => cases (microStep_countRelease hp).symm.trans h
  | countFinish f => cases (microStep_countFinish hp).symm.trans h
  | encRelease f => cases (microStep_encRelease hp).symm.trans h
  | encClose f => cases (microStep_encClose hp).symm.trans h
  | encFinish f => cases (microStep_encFinish hp).symm.trans h
  | decRelease f => cases (microStep_decRelease hp).symm.trans h
  | decClose f => cases (microStep_decClose hp).symm.trans h
  | decFinish f => cases (microStep_decFinish hp).symm.trans h

theorem State.Waits.uses (h : s.Waits) : s.eng.point.uses = true := by
  rcases h with ⟨hp | hp, -⟩ | ⟨⟨r, hp⟩ | hp | ⟨e, info, hp⟩, -⟩ | ⟨hp, -⟩ | ⟨hp, -⟩ <;> rw [hp] <;> rfl

/-- A command that is ending its channels takes and puts nothing more. -/
theorem microStep_ending (hp : s.eng.point.uses = false) (h : s.microStep = some t) : t.eng.point.uses = false := by
  cases hpoint : s.eng.point with
  | idle => cases (microStep_idle hpoint).symm.trans h
  | start w => cases (microStep_start hpoint).symm.trans h
  | countRelease f =>
    cases (microStep_countRelease hpoint).symm.trans h
    rfl
  | countFinish f =>
    cases (microStep_countFinish hpoint).symm.trans h
    cases f <;> rfl
  | encRelease f =>
    cases (microStep_encRelease hpoint).symm.trans h
    rfl
  | encClose f =>
    cases (microStep_encClose hpoint).symm.trans h
    rfl
  | encFinish f =>
    cases (microStep_encFinish hpoint).symm.trans h
    cases f <;> rfl
  | decRelease f =>
    cases (microStep_decRelease hpoint).symm.trans h
    rfl
  | decClose f =>
    cases (microStep_decClose hpoint).symm.trans h
    rfl
  | decFinish f =>
    cases (microStep_decFinish hpoint).symm.trans h
    cases f <;> rfl
  | countGet | encGet | encPut | encFlush | encAbort | decGet | decPut =>
    rw [hpoint] at hp
    cases hp

theorem settle_begun (hbegun : ∀ w, s.eng.point ≠ .start w) (w : Word) : s.settle.eng.point ≠ .start w :=
  settle_induction (P := fun u => ∀ w, u.eng.point ≠ .start w) hbegun (fun _ _ _ hstep => microStep_begun hstep) w

/-- A run ends in a state whose command has ended or waits. -/
theorem settle_waits (hbegun : ∀ w, s.eng.point ≠ .start w) : s.settle.eng.point = .idle ∨ s.settle.Waits :=
  waits_of_stuck (settle_begun hbegun) (settle_end s)

theorem settle_idle_of_ending (hbegun : ∀ w, s.eng.point ≠ .start w) (hp : s.eng.point.uses = false) :
    s.settle.eng.point = .idle := by
  have hend : s.settle.eng.point.uses = false :=
    settle_induction (P := fun u => u.eng.point.uses = false) hp fun _ _ hu hstep => microStep_ending hu hstep
  exact (settle_waits hbegun).resolve_right fun hwaits => Bool.false_ne_true (hend.symm.trans hwaits.uses)

/-- What is supplied to a run that came to wait may as well have been there before it began. -/
theorem settle_mapEnv (hφ : Supplies φ) (hbegun : ∀ w, s.eng.point ≠ .start w) (hwait : s.settle.eng.point ≠ .idle) :
    (s.settle.mapEnv φ).settle = (s.mapEnv φ).settle := by
  suffices h : (∀ w, s.settle.eng.point ≠ .start w) ∧ s.settle.settle = s.settle ∧
      (s.settle.mapEnv φ).settle = (s.mapEnv φ).settle from h.2.2
  refine settle_induction (P := fun u => (∀ w, u.eng.point ≠ .start w) ∧ u.settle = s.settle ∧
    (u.mapEnv φ).settle = (s.mapEnv φ).settle) ⟨hbegun, rfl, rfl⟩ ?_
  rintro u v ⟨hbegun', hrun, hmap⟩ hstep
  have huses : u.eng.point.uses = true := by
    by_contra hp
    exact hwait (hrun ▸ settle_idle_of_ending hbegun' (Bool.eq_false_of_not_eq_true hp))
  exact ⟨microStep_begun hstep, (settle_step hstep).symm.trans hrun,
    (settle_step (microStep_mapEnv hφ huses hstep)).symm.trans hmap⟩

/-! ### The whole command -/

theorem decodeOpen_mapEnv (s : State) : decodeOpen (s.mapEnv φ) = (decodeOpen s).mapEnv φ :=
  decodeLoop_mapEnv s.decodeStart

/-- A command that touches no channel ends at once. -/
theorem exec_other_idle {i : Instr} (hcount : i ≠ .count) (hencode : i ≠ .encode) (hdecode : i ≠ .decode)
    (h : exec i s = .next t) : t.eng.point = .idle := by
  cases executes_of_exec_other id hcount hencode hdecode h with
  | streams _ u hopens => exact absurd hopens.stream (by simp [hcount, hencode, hdecode])
  | clears | faults | completes | setsFreq | builds | clearsCode | extracts => rfl

/-- A command in progress has opened its channels and run, and does so whatever is supplied. -/
theorem exec_inProgress {i : Instr} (h : exec i s = .next t) (hp : t.eng.point ≠ .idle) :
    ∃ u, s.Opens i u ∧ t = u.settle ∧ ∀ φ, exec i (s.mapEnv φ) = .next (u.mapEnv φ).settle := by
  by_cases hcount : i = .count
  · subst hcount
    cases h
    exact ⟨_, countOpen_opens s, rfl, fun φ => rfl⟩
  by_cases hencode : i = .encode
  · subst hencode
    obtain ⟨hctv, h⟩ | ⟨-, rfl⟩ := withCodeTable_next h
    · cases h
      exact ⟨_, encodeOpen_opens s, rfl, fun φ => exec_encode_table (s := s.mapEnv φ) hctv⟩
    · exact absurd rfl hp
  by_cases hdecode : i = .decode
  · subst hdecode
    obtain ⟨htk, h⟩ | ⟨-, rfl⟩ := withTree_next h
    · cases h
      exact ⟨_, decodeOpen_opens s, rfl, fun φ => (exec_decode (s := s.mapEnv φ) htk).trans
        (congrArg (fun u : State => Host.Outcome.next u.settle) (decodeOpen_mapEnv s))⟩
    · exact absurd rfl hp
  · exact absurd (exec_other_idle hcount hencode hdecode h) hp

/-- Settles O50: a run ends where nothing is supplied, and what is supplied then changes no micro-operation before. -/
theorem waitingLosesNothing : Obligations.WaitingLosesNothing := by
  intro i s t h
  by_cases hp : t.eng.point = .idle
  · exact ⟨.inl hp, fun hwait => absurd hp hwait⟩
  · obtain ⟨u, hopens, rfl, hsupplied⟩ := exec_inProgress h hp
    have hmove (φ : Env → Env) (hφ : Supplies φ) : engineMove (u.settle.mapEnv φ) = exec i (s.mapEnv φ) := by
      rw [engineMove_goesOn (s := u.settle.mapEnv φ) (settle_begun hopens.begun), settle_mapEnv hφ hopens.begun hp,
        hsupplied]
    exact ⟨settle_waits hopens.begun, fun _ => ⟨fun it => hmove _ (supplies_offerSi it),
      fun it => hmove _ (supplies_offerBi it), fun a => hmove _ (supplies_answerBo a),
      fun a => hmove _ (supplies_answerSo a)⟩⟩

end

end Sys2Proof.Machine
end

section
/-!
Single steps and whole runs (00_scope.md R10; log 3): every command's first step, and every micro-operation, is the same
whatever events are to come, so `n` ticks are `n` micro-operations.
-/
namespace Sys2Proof.Machine

section
variable {s t u : State} (v : Env)

/-! ### BUILD and EXTRACT in another environment -/

theorem makeLeaves_withEnv (cs : List Nat) (n : Nat) (s : State) :
    makeLeaves cs n (s.withEnv v) = ((makeLeaves cs n s).1.withEnv v, (makeLeaves cs n s).2) := by
  induction cs generalizing n s with
  | nil => rfl
  | cons c cs ih =>
    by_cases h : s.freqAt c = 0
    · rw [makeLeaves_absent cs n h, makeLeaves_absent (s := s.withEnv v) cs n h, ih]
    · rw [makeLeaves_present cs n h, makeLeaves_present (s := s.withEnv v) cs n h]
      exact ih (n + 1) (s.setNode n (Node.leafOf c (s.freqAt c)))

theorem leastRank_withEnv (best : Nat) (is : List Nat) : (s.withEnv v).leastRank best is = s.leastRank best is := by
  induction is generalizing best with
  | nil => rfl
  | cons i is ih => exact ih _

theorem pqExtractMin_withEnv (s : State) :
    (s.withEnv v).pqExtractMin = s.pqExtractMin.map fun r => (r.1, r.2.withEnv v) := by
  cases hpq : s.eng.pq with
  | nil => rw [pqExtractMin_none.2 hpq, (pqExtractMin_none (s := s.withEnv v)).2 hpq, Option.map_none]
  | cons i is =>
    have hpq' : (s.withEnv v).eng.pq = i :: is := hpq
    simp only [State.pqExtractMin, hpq, hpq', leastRank_withEnv, Option.map_some]
    rfl

theorem mergeLoop_withEnv (fuel m : Nat) (s : State) :
    mergeLoop fuel m (s.withEnv v) = ((mergeLoop fuel m s).1.withEnv v, (mergeLoop fuel m s).2) := by
  induction fuel generalizing m s with
  | zero => rfl
  | succ fuel ih =>
    have hpq (u : State) : (u.withEnv v).eng.pq = u.eng.pq := rfl
    unfold mergeLoop
    rw [hpq]
    split_ifs
    · rfl
    · rw [pqExtractMin_withEnv]
      cases s.pqExtractMin with
      | none => rfl
      | some r =>
        dsimp only [Option.map_some]
        rw [pqExtractMin_withEnv]
        cases r.2.pqExtractMin with
        | none => rfl
        | some r' => exact ih (m + 1) ((r'.2.setNode m (r'.2.mergedNode r.1 r'.1)).pqInsert m)

theorem insertAll_withEnv (is : List Nat) (s : State) : insertAll is (s.withEnv v) = (insertAll is s).withEnv v := by
  rw [insertAll_eq, insertAll_eq]
  rfl

theorem buildMany_withEnv (n : Nat) (s : State) : buildMany n (s.withEnv v) = (buildMany n s).withEnv v := by
  unfold buildMany
  rw [insertAll_withEnv, mergeLoop_withEnv]
  dsimp only
  rw [pqExtractMin_withEnv]
  cases (mergeLoop n n (insertAll (List.range n) s)).1.pqExtractMin <;> rfl

theorem buildTree_withEnv (s : State) : buildTree (s.withEnv v) = (buildTree s).withEnv v := by
  have hempty : ({ s.withEnv v with eng := { (s.withEnv v).eng with pq := [] } } : State) =
      ({ s with eng := { s.eng with pq := [] } } : State).withEnv v := rfl
  have hparams : (s.withEnv v).params = s.params := rfl
  unfold buildTree
  rw [hempty, hparams, makeLeaves_withEnv]
  dsimp only
  split
  · rfl
  · rfl
  · exact buildMany_withEnv v _ _

theorem walkStep_withEnv (s : State) : walkStep (s.withEnv v) = (walkStep s).withEnv v := by
  have hwstk : (s.withEnv v).eng.wstk = s.eng.wstk := rfl
  unfold walkStep
  rw [hwstk]
  cases s.eng.wstk with
  | nil => rfl
  | cons f below =>
    obtain ⟨i, phase⟩ := f
    cases phase with
    | ph0 =>
      dsimp only [walkEnter]
      rw [ite_withEnv, ite_withEnv]
      rfl
    | ph1 =>
      dsimp only [walkRight]
      rw [ite_withEnv]
      rfl
    | ph2 => cases below <;> rfl

theorem walkLoop_withEnv (fuel : Nat) (s : State) :
    walkLoop fuel (s.withEnv v) = (walkLoop fuel s).map fun u => u.withEnv v := by
  induction fuel generalizing s with
  | zero =>
    unfold walkLoop
    rw [apply_ite (Option.map _)]
    rfl
  | succ fuel ih =>
    unfold walkLoop
    rw [walkStep_withEnv, ih, apply_ite (Option.map _)]
    rfl

/-! ### The checks in another environment -/

theorem withOperand_withEnv {r : Fin 4} {bound : Nat} {k k' : Nat → Result} (h : withOperand s r bound k = .next t)
    (hk : ∀ n, k n = .next t → k' n = .next (t.withEnv v)) :
    withOperand (s.withEnv v) r bound k' = .next (t.withEnv v) := by
  have hx : (s.withEnv v).x r = s.x r := rfl
  unfold withOperand at h ⊢
  rw [hx]
  split at h
  case isTrue hin => rw [if_pos hin, hk _ h]
  case isFalse hout =>
    cases h
    exact if_neg hout

theorem withTree_withEnv {k k' : Result} (h : withTree s k = .next t) (hk : k = .next t → k' = .next (t.withEnv v)) :
    withTree (s.withEnv v) k' = .next (t.withEnv v) := by
  obtain ⟨htk, h⟩ | ⟨htk, rfl⟩ := withTree_next h
  · exact (withTree_some (s := s.withEnv v) k' htk).trans (hk h)
  · exact withTree_none (s := s.withEnv v) k' htk

theorem withCodeTable_withEnv {k k' : Result} (h : withCodeTable s k = .next t)
    (hk : k = .next t → k' = .next (t.withEnv v)) : withCodeTable (s.withEnv v) k' = .next (t.withEnv v) := by
  obtain ⟨hctv, h⟩ | ⟨hctv, rfl⟩ := withCodeTable_next h
  · exact (withCodeTable_some (s := s.withEnv v) k' hctv).trans (hk h)
  · exact withCodeTable_none (s := s.withEnv v) k' hctv

/-! ### The first step of every command -/

theorem exec_extract_withEnv (h : exec .extract s = .next t) : exec .extract (s.withEnv v) = .next (t.withEnv v) := by
  cases htk : s.eng.tk with
  | none =>
    cases (exec_extract_noTree htk).symm.trans h
    exact exec_extract_noTree (s := s.withEnv v) htk
  | empty =>
    cases (exec_extract_empty htk).symm.trans h
    exact exec_extract_empty (s := s.withEnv v) htk
  | tree =>
    cases hwalk : walkLoop (Params.walkFuel s.params) (s.walking [] [Frame.enter s.eng.root] []) with
    | none => cases (exec_extract_unending htk hwalk).symm.trans h
    | some u =>
      cases (exec_extract_tree htk hwalk).symm.trans h
      refine exec_extract_tree (s := s.withEnv v) (u := u.withEnv v) htk ?_
      exact (walkLoop_withEnv v _ _).trans (congrArg _ hwalk)

/-- No command's first step looks at the environment. -/
theorem firstStep_withEnv {i : Instr} (h : firstStep i s = .next t) :
    firstStep i (s.withEnv v) = .next (t.withEnv v) := by
  cases i with
  | nop | clr | gett | count =>
    cases h
    rfl
  | setf =>
    refine (exec_setf (s.withEnv v)).trans (withOperand_withEnv v ((exec_setf s).symm.trans h) fun c h => ?_)
    exact withOperand_withEnv v h fun n h => by
      cases h
      rfl
  | getf =>
    refine (exec_getf (s.withEnv v)).trans (withOperand_withEnv v ((exec_getf s).symm.trans h) fun c h => ?_)
    cases h
    rfl
  | build =>
    cases h
    exact congrArg (fun u : State => Host.Outcome.next (u.complete [])) (buildTree_withEnv v s)
  | getn =>
    exact withTree_withEnv v h fun h => withOperand_withEnv v h fun i h => by
      cases h
      rfl
  | extract => exact exec_extract_withEnv v h
  | getc =>
    exact withCodeTable_withEnv v h fun h => withOperand_withEnv v h fun c h => withOperand_withEnv v h fun k h => by
      cases h
      rfl
  | encode =>
    exact withCodeTable_withEnv v h fun h => by
      cases h
      rfl
  | decode =>
    exact withTree_withEnv v h fun h => by
      cases h
      exact congrArg Host.Outcome.next (decodeBits_withEnv v _ s.decodeStart)

theorem firstStepOf_withEnv {w : Word} (h : firstStepOf w s = .next t) :
    firstStepOf w (s.withEnv v) = .next (t.withEnv v) := by
  cases hdecode : decode w with
  | ok i =>
    rw [firstStepOf_ok hdecode] at h ⊢
    exact firstStep_withEnv v h
  | error e =>
    rw [firstStepOf_error hdecode] at h ⊢
    cases h
    rfl

end

section
variable {s t : State} (es : List Event)

/-! ### Micro-operations whatever events are to come -/

theorem firstStepOf_env {w : Word} (h : firstStepOf w s = .next t) : t.env = s.env := by
  have hsame : t.withEnv s.env = t := Host.Outcome.next.inj ((firstStepOf_withEnv s.env h).symm.trans h)
  rw [← hsame]
  rfl

theorem firstStepOf_withEvents {w : Word} (h : firstStepOf w s = .next t) :
    firstStepOf w (s.withEvents es) = .next (t.withEvents es) := by
  rw [State.withEvents, State.withEvents, firstStepOf_env h]
  exact firstStepOf_withEnv { s.env with events := es } h

theorem microStep_withEvents_some (h : s.microStep = some t) :
    (s.withEvents es).microStep = some (t.withEvents es) := by
  cases hpoint : s.eng.point with
  | idle => cases (microStep_idle hpoint).symm.trans h
  | start w => cases (microStep_start hpoint).symm.trans h
  | countGet | encGet | encPut | encFlush | encAbort | decGet | decPut =>
    exact microStep_mapEnv (supplies_events es) (by rw [hpoint]; rfl) h
  | countRelease f =>
    cases (microStep_countRelease hpoint).symm.trans h
    exact microStep_countRelease (s := s.withEvents es) hpoint
  | countFinish f =>
    cases (microStep_countFinish hpoint).symm.trans h
    refine (microStep_countFinish (s := s.withEvents es) hpoint).trans ?_
    cases f <;> rfl
  | encRelease f =>
    cases (microStep_encRelease hpoint).symm.trans h
    exact microStep_encRelease (s := s.withEvents es) hpoint
  | encClose f =>
    cases (microStep_encClose hpoint).symm.trans h
    exact microStep_encClose (s := s.withEvents es) hpoint
  | encFinish f =>
    cases (microStep_encFinish hpoint).symm.trans h
    refine (microStep_encFinish (s := s.withEvents es) hpoint).trans ?_
    cases f <;> rfl
  | decRelease f =>
    cases (microStep_decRelease hpoint).symm.trans h
    exact microStep_decRelease (s := s.withEvents es) hpoint
  | decClose f =>
    cases (microStep_decClose hpoint).symm.trans h
    exact microStep_decClose (s := s.withEvents es) hpoint
  | decFinish f =>
    cases (microStep_decFinish hpoint).symm.trans h
    refine (microStep_decFinish (s := s.withEvents es) hpoint).trans ?_
    cases f <;> rfl

theorem microStep_withEvents (s : State) :
    (s.withEvents es).microStep = s.microStep.map fun t => t.withEvents es := by
  cases h : s.microStep with
  | some t => exact microStep_withEvents_some es h
  | none =>
    cases h' : (s.withEvents es).microStep with
    | none => rfl
    | some t => cases (microStep_withEvents_some (s := s.withEvents es) s.env.events h').symm.trans h

theorem runFor_withEvents (n : Nat) (s : State) : (s.withEvents es).runFor n = (s.runFor n).withEvents es := by
  induction n generalizing s with
  | zero => rfl
  | succ n ih =>
    have hstep := microStep_withEvents es s
    cases h : s.microStep with
    | none =>
      rw [h] at hstep
      rw [runFor_stuck _ h, runFor_stuck _ hstep]
    | some t =>
      rw [h] at hstep
      rw [runFor_step n h, runFor_step n hstep, ih]

theorem settle_withEvents (s : State) : (s.withEvents es).settle = s.settle.withEvents es := runFor_withEvents es _ s

/-! ### Ticks -/

theorem step_withEvents (e : Event) (s : State) : step (s.withEvents (e :: es)) = handle e (s.withEvents es) :=
  step_event (s := s.withEvents (e :: es)) rfl

theorem run_succ {k : Nat} (h : step s = .next t) :
    Host.Core.run Sys2Proof.core (k + 1) s = Host.Core.run Sys2Proof.core k t := by
  have hcore : Sys2Proof.core.step s = .next t := h
  refine (Host.Core.run.eq_2 Sys2Proof.core s k).trans ?_
  rw [hcore]

/-- `n` ticks of a command in progress, or of an idle engine, are `n` micro-operations, as far as there are any. -/
theorem run_ticks (n : Nat) {s : State} (hbegun : ∀ w, s.eng.point ≠ .start w) :
    Host.Core.run Sys2Proof.core n (s.withEvents (List.replicate n .tick ++ es)) =
      .next ((s.runFor n).withEvents es) := by
  induction n generalizing s with
  | zero => rfl
  | succ n ih =>
    have htick : step (s.withEvents (List.replicate (n + 1) .tick ++ es)) =
        .next ((s.microStep.getD s).withEvents (List.replicate n .tick ++ es)) := by
      have hgoes := engineTick_goesOn (s := s.withEvents (List.replicate n .tick ++ es)) hbegun
      refine (step_withEvents _ .tick s).trans (hgoes.trans ?_)
      rw [microStep_withEvents]
      cases s.microStep <;> rfl
    rw [run_succ htick]
    cases h : s.microStep with
    | none =>
      rw [Option.getD_none, ih hbegun, runFor_stuck _ h, runFor_stuck _ h]
    | some t =>
      rw [Option.getD_some, ih (microStep_begun h), runFor_step n h]

/-! ### A command, by its first step -/

theorem workLeft_idle (h : s.eng.point = .idle) : s.workLeft = 0 := by
  simp [State.workLeft, h, Point.reserve, Point.uses]

/-- `u` is where a first step has led: what is left to do from there leads to `t`, and uses only what `s` was supplied. -/
structure State.StartsRun (s u t : State) : Prop where
  run : u.settle = t
  begun : ∀ w, u.eng.point ≠ .start w
  bound : u.workLeft ≤ s.env.supplied + 4

/-- A command that ends at its first step. -/
theorem startsRun_idle (s : State) (h : t.eng.point = .idle) : s.StartsRun t t where
  run := settle_ended h
  begun w := by
    rw [h]
    nofun
  bound := by
    rw [workLeft_idle h]
    exact Nat.zero_le _

theorem State.Opens.startsRun {i : Instr} (h : s.Opens i t) : s.StartsRun t t.settle where
  run := rfl
  begun := h.begun
  bound := h.env ▸ workLeft_le t

/-- A command's first step, and its run from there. -/
theorem firstStep_of_exec {i : Instr} (h : exec i s = .next t) : ∃ u, firstStep i s = .next u ∧ s.StartsRun u t := by
  cases i with
  | count =>
    cases h
    exact ⟨_, rfl, (countOpen_opens s).startsRun⟩
  | encode =>
    obtain ⟨hctv, h⟩ | ⟨hctv, rfl⟩ := withCodeTable_next h
    · cases h
      exact ⟨_, withCodeTable_some _ hctv, (encodeOpen_opens s).startsRun⟩
    · exact ⟨_, withCodeTable_none _ hctv, startsRun_idle s rfl⟩
  | decode =>
    obtain ⟨htk, h⟩ | ⟨htk, rfl⟩ := withTree_next h
    · cases h
      exact ⟨_, withTree_some _ htk, (decodeOpen_opens s).startsRun⟩
    · exact ⟨_, withTree_none _ htk, startsRun_idle s rfl⟩
  | nop | clr | setf | getf | build | gett | getn | extract | getc =>
    exact ⟨t, h, startsRun_idle s (exec_other_idle (by decide) (by decide) (by decide) h)⟩

theorem firstStepOf_of_begin {w : Word} (h : beginCommand w s = .next t) :
    ∃ u, firstStepOf w s = .next u ∧ s.StartsRun u t := by
  cases hdecode : decode w with
  | ok i =>
    rw [beginCommand_ok hdecode] at h
    rw [firstStepOf_ok hdecode]
    exact firstStep_of_exec h
  | error e =>
    cases (beginCommand_error hdecode s).symm.trans h
    exact ⟨_, firstStepOf_error hdecode s, startsRun_idle s rfl⟩

/-! ### The statement -/

/-- Ticks of a command in progress, or of an idle engine, reach what its run reaches. -/
theorem run_ticks_settle {n : Nat} (hbegun : ∀ w, s.eng.point ≠ .start w) (hn : s.workLeft ≤ n) :
    Host.Core.run Sys2Proof.core n (s.withEvents (List.replicate n .tick ++ es)) =
      .next (s.settle.withEvents es) := by
  rw [run_ticks es n hbegun, runFor_enough hn (workLeft_le s)]
  rfl

/-- `n` ticks reach what one `run` reaches, wherever the engine is. -/
theorem run_ticks_move {n : Nat} (hn : s.env.supplied + 5 ≤ n) (h : engineMove (s.withEvents es) = .next t) :
    Host.Core.run Sys2Proof.core n (s.withEvents (List.replicate n .tick ++ es)) = .next t := by
  by_cases hstart : ∃ w, s.eng.point = .start w
  · obtain ⟨w, hp⟩ := hstart
    obtain ⟨m, rfl⟩ : ∃ m, n = m + 1 := ⟨n - 1, by omega⟩
    obtain ⟨u, hfirst, hrun⟩ := firstStepOf_of_begin ((engineMove_start (s := s.withEvents es) hp).symm.trans h)
    have hkept : u.withEvents es = u := by
      rw [State.withEvents, firstStepOf_env hfirst, withEvents_env, ← withEvents_env, ← firstStepOf_env hfirst]
    have htick : step (s.withEvents (List.replicate (m + 1) .tick ++ es)) =
        .next (u.withEvents (List.replicate m .tick ++ es)) := by
      have hstart := engineTick_start (s := s.withEvents (List.replicate m .tick ++ es)) hp
      exact (step_withEvents _ .tick s).trans (hstart.trans (firstStepOf_withEvents (s := s.withEvents es) _ hfirst))
    have hbound : u.workLeft ≤ s.env.supplied + 4 := hrun.bound
    rw [run_succ htick, run_ticks_settle es hrun.begun (by omega), ← settle_withEvents, hkept, hrun.run]
  · have hbegun := not_exists.1 hstart
    cases (engineMove_goesOn (s := s.withEvents es) hbegun).symm.trans h
    have hwork : s.workLeft ≤ n := (workLeft_le s).trans (by omega)
    rw [run_ticks_settle es hbegun hwork]
    exact congrArg Host.Outcome.next (settle_withEvents es s).symm

/-- Settles O14: the first step by itself, and then a micro-operation a tick; a word issued is a word written and run. -/
theorem ticksReachWhatARunReaches : Obligations.TicksReachWhatARunReaches := by
  intro s t es n hn
  refine ⟨fun w hbusy herr h => ?_, fun h => ?_⟩
  · have hyes : (s.withEvents es).accepts 4 w = true := (accepts_iff _ _ _).2 ⟨by decide, hbusy, fun _ => herr⟩
    have hissue : step (s.withEvents (.issue w :: (List.replicate n .tick ++ es))) =
        .next ((s.accept w).withEvents (List.replicate n .tick ++ es)) := by
      have haccepted := hostIssue_accepted (s := s.withEvents (List.replicate n .tick ++ es)) hbusy herr
      exact (step_withEvents _ (.issue w) s).trans (congrArg Host.Outcome.next haccepted)
    have hwrite := (step_withEvents es (.write 4 w) s).trans (hostWrite_cmd hyes)
    rw [run_succ hissue]
    exact run_ticks_move es (s := s.accept w) hn ((engineMove_start rfl).trans (hwrite.symm.trans h))
  · exact run_ticks_move es hn h

end

end Sys2Proof.Machine
end

section
/-!
The tree BUILD makes (42_tree_builder.md R161 to R173): which records are children, that each merge takes the two trees of
least rank, and that the result is a tree as 10_state.md R31 asks.
-/
namespace Sys2Proof.Machine

/-! ### No symbol, R167 -/

theorem makeLeaves_none {cs : List Nat} {s : State} (n : Nat) (h : ∀ c ∈ cs, s.freqAt c = 0) :
    makeLeaves cs n s = (s, n) := by
  induction cs with
  | nil => rfl
  | cons c cs ih =>
    rw [makeLeaves_absent cs n (h c List.mem_cons_self)]
    exact ih fun d hd => h d (List.mem_cons_of_mem c hd)

theorem mem_present {s : State} {c : Nat} : c ∈ s.present ↔ c < s.params.nsym ∧ s.freqAt c ≠ 0 := by
  simp [State.present]

theorem leafed_none {s : State} (h : s.present = []) : s.leafed = { s with eng := { s.eng with pq := [] } } := by
  have habsent : ∀ c ∈ List.range s.params.nsym, s.freqAt c = 0 := by
    intro c hc
    by_contra hfreq
    exact List.not_mem_nil (h ▸ mem_present.2 ⟨List.mem_range.1 hc, hfreq⟩)
  exact congrArg Prod.fst (makeLeaves_none (s := { s with eng := { s.eng with pq := [] } }) 0 habsent)

/-- Settles O29: no leaf is made, so NODE is not written. -/
theorem buildOfTheEmptyMapping : Obligations.BuildOfTheEmptyMapping := by
  intro s h
  rw [exec_build (buildTree_none h), leafed_none h]
  rfl

/-! ### Along the merges -/

/-- BUILD, begun in `s`, has made the merges below the index `m`: of the records below `m` each is the child of exactly
one merge or in PQ, and each merge took the two trees of least rank, the lesser as its left child. -/
structure State.Grows (s : State) (m : Nat) (t : State) : Prop where
  size : m + t.eng.pq.length = 2 * s.present.length
  placed : (((List.range m).flatMap fun i => (t.nodeAt i).children) ++ t.eng.pq).Perm (List.range m)
  least : ∀ j, s.present.length ≤ j → j < m →
    t.ranksBelow (t.nodeAt j).left (t.nodeAt j).right = true ∧
      ∀ i, i < j → (∀ k, k ≤ j → i ∉ (t.nodeAt k).children) → t.ranksBelow (t.nodeAt j).right i = true

section
variable {s t : State} {m t1 t2 : Nat}

theorem grows_filled (s : State) : s.Grows s.present.length s.filled where
  size := by simp [two_mul]
  placed := by
    have hnone : ((List.range s.present.length).flatMap fun i => (s.filled.nodeAt i).children) = [] := by
      refine List.flatMap_eq_nil_iff.2 fun i hi => children_eq_nil_of_isLeaf ?_
      rw [filled_nodeAt, leafed_leaf s (List.mem_range.1 hi)]
      rfl
    rw [hnone, filled_pq, List.nil_append]
  least j hj hlt := absurd hlt (Nat.not_lt.2 hj)

theorem State.Grows.nodup (h : s.Grows m t) : t.eng.pq.Nodup :=
  (List.nodup_append.1 (h.placed.nodup_iff.2 List.nodup_range)).2.1

/-- A record that is the child of no merge is in PQ. -/
theorem State.Grows.mem_pq (h : s.Grows m t) {i : Nat} (hi : i < m) (hnone : ∀ k, k < m → i ∉ (t.nodeAt k).children) :
    i ∈ t.eng.pq := by
  have hplaced := h.placed.mem_iff.2 (List.mem_range.2 hi)
  refine (List.mem_append.1 hplaced).resolve_left fun hchild => ?_
  obtain ⟨k, hk, hik⟩ := List.mem_flatMap.1 hchild
  exact hnone k (List.mem_range.1 hk) hik

theorem merge_children (s : State) (m t1 t2 : Nat) : ((s.merge m t1 t2).nodeAt m).children = [t1, t2] := by
  rw [merge_nodeAt_same]
  rfl

theorem merge_placed (h : s.Grows m t) (htwo : t.TwoLeast t1 t2) :
    (((List.range (m + 1)).flatMap fun i => ((t.merge m t1 t2).nodeAt i).children) ++ (t.merge m t1 t2).eng.pq).Perm
      (List.range (m + 1)) := by
  have hold : ((List.range m).flatMap fun i => ((t.merge m t1 t2).nodeAt i).children) =
      (List.range m).flatMap fun i => (t.nodeAt i).children :=
    List.flatMap_congr fun i hi => by rw [merge_nodeAt_ne t m t1 t2 (List.mem_range.1 hi).ne]
  have hpq := (htwo.perm.append_left ((List.range m).flatMap fun i => (t.nodeAt i).children)).symm.trans h.placed
  rw [List.range_succ, List.flatMap_append, hold, merge_pq, ← List.append_assoc]
  refine List.Perm.append_right [m] ?_
  simpa [merge_children] using hpq

/-- The merge written at `m` took the two trees of least rank. -/
theorem merge_least (h : s.Grows m t) (htwo : t.TwoLeast t1 t2) :
    t.ranksBelow t1 t2 = true ∧
      ∀ i, i < m → i ≠ t1 → i ≠ t2 → (∀ k, k < m → i ∉ (t.nodeAt k).children) → t.ranksBelow t2 i = true := by
  have hne : t2 ≠ t1 := (h.nodup.mem_erase_iff.1 htwo.second).1
  refine ⟨(ranksBelow_total t hne).resolve_left ?_, fun i hi hi1 hi2 hnone => ?_⟩
  · simp [htwo.firstLeast t2 htwo.second_mem]
  · have hmem : i ∈ t.eng.pq.erase t1 := h.nodup.mem_erase_iff.2 ⟨hi1, h.mem_pq hi hnone⟩
    refine (ranksBelow_total t hi2).resolve_left ?_
    simp [htwo.secondLeast i hmem]

/-- A merge changes no rank below its index. -/
theorem merge_ranksBelow {i j : Nat} (hi : i < m) (hj : j < m) : (t.merge m t1 t2).ranksBelow i j = t.ranksBelow i j :=
  ranksBelow_congr (by rw [merge_nodeAt_ne t m t1 t2 hi.ne]) (by rw [merge_nodeAt_ne t m t1 t2 hj.ne])

theorem grows_merge (hmerging : s.Merging m t) (h : s.Grows m t) (htwo : t.TwoLeast t1 t2) :
    s.Grows (m + 1) (t.merge m t1 t2) where
  size := by
    have hsize := h.size
    have hlen := htwo.length m
    omega
  placed := merge_placed h htwo
  least j hj hlt := by
    have hnode {k : Nat} (hk : k < m) := merge_nodeAt_ne t m t1 t2 hk.ne
    rcases Nat.lt_succ_iff_lt_or_eq.1 hlt with hlt | rfl
    · have ⟨_, _, hleft, hright, _⟩ := hmerging.merges j hj hlt
      obtain ⟨hbelow, hrest⟩ := h.least j hj hlt
      rw [hnode hlt, merge_ranksBelow (hleft.trans hlt) (hright.trans hlt)]
      refine ⟨hbelow, fun i hi hnone => ?_⟩
      rw [merge_ranksBelow (hright.trans hlt) (hi.trans hlt)]
      exact hrest i hi fun k hk => hnode (hk.trans_lt hlt) ▸ hnone k hk
    · have h1 := hmerging.members t1 htwo.first
      have h2 := hmerging.members t2 htwo.second_mem
      obtain ⟨hbelow, hrest⟩ := merge_least h htwo
      rw [merge_nodeAt_same]
      refine ⟨(merge_ranksBelow h1 h2).trans hbelow, fun i hi hnone => ?_⟩
      have hmerged := hnone j le_rfl
      rw [merge_children, List.mem_cons, List.mem_singleton, not_or] at hmerged
      refine (merge_ranksBelow h2 hi).trans (hrest i hi hmerged.1 hmerged.2 fun k hk => ?_)
      exact hnode hk ▸ hnone k hk.le

end

/-- What holds of the leaves and is kept by every merge holds when BUILD's merges end. -/
theorem mergesEnd_induction {s : State} {P : Nat → State → Prop} (h : s.present ≠ [])
    (hleaves : P s.present.length s.filled)
    (hmerge : ∀ m t t1 t2, s.Merging m t → s.Grows m t → P m t → t.TwoLeast t1 t2 → P (m + 1) (t.merge m t1 t2)) :
    s.Grows s.mergesEnd.2 s.mergesEnd.1 ∧ P s.mergesEnd.2 s.mergesEnd.1 := by
  have hlen : s.filled.eng.pq.length = s.present.length - 1 + 1 := by
    have hpos := List.length_pos_of_ne_nil h
    rw [filled_pq, List.length_range]
    omega
  obtain ⟨t, root, hrun, -, -, hgrows, hP⟩ :=
    mergeLoop_induction (P := fun m t => s.Merging m t ∧ s.Grows m t ∧ P m t)
      (fun m t t1 t2 ⟨hmerging, hgrows, hP⟩ htwo =>
        ⟨merging_merge hmerging htwo, grows_merge hmerging hgrows htwo, hmerge m t t1 t2 hmerging hgrows hP htwo⟩)
      _ s.present.length s.present.length s.filled (Nat.sub_le _ 1) hlen
      ⟨merging_filled h, grows_filled s, hleaves⟩
  rw [State.mergesEnd, hrun]
  exact ⟨hgrows, hP⟩

theorem mergesEnd_grows {s : State} (h : s.present ≠ []) : s.Grows s.mergesEnd.2 s.mergesEnd.1 :=
  (mergesEnd_induction (P := fun _ _ => True) h trivial fun _ _ _ _ _ _ _ _ => trivial).1

/-- Settles O34: what every merge keeps, of the records as BUILD leaves them. -/
theorem buildMergesTheTwoLeast : Obligations.BuildMergesTheTwoLeast := by
  intro s h
  obtain ⟨t, hrun, -, hncnt, hnodes, -⟩ := exec_build_many h
  have hgrows := mergesEnd_grows (List.ne_nil_of_length_pos (Nat.zero_lt_of_lt h))
  refine ⟨t, hrun, fun m hm hlt => ?_⟩
  have hranks (i j : Nat) : t.ranksBelow i j = s.mergesEnd.1.ranksBelow i j :=
    ranksBelow_congr (by rw [hnodes]) (by rw [hnodes])
  simpa only [hranks, hnodes] using hgrows.least m hm (hncnt ▸ hlt)

/-! ### The tree, R31 -/

section
variable {s t : State} {root : Nat}

theorem present_length_le (s : State) : s.present.length ≤ s.params.nsym :=
  (List.length_filter_le _ _).trans_eq List.length_range

theorem present_nodup (s : State) : s.present.Nodup := List.nodup_range.filter _

/-- The leaves stand below every other record. -/
theorem leaves_eq_range {n : Nat} (hn : n ≤ s.eng.ncnt) (hleaf : ∀ i, i < n → (s.nodeAt i).isLeaf = true)
    (hinner : ∀ i, n ≤ i → i < s.eng.ncnt → (s.nodeAt i).isLeaf = false) : s.leaves = List.range n := by
  obtain ⟨k, hk⟩ := Nat.exists_eq_add_of_le hn
  have hlow : (List.range n).filter (fun i => (s.nodeAt i).isLeaf) = List.range n :=
    List.filter_eq_self.2 fun i hi => hleaf i (List.mem_range.1 hi)
  have hhigh : ((List.range k).map (n + ·)).filter (fun i => (s.nodeAt i).isLeaf) = [] := by
    refine List.filter_eq_nil_iff.2 fun i hi => ?_
    obtain ⟨j, hj, rfl⟩ := List.mem_map.1 hi
    have hj := List.mem_range.1 hj
    simp [hinner (n + j) (Nat.le_add_right n j) (by omega)]
  rw [State.leaves, hk, List.range_add, List.filter_append, hlow, hhigh, List.append_nil]

theorem State.BuildsTree.params (h : s.BuildsTree root t) : t.params = s.params := by rw [h.eq]

theorem State.BuildsTree.leaf_isLeaf (h : s.BuildsTree root t) {i : Nat} (hi : i < s.present.length) :
    (t.nodeAt i).isLeaf = true := by
  rw [h.leaf i hi]
  rfl

theorem State.BuildsTree.leafOk (h : s.BuildsTree root t) (hfreq : s.FreqInv) {i : Nat} (hi : i < s.present.length) :
    t.leafOk i := by
  obtain ⟨hsym, hpos⟩ := mem_present.1 (List.getElem_mem hi)
  rw [State.leafOk, h.leaf i hi, h.params]
  exact ⟨rfl, rfl, rfl, rfl, hsym, Nat.one_le_iff_ne_zero.2 hpos, freqAt_lt hfreq _⟩

/-- The characters of the leaves are the present symbols, in order. -/
theorem State.BuildsTree.leaf_chars (h : s.BuildsTree root t) :
    ((List.range s.present.length).map fun i => (t.nodeAt i).ch) = s.present := by
  refine List.ext_getElem (by simp) fun i hi hi' => ?_
  rw [List.getElem_map, List.getElem_range, h.leaf i hi']
  rfl

/-- R31 of what BUILD makes, from the records that are no leaves. -/
theorem State.BuildsTree.treeOk (h : s.BuildsTree root t) (hsize : root + 1 ≤ s.params.nnode)
    (hroot : s.present.length ≤ root) (hinner : ∀ i, s.present.length ≤ i → i ≤ root → (t.nodeAt i).isLeaf = false)
    (hrecords : t.onlyRootOk ∨ ∀ i, i < t.eng.ncnt → t.leafOk i ∨ t.mergeOk i)
    (hplaced : ((List.range t.eng.ncnt).flatMap fun i => (t.nodeAt i).children).Perm (List.range root)) :
    t.treeOk ∧ t.leaves = List.range s.present.length := by
  have hncnt := h.ncnt_eq
  have hleaves : t.leaves = List.range s.present.length :=
    leaves_eq_range (by omega) (fun i hi => h.leaf_isLeaf hi) fun i hi hlt => hinner i hi (by omega)
  refine ⟨⟨?_, ?_, ?_, hrecords, ?_, ?_⟩, hleaves⟩
  · rw [h.root_eq, hncnt]
  · rwa [hncnt, h.params]
  · rw [h.root_eq]
    exact hinner root hroot le_rfl
  · rwa [h.root_eq]
  · rw [hleaves, h.leaf_chars]
    exact present_nodup s

/-- R168: the single-symbol tree. -/
theorem exec_build_one_treeOk (hwf : s.params.wf = true) (hfreq : s.FreqInv) {c : Nat} (h : s.present = [c]) :
    ∃ t, exec .build s = .next t ∧ s.BuildsTree 1 t ∧ t.treeOk ∧ t.leaves = List.range s.present.length := by
  obtain ⟨t, hrun, htree, hleaf, hroot⟩ := exec_build_one h
  obtain ⟨hsymw, -, -⟩ := (Params.wf_iff _).1 hwf
  have hlen : s.present.length = 1 := congrArg List.length h
  have hncnt := htree.ncnt_eq
  have hsize : 1 + 1 ≤ s.params.nnode := by
    have htwo : 2 ^ 1 ≤ s.params.nsym := Nat.pow_le_pow_right (by decide) hsymw
    rw [Params.nnode]
    omega
  refine ⟨t, hrun, htree, htree.treeOk hsize hlen.le (fun i hi hle => ?_) (.inl ⟨hncnt, ?_, ?_⟩) ?_⟩
  · obtain rfl : i = 1 := by omega
    rw [hroot]
    rfl
  · rw [hroot, hleaf]
  · exact htree.leafOk hfreq (by omega)
  · have hrange : List.range (1 + 1) = [0, 1] := rfl
    rw [hncnt, hrange, List.flatMap_cons, List.flatMap_cons, hleaf, hroot]
    exact .refl [0]

/-- R169: the tree of two or more symbols. -/
theorem exec_build_many_treeOk (hfreq : s.FreqInv) (h : 2 ≤ s.present.length) :
    ∃ t, exec .build s = .next t ∧ s.BuildsTree (2 * s.present.length - 2) t ∧ t.treeOk ∧
      t.leaves = List.range s.present.length := by
  obtain ⟨t, hrun, htree, hend, hnodes, hmerges⟩ := exec_build_many h
  have hne := List.ne_nil_of_length_pos (Nat.zero_lt_of_lt h)
  have hgrows := mergesEnd_grows hne
  obtain ⟨u, hmergesEnd, hpq, -⟩ := mergesEnd_spec hne
  have hncnt := htree.ncnt_eq
  have hsize := present_length_le s
  refine ⟨t, hrun, htree, htree.treeOk ?_ (by omega) (fun i hi hle => ?_) (.inr fun i hi => ?_) ?_⟩
  · rw [Params.nnode]
    omega
  · have ⟨hlp, _⟩ := hmerges i hi (by omega)
    simp [Node.isLeaf, hlp]
  · rcases Nat.lt_or_ge i s.present.length with hlow | hhigh
    · exact .inl (htree.leafOk hfreq hlow)
    · exact .inr (hmerges i hhigh hi)
  · have hplaced := hgrows.placed
    rw [← hend, hmergesEnd] at hplaced
    dsimp only at hplaced
    rw [hpq, hncnt, List.range_succ] at hplaced
    have hcancel := (List.perm_append_right_iff _).1 hplaced
    rw [hncnt, List.range_succ]
    simpa only [hnodes, hmergesEnd] using hcancel

theorem exec_build_treeOk (hwf : s.params.wf = true) (hfreq : s.FreqInv) (h : s.present ≠ []) :
    ∃ root t, exec .build s = .next t ∧ s.BuildsTree root t ∧ t.treeOk ∧ t.leaves = List.range s.present.length := by
  rcases present_cases s with hnone | ⟨c, hone⟩ | hmany
  · exact absurd hnone h
  · exact ⟨_, exec_build_one_treeOk hwf hfreq hone⟩
  · exact ⟨_, exec_build_many_treeOk hfreq hmany⟩

/-- The leaves of the tree BUILD makes are the present symbols, with their frequencies. -/
theorem State.BuildsTree.leaves_spec (h : s.BuildsTree root t) (hleaves : t.leaves = List.range s.present.length) :
    (∀ i ∈ t.leaves, (t.nodeAt i).ch ∈ s.present ∧ (t.nodeAt i).freq = s.freqAt (t.nodeAt i).ch) ∧
      ∀ c ∈ s.present, ∃ i ∈ t.leaves, (t.nodeAt i).ch = c := by
  rw [hleaves]
  refine ⟨fun i hi => ?_, fun c hc => ?_⟩
  · rw [h.leaf i (List.mem_range.1 hi)]
    exact ⟨List.getElem_mem _, rfl⟩
  · obtain ⟨i, hi, rfl⟩ := List.getElem_of_mem hc
    exact ⟨i, List.mem_range.2 hi, by rw [h.leaf i hi]; rfl⟩

end

/-- Settles O32: by the number of symbols; the leaves are what BUILD writes first. -/
theorem buildMakesAWellFormedTree : Obligations.BuildMakesAWellFormedTree := by
  intro s hwf hfreq h
  obtain ⟨root, t, hrun, htree, hok, hleaves⟩ := exec_build_treeOk hwf hfreq h
  exact ⟨t, hrun, htree.tk_eq, hok, htree.leaves_spec hleaves⟩

end Sys2Proof.Machine
end

section
/-!
The table EXTRACT makes of a tree (10_state.md R31, R32; 43_code_table_extractor.md R191, R197, R200): every leaf is reached
from the root, by a path no longer than the tree has records that are no leaves.
-/
namespace Sys2Proof.Machine

section
variable {s t : State}

/-! ### Paths of a tree, R31 -/

theorem exists_child_of_mem {n : Node} {c : Nat} (h : c ∈ n.children) : ∃ b, n.child b = (true, c) := by
  rcases mem_children.1 h with ⟨hp, rfl⟩ | ⟨hp, rfl⟩
  · exact ⟨false, by simp [Node.child, hp]⟩
  · exact ⟨true, by simp [Node.child, hp]⟩

theorem child_mem_children {n : Node} {b : Bool} (h : (n.child b).1 = true) : (n.child b).2 ∈ n.children := by
  cases b with
  | false => exact left_mem_children h
  | true => exact right_mem_children h

theorem follow_child {i j : Nat} {b : Bool} (p : List Bool) (h : (s.nodeAt i).child b = (true, j)) :
    s.follow i (b :: p) = s.follow j p := by
  simp [State.follow, h]

theorem follow_cons_some {i j : Nat} {b : Bool} {p : List Bool} (h : s.follow i (b :: p) = some j) :
    ((s.nodeAt i).child b).1 = true ∧ s.follow ((s.nodeAt i).child b).2 p = some j := by
  rw [State.follow] at h
  split at h
  case isTrue hp => exact ⟨hp, h⟩
  case isFalse => cases h

theorem not_leaf_of_follow_cons {i j : Nat} {b : Bool} {p : List Bool} (h : s.follow i (b :: p) = some j) :
    (s.nodeAt i).isLeaf = false := by
  refine Bool.eq_false_of_not_eq_true fun hleaf => ?_
  cases (follow_leaf hleaf b p).symm.trans h

/-- Every record of a tree is reached from the root: its parent stands above it. -/
theorem State.treeOk.reachable (h : s.treeOk) {i : Nat} (hi : i < s.eng.ncnt) :
    ∃ p, s.follow s.eng.root p = some i := by
  have ⟨hroot, _, _, _, hplaced, _⟩ := h
  induction hk : s.eng.root - i using Nat.strong_induction_on generalizing i with
  | _ k ih =>
    rcases Nat.lt_or_ge i s.eng.root with hlt | hge
    · obtain ⟨j, hj, hchild⟩ := List.mem_flatMap.1 (hplaced.mem_iff.2 (List.mem_range.2 hlt))
      have hj := List.mem_range.1 hj
      have hij := h.child_lt hj hchild
      obtain ⟨p, hp⟩ := ih (s.eng.root - j) (by omega) hj rfl
      obtain ⟨b, hb⟩ := exists_child_of_mem hchild
      exact ⟨p ++ [b], by rw [follow_append, hp, Option.bind_some, follow_child [] hb, State.follow]⟩
    · obtain rfl : i = s.eng.root := by omega
      exact ⟨[], rfl⟩

/-- How many records up to the index `i` are no leaves. -/
def State.inner (s : State) (i : Nat) : Nat := (List.range (i + 1)).countP fun k => !(s.nodeAt k).isLeaf

theorem inner_lt_of_child {i j : Nat} (hinner : (s.nodeAt i).isLeaf = false) (hji : j < i) : s.inner j < s.inner i := by
  have hle : s.inner j ≤ (List.range i).countP fun k => !(s.nodeAt k).isLeaf :=
    (List.range_sublist.2 hji).countP_le
  have hsucc : s.inner i = ((List.range i).countP fun k => !(s.nodeAt k).isLeaf) + 1 := by
    rw [State.inner, List.range_succ, List.countP_append]
    simp [hinner]
  omega

/-- A path meets each record that is no leaf at most once: indices fall along it. -/
theorem State.treeOk.length_le_inner (h : s.treeOk) {p : List Bool} {i j : Nat} (hi : i < s.eng.ncnt)
    (hp : s.follow i p = some j) : p.length ≤ s.inner i := by
  induction p generalizing i with
  | nil => exact Nat.zero_le _
  | cons b p ih =>
    obtain ⟨hchild, hrest⟩ := follow_cons_some hp
    have hlt := h.child_lt hi (child_mem_children hchild)
    have hle := ih (hlt.trans hi) hrest
    exact hle.trans_lt (inner_lt_of_child (not_leaf_of_follow_cons hp) hlt)

/-- Of a tree of leaves and merges, two records are children for each that is no leaf. -/
theorem sum_children_eq {l : List Nat} (h : ∀ i ∈ l, s.leafOk i ∨ s.mergeOk i) :
    (l.map fun i => (s.nodeAt i).children.length).sum = 2 * l.countP fun i => !(s.nodeAt i).isLeaf := by
  induction l with
  | nil => rfl
  | cons i l ih =>
    have hrest := ih fun j hj => h j (List.mem_cons_of_mem i hj)
    rw [List.map_cons, List.sum_cons, List.countP_cons, hrest]
    rcases h i List.mem_cons_self with ⟨hlp, hrp, -⟩ | ⟨hlp, hrp, -⟩
    · simp [Node.children, Node.isLeaf, hlp, hrp]
    · simp [Node.children, Node.isLeaf, hlp, hrp]
      omega

/-- R176: a tree has fewer than NSYM records that are no leaves. -/
theorem State.treeOk.inner_lt (h : s.treeOk) (hwf : s.params.wf = true) : s.inner s.eng.root < s.params.nsym := by
  have ⟨hroot, hsize, _, hrecords, hplaced, _⟩ := h
  obtain ⟨hsymw, -, -⟩ := (Params.wf_iff _).1 hwf
  have htwo : 2 ^ 1 ≤ s.params.nsym := Nat.pow_le_pow_right (by decide) hsymw
  rcases hrecords with ⟨hncnt, -, hlp, hrp, -⟩ | hrecords
  · obtain hone : s.eng.root = 1 := by omega
    have hrange : List.range (1 + 1) = [0, 1] := rfl
    rw [State.inner, hone, hrange]
    simp [Node.isLeaf, hlp, hrp, List.countP_cons]
    split <;> omega
  · have hcount := hplaced.length_eq
    rw [List.length_flatMap, sum_children_eq fun i hi => hrecords i (List.mem_range.1 hi), List.length_range,
      ← hroot] at hcount
    rw [Params.nnode] at hsize
    rw [State.inner]
    omega

/-- R176, R200: a path from the root to a leaf has 1 to MAXLEN bits. -/
theorem State.treeOk.path_length (h : s.treeOk) (hwf : s.params.wf = true) {p : List Bool} {j : Nat}
    (hp : s.follow s.eng.root p = some j) (hleaf : (s.nodeAt j).isLeaf = true) :
    1 ≤ p.length ∧ p.length ≤ s.params.maxlen := by
  have ⟨hroot, _, hinner, _⟩ := h
  constructor
  · refine List.length_pos_of_ne_nil ?_
    rintro rfl
    cases hp
    exact Bool.false_ne_true (hinner.symm.trans hleaf)
  · have hle := h.length_le_inner (Nat.lt_of_succ_le hroot.le) hp
    have hlt := h.inner_lt hwf
    rw [Params.maxlen]
    omega

/-! ### The entries of the recursive walk, R191 -/

/-- The walk writes an entry for every leaf below the record it starts at. -/
theorem mem_walkEntries_of_follow (h : s.treeOk) {r : List Bool} {depth i j : Nat} (p : List Bool)
    (hi : i < s.eng.ncnt) (hdepth : i < depth) (hr : s.follow i r = some j) (hleaf : (s.nodeAt j).isLeaf = true) :
    ((s.nodeAt j).ch, p ++ r) ∈ s.walkEntries depth i p := by
  induction r generalizing depth i p with
  | nil =>
    cases hr
    obtain ⟨d, rfl⟩ : ∃ d, depth = d + 1 := ⟨depth - 1, by omega⟩
    rw [walkEntries_leaf d p hleaf, List.append_nil]
    exact List.mem_singleton_self _
  | cons b r ih =>
    obtain ⟨hchild, hrest⟩ := follow_cons_some hr
    have hlt := h.child_lt hi (child_mem_children hchild)
    obtain ⟨d, rfl⟩ : ∃ d, depth = d + 1 := ⟨depth - 1, by omega⟩
    have hmem := ih (p ++ [b]) (depth := d) (hlt.trans hi) (by omega) hrest
    rw [List.append_assoc] at hmem
    rw [walkEntries_node _ p (not_leaf_of_follow_cons hr), List.mem_append]
    cases b with
    | false =>
      have hlp : (s.nodeAt i).lp = true := hchild
      exact .inl (by rwa [if_pos hlp])
    | true =>
      have hrp : (s.nodeAt i).rp = true := hchild
      exact .inr (by rwa [if_pos hrp])

/-- An index that some entry names reads as one of the entries that name it. -/
theorem readCell_writeEntries_of_mem (t : Table CodeEntry) {es : List (Nat × List Bool)} {c : Nat} {p : List Bool}
    (h : (c, p) ∈ es) :
    ∃ q, (c, q) ∈ es ∧ readCell CodeEntry.zero (writeEntries t es) c = { valid := true, path := q } := by
  induction es generalizing t with
  | nil => cases h
  | cons e es ih =>
    have hcons : writeEntries t (e :: es) = writeEntries (writeEntries t [e]) es := writeEntries_append t [e] es
    rw [hcons]
    rcases List.mem_cons.1 h with rfl | h
    · rcases readCell_writeEntries (writeEntries t [(c, p)]) es c with hread | ⟨q, hq, hread⟩
      · refine ⟨p, List.mem_cons_self, hread.trans ?_⟩
        rw [writeEntries_singleton, readCell_writeCell, if_pos rfl]
      · exact ⟨q, List.mem_cons_of_mem _ hq, hread⟩
    · obtain ⟨q, hq, hread⟩ := ih (writeEntries t [e]) h
      exact ⟨q, List.mem_cons_of_mem _ hq, hread⟩

theorem mem_leaves {i : Nat} : i ∈ s.leaves ↔ i < s.eng.ncnt ∧ (s.nodeAt i).isLeaf = true := by
  simp [State.leaves]

/-- A path from the root stays in the tree. -/
theorem State.treeOk.follow_lt (h : s.treeOk) {p : List Bool} {i j : Nat} (hi : i < s.eng.ncnt)
    (hp : s.follow i p = some j) : j < s.eng.ncnt := by
  induction p generalizing i with
  | nil =>
    cases hp
    exact hi
  | cons b p ih =>
    obtain ⟨hchild, hrest⟩ := follow_cons_some hp
    exact ih ((h.child_lt hi (child_mem_children hchild)).trans hi) hrest

theorem State.treeOk.root_lt (h : s.treeOk) : s.eng.root < s.eng.ncnt := Nat.lt_of_succ_le h.1.le

/-- R31: a character is one leaf's. -/
theorem State.treeOk.leaf_unique (h : s.treeOk) {i j : Nat} (hi : i ∈ s.leaves) (hj : j ∈ s.leaves)
    (hch : (s.nodeAt i).ch = (s.nodeAt j).ch) : i = j := by
  have ⟨_, _, _, _, _, hchars⟩ := h
  exact List.inj_on_of_nodup_map hchars hi hj hch

/-- R197: the table of the walk has, for every leaf, the path that leads to it. -/
theorem State.treeOk.walkTable_leaf (h : s.treeOk) (ht : t.eng.code = s.walkTable) {i : Nat} (hi : i ∈ s.leaves) :
    (t.codeAt (s.nodeAt i).ch).valid = true ∧
      s.follow s.eng.root (t.codeAt (s.nodeAt i).ch).path = some i := by
  obtain ⟨hlt, hleaf⟩ := mem_leaves.1 hi
  obtain ⟨p, hp⟩ := h.reachable hlt
  have hmem := mem_walkEntries_of_follow h [] h.root_lt (Nat.lt_succ_self _) hp hleaf
  obtain ⟨q, hq, hread⟩ := readCell_writeEntries_of_mem [] hmem
  have hentry : t.codeAt (s.nodeAt i).ch = { valid := true, path := q } := by
    rw [State.codeAt, ht]
    exact hread
  obtain ⟨r, j, hqr, hfollow, hleaf', hch⟩ := follow_of_mem_walkEntries hq
  obtain rfl : q = r := hqr
  obtain rfl : j = i := h.leaf_unique (mem_leaves.2 ⟨h.follow_lt h.root_lt hfollow, hleaf'⟩) hi hch
  rw [hentry]
  exact ⟨rfl, hfollow⟩

/-- R197: every valid entry of the table of the walk is some leaf's. -/
theorem State.treeOk.walkTable_valid (h : s.treeOk) (ht : t.eng.code = s.walkTable) {c : Nat}
    (hc : (t.codeAt c).valid = true) :
    ∃ j ∈ s.leaves, (s.nodeAt j).ch = c ∧ s.follow s.eng.root (t.codeAt c).path = some j := by
  obtain ⟨j, hj, hleaf, hch⟩ := follow_path_of_walkTable ht hc
  exact ⟨j, mem_leaves.2 ⟨h.follow_lt h.root_lt hj, hleaf⟩, hch, hj⟩

/-! ### The statements -/

/-- Settles O38: EXTRACT writes the table of the walk, and the walk writes one entry a leaf. -/
theorem extractRecordsTheLeafPaths : Obligations.ExtractRecordsTheLeafPaths := by
  intro s htk h
  refine ⟨_, extractWritesTheRecursiveWalk s htk h, fun i => h.walkTable_leaf rfl, fun c hc => ?_⟩
  obtain ⟨j, hj, hch, -⟩ := h.walkTable_valid rfl hc
  exact ⟨j, hj, hch⟩

/-- Settles O40: every valid entry has a path from the root to a leaf. -/
theorem extractedLengthsFit : Obligations.ExtractedLengthsFit := by
  intro s hwf htk h
  refine ⟨_, extractWritesTheRecursiveWalk s htk h, fun c hc => ?_⟩
  obtain ⟨j, hj, -, hpath⟩ := h.walkTable_valid rfl hc
  exact h.path_length hwf hpath (mem_leaves.1 hj).2

end

end Sys2Proof.Machine
end

section
/-!
What every step keeps of the tables (10_state.md R25, R27, R29 to R33), and that no reachable state stops the model.
-/
namespace Sys2Proof.Machine

/-- What the invariant asks of the parameters and the tables. -/
structure State.TablesInv (s : State) : Prop where
  params : s.params.wf = true
  freq : s.FreqInv
  node : s.NodeInv
  tree : s.TreeInv
  codeTable : s.CodeTableInv
  code : s.CodeInv

section
variable {s t u : State} {i : Instr} {w : Word} {go : State → State}

theorem State.Inv.tables (h : s.Inv) : s.TablesInv := ⟨h.params, h.freq, h.node, h.tree, h.codeTable, h.code⟩

theorem State.TablesInv.inv (h : s.TablesInv) (hcontrol : s.ControlInv) : s.Inv :=
  ⟨h.params, hcontrol, h.freq, h.node, h.tree, h.codeTable, h.code⟩

/-! ### What each part depends on -/

theorem freqInv_congr (hparams : t.params = s.params) (hfreq : t.eng.freq = s.eng.freq) (h : s.FreqInv) : t.FreqInv := by
  rwa [State.FreqInv, hparams, hfreq]

theorem nodeInv_congr (hparams : t.params = s.params) (hnode : t.eng.node = s.eng.node) (h : s.NodeInv) : t.NodeInv := by
  rwa [State.NodeInv, hparams, hnode]

theorem codeTableInv_congr (hparams : t.params = s.params) (hcode : t.eng.code = s.eng.code) (h : s.CodeTableInv) :
    t.CodeTableInv := by
  rwa [State.CodeTableInv, hparams, hcode]

theorem treeOk_congr (hparams : t.params = s.params) (hnode : t.eng.node = s.eng.node) (hroot : t.eng.root = s.eng.root)
    (hncnt : t.eng.ncnt = s.eng.ncnt) (h : s.treeOk) : t.treeOk := by
  simpa only [State.treeOk, State.onlyRootOk, State.leafOk, State.mergeOk, State.leaves, hparams, hroot, hncnt,
    nodeAt_congr hnode] using h

theorem walkEntries_congr (hnode : t.eng.node = s.eng.node) (depth i : Nat) (p : List Bool) :
    t.walkEntries depth i p = s.walkEntries depth i p := by
  induction depth generalizing i p with
  | zero => rfl
  | succ depth ih => simp only [State.walkEntries, nodeAt_congr hnode, ih]

theorem walkTable_congr (hnode : t.eng.node = s.eng.node) (hroot : t.eng.root = s.eng.root) :
    t.walkTable = s.walkTable := by
  rw [State.walkTable, State.walkTable, hroot, walkEntries_congr hnode]

theorem State.TablesInv.treeOk (h : s.TablesInv) (htk : s.eng.tk = .tree) : s.treeOk := by
  have htree := h.tree
  rwa [State.TreeInv, htk] at htree

theorem treeInv_of_tree (htk : s.eng.tk = .tree) (h : s.treeOk) : s.TreeInv := by
  rw [State.TreeInv, htk]
  exact h

theorem treeInv_of_empty (htk : s.eng.tk = .empty) (h : s.eng.root = 0 ∧ s.eng.ncnt = 0) : s.TreeInv := by
  rw [State.TreeInv, htk]
  exact h

theorem codeInv_of_tree (htk : s.eng.tk = .tree) (h : s.eng.code = s.walkTable) : s.CodeInv := by
  rw [State.CodeInv, htk]
  exact fun _ => h

theorem codeInv_of_empty (htk : s.eng.tk = .empty) (h : s.eng.code = []) : s.CodeInv := by
  rw [State.CodeInv, htk]
  exact fun _ => h

theorem treeInv_congr (hparams : t.params = s.params)
    (htree : t.eng.node = s.eng.node ∧ t.eng.root = s.eng.root ∧ t.eng.ncnt = s.eng.ncnt ∧ t.eng.tk = s.eng.tk)
    (h : s.TreeInv) : t.TreeInv := by
  obtain ⟨hnode, hroot, hncnt, htk⟩ := htree
  rw [State.TreeInv] at h
  rw [State.TreeInv, htk]
  cases hkind : s.eng.tk with
  | none | empty =>
    rw [hkind] at h
    exact ⟨hroot.trans h.1, hncnt.trans h.2⟩
  | tree =>
    rw [hkind] at h
    exact treeOk_congr hparams hnode hroot hncnt h

theorem codeInv_congr
    (htree : t.eng.node = s.eng.node ∧ t.eng.root = s.eng.root ∧ t.eng.ncnt = s.eng.ncnt ∧ t.eng.tk = s.eng.tk)
    (htable : t.eng.code = s.eng.code ∧ t.eng.ctv = s.eng.ctv) (h : s.CodeInv) : t.CodeInv := by
  obtain ⟨hnode, hroot, -, htk⟩ := htree
  rw [State.CodeInv, htable.2, htk, htable.1, walkTable_congr hnode hroot]
  exact h

/-- A state with the tables of another but for FREQ. -/
theorem State.TablesInv.of_tables (h : s.TablesInv) (hparams : t.params = s.params) (hfreq : t.FreqInv)
    (htables : (t.eng.node = s.eng.node ∧ t.eng.root = s.eng.root ∧ t.eng.ncnt = s.eng.ncnt ∧ t.eng.tk = s.eng.tk) ∧
      t.eng.code = s.eng.code ∧ t.eng.ctv = s.eng.ctv) : t.TablesInv where
  params := hparams ▸ h.params
  freq := hfreq
  node := nodeInv_congr hparams htables.1.1 h.node
  tree := treeInv_congr hparams htables.1 h.tree
  codeTable := codeTableInv_congr hparams htables.2.1 h.codeTable
  code := codeInv_congr htables.1 htables.2 h.code

theorem State.TablesInv.of_standing (h : s.TablesInv) (hparams : t.params = s.params) (hfreq : t.FreqInv)
    (hstanding : t.eng.standing = s.eng.standing) : t.TablesInv :=
  h.of_tables hparams hfreq (tables_of_standing hstanding)

/-! ### Reset -/

theorem resetOf_tablesInv {p : Params} (hwf : p.wf = true) : (State.resetOf p).TablesInv where
  params := hwf
  freq := ⟨rfl, nofun⟩
  node := ⟨rfl, nofun⟩
  tree := ⟨rfl, rfl⟩
  codeTable := ⟨rfl, nofun⟩
  code := nofun

theorem resetOf_inv {p : Params} (hwf : p.wf = true) : (State.resetOf p).Inv :=
  (resetOf_tablesInv hwf).inv (controlInv_of_idle rfl rfl rfl rfl rfl rfl)

/-- A state whose engine is as after reset but for the flags. -/
theorem State.TablesInv.cleared (h : s.TablesInv) (hparams : t.params = s.params)
    (heng : t.eng = { Engine.reset with done := t.eng.done }) : t.TablesInv :=
  (resetOf_tablesInv h.params).of_tables (t := t) hparams
    (freqInv_congr (s := State.resetOf s.params) hparams (by rw [heng]; rfl) (resetOf_tablesInv h.params).freq)
    (by rw [heng]; exact ⟨⟨rfl, rfl, rfl, rfl⟩, rfl, rfl⟩)

/-! ### FREQ along a run -/

theorem countTake_freqInv (h : s.FreqInv) (raw : Item Nat) (rest : List (Item Nat)) :
    (countTake raw rest s).FreqInv := by
  unfold countTake
  dsimp only
  split
  · exact h
  · exact h
  case h_3 c hitem =>
    have hc : c < s.params.nsym := by
      cases raw <;> simp only [narrow, Item.data.injEq, reduceCtorEq] at hitem
      exact hitem ▸ Nat.mod_lt _ s.params.nsym_pos
    split
    case isTrue => exact h
    case isFalse hfull =>
      have hlt : s.freqAt c < 2 ^ s.params.freqw := freqAt_lt h c
      have hne : s.freqAt c ≠ 2 ^ s.params.freqw - 1 := hfull
      exact setFreq_keeps_freqInv (s := s.tookSi (narrow s.params raw) rest) h hc
        (show s.freqAt c + 1 < 2 ^ s.params.freqw by omega)

theorem microStep_freqInv (h : s.FreqInv) (hstep : s.microStep = some t) : t.FreqInv := by
  have hparams := (microStep_standing hstep).1
  by_cases hp : s.eng.point = .countGet
  · rw [microStep_countGet hp, countGet] at hstep
    split at hstep <;> cases hstep
    exact countTake_freqInv h _ _
  · exact freqInv_congr hparams ((microStep_cases hstep).elim (fun hgoes => hgoes.freq hp) fun hends => hends.freq_eq) h

theorem State.TablesInv.microStep (h : s.TablesInv) (hstep : s.microStep = some t) : t.TablesInv :=
  have hstanding := microStep_standing hstep
  h.of_standing hstanding.1 (microStep_freqInv h.freq hstep) hstanding.2

theorem State.TablesInv.settle (h : s.TablesInv) : s.settle.TablesInv :=
  settle_induction h fun _ _ hu hstep => hu.microStep hstep

theorem State.TablesInv.opens (h : s.TablesInv) (hopens : s.Opens i u) : u.TablesInv := by
  refine h.of_standing hopens.params ?_ hopens.standing
  have hfreq := hopens.freq
  split at hfreq
  case isTrue =>
    rw [State.FreqInv, hfreq]
    exact ⟨rfl, nofun⟩
  case isFalse => exact freqInv_congr hopens.params hfreq h.freq

/-! ### NODE through BUILD -/

theorem leafOf_fits {c : Nat} (hfreq : s.FreqInv) (hc : c < s.params.nsym) :
    (Node.leafOf c (s.freqAt c)).fits s.params := by
  have hpow : 2 ^ s.params.freqw ≤ 2 ^ s.params.aggw := Nat.pow_le_pow_right (by decide) (Nat.le_add_right _ _)
  exact ⟨hc.le, (freqAt_lt hfreq c).trans_le hpow, Nat.two_pow_pos _, Nat.two_pow_pos _⟩

theorem nsym_le_nnode (p : Params) : p.nsym ≤ p.nnode := by
  have := p.nsym_pos
  rw [Params.nnode]
  omega

theorem makeLeaves_nodeInv {cs : List Nat} {n : Nat} (hfreq : s.FreqInv) (h : s.NodeInv)
    (hcs : ∀ c ∈ cs, c < s.params.nsym) (hn : n + cs.length ≤ s.params.nsym) : (makeLeaves cs n s).1.NodeInv := by
  induction cs generalizing n s with
  | nil => exact h
  | cons c cs ih =>
    rw [List.length_cons] at hn
    have hrest (d : Nat) (hd : d ∈ cs) := hcs d (List.mem_cons_of_mem c hd)
    by_cases hc : s.freqAt c = 0
    · rw [makeLeaves_absent cs n hc]
      exact ih hfreq h hrest (by omega)
    · rw [makeLeaves_present cs n hc]
      have hindex : n < s.params.nnode := (show n < s.params.nsym by omega).trans_le (nsym_le_nnode _)
      have hleaf := leafOf_fits hfreq (hcs c List.mem_cons_self)
      exact ih (s := s.setNode n (Node.leafOf c (s.freqAt c))) hfreq (setNode_keeps_nodeInv h hindex hleaf) hrest
        (show n + 1 + cs.length ≤ s.params.nsym by omega)

theorem leafed_nodeInv (hfreq : s.FreqInv) (h : s.NodeInv) : s.leafed.NodeInv :=
  makeLeaves_nodeInv (s := { s with eng := { s.eng with pq := [] } }) hfreq h (fun _ => List.mem_range.1)
    (by simp)

/-- R174: what the present symbols weigh together fits an aggregate. -/
theorem present_weight_lt (hfreq : s.FreqInv) : (s.present.map s.freqAt).sum < 2 ^ s.params.aggw := by
  refine s.params.agg_bound (present_length_le s) ?_
  have hsum := List.sum_le_card_nsmul (s.present.map s.freqAt) (2 ^ s.params.freqw - 1) fun f hf => by
    obtain ⟨c, -, rfl⟩ := List.mem_map.1 hf
    exact Nat.le_sub_one_of_lt (freqAt_lt hfreq c)
  rwa [List.length_map, smul_eq_mul] at hsum

theorem State.TwoLeast.freq_le {t1 t2 : Nat} (h : t.TwoLeast t1 t2) :
    (t.nodeAt t1).freq + (t.nodeAt t2).freq ≤ (t.eng.pq.map fun i => (t.nodeAt i).freq).sum := by
  rw [(h.perm.map _).sum_eq, List.map_cons, List.map_cons, List.sum_cons, List.sum_cons]
  omega

theorem merge_nodeInv {m t1 t2 : Nat} (hfreq : s.FreqInv) (hmerging : s.Merging m t) (hgrows : s.Grows m t)
    (h : t.NodeInv) (htwo : t.TwoLeast t1 t2) : (t.merge m t1 t2).NodeInv := by
  have hparams : t.params = s.params := by rw [hmerging.eq]
  have hindex : m < t.params.nnode := by
    have hsize := hgrows.size
    have hlen := htwo.length m
    have hpresent := present_length_le s
    rw [merge_pq, List.length_append, List.length_singleton] at hlen
    rw [hparams, Params.nnode]
    omega
  have hchild {i : Nat} (hi : i ∈ t.eng.pq) : i < 2 ^ t.params.idxw :=
    ((hmerging.members i hi).trans hindex).trans (Params.nnode_lt_idx _)
  have hweight : (t.nodeAt t1).freq + (t.nodeAt t2).freq < 2 ^ t.params.aggw :=
    hparams ▸ (htwo.freq_le.trans_eq hmerging.weight).trans_lt (present_weight_lt hfreq)
  exact setNode_keeps_nodeInv (s := { t with eng := { t.eng with pq := (t.eng.pq.erase t1).erase t2 ++ [m] } }) h hindex
    ⟨le_rfl, hweight, hchild htwo.first, hchild htwo.second_mem⟩

theorem mergesEnd_nodeInv (hfreq : s.FreqInv) (h : s.NodeInv) (hpresent : s.present ≠ []) : s.mergesEnd.1.NodeInv :=
  (mergesEnd_induction (P := fun _ t => t.NodeInv) hpresent
    (nodeInv_congr (filled_params s |>.trans (leafed_params s).symm) (by rw [filled_eq]) (leafed_nodeInv hfreq h))
    fun _ _ _ _ hmerging hgrows hnode htwo => merge_nodeInv hfreq hmerging hgrows hnode htwo).2

theorem buildTree_nodeInv (hwf : s.params.wf = true) (hfreq : s.FreqInv) (h : s.NodeInv) : (buildTree s).NodeInv := by
  have hleafed := leafed_nodeInv hfreq h
  rcases present_cases s with hnone | ⟨c, hone⟩ | hmany
  · rw [buildTree_none hnone]
    exact hleafed
  · have hlen : s.present.length = 1 := congrArg List.length hone
    have hc : c < s.params.nsym := (mem_present.1 (hone ▸ List.mem_singleton_self c)).1
    have hleaf : s.leafed.nodeAt 0 = Node.leafOf c (s.freqAt c) := by
      rw [leafed_leaf s (i := 0) (by omega)]
      simp only [hone, List.getElem_cons_zero]
    have hindex : 1 < s.params.nnode := by
      obtain ⟨hsymw, -, -⟩ := (Params.wf_iff _).1 hwf
      have htwo : 2 ^ 1 ≤ s.params.nsym := Nat.pow_le_pow_right (by decide) hsymw
      rw [Params.nnode]
      omega
    obtain ⟨hch, hweight, -, -⟩ := leafOf_fits hfreq hc
    rw [buildTree_one hlen, hleaf]
    exact setNode_keeps_nodeInv (s := s.leafed) hleafed (by rwa [leafed_params])
      (by rw [leafed_params]; exact ⟨hch, hweight, Nat.two_pow_pos _, Nat.two_pow_pos _⟩)
  · have hpresent := List.ne_nil_of_length_pos (Nat.zero_lt_of_lt hmany)
    obtain ⟨t, hrun, hpq, -⟩ := mergesEnd_spec hpresent
    have hnode := mergesEnd_nodeInv hfreq h hpresent
    rw [hrun] at hnode
    rw [buildTree_many hmany hrun hpq]
    exact hnode

/-- R167 to R170: BUILD makes the empty tree or a well-formed one. -/
theorem build_treeInv (hwf : s.params.wf = true) (hfreq : s.FreqInv) : ((buildTree s).complete []).TreeInv := by
  by_cases h : s.present = []
  · rw [buildTree_none h]
    exact ⟨rfl, rfl⟩
  · obtain ⟨root, t, hrun, htree, hok, -⟩ := exec_build_treeOk hwf hfreq h
    cases hrun
    exact treeInv_of_tree htree.tk_eq hok

theorem State.TablesInv.builds (h : s.TablesInv) : ((buildTree s).complete []).TablesInv where
  params := (build_params s).symm ▸ h.params
  freq := freqInv_congr (build_params s) (by rw [build_frame]; rfl) h.freq
  node := buildTree_nodeInv h.params h.freq h.node
  tree := build_treeInv h.params h.freq
  codeTable := codeTableInv_congr (build_params s) (by rw [build_frame]; rfl) h.codeTable
  code hctv := by
    rw [build_frame] at hctv
    cases hctv

/-! ### CODE through EXTRACT -/

/-- R31 (b): the leaves are leaf records. -/
theorem State.treeOk.leafOk (h : s.treeOk) {j : Nat} (hj : j ∈ s.leaves) : s.leafOk j := by
  obtain ⟨hlt, hleaf⟩ := mem_leaves.1 hj
  have ⟨hroot, _, hinner, hrecords, _⟩ := h
  rcases hrecords with ⟨hncnt, -, hzero⟩ | hrecords
  · have hne : j ≠ s.eng.root := by
      rintro rfl
      exact Bool.false_ne_true (hinner.symm.trans hleaf)
    obtain rfl : j = 0 := by omega
    exact hzero
  · refine (hrecords j hlt).resolve_right fun ⟨hlp, _⟩ => ?_
    simp [Node.isLeaf, hlp] at hleaf

theorem writeEntries_codeTableInv {es : List (Nat × List Bool)}
    (hes : ∀ e ∈ es, e.1 < s.params.nsym ∧ 1 ≤ e.2.length ∧ e.2.length ≤ s.params.maxlen) (h : s.CodeTableInv) :
    ({ s with eng := { s.eng with code := writeEntries s.eng.code es } } : State).CodeTableInv := by
  induction es generalizing s with
  | nil => exact h
  | cons e es ih =>
    obtain ⟨hc, hpos, hlen⟩ := hes e List.mem_cons_self
    exact ih (s := s.setCode e.1 { valid := true, path := e.2 }) (fun d hd => hes d (List.mem_cons_of_mem e hd))
      (setCode_keeps_codeTableInv h hc rfl hpos hlen)

/-- R200: the table of the walk is within its bounds. -/
theorem State.treeOk.walkTable_codeTableInv (h : s.treeOk) (hwf : s.params.wf = true) (hparams : t.params = s.params)
    (ht : t.eng.code = s.walkTable) : t.CodeTableInv := by
  refine codeTableInv_congr (s := { s with eng := { s.eng with code := s.walkTable } }) hparams ht ?_
  refine writeEntries_codeTableInv (s := s.clearCode) (fun e he => ?_) (clearCode_codeTableInv s)
  obtain ⟨p, j, hpath, hfollow, hleaf, hch⟩ := follow_of_mem_walkEntries he
  obtain ⟨-, -, -, -, hc, -⟩ := h.leafOk (mem_leaves.2 ⟨h.follow_lt h.root_lt hfollow, hleaf⟩)
  rw [hpath, ← hch]
  exact ⟨hc, h.path_length hwf hfollow hleaf⟩

theorem State.TablesInv.extracts (h : s.TablesInv) (htk : s.eng.tk = .tree)
    (hwalk : walkLoop (Params.walkFuel s.params) (s.walking [] [Frame.enter s.eng.root] []) = some u) :
    (extractDone u).TablesInv := by
  have hok := h.treeOk htk
  obtain rfl := Option.some.inj ((walkLoop_root hok).symm.trans hwalk)
  exact {
    params := h.params
    freq := h.freq
    node := h.node
    tree := treeInv_of_tree htk (treeOk_congr (s := s) rfl rfl rfl rfl hok)
    codeTable := hok.walkTable_codeTableInv h.params rfl rfl
    code := codeInv_of_tree htk (walkTable_congr (s := s) (t := extractDone (s.walking s.walkTable [] [])) rfl rfl).symm }

theorem State.TablesInv.clearsCode (h : s.TablesInv) (htk : s.eng.tk = .empty) : (extractDone s.clearCode).TablesInv := by
  have htree := h.tree
  rw [State.TreeInv, htk] at htree
  exact {
    params := h.params
    freq := h.freq
    node := h.node
    tree := treeInv_of_empty htk htree
    codeTable := clearCode_codeTableInv s
    code := codeInv_of_empty htk rfl }

/-! ### Every command and every step -/

theorem State.TablesInv.executes (h : s.TablesInv) (hgo : ∀ u : State, u.TablesInv → (go u).TablesInv)
    (hexec : s.Executes go i t) : t.TablesInv := by
  cases hexec with
  | clears => exact h.cleared rfl rfl
  | faults i e info => exact h.of_standing rfl h.freq (raiseFault_standing s e info)
  | completes i rs =>
    exact h.of_standing rfl (freqInv_congr (s := s) rfl (by rw [complete_frame]) h.freq) (complete_standing s rs)
  | setsFreq c n hc hn => exact h.of_tables rfl (setFreq_keeps_freqInv h.freq hc hn) ⟨⟨rfl, rfl, rfl, rfl⟩, rfl, rfl⟩
  | builds => exact h.builds
  | clearsCode htk => exact h.clearsCode htk
  | extracts u htk hwalk => exact h.extracts htk hwalk
  | streams i u hopens => exact hgo u (h.opens hopens)

theorem State.TablesInv.raiseFault (h : s.TablesInv) (e : ErrCode) (info : Word) : (s.raiseFault e info).TablesInv :=
  h.of_standing rfl h.freq (raiseFault_standing s e info)

theorem State.TablesInv.beginCommand (h : s.TablesInv) (hrun : beginCommand w s = .next t) : t.TablesInv := by
  cases hdecode : decode w with
  | ok i => exact h.executes (fun _ hu => hu.settle) (executes_of_exec ((beginCommand_ok hdecode s).symm.trans hrun))
  | error e =>
    cases (beginCommand_error hdecode s).symm.trans hrun
    exact h.raiseFault .op w

theorem State.TablesInv.firstStepOf (h : s.TablesInv) (hrun : firstStepOf w s = .next t) : t.TablesInv := by
  cases hdecode : decode w with
  | ok i => exact h.executes (fun _ hu => hu) (executes_of_firstStep ((firstStepOf_ok hdecode s).symm.trans hrun))
  | error e =>
    cases (firstStepOf_error hdecode s).symm.trans hrun
    exact h.raiseFault .op w

theorem State.TablesInv.engineMove (h : s.TablesInv) (hrun : engineMove s = .next t) : t.TablesInv := by
  by_cases hstart : ∃ w, s.eng.point = .start w
  · obtain ⟨w, hp⟩ := hstart
    exact h.beginCommand ((engineMove_start hp).symm.trans hrun)
  · cases (engineMove_goesOn (not_exists.1 hstart)).symm.trans hrun
    exact h.settle

theorem State.TablesInv.engineTick (h : s.TablesInv) (hrun : engineTick s = .next t) : t.TablesInv := by
  by_cases hstart : ∃ w, s.eng.point = .start w
  · obtain ⟨w, hp⟩ := hstart
    exact h.firstStepOf ((engineTick_start hp).symm.trans hrun)
  · cases (engineTick_goesOn (not_exists.1 hstart)).symm.trans hrun
    cases hstep : s.microStep with
    | none => exact h
    | some u => exact h.microStep hstep

theorem State.TablesInv.accept (h : s.TablesInv) (w : Word) : (s.accept w).TablesInv :=
  h.of_tables rfl h.freq ⟨⟨rfl, rfl, rfl, rfl⟩, rfl, rfl⟩

theorem State.TablesInv.refuseWrite (h : s.TablesInv) (n : Fin 8) : (s.refuseWrite n).TablesInv := by
  rw [refuseWrite_eq]
  exact h.of_tables rfl h.freq ⟨⟨rfl, rfl, rfl, rfl⟩, rfl, rfl⟩

theorem State.TablesInv.storeX (h : s.TablesInv) (n : Fin 8) (v : Word) : (s.storeX n v).TablesInv := by
  match n with
  | 0 | 1 | 2 | 3 | 4 | 5 | 6 | 7 => exact h.of_tables rfl h.freq ⟨⟨rfl, rfl, rfl, rfl⟩, rfl, rfl⟩

theorem State.TablesInv.hostWrite (h : s.TablesInv) {n : Fin 8} {v : Word} (hrun : hostWrite n v s = .next t) :
    t.TablesInv := by
  cases hacc : s.accepts n v with
  | false =>
    cases (hostWrite_refused hacc).symm.trans hrun
    exact h.refuseWrite n
  | true =>
    by_cases hn : n = 4
    · subst hn
      exact (h.accept v).beginCommand ((hostWrite_cmd hacc).symm.trans hrun)
    · cases (hostWrite_arg hacc hn).symm.trans hrun
      exact h.storeX n v

theorem State.TablesInv.hostIssue (h : s.TablesInv) (w : Word) : (hostIssue w s).TablesInv := by
  unfold Machine.hostIssue
  split
  · exact h.accept w
  · exact h.refuseWrite 4

/-- The environment is no part of the tables. -/
theorem State.TablesInv.of_eng (h : s.TablesInv) (hparams : t.params = s.params) (heng : t.eng = s.eng) :
    t.TablesInv :=
  h.of_standing hparams (freqInv_congr hparams (by rw [heng]) h.freq) (by rw [heng])

theorem State.TablesInv.step (h : s.TablesInv) (hstep : step s = .next t) : t.TablesInv := by
  cases hev : s.env.events with
  | nil => exact h.engineMove ((step_noEvent hev).symm.trans hstep)
  | cons ev es =>
    rw [step_event hev] at hstep
    have h' : (s.withEvents es).TablesInv := h.of_eng rfl rfl
    cases ev with
    | write n v => exact h'.hostWrite hstep
    | issue w =>
      cases hstep
      exact h'.hostIssue w
    | reset =>
      cases hstep
      exact h.cleared rfl rfl
    | tick => exact h'.engineTick hstep
    | run => exact h'.engineMove hstep
    | read n | offerSi it | offerBi it | answerBo a | answerSo a =>
      cases hstep
      exact h.of_eng rfl rfl

/-! ### No stop -/

theorem withOperand_answers {r : Fin 4} {bound : Nat} {k : Nat → Result} (hk : ∀ n, ∃ t, k n = .next t) :
    ∃ t, withOperand s r bound k = .next t := by
  unfold withOperand
  split
  · exact hk _
  · exact ⟨_, rfl⟩

theorem withTree_answers {k : Result} (hk : s.eng.tk ≠ .none → ∃ t, k = .next t) : ∃ t, withTree s k = .next t := by
  by_cases htk : s.eng.tk = .none
  · exact ⟨_, withTree_none k htk⟩
  · rw [withTree_some k htk]
    exact hk htk

theorem withCodeTable_answers {k : Result} (hk : ∃ t, k = .next t) : ∃ t, withCodeTable s k = .next t := by
  cases hctv : s.eng.ctv with
  | false => exact ⟨_, withCodeTable_none k hctv⟩
  | true =>
    rw [withCodeTable_some k hctv]
    exact hk

/-- Only EXTRACT's walk could stop, and on a tree its bound is enough. -/
theorem exec_extract_answers (h : s.TablesInv) : ∃ t, exec .extract s = .next t := by
  cases htk : s.eng.tk with
  | none => exact ⟨_, exec_extract_noTree htk⟩
  | empty => exact ⟨_, exec_extract_empty htk⟩
  | tree => exact ⟨_, exec_extract_tree htk (walkLoop_root (h.treeOk htk))⟩

theorem exec_answers (h : s.TablesInv) (i : Instr) : ∃ t, exec i s = .next t := by
  cases i with
  | nop | clr | build | gett | count => exact ⟨_, rfl⟩
  | setf => exact exec_setf s ▸ withOperand_answers fun _ => withOperand_answers fun _ => ⟨_, rfl⟩
  | getf => exact exec_getf s ▸ withOperand_answers fun _ => ⟨_, rfl⟩
  | getn => exact withTree_answers fun _ => withOperand_answers fun _ => ⟨_, rfl⟩
  | getc => exact withCodeTable_answers (withOperand_answers fun _ => withOperand_answers fun _ => ⟨_, rfl⟩)
  | extract => exact exec_extract_answers h
  | encode => exact withCodeTable_answers ⟨_, rfl⟩
  | decode => exact withTree_answers fun _ => ⟨_, rfl⟩

theorem beginCommand_answers (h : s.TablesInv) (w : Word) : ∃ t, beginCommand w s = .next t := by
  cases hdecode : decode w with
  | ok i =>
    rw [beginCommand_ok hdecode]
    exact exec_answers h i
  | error e => exact ⟨_, beginCommand_error hdecode s⟩

theorem engineMove_answers (h : s.TablesInv) : ∃ t, engineMove s = .next t := by
  by_cases hstart : ∃ w, s.eng.point = .start w
  · obtain ⟨w, hp⟩ := hstart
    rw [engineMove_start hp]
    exact beginCommand_answers h w
  · exact ⟨_, engineMove_goesOn (not_exists.1 hstart)⟩

theorem engineTick_answers (h : s.TablesInv) : ∃ t, engineTick s = .next t := by
  by_cases hstart : ∃ w, s.eng.point = .start w
  · obtain ⟨w, hp⟩ := hstart
    obtain ⟨t, hrun⟩ := beginCommand_answers h w
    obtain ⟨u, hfirst, -⟩ := firstStepOf_of_begin hrun
    exact ⟨u, (engineTick_start hp).trans hfirst⟩
  · exact ⟨_, engineTick_goesOn (not_exists.1 hstart)⟩

theorem hostWrite_answers (h : s.TablesInv) (n : Fin 8) (v : Word) : ∃ t, hostWrite n v s = .next t := by
  cases hacc : s.accepts n v with
  | false => exact ⟨_, hostWrite_refused hacc⟩
  | true =>
    by_cases hn : n = 4
    · subst hn
      rw [hostWrite_cmd hacc]
      exact beginCommand_answers (h.accept v) v
    · exact ⟨_, hostWrite_arg hacc hn⟩

theorem step_answers (h : s.TablesInv) : ∃ t, step s = .next t := by
  cases hev : s.env.events with
  | nil =>
    rw [step_noEvent hev]
    exact engineMove_answers h
  | cons ev es =>
    rw [step_event hev]
    have h' : (s.withEvents es).TablesInv := h.of_eng rfl rfl
    cases ev with
    | write n v => exact hostWrite_answers h' n v
    | tick => exact engineTick_answers h'
    | run => exact engineMove_answers h'
    | issue | reset | read | offerSi | offerBi | answerBo | answerSo => exact ⟨_, rfl⟩

end

/-! ### The statements -/

/-- Settles O53: after reset every table is empty and nothing is in progress. -/
theorem resetMeetsTheInvariant : Obligations.ResetMeetsTheInvariant :=
  ⟨resetOf_inv (by decide), fun _ => resetOf_inv⟩

/-- Settles O55: the control state by O54; the tables by what each command writes. -/
theorem stepKeepsTheInvariant : Obligations.StepKeepsTheInvariant :=
  fun s t h hstep => (h.tables.step hstep).inv (stepKeepsTheControlInvariant s t h.control hstep)

/-- Settles O56: only EXTRACT's walk could fail to answer, and NODE holds a tree when it walks. -/
theorem invariantStatesNeverStop : Obligations.InvariantStatesNeverStop := fun _ h => step_answers h.tables

end Sys2Proof.Machine
end

section
/-!
ENCODE and then DECODE in one engine (45_decoder.md R258), and the whole pipeline from COUNT on.
-/
namespace Sys2Proof.Machine

section
variable {s t u : State} {cs : List Nat}

/-! ### The codes of a sequence -/

/-- CODE is the table of the tree, and has a code of at most MAXLEN bits for every symbol of `cs`. -/
structure State.CodesFor (s : State) (cs : List Nat) : Prop where
  ctv : s.eng.ctv = true
  tree : s.TreeInv
  code : s.CodeInv
  valid : ∀ c ∈ cs, (s.codeAt c).valid = true
  short : ∀ c ∈ cs, (s.codeAt c).path.length ≤ s.params.maxlen

theorem State.CodesFor.of_eng (h : s.CodesFor cs) (hparams : t.params = s.params) (heng : t.eng = s.eng) :
    t.CodesFor cs := by
  have hcode (c : Nat) : t.codeAt c = s.codeAt c := codeAt_congr (by rw [heng]) c
  exact {
    ctv := by rw [heng, h.ctv]
    tree := treeInv_congr hparams (by simp [heng]) h.tree
    code := codeInv_congr (by simp [heng]) (by simp [heng]) h.code
    valid := fun c hc => by rw [hcode, h.valid c hc]
    short := fun c hc => by
      rw [hcode, hparams]
      exact h.short c hc }

theorem State.CodesFor.mono {l : List Nat} (h : s.CodesFor l) (hcs : ∀ c ∈ cs, c ∈ l) : s.CodesFor cs :=
  ⟨h.ctv, h.tree, h.code, fun c hc => h.valid c (hcs c hc), fun c hc => h.short c (hcs c hc)⟩

/-- The code bits of a sequence, each code within MAXLEN. -/
theorem State.CodesFor.bits_length (h : s.CodesFor cs) :
    (cs.flatMap fun c => (s.codeAt c).path).length ≤ cs.length * s.params.maxlen := by
  rw [List.length_flatMap]
  have hsum := List.sum_le_card_nsmul (cs.map fun c => (s.codeAt c).path.length) s.params.maxlen fun n hn => by
    obtain ⟨c, hc, rfl⟩ := List.mem_map.1 hn
    exact h.short c hc
  rwa [List.length_map, smul_eq_mul] at hsum

/-- R33: a valid table is that of a tree, or that of the empty tree, which has a code for no symbol. -/
theorem tree_or_empty (hctv : s.eng.ctv = true) (htree : s.TreeInv) (hcode : s.CodeInv) :
    (s.eng.tk = .empty ∧ ∀ c, (s.codeAt c).valid = false) ∨
      (s.eng.tk = .tree ∧ s.treeOk ∧ s.eng.code = s.walkTable) := by
  have htable := hcode hctv
  rw [State.TreeInv] at htree
  cases htk : s.eng.tk with
  | none =>
    rw [htk] at htable
    exact htable.elim
  | empty =>
    rw [htk] at htable
    exact .inl ⟨rfl, fun c => by simp [State.codeAt, htable, CodeEntry.zero]⟩
  | tree =>
    rw [htk] at htree htable
    exact .inr ⟨rfl, htree, htable⟩

/-! ### DECODE of the code bits -/

/-- The node to which the code of `c` leads. -/
def State.codeLeaf (s : State) (c : Nat) : Nat := (s.follow s.eng.root (s.codeAt c).path).getD 0

theorem State.treeOk.codeLeaf_spec (h : s.treeOk) (hcode : s.eng.code = s.walkTable) {c : Nat}
    (hc : (s.codeAt c).valid = true) :
    s.follow s.eng.root (s.codeAt c).path = some (s.codeLeaf c) ∧ (s.nodeAt (s.codeLeaf c)).isLeaf = true ∧
      (s.nodeAt (s.codeLeaf c)).ch = c := by
  obtain ⟨j, hj, hch, hfollow⟩ := h.walkTable_valid hcode hc
  have hleaf : s.codeLeaf c = j := by rw [State.codeLeaf, hfollow, Option.getD_some]
  rw [hleaf]
  exact ⟨hfollow, (mem_leaves.1 hj).2, hch⟩

/-- DECODE over bytes that carry the code bits of `cs`, with their number in x0, puts `cs`. -/
theorem exec_decode_codes {bytes : List Byte} {bits : List Bool} {unread : List (Item Byte)} {more : List Answer}
    (hctv : s.eng.ctv = true) (htree : s.TreeInv) (hcode : s.CodeInv)
    (hcs : ∀ c ∈ cs, c < 2 ^ s.params.symw ∧ (s.codeAt c).valid = true)
    (hbits : bits = cs.flatMap fun c => (s.codeAt c).path) (hlen : bits.length < 2 ^ 64)
    (hx0 : s.eng.x0 = BitVec.ofNat 64 bits.length) (hcarries : Carries bytes bits)
    (hbi : s.env.bi.now = bytes.map .data ++ .eos :: unread)
    (hso : s.env.so.now = List.replicate cs.length .ok ++ more) :
    ∃ v tr, exec .decode s = .next v ∧ v.env.trace = s.env.trace ++ tr ∧ symbolsPut tr = cs ∧
      v.eng.err = s.eng.err ∧ v.eng.x0 = BitVec.ofNat 64 bits.length ∧ v.eng.x1 = BitVec.ofNat 64 cs.length ∧
      v.eng.x2 = BitVec.ofNat 64 bytes.length := by
  obtain ⟨hbytes, hstream⟩ := hcarries
  rcases tree_or_empty hctv htree hcode with ⟨htk, hnone⟩ | ⟨htk, hok, htable⟩
  · obtain rfl : cs = [] := List.eq_nil_iff_forall_not_mem.2 fun c hc => by
      simpa [hnone c] using (hcs c hc).2
    obtain rfl : bits = [] := hbits
    obtain rfl : bytes = [] := List.eq_nil_of_length_eq_zero hbytes
    obtain ⟨v, tr, hrun, -, herr, hv0, hv1, hv2, -, -, -, htrace, hput, -⟩ :=
      (decodeOfTheEmptyTree s unread htk).1 (.inl hx0)
    refine ⟨v, tr ++ [.release .bi, .close .so], hrun, by rw [htrace, List.append_assoc], ?_, herr, hv0, hv1, hv2⟩
    rw [symbolsPut_append, hput]
    rfl
  · have hleaf (c : Nat) (hc : c ∈ cs) := hok.codeLeaf_spec htable (hcs c hc).2
    have hlimit : s.eng.x0.toNat = bits.length := by
      rw [hx0, BitVec.toNat_ofNat, Nat.mod_eq_of_lt hlen]
    have ⟨_, _, hroot, _⟩ := hok
    obtain ⟨v, tr, hrun, -, henv, heng, hput, -⟩ :=
      decodeEmitsTheLeaves s bytes (.eos :: unread) (cs.map fun c => ((s.codeAt c).path, s.codeLeaf c)) more bits htk hroot
        hbi (.inr rfl) (by rw [hlimit, hstream, List.take_left])
        (by rw [hbits, List.flatMap_map])
        (fun p hp => by
          obtain ⟨c, hc, rfl⟩ := List.mem_map.1 hp
          exact ⟨(hleaf c hc).1, (hleaf c hc).2.1⟩)
        (by rw [List.length_map, hso])
    refine ⟨v, tr ++ [.release .bi, .close .so], hrun, ?_, ?_, ?_, ?_, ?_, ?_⟩
    · rw [henv, List.append_assoc]
    · have hsymbol (c : Nat) (hc : c ∈ cs) : (s.nodeAt (s.codeLeaf c)).ch % 2 ^ s.params.symw = id c := by
        rw [(hleaf c hc).2.2, Nat.mod_eq_of_lt (hcs c hc).1, id]
      rw [symbolsPut_append, hput, List.map_map]
      exact (List.append_nil _).trans ((List.map_congr_left hsymbol).trans (List.map_id cs))
    · rw [heng]
      rfl
    · rw [heng]
      rfl
    · rw [heng, List.length_map]
      rfl
    · rw [heng, hbytes]
      rfl

/-! ### ENCODE and DECODE -/

/-- R258: what ENCODE puts, DECODE in the same engine turns back. -/
theorem exec_encode_decode {bits : List Bool} {unread : List (Item Nat)} {more : List Answer}
    (hctv : s.eng.ctv = true) (htree : s.TreeInv) (hcode : s.CodeInv)
    (hsi : s.env.si.now = cs.map .data ++ .eos :: unread)
    (hcs : ∀ c ∈ cs, c < 2 ^ s.params.symw ∧ (s.codeAt c).valid = true)
    (hbits : bits = cs.flatMap fun c => (s.codeAt c).path) (hlen : bits.length < 2 ^ 64)
    (hbo : s.env.bo.now = List.replicate ((bits.length + 7) / 8) .ok ++ more) :
    ∃ t tr, exec .encode s = .next t ∧ t.env.trace = s.env.trace ++ tr ∧
      ∀ (u : State) (unread' : List (Item Byte)) (more' : List Answer), u.params = t.params → u.eng = t.eng →
        u.env.bi.now = (bytesPut tr).map .data ++ .eos :: unread' →
          u.env.so.now = List.replicate cs.length .ok ++ more' →
            ∃ v tr', exec .decode u = .next v ∧ v.env.trace = u.env.trace ++ tr' ∧ symbolsPut tr' = cs ∧
              v.eng.err = s.eng.err ∧ v.eng.x0 = BitVec.ofNat 64 bits.length ∧
              v.eng.x1 = BitVec.ofNat 64 cs.length ∧ v.eng.x2 = BitVec.ofNat 64 (bytesPut tr).length := by
  obtain ⟨t, tr, hrun, hparams, henv, heng, -, hcarries, -⟩ :=
    encodePacksTheCodes s cs unread more bits hctv hsi hcs hbits hlen hbo
  have hbytes : bytesPut (tr ++ [.release .si, .close .bo]) = bytesPut tr := by
    rw [bytesPut_append]
    exact List.append_nil _
  refine ⟨t, tr ++ [.release .si, .close .bo], hrun, by rw [henv, List.append_assoc], ?_⟩
  rw [hbytes]
  intro u unread' more' huparams hueng hbi hso
  replace huparams := huparams.trans hparams
  replace hueng := hueng.trans heng
  have hcode' (c : Nat) : u.codeAt c = s.codeAt c := codeAt_congr (by rw [hueng]; rfl) c
  have htrees : u.eng.node = s.eng.node ∧ u.eng.root = s.eng.root ∧ u.eng.ncnt = s.eng.ncnt ∧ u.eng.tk = s.eng.tk := by
    rw [hueng]
    exact ⟨rfl, rfl, rfl, rfl⟩
  obtain ⟨v, tr', hv⟩ := exec_decode_codes (s := u) (by rw [hueng]; exact hctv) (treeInv_congr huparams htrees htree)
    (codeInv_congr htrees (by rw [hueng]; exact ⟨rfl, rfl⟩) hcode)
    (fun c hc => by rw [hcode', huparams]; exact hcs c hc) (by simpa only [hcode'] using hbits) hlen
    (by rw [hueng]; rfl) hcarries hbi hso
  refine ⟨v, tr', ?_⟩
  rwa [hueng] at hv

/-- Settles O51: a state that meets the invariant has the table of its tree. -/
theorem decodeUndoesEncode : Obligations.DecodeUndoesEncode :=
  fun _ _ _ _ _ hinv hctv hsi hcs hbits hlen hbo => exec_encode_decode hctv hinv.tree hinv.code hsi hcs hbits hlen hbo

/-! ### COUNT, BUILD and EXTRACT -/

/-- R151: COUNT starts a fresh mapping, which it keeps within its bounds. -/
theorem exec_count_freqInv (h : exec .count s = .next t) : t.FreqInv := by
  cases h
  exact settle_induction (P := State.FreqInv) ⟨rfl, nofun⟩ fun _ _ hu hstep => microStep_freqInv hu hstep

/-- BUILD and EXTRACT give every present symbol a code. -/
theorem exec_build_extract (hwf : s.params.wf = true) (hfreq : s.FreqInv) :
    ∃ t u, exec .build s = .next t ∧ exec .extract t = .next u ∧ u.params = s.params ∧ u.eng.err = s.eng.err ∧
      u.CodesFor s.present := by
  by_cases h : s.present = []
  · refine ⟨_, _, buildOfTheEmptyMapping s h, extractOfTheEmptyTree _ rfl, rfl, rfl, ?_⟩
    rw [h]
    exact ⟨rfl, ⟨rfl, rfl⟩, fun _ => rfl, nofun, nofun⟩
  · obtain ⟨root, t, hrun, htree, hok, hleaves⟩ := exec_build_treeOk hwf hfreq h
    have hcode (c : Nat) (hc : c ∈ s.present) : (readCell CodeEntry.zero t.walkTable c).valid = true ∧
        (readCell CodeEntry.zero t.walkTable c).path.length ≤ s.params.maxlen := by
      obtain ⟨i, hi, rfl⟩ := (htree.leaves_spec hleaves).2 c hc
      obtain ⟨hvalid, hfollow⟩ := hok.walkTable_leaf (t := { t with eng := { t.eng with code := t.walkTable } }) rfl hi
      refine ⟨hvalid, ?_⟩
      rw [← htree.params]
      exact (hok.path_length (htree.params ▸ hwf) hfollow (mem_leaves.1 hi).2).2
    refine ⟨t, _, hrun, extractWritesTheRecursiveWalk t htree.tk_eq hok, htree.params, by rw [htree.eq]; rfl, ?_⟩
    exact {
      ctv := rfl
      tree := treeInv_of_tree htree.tk_eq (treeOk_congr (s := t) rfl rfl rfl rfl hok)
      code := codeInv_of_tree htree.tk_eq (Eq.symm (walkTable_congr (s := t) rfl rfl))
      valid := fun c hc => (hcode c hc).1
      short := fun c hc => by
        rw [htree.params]
        exact (hcode c hc).2 }

/-- Settles O52: COUNT makes every symbol of the sequence present, so BUILD and EXTRACT give it a code. -/
theorem pipelineRoundTrip : Obligations.PipelineRoundTrip := by
  intro s cs hwf hsymbols hcounts hlen hsi
  obtain ⟨t1, hcount, hparams1, hfreq, heng1, -⟩ := countCountsTheSession s cs [] hsi hsymbols hcounts
  obtain ⟨t2, t3, hbuild, hextract, hparams3, herr3, hcodes⟩ :=
    exec_build_extract (s := t1) (hparams1 ▸ hwf) (exec_count_freqInv hcount)
  have hpresent (c : Nat) (hc : c ∈ cs) : c ∈ t1.present := by
    rw [mem_present, hparams1, hfreq]
    exact ⟨hsymbols c hc, (List.count_pos_iff.2 hc).ne'⟩
  refine ⟨t1, t2, t3, hcount, hbuild, hextract, fun u3 huparams hueng hsi3 hbo3 => ?_⟩
  have hparams : u3.params = s.params := huparams.trans (hparams3.trans hparams1)
  have hu3 := hcodes.of_eng huparams hueng
  have hcs (c : Nat) (hc : c ∈ cs) : c < 2 ^ u3.params.symw ∧ (u3.codeAt c).valid = true :=
    ⟨hparams.symm ▸ hsymbols c hc, hu3.valid c (hpresent c hc)⟩
  have hbits : (cs.flatMap fun c => (u3.codeAt c).path).length ≤ cs.length * 2 ^ s.params.symw := by
    refine (hu3.mono hpresent).bits_length.trans (Nat.mul_le_mul_left _ ?_)
    rw [hparams]
    exact Nat.sub_le _ _
  obtain ⟨more, hmore⟩ : ∃ more, cs.length * 2 ^ s.params.symw =
      ((cs.flatMap fun c => (u3.codeAt c).path).length + 7) / 8 + more := Nat.exists_eq_add_of_le (by omega)
  rw [hmore, List.replicate_add] at hbo3
  obtain ⟨t4, tr, hencode, htrace, hdecode⟩ := exec_encode_decode hu3.ctv hu3.tree hu3.code hsi3 hcs rfl
    (hbits.trans_lt hlen) hbo3
  refine ⟨t4, tr, hencode, htrace, fun u4 hu4params hu4eng hbi hso => ?_⟩
  obtain ⟨t5, tr', hrun, htrace', hput, herr, -⟩ :=
    hdecode u4 [] [] hu4params hu4eng hbi (hso.trans (List.append_nil _).symm)
  refine ⟨t5, tr', hrun, htrace', hput, herr.trans ?_⟩
  rw [hueng, herr3, heng1]
  rfl

end

end Sys2Proof.Machine
end

section
/-!
The counter NB at its greatest value inside a code (44_encoder.md R222): the bits before it, then the abort.
-/
namespace Sys2Proof.Machine

section
variable {s t : State} {code total : List Bool} {k : Nat} {a : Answer} {more : List Answer}

/-- A full byte before the bytes that carry the bits after it. -/
theorem carries_cons {bytes : List Byte} {bits : List Bool} (h : Carries bytes bits) (v : Byte) :
    Carries (v :: bytes) (streamBits [v] ++ bits) := by
  obtain ⟨hbytes, hstream⟩ := h
  have hlen : (streamBits [v] ++ bits).length = 8 + bits.length := by
    rw [List.length_append, streamBits_length]
    rfl
  have hpad : 8 * (v :: bytes).length - (8 + bits.length) = 8 * bytes.length - bits.length := by
    rw [List.length_cons]
    omega
  refine ⟨?_, ?_⟩
  · rw [hlen, List.length_cons, hbytes]
    omega
  · rw [hlen, hpad, List.append_assoc, ← hstream, ← streamBits_append]
    rfl

/-- R222: bit `k` of `code`, which NB cannot count, ends ENCODE. -/
theorem settle_encodeOverflow (hclean : s.eng.accClean) (hk : k < code.length)
    (hnb : s.eng.nb.toNat + k = 2 ^ 64 - 1) (htotal : total = s.eng.heldBits ++ code.take k)
    (hbo : s.env.bo.now =
      List.replicate (total.length / 8) .ok ++ if total.length % 8 = 0 then more else a :: more) :
    ∃ t tr, (encodeBits code s).settle = t ∧ t.params = s.params ∧
      t.eng = { s.eng with
        acc := 0
        nacc := 0
        nb := 0xFFFFFFFFFFFFFFFF
        nby := s.eng.nby + BitVec.ofNat 64 (total.length / 8)
        siOpen := false
        boOpen := false }.faulted .ovf 0 ∧
      t.env = { s.env with
        si := s.env.si.endSession
        bo := s.env.bo.endSession
        trace := s.env.trace ++ tr ++ [.release .si, .close .bo] } ∧
      takenSi tr = [] ∧ Carries ((putsBo tr).map Prod.fst) total ∧
      (putsBo tr).map Prod.snd =
        List.replicate (total.length / 8) .ok ++ if total.length % 8 = 0 then [] else [a] := by
  have hpre : (code.take k).length = k := List.length_take_of_le hk.le
  have hlen : total.length = s.eng.nacc.toNat + k := by
    rw [htotal, List.length_append, heldBits_length, hpre]
  obtain ⟨t, tr, hrun, henc, htook, hsi, hbo1⟩ := settle_encodeBits (code.take k) (code.drop k) s _ _ hclean
    (by rw [hpre]; omega) hbo (by rw [hpre, hlen])
  have hfull : t.eng.nb = BitVec.allOnes 64 := by
    refine BitVec.eq_of_toNat_eq ?_
    rw [henc.nb_toNat (by rw [hpre]; omega), hpre, hnb, BitVec.toNat_allOnes]
  have hsum : s.eng.nb + BitVec.ofNat 64 (code.take k).length = BitVec.allOnes 64 := by rw [← hfull, henc.eng]
  have hcounts := henc.bits_length
  have hnacc : t.eng.nacc.toNat < 8 := t.eng.nacc.isLt
  rw [hpre] at hcounts
  have hbytes : (bytesPut tr).length = total.length / 8 := by omega
  have hmod : t.eng.nacc.toNat = total.length % 8 := by omega
  have hflush (l : List Answer) : (if total.length % 8 = 0 then l else a :: l) =
      List.replicate t.eng.partialByte.length a ++ l := by
    rw [replicate_partialByte, hmod]
  rw [hflush] at hbo1
  obtain ⟨u, hend, hparams, heng, henv⟩ := settle_encodeAbort .ovf 0 henc.clean hbo1
  have hputs : putsBo (tr ++ t.eng.flushTrace a) =
      (bytesPut tr).map (fun v => (v, .ok)) ++ t.eng.partialByte.map fun v => (v, a) := by
    rw [putsBo_append, henc.allTaken, putsBo_flushTrace]
  refine ⟨u.encodeFaulted .ovf 0, tr ++ t.eng.flushTrace a, ?_, ?_, ?_, ?_, ?_, ?_, ?_⟩
  · rw [← hend, ← encodeBits_overflow code[k] (code.drop (k + 1)) hfull, ← List.drop_eq_getElem_cons hk, ← hrun,
      List.take_append_drop]
  · rw [encodeFaulted_params, hparams, henc.params]
  · rw [encodeFaulted_eng, heng, henc.eng, hsum, hbytes]
    simp [Engine.faulted]
  · rw [encodeFaulted_env, henv, henc.env]
    simp
  · rw [takenSi_append, htook, takenSi_flushTrace, List.append_nil]
  · have hcarries := carries_partialByte henc.clean henc.packed
    rw [htotal, hputs]
    simpa [Function.comp_def] using hcarries
  · rw [hputs, hflush []]
    simp [Function.comp_def, hbytes]

/-- A step that runs the engine on. -/
theorem step_run {es : List Event} (hev : s.env.events = .run :: es) (hbegun : ∀ w, s.eng.point ≠ .start w) :
    step s = .next (s.withEvents es).settle := by
  rw [step_event hev]
  exact engineMove_goesOn hbegun

/-- Settles O44: the bits are those of the item taken, or what is left of a code once its full byte's put is answered. -/
theorem encodeCounterNeverWraps : Obligations.EncodeCounterNeverWraps := by
  intro s es code held total k took unread a more hev hstart hsi hk hnb htotal hbo
  rcases hstart with ⟨hp, hclean, rfl, c, rfl, hc, hvalid, rfl⟩ | ⟨hp, rfl, rfl⟩
  · obtain ⟨t, tr, hrun, hparams, heng, henv, htook, hcarries, hanswers⟩ :=
      settle_encodeOverflow (s := (s.withEvents es).tookSi (.data c) unread) hclean hk hnb htotal hbo
    refine ⟨t, .tookSi (.data c) :: tr, ?_, hparams, heng, ?_, ?_, hcarries, hanswers⟩
    · have htake := encodeTake_data (s := s.withEvents es) unread hc hvalid
      have hstep := (microStep_encGet (s := s.withEvents es) hp).trans (encodeGet_takes hsi)
      rw [step_run hev (by simp [hp]), ← hrun, settle_step hstep]
      exact congrArg _ (congrArg State.settle htake)
    · rw [henv]
      simp [State.withEvents]
    · rw [← List.singleton_append, takenSi_append, htook]
      rfl
  · have hlen : total.length = 8 + k := by
      rw [htotal, List.length_append, List.length_take_of_le hk.le, streamBits_length]
      rfl
    have hshort : (code.take k).length = k := List.length_take_of_le hk.le
    have hdiv : total.length / 8 = k / 8 + 1 := by omega
    have hmod : total.length % 8 = k % 8 := by omega
    rw [hdiv, hmod, List.replicate_succ, List.cons_append] at hbo
    obtain ⟨u, hput⟩ : ∃ u, (s.withEvents es).putBo s.eng.acc = some (.ok, u) := ⟨_, putBo_answered _ hbo⟩
    obtain ⟨hnow, huparams, hueng, huenv⟩ := putBo_some hput
    have hempty : Packs u.countByte.clearAcc.eng.acc u.countByte.clearAcc.eng.nacc [] := packs_empty
    obtain ⟨t, tr, hrun, hparams, heng, henv, htook, hcarries, hanswers⟩ :=
      settle_encodeOverflow (s := u.countByte.clearAcc) (total := code.take k) (more := more) (a := a) hempty.accClean hk
        (by rw [clearAcc_eng, countByte_eng, hueng]; exact hnb) (by rw [hempty.heldBits_eq, List.nil_append])
        (by rw [hshort]; exact (List.cons.inj (hnow.symm.trans hbo)).2)
    rw [hshort] at hanswers heng
    refine ⟨t, .putBo s.eng.acc .ok :: tr, ?_, ?_, ?_, ?_, ?_, ?_, ?_⟩
    · have hstep := (microStep_encPut (s := s.withEvents es) hp).trans (encodePut_ok code hput)
      rw [step_run hev (by simp [hp]), ← hrun, settle_step hstep]
    · rw [hparams]
      exact huparams
    · rw [heng, clearAcc_eng, countByte_eng, hueng, hdiv, Nat.add_comm (k / 8), BitVec.ofNat_add, ← BitVec.add_assoc]
      rfl
    · rw [henv, clearAcc_env, countByte_env, huenv]
      simp [State.withEvents]
    · rw [← List.singleton_append, takenSi_append, htook]
      rfl
    · rw [htotal]
      exact carries_cons hcarries _
    · rw [hdiv, hmod, List.replicate_succ, List.cons_append, ← hanswers]
      rfl

end

end Sys2Proof.Machine
end

section
/-!
The ends of DECODE inside a path (45_decoder.md R248, R251): bits that end there, and a bit with no child to go to.
-/
namespace Sys2Proof.Machine

section
variable {s t v : State} {tr obs : List Obs} {taken : List Byte} {bits : List Bool} {syms : List Nat}

/-- R253: the end by a fault of a DECODE that has crossed the boundary by `obs` since `t`. -/
theorem State.Decodes.faultEnds {p : Point} {l : List (Item Byte)} (h : s.decodeStart.Decodes t tr taken bits syms)
    (hparams : v.params = t.params) (heng : v.eng = { t.eng with point := p })
    (henv : v.env = { t.env with bi := { t.env.bi with now := l }, trace := t.env.trace ++ obs }) (e : ErrCode)
    (info : Word) :
    (v.decodeEnded (.fault e info)).params = s.params ∧
      (v.decodeEnded (.fault e info)).eng = { s.eng with
        cur := t.eng.cur
        lim := s.eng.x0
        sh := (v.decodeEnded (.fault e info)).eng.sh
        nsh := (v.decodeEnded (.fault e info)).eng.nsh
        nb := BitVec.ofNat 64 bits.length
        ns := BitVec.ofNat 64 syms.length
        nby := BitVec.ofNat 64 ((bits.length + 7) / 8)
        biOpen := false
        soOpen := false }.faulted e info ∧
      (v.decodeEnded (.fault e info)).env = { s.env with
        bi := s.env.bi.endSession
        so := s.env.so.endSession
        trace := s.env.trace ++ (tr ++ obs) ++ [.release .bi, .close .so] } := by
  refine ⟨?_, ?_, ?_⟩
  · rw [decodeEnded_params, hparams, h.params, decodeStart_params]
  · rw [decodeEnded_fault_eng, heng, h.eng_of_start, h.counts_of_start.2]
    rfl
  · rw [decodeEnded_env, henv, h.env]
    simp [State.decodeStart]

/-! ### A bit with no child, R248 -/

theorem noChildInfo_eq (b : Bool) (i : Nat) :
    noChildInfo b i = (if b then 0x100000000 else 0) ||| BitVec.ofNat 64 i := by
  cases b <;> rfl

theorem settle_decodeLoop_noChild (htk : s.eng.tk ≠ .empty) (hnb : s.eng.nb ≠ s.eng.lim) (hnsh : s.eng.nsh ≠ 0)
    (hchild : ((s.nodeAt s.eng.cur).child (s.eng.sh.getLsbD 7)).1 = false) :
    (decodeLoop s).settle = (s.readBit.2.setCur s.eng.cur).decodeEnded
      (.fault .noChild (noChildInfo (s.eng.sh.getLsbD 7) s.eng.cur)) := by
  have hstay : s.readBit.2.setCur s.eng.cur = s.readBit.2 := rfl
  rw [hstay, ← settle_decodeAbort, decodeLoop, nsh_sub_one hnsh, decodeBits_bit _ hnb, if_neg htk, if_pos hchild]

theorem settle_decodeNoChild {b : Bool} (htk : s.eng.tk ≠ .empty) (h8 : s.eng.nsh.toNat < 8) (hahead : [b] <+: s.ahead)
    (hchild : ((s.nodeAt s.eng.cur).child b).1 = false) :
    ∃ t tr taken, (decodeLoop s).settle = t.decodeEnded (.fault .noChild (noChildInfo b s.eng.cur)) ∧
      s.Decodes t tr taken [b] [] ∧ t.eng.cur = s.eng.cur := by
  have hnb : s.eng.nb ≠ s.eng.lim := by
    intro h
    rw [ahead_limit h] at hahead
    simp at hahead
  have hfirst : [b] <+: s.eng.unreadBits ++ offeredBits s.env.bi.now := hahead.trans (List.take_prefix _ _)
  by_cases hnsh : s.eng.nsh = 0
  · rw [unreadBits_empty hnsh, List.nil_append] at hfirst
    obtain ⟨v, rest, hbi, rfl⟩ := offeredBits_first hfirst
    refine ⟨(s.fetched v rest).readBit.2.setCur s.eng.cur, _, _, ?_, .fetchBit hnsh hbi s.eng.cur, ?_⟩
    · rw [settle_decodeLoop_takes hnb hnsh hbi]
      exact settle_decodeLoop_noChild (s := s.fetched v rest) htk hnb (fetched_nsh s v rest) hchild
    · rw [setCur_eng]
  · obtain rfl : b = s.eng.sh.getLsbD 7 := by
      rw [unreadBits_readBit hnsh] at hfirst
      exact (List.cons_prefix_cons.1 hfirst).1
    exact ⟨_, [], [], settle_decodeLoop_noChild htk hnb hnsh hchild, .readBit hnsh h8.le s.eng.cur, rfl⟩

end

/-! ### The statement -/

section
variable {s : State} {bytes : List Byte} {unread : List (Item Byte)} {steps : List (List Bool × Nat)}
  {rest : List Bool} {j : Nat} {more : List Answer} {bits : List Bool}

/-- R251: bits that end at the node `j` inside the tree. -/
theorem exec_decode_truncated (htk : s.eng.tk = .tree) (hroot : (s.nodeAt s.eng.root).isLeaf = false)
    (hsteps : ∀ p ∈ steps, s.follow s.eng.root p.1 = some p.2 ∧ (s.nodeAt p.2).isLeaf = true)
    (hrest : s.follow s.eng.root rest = some j) (hnode : (s.nodeAt j).isLeaf = false)
    (hbi : s.env.bi.now = bytes.map .data ++ unread) (hbits : bits = (streamBits bytes).take s.eng.x0.toNat)
    (hso : s.env.so.now = List.replicate steps.length .ok ++ more)
    (hend : s.eng.x0.toNat ≤ 8 * bytes.length ∨ unread.head? = some .eos)
    (hpaths : bits = steps.flatMap Prod.fst ++ rest) (hj : j ≠ s.eng.root) :
    ∃ t tr, exec .decode s = .next t ∧ t.params = s.params ∧
      t.eng = { s.eng with
        cur := j
        lim := s.eng.x0
        sh := t.eng.sh
        nsh := t.eng.nsh
        nb := BitVec.ofNat 64 bits.length
        ns := BitVec.ofNat 64 steps.length
        nby := BitVec.ofNat 64 ((bits.length + 7) / 8)
        biOpen := false
        soOpen := false }.faulted .trunc (BitVec.ofNat 64 j) ∧
      t.env = { s.env with
        bi := s.env.bi.endSession
        so := s.env.so.endSession
        trace := s.env.trace ++ tr ++ [.release .bi, .close .so] } ∧
      symbolsPut tr = (steps.map fun p => (s.nodeAt p.2).ch % s.params.nsym) ∧
      takenBi tr =
        if s.eng.x0.toNat ≤ 8 * bytes.length then (bytes.take ((bits.length + 7) / 8)).map .data
        else bytes.map .data ++ [.eos] := by
  have hlen : bits.length = min s.eng.x0.toNat (8 * bytes.length) := by
    rw [hbits, List.length_take, streamBits_length]
  obtain ⟨t, tr, taken, hrun, h, rfl, -⟩ :=
    exec_decode_arrives htk hroot hsteps hrest hbi (by rw [← hpaths, hbits]) hso
  rw [← hpaths] at h
  rw [arrived_node (by rw [h.nodeAt]; exact hnode)] at hrun
  have hexhausted {v : State} (htk' : v.eng.tk = .tree) (hcur : v.eng.cur ≠ v.eng.root) :
      (decodeExhausted v).settle = v.decodeEnded (.fault .trunc (BitVec.ofNat 64 v.eng.cur)) := by
    rw [decodeExhausted_truncated htk' hcur, settle_decodeAbort]
  have hkind : t.eng.tk = .tree := h.tk.trans htk
  have hcur : t.eng.cur ≠ t.eng.root := fun heq => hj (heq.trans h.root)
  by_cases hlim : s.eng.x0.toNat ≤ 8 * bytes.length
  · obtain ⟨hparams, heng, henv⟩ := h.faultEnds (v := t) (obs := []) (l := t.env.bi.now) rfl rfl (by simp) .trunc
      (BitVec.ofNat 64 t.eng.cur)
    rw [List.append_nil] at henv
    refine ⟨_, tr, ?_, hparams, by simpa using heng, henv, h.put, ?_⟩
    · rw [hrun, decodeLoop_limit (h.nb_eq_lim (by omega)), hexhausted hkind hcur]
    · rw [if_pos hlim, h.took, (h.taken_of_start hbi (by omega)).1]
  · obtain ⟨l, rfl⟩ := List.head?_eq_some_iff.1 (hend.resolve_left hlim)
    obtain ⟨rfl, htake⟩ := h.takes hbi (by omega) (by omega)
    obtain ⟨hparams, heng, henv⟩ := h.faultEnds (v := t.gotBi .eos l) rfl rfl rfl .trunc (BitVec.ofNat 64 t.eng.cur)
    refine ⟨_, tr ++ [.tookBi .eos], ?_, hparams, by simpa using heng, henv, ?_, ?_⟩
    · rw [hrun, htake, decodeTake_eos]
      exact congrArg _ (hexhausted (v := t.gotBi .eos l) hkind hcur)
    · rw [symbolsPut_append, h.put]
      exact List.append_nil _
    · rw [if_neg hlim, takenBi_append, h.took]
      rfl

/-- R248: a bit that asks the node `j` for a child it has not. -/
theorem exec_decode_noChild (htk : s.eng.tk = .tree) (hroot : (s.nodeAt s.eng.root).isLeaf = false)
    (hsteps : ∀ p ∈ steps, s.follow s.eng.root p.1 = some p.2 ∧ (s.nodeAt p.2).isLeaf = true)
    (hrest : s.follow s.eng.root rest = some j) (hnode : (s.nodeAt j).isLeaf = false)
    (hbi : s.env.bi.now = bytes.map .data ++ unread)
    (hso : s.env.so.now = List.replicate steps.length .ok ++ more) {b : Bool} {n : Nat}
    (hbits : steps.flatMap Prod.fst ++ rest ++ [b] <+: (streamBits bytes).take s.eng.x0.toNat)
    (hchild : ((s.nodeAt j).child b).1 = false) (hn : n = (steps.flatMap Prod.fst ++ rest ++ [b]).length) :
    ∃ t tr, exec .decode s = .next t ∧ t.params = s.params ∧
      t.eng = { s.eng with
        cur := j
        lim := s.eng.x0
        sh := t.eng.sh
        nsh := t.eng.nsh
        nb := BitVec.ofNat 64 n
        ns := BitVec.ofNat 64 steps.length
        nby := BitVec.ofNat 64 ((n + 7) / 8)
        biOpen := false
        soOpen := false }.faulted .noChild ((if b then 0x100000000 else 0) ||| BitVec.ofNat 64 j) ∧
      t.env = { s.env with
        bi := s.env.bi.endSession
        so := s.env.so.endSession
        trace := s.env.trace ++ tr ++ [.release .bi, .close .so] } ∧
      symbolsPut tr = (steps.map fun p => (s.nodeAt p.2).ch % s.params.nsym) ∧
      takenBi tr = (bytes.take ((n + 7) / 8)).map .data := by
  have hle := hbits.length_le
  rw [List.length_take, streamBits_length] at hle
  obtain ⟨t, tr, taken, hrun, h, rfl, -⟩ :=
    exec_decode_arrives htk hroot hsteps hrest hbi ((List.prefix_append _ _).trans hbits) hso
  rw [arrived_node (by rw [h.nodeAt]; exact hnode)] at hrun
  have hstart : steps.flatMap Prod.fst ++ rest ++ [b] <+: s.decodeStart.ahead := by
    rw [decodeStart_ahead, hbi, offeredBits_data]
    exact hbits.trans ((List.prefix_append _ _).take _)
  obtain ⟨u, tr', taken', hrun', h', hcur⟩ := settle_decodeNoChild (s := t) (b := b) (by simp [h.tk, State.decodeStart, htk])
    h.short (h.ahead_prefix hstart) (by rw [h.nodeAt]; exact hchild)
  have hall := h.trans h'
  rw [List.append_nil] at hall
  obtain ⟨hparams, heng, henv⟩ := hall.faultEnds (v := u) (obs := []) (l := u.env.bi.now) rfl rfl (by simp) .noChild
    (noChildInfo b t.eng.cur)
  rw [List.append_nil] at henv
  rw [← hn, hcur, List.length_map] at heng
  refine ⟨_, tr ++ tr', by rw [hrun, hrun'], hparams, ?_, henv, hall.put, ?_⟩
  · rw [← noChildInfo_eq]
    exact heng
  · rw [hall.took, (hall.taken_of_start hbi (by omega)).1, hn]

/-- Settles O46: the bits end, or ask for an absent child, where the path after the last leaf has come. -/
theorem decodeReportsADanglingPath : Obligations.DecodeReportsADanglingPath := by
  intro s bytes unread steps rest j more bits htk hroot hbi hbits hsteps hrest hnode hso
  refine ⟨exec_decode_truncated htk hroot hsteps hrest hnode hbi hbits hso, fun b n hread hchild hn => ?_⟩
  exact exec_decode_noChild htk hroot hsteps hrest hnode hbi hso (hbits ▸ hread) hchild hn

end

end Sys2Proof.Machine
end

section
/-!
COUNT, ENCODE and DECODE where they wait (20_memory.md R78, R79; 41_frequency_counter.md R157; 44_encoder.md R230;
45_decoder.md R257): the run comes to a `get` or a `put` with nothing supplied there, and stays.
-/
namespace Sys2Proof.Machine

section
variable {s t u : State} {cs : List Nat} {bits : List Bool}

/-! ### Nothing supplied -/

theorem settle_encPut_waits (rest : List Bool) (hbo : u.env.bo.now = []) :
    (u.goTo (.encPut rest)).settle = u.goTo (.encPut rest) :=
  settle_stuck ((microStep_encPut rfl).trans (encodePut_waits rest (putBo_none.2 hbo)))

theorem settle_encFlush_waits (hbo : u.env.bo.now = []) : (u.goTo .encFlush).settle = u.goTo .encFlush :=
  settle_stuck ((microStep_encFlush rfl).trans (encodeFlush_waits (putBo_none.2 hbo)))

theorem settle_encAbort_waits (e : ErrCode) (info : Word) (hbo : u.env.bo.now = []) :
    (u.goTo (.encAbort e info)).settle = u.goTo (.encAbort e info) :=
  settle_stuck ((microStep_encAbort rfl).trans (encodeAbortPut_waits e info (putBo_none.2 hbo)))

theorem settle_decGet_waits (hbi : u.env.bi.now = []) : (u.goTo .decGet).settle = u.goTo .decGet :=
  settle_stuck ((microStep_decGet rfl).trans (decodeGet_waits hbi))

theorem settle_decPut_waits (hso : u.env.so.now = []) : (u.goTo .decPut).settle = u.goTo .decPut :=
  settle_stuck ((microStep_decPut rfl).trans (decodePut_waits (putSo_none.2 hso)))

/-! ### COUNT, R157 -/

theorem exec_count_waits (hsi : s.env.si.now = cs.map .data) (hcs : ∀ c ∈ cs, c < s.params.nsym)
    (hcounts : ∀ c, cs.count c < 2 ^ s.params.freqw) : ∃ t, exec .count s = .next t ∧ s.HasCounted t cs [] := by
  obtain ⟨t, hrun, h⟩ := exec_count_counts (rest := []) (hsi.trans (List.append_nil _).symm) hcs hcounts
  have hstuck : t.settle = t :=
    settle_stuck ((microStep_countGet (by rw [h.eng])).trans (countGet_waits (by rw [h.env])))
  exact ⟨t, by rw [hrun, hstuck], h⟩

/-! ### ENCODE, R230 -/

/-- The packer after the bits `bits` of a command. -/
theorem State.Encodes.nacc_of_open {tr : List Obs} {n : Nat} (h : (encodeOpen s).Encodes t tr bits n) :
    t.eng.nacc = BitVec.ofNat 3 bits.length :=
  BitVec.eq_of_toNat_eq (by rw [h.counts_of_open.2, BitVec.toNat_ofNat])

/-- The engine of an ENCODE that is to go on at `p`, from the bits it has appended. -/
theorem State.Encodes.eng_at {tr : List Obs} {n : Nat} {p : Point} (h : (encodeOpen s).Encodes t tr bits n) :
    { t.eng with point := p } = { s.eng with
      acc := t.eng.acc
      nacc := BitVec.ofNat 3 bits.length
      nb := BitVec.ofNat 64 bits.length
      nby := BitVec.ofNat 64 (bits.length / 8)
      ns := BitVec.ofNat 64 n
      siOpen := true
      boOpen := true
      point := p } := by
  rw [← h.nacc_of_open, ← h.counts_of_open.1, h.eng_of_open]

/-- ENCODE over items that end before EOS. -/
theorem exec_encode_waits_get {more : List Answer} (hctv : s.eng.ctv = true)
    (hcs : ∀ c ∈ cs, c < s.params.nsym ∧ (s.codeAt c).valid = true)
    (hbits : bits = cs.flatMap fun c => (s.codeAt c).path) (hlen : bits.length < 2 ^ 64)
    (hsi : s.env.si.now = cs.map .data) (hbo : s.env.bo.now = List.replicate (bits.length / 8) .ok ++ more) :
    ∃ t tr, exec .encode s = .next t ∧ (encodeOpen s).Encodes t tr bits cs.length ∧ t.eng.point = .encGet ∧
      t.env.si.now = [] ∧ t.env.bo.now = more ∧ takenSi tr = cs.map .data := by
  obtain ⟨t, tr, hrun, henc, hpoint, htook, hsi1, hbo1⟩ :=
    exec_encode_encodes (rest := []) hctv (hsi.trans (List.append_nil _).symm) hcs hbits hlen hbo
  have hstuck : t.settle = t := settle_stuck ((microStep_encGet hpoint).trans (encodeGet_waits hsi1))
  exact ⟨t, tr, by rw [hrun, hstuck], henc, hpoint, hsi1, hbo1, htook⟩

/-- R214 to R219: ENCODE comes to any bit of the session's code bits. -/
theorem exec_encode_atBit {unread : List (Item Nat)} {k : Nat} {more : List Answer} (hctv : s.eng.ctv = true)
    (hcs : ∀ c ∈ cs, c < s.params.nsym ∧ (s.codeAt c).valid = true)
    (hbits : bits = cs.flatMap fun c => (s.codeAt c).path) (hlen : bits.length < 2 ^ 64) (hk : k < bits.length)
    (hsi : s.env.si.now = cs.map .data ++ unread) (hbo : s.env.bo.now = List.replicate (k / 8) .ok ++ more) :
    ∃ u tr b post n, exec .encode s = .next (encodeBits (b :: post) u).settle ∧
      (encodeOpen s).Encodes u tr (bits.take k) n ∧ takenSi tr ++ u.env.si.now = s.env.si.now ∧ u.env.bo.now = more ∧
      b :: post <+: bits.drop k := by
  obtain ⟨before, c, after, pre, b, post, rfl, hpath, hpos⟩ :=
    exists_flatMap_split (fun c => (s.codeAt c).path) cs (k := k) (by rw [← hbits]; exact hk)
  obtain ⟨hc, hvalid⟩ := hcs c (by simp)
  have hsplit : bits = (before.flatMap (fun c => (s.codeAt c).path) ++ pre) ++
      (b :: post ++ after.flatMap fun c => (s.codeAt c).path) := by
    rw [hbits, List.flatMap_append, List.flatMap_cons, hpath]
    simp
  obtain ⟨first, hfirst⟩ : ∃ first, first = before.flatMap fun c => (s.codeAt c).path := ⟨_, rfl⟩
  rw [← hfirst] at hpos hsplit
  have hk' : k = first.length + pre.length := by rw [← hpos, List.length_append]
  have hputs : k / 8 = first.length / 8 + (first.length % 8 + pre.length) / 8 := by omega
  rw [hputs, List.replicate_add, List.append_assoc] at hbo
  obtain ⟨t, tr, hrun, henc, hpoint, htook, hsi1, hbo1⟩ :=
    exec_encode_encodes (rest := .data c :: (after.map .data ++ unread)) hctv (by simpa using hsi)
      (fun d hd => hcs d (List.mem_append_left _ hd)) hfirst (by omega) hbo
  have hnacc : t.eng.nacc.toNat = first.length % 8 := henc.counts_of_open.2
  have hnb : t.eng.nb.toNat = 0 + first.length := henc.nb_toNat (show 0 + first.length < 2 ^ 64 by omega)
  obtain ⟨u, tr', hrun', henc', htook', hsi2, hbo2⟩ := settle_encodeBits pre (b :: post)
    (t.tookSi (.data c) (after.map .data ++ unread)) _ more henc.clean
    (show t.eng.nb.toNat + pre.length < 2 ^ 64 by omega) hbo1
    (show _ = (t.eng.nacc.toNat + pre.length) / 8 by rw [hnacc])
  have hall := (henc.trans (.tookSi henc.clean (.data c) (after.map .data ++ unread))).trans henc'
  rw [List.append_nil] at hall
  refine ⟨u, tr ++ [.tookSi (.data c)] ++ tr', b, post, before.length, ?_, ?_, ?_, hbo2, ?_⟩
  · have htake := encodeTake_data (s := t) (after.map .data ++ unread) (henc.params ▸ hc)
      (by rw [henc.codeAt]; exact hvalid)
    have hcode : (t.codeAt c).path = pre ++ b :: post := (congrArg CodeEntry.path (henc.codeAt c)).trans hpath
    rw [hrun, settle_step ((microStep_encGet hpoint).trans (encodeGet_takes hsi1)), htake, hcode, hrun']
  · rw [hsplit, List.take_left' hpos]
    exact hall
  · rw [takenSi_append, takenSi_append, htook, htook', hsi2, hsi]
    simp [takenSi]
  · rw [hsplit, List.drop_left' hpos]
    exact List.prefix_append _ _

/-- ENCODE at the put of a full byte. -/
theorem exec_encode_waits_put {unread : List (Item Nat)} {j : Nat} (hctv : s.eng.ctv = true)
    (hcs : ∀ c ∈ cs, c < s.params.nsym ∧ (s.codeAt c).valid = true)
    (hbits : bits = cs.flatMap fun c => (s.codeAt c).path) (hlen : bits.length < 2 ^ 64)
    (hsi : s.env.si.now = cs.map .data ++ unread) (hj : j < bits.length / 8)
    (hbo : s.env.bo.now = List.replicate j .ok) :
    ∃ t tr rest, exec .encode s = .next t ∧ t.params = s.params ∧
      t.eng = { s.eng with
        acc := t.eng.acc
        nacc := t.eng.nacc
        nb := BitVec.ofNat 64 (8 * j + 8)
        nby := BitVec.ofNat 64 j
        ns := t.eng.ns
        siOpen := true
        boOpen := true
        point := .encPut rest } ∧
      t.env = { s.env with
        si := t.env.si
        bo := { s.env.bo with now := [] }
        trace := s.env.trace ++ tr } ∧
      takenSi tr ++ t.env.si.now = s.env.si.now ∧ t.env.si.later = s.env.si.later ∧
      streamBits (bytesPut tr ++ [t.eng.acc]) = bits.take (8 * j + 8) ∧ rest <+: bits.drop (8 * j + 8) := by
  have hk : (8 * j + 7) / 8 = j := by omega
  obtain ⟨u, tr, b, post, n, hrun, henc, htook, hbo1, hpost⟩ := exec_encode_atBit (k := 8 * j + 7) (more := []) hctv hcs hbits
    hlen (by omega) hsi (by rw [hk, hbo, List.append_nil])
  have hbefore : (bits.take (8 * j + 7)).length = 8 * j + 7 := List.length_take_of_le (by omega)
  obtain ⟨tail, htail⟩ := hpost
  have hall : bits = bits.take (8 * j + 7) ++ b :: (post ++ tail) := by
    rw [← List.cons_append, htail, List.take_append_drop]
  have hdrop : bits.drop (8 * j + 8) = post ++ tail := by
    rw [show 8 * j + 8 = 8 * j + 7 + 1 from rfl, ← List.drop_drop, ← htail]
    rfl
  have h := henc.reachesPut_full (tail := post ++ tail) hrun hbefore (by omega)
  rw [← hall] at h
  have hmin : min (8 * j + 8) bits.length = 8 * j + 8 := by omega
  have h7 : u.eng.nacc = 7 := by
    rw [henc.nacc_of_open, hbefore]
    exact BitVec.eq_of_toNat_eq (by simp)
  have hbyte : streamBits [placeBit u.eng.acc u.eng.nacc b] = u.eng.heldBits ++ [b] :=
    packs_full (packs_heldBits henc.clean) b h7
  refine ⟨(u.appendBit b).goTo (.encPut post), tr, post, ?_, h.params, ?_, ?_, htook, ?_, ?_, ?_⟩
  · rw [h.run, settle_encPut_waits (u := u.appendBit b) post hbo1]
  · have heng := h.eng
    rw [hmin] at heng
    rw [heng]
    rfl
  · rw [h.env, ← hbo1]
    rfl
  · rw [h.env]
  · have htake : bits.take (8 * j + 8) = bits.take (8 * j + 7) ++ [b] := by
      conv_lhs => rw [hall, ← List.singleton_append, ← List.append_assoc]
      exact List.take_left' (by rw [List.length_append, hbefore]; rfl)
    rw [streamBits_append, htake, ← henc.packed_of_open, List.append_assoc, ← hbyte]
    rfl
  · rw [hdrop]
    exact List.prefix_append _ _

/-- The point at which ENCODE puts the byte not yet full that the item `last` ends. -/
def lastPut : Item Nat → Point
  | .data c => .encAbort .miss (BitVec.ofNat 64 c)
  | .eos => .encFlush
  | .err => .encAbort .io 0

theorem encodeTake_lastPut {last : Item Nat} (unread : List (Item Nat))
    (hlast : last = .eos ∨ last = .err ∨ ∃ c, last = .data c ∧ c < t.params.nsym ∧ (t.codeAt c).valid = false)
    (hnacc : t.eng.nacc ≠ 0) : encodeTake last unread t = (t.tookSi last unread).goTo (lastPut last) := by
  rcases hlast with rfl | rfl | ⟨c, rfl, hc, hmiss⟩
  · rw [encodeTake_eos]
    exact encodeFinal_flush (s := t.tookSi .eos unread) hnacc
  · rw [encodeTake_err]
    exact encodeAbort_flush (s := t.tookSi .err unread) _ _ hnacc
  · rw [encodeTake_miss unread hc hmiss]
    exact encodeAbort_flush (s := t.tookSi (.data c) unread) _ _ hnacc

theorem settle_lastPut (last : Item Nat) (hbo : u.env.bo.now = []) :
    (u.goTo (lastPut last)).settle = u.goTo (lastPut last) := by
  cases last with
  | data c => exact settle_encAbort_waits .miss _ hbo
  | eos => exact settle_encFlush_waits hbo
  | err => exact settle_encAbort_waits .io 0 hbo

/-- ENCODE at the put of the final byte, or of an abort's. -/
theorem exec_encode_waits_last {last : Item Nat} {unread : List (Item Nat)} (hctv : s.eng.ctv = true)
    (hcs : ∀ c ∈ cs, c < s.params.nsym ∧ (s.codeAt c).valid = true)
    (hbits : bits = cs.flatMap fun c => (s.codeAt c).path) (hlen : bits.length < 2 ^ 64)
    (hsi : s.env.si.now = cs.map .data ++ last :: unread)
    (hlast : last = .eos ∨ last = .err ∨ ∃ c, last = .data c ∧ c < s.params.nsym ∧ (s.codeAt c).valid = false)
    (hpartial : bits.length % 8 ≠ 0) (hbo : s.env.bo.now = List.replicate (bits.length / 8) .ok) :
    ∃ t tr, exec .encode s = .next ((t.tookSi last unread).goTo (lastPut last)) ∧
      (encodeOpen s).Encodes t tr bits cs.length ∧ takenSi tr = cs.map .data ∧ t.env.bo.now = [] := by
  obtain ⟨t, tr, hrun, henc, hpoint, htook, hsi1, hbo1⟩ :=
    exec_encode_encodes (more := []) hctv hsi hcs hbits hlen (hbo.trans (List.append_nil _).symm)
  have hnacc : t.eng.nacc ≠ 0 := fun h0 => hpartial (by rw [← henc.counts_of_open.2, h0]; rfl)
  have htake := encodeTake_lastPut (t := t) unread (by simpa only [henc.params, henc.codeAt] using! hlast) hnacc
  refine ⟨t, tr, ?_, henc, htook, hbo1⟩
  rw [hrun, settle_step ((microStep_encGet hpoint).trans (encodeGet_takes hsi1)), htake, settle_lastPut (u := t.tookSi last unread) last hbo1]

/-! ### DECODE, R257 -/

/-- DECODE on the empty tree at its first `get`. -/
theorem exec_decode_waits_empty (htk : s.eng.tk = .empty) (hlim : s.eng.x0 ≠ 0) (hbi : s.env.bi.now = []) :
    exec .decode s = .next (s.decodeStart.goTo .decGet) := by
  rw [exec_decode (by simp [htk]), decodeLoop_empty (s := s.decodeStart) rfl, decodeBits_zero (s := s.decodeStart) hlim.symm,
    settle_decGet_waits (u := s.decodeStart) hbi]

section
variable {bytes : List Byte} {unread : List (Item Byte)} {steps : List (List Bool × Nat)} {more : List Answer}

/-- DECODE inside a tree, all of the bits offered read. -/
theorem exec_decode_waits_get {rest : List Bool} {j : Nat} (htk : s.eng.tk = .tree)
    (hroot : (s.nodeAt s.eng.root).isLeaf = false)
    (hsteps : ∀ p ∈ steps, s.follow s.eng.root p.1 = some p.2 ∧ (s.nodeAt p.2).isLeaf = true)
    (hbi : s.env.bi.now = bytes.map .data) (hlim : 8 * bytes.length < s.eng.x0.toNat)
    (hbits : streamBits bytes = steps.flatMap Prod.fst ++ rest) (hrest : s.follow s.eng.root rest = some j)
    (hnode : (s.nodeAt j).isLeaf = false) (hso : s.env.so.now = List.replicate steps.length .ok ++ more) :
    ∃ t tr, exec .decode s = .next (t.goTo .decGet) ∧
      s.decodeStart.Decodes t tr bytes (streamBits bytes) (steps.map fun p => (s.nodeAt p.2).ch % s.params.nsym) ∧
      t.eng.cur = j ∧ t.eng.nsh = 0 ∧ t.env.bi.now = [] ∧ t.env.so.now = more := by
  have hlen := streamBits_length bytes
  have hbi' : s.env.bi.now = bytes.map .data ++ [] := hbi.trans (List.append_nil _).symm
  obtain ⟨t, tr, taken, hrun, h, rfl, hso1⟩ := exec_decode_arrives htk hroot hsteps hrest hbi'
    (by rw [← hbits, List.take_of_length_le (by omega)]) hso
  rw [← hbits] at h
  rw [arrived_node (by rw [h.nodeAt]; exact hnode)] at hrun
  obtain ⟨htaken, hnow⟩ := h.taken_of_start hbi' (by omega)
  have hall : ((streamBits bytes).length + 7) / 8 = bytes.length := by omega
  rw [hall, List.take_length] at htaken
  rw [hall, List.drop_length] at hnow
  subst htaken
  have hnsh : t.eng.nsh = 0 := by
    have hcount := h.counts_of_start.1
    refine BitVec.eq_of_toNat_eq (Nat.add_left_cancel (n := (streamBits taken).length) ?_)
    rw [← hcount, hlen]
    rfl
  refine ⟨t, tr, ?_, h, rfl, hnsh, hnow, hso1⟩
  rw [hrun, decodeLoop_empty hnsh, decodeBits_zero (h.nb_ne_lim (by omega)), settle_decGet_waits hnow]

/-- DECODE at the put of the leaf of path `k`. -/
theorem exec_decode_waits_put {k : Nat} (htk : s.eng.tk = .tree) (hroot : (s.nodeAt s.eng.root).isLeaf = false)
    (hsteps : ∀ p ∈ steps, s.follow s.eng.root p.1 = some p.2 ∧ (s.nodeAt p.2).isLeaf = true) (hk : k < steps.length)
    (hbi : s.env.bi.now = bytes.map .data ++ unread)
    (hbits : steps.flatMap Prod.fst <+: (streamBits bytes).take s.eng.x0.toNat)
    (hso : s.env.so.now = List.replicate k .ok) :
    ∃ t tr taken, exec .decode s = .next (t.goTo .decPut) ∧
      s.decodeStart.Decodes t tr taken ((steps.take (k + 1)).flatMap Prod.fst)
        ((steps.take k).map fun p => (s.nodeAt p.2).ch % s.params.nsym) ∧
      t.eng.cur = steps[k].2 ∧ t.env.so.now = [] := by
  obtain ⟨hpath, hleaf⟩ := hsteps _ (List.getElem_mem hk)
  have hsplit : (steps.take (k + 1)).flatMap Prod.fst = (steps.take k).flatMap Prod.fst ++ steps[k].1 := by
    rw [List.take_succ_eq_append_getElem hk, List.flatMap_append, List.flatMap_singleton]
  have hread : (steps.take k).flatMap Prod.fst ++ steps[k].1 <+: (streamBits bytes).take s.eng.x0.toNat := by
    rw [← hsplit]
    exact ((List.take_prefix _ _).flatMap _).trans hbits
  obtain ⟨t, tr, taken, hrun, h, hcur, hso1⟩ := exec_decode_arrives (more := []) htk hroot
    (fun p hp => hsteps p (List.mem_of_mem_take hp)) hpath hbi hread
    (by rw [List.length_take_of_le hk.le, hso, List.append_nil])
  rw [arrived_leaf (by rw [hcur, h.nodeAt]; exact hleaf)] at hrun
  refine ⟨t, tr, taken, ?_, hsplit ▸ h, hcur, hso1⟩
  rw [hrun, settle_decPut_waits hso1]

end

end

/-! ### The statement -/

/-- Settles O49: the run to each `get` and `put` at which nothing is supplied. -/
theorem streamCommandsWait : Obligations.StreamCommandsWait := by
  refine ⟨fun s cs hsi hcs hcounts => ?_, fun s cs bits hctv hcs hbits hlen => ⟨?_, ?_, ?_⟩, fun s htk hlim hbi => ?_,
    fun s bytes steps htk hroot hsteps => ⟨?_, ?_⟩⟩
  · obtain ⟨t, hrun, h⟩ := exec_count_waits hsi hcs hcounts
    exact ⟨t, hrun, h.params, h.freq, h.eng, h.env⟩
  · intro more hsi hbo
    obtain ⟨t, tr, hrun, henc, hpoint, hsi1, hbo1, htook⟩ := exec_encode_waits_get hctv hcs hbits hlen hsi hbo
    refine ⟨t, tr, hrun, henc.params, ?_, ?_, htook, henc.packed_of_open⟩
    · rw [← henc.eng_at, ← hpoint]
    · rw [henc.env, hsi1, hbo1]
      rfl
  · exact fun unread j hsi hj hbo => exec_encode_waits_put hctv hcs hbits hlen hsi hj hbo
  · intro last unread hsi hlast hpartial hbo
    obtain ⟨t, tr, hrun, henc, htook, hbo1⟩ := exec_encode_waits_last hctv hcs hbits hlen hsi hlast hpartial hbo
    refine ⟨_, tr ++ [.tookSi last], hrun, henc.params, ?_, ?_, ?_, ?_⟩
    · have heng := henc.eng_at (p := lastPut last)
      rw [goTo_eng, tookSi_eng, heng]
      cases last <;> rfl
    · rw [goTo_env, tookSi_env, henc.env, hbo1, encodeOpen_env]
      simp
    · rw [takenSi_append, htook]
      rfl
    · rw [bytesPut_append, ← henc.packed_of_open]
      simp [bytesPut, Engine.heldBits]
  · exact exec_decode_waits_empty htk hlim hbi
  · intro rest j more hbi hlim hbits hrest hnode hso
    obtain ⟨t, tr, hrun, h, hcur, hnsh, hbi1, hso1⟩ :=
      exec_decode_waits_get htk hroot hsteps hbi hlim hbits hrest hnode hso
    refine ⟨_, tr, hrun, h.params, ?_, ?_, h.took, h.put⟩
    · rw [goTo_eng, h.eng_of_start, hcur, hnsh, streamBits_length, List.length_map]
    · rw [goTo_env, h.env, hbi1, hso1]
      rfl
  · intro unread k hk hbi hbits hso
    obtain ⟨t, tr, taken, hrun, h, hcur, hso1⟩ := exec_decode_waits_put htk hroot hsteps hk hbi hbits hso
    have hlength : (steps.take k).length = k := List.length_take_of_le hk.le
    refine ⟨_, tr, hrun, h.params, ?_, ?_, ?_, ?_, h.put⟩
    · rw [goTo_eng, h.eng_of_start, hcur, List.length_map, hlength]
    · rw [goTo_env, h.env, hso1]
      rfl
    · rw [h.took]
      exact h.items.symm
    · rw [goTo_env, h.env]
      rfl

end Sys2Proof.Machine
end

section
/-!
What is between two channel operations, exactly: the bits ENCODE appends after a `get` or a `put` (44_encoder.md R216 to
R222, `Engine.Appends`), and those DECODE walks (45_decoder.md R244 to R251, `State.Walks`).
-/
namespace Sys2Proof.Machine

/-! ### The bits appended -/

section
variable {s t : State} {code : List Bool}

/-- The first bits of a code, too few to fill the byte or the counter. -/
theorem encodeBits_append (pre rest : List Bool) {s : State} (hclean : s.eng.accClean)
    (hroom : s.eng.nacc.toNat + pre.length < 8) (hnb : s.eng.nb.toNat + pre.length < 2 ^ 64) :
    ∃ t, encodeBits (pre ++ rest) s = encodeBits rest t ∧ s.Encodes t [] pre 0 := by
  induction pre generalizing s with
  | nil => exact ⟨s, rfl, .refl hclean⟩
  | cons b pre ih =>
    rw [List.length_cons] at hroom hnb
    have hall : s.eng.nb ≠ BitVec.allOnes 64 := by
      intro h
      rw [h, BitVec.toNat_allOnes] at hnb
      omega
    have h7 : s.eng.nacc ≠ 7 := by
      intro h
      have h7 : s.eng.nacc.toNat = 7 := congrArg BitVec.toNat h
      omega
    have henc := State.Encodes.appendBit hclean b h7
    have hnb1 := henc.nb_toNat (by rw [List.length_singleton]; omega)
    have hnacc1 : s.eng.nacc.toNat + 1 = 0 + (s.appendBit b).countBit.eng.nacc.toNat := henc.bits_length
    rw [List.length_singleton] at hnb1
    obtain ⟨t, hrun, henc'⟩ := ih henc.clean (by omega) (by omega)
    exact ⟨t, (encodeBits_short b (pre ++ rest) hall h7).trans hrun, henc.trans henc'⟩

/-- The engine after bits have been appended and no byte put. -/
theorem State.Encodes.eng_appended (h : s.Encodes t [] code 0) : ∃ acc p, t.eng = { s.eng with
    acc := acc
    nacc := BitVec.ofNat 3 (s.eng.heldBits.length + code.length)
    nb := s.eng.nb + BitVec.ofNat 64 code.length
    point := p } := by
  have hcount : s.eng.nacc.toNat + code.length = 0 + t.eng.nacc.toNat := h.bits_length
  have hnacc : t.eng.nacc = BitVec.ofNat 3 (s.eng.heldBits.length + code.length) := by
    refine BitVec.eq_of_toNat_eq ?_
    have := t.eng.nacc.isLt
    rw [BitVec.toNat_ofNat, heldBits_length, Nat.mod_eq_of_lt (by omega)]
    omega
  refine ⟨t.eng.acc, t.eng.point, ?_⟩
  rw [← hnacc, h.eng]
  simp [bytesPut]

theorem State.Encodes.heldBits_appended (h : s.Encodes t [] code 0) : t.eng.heldBits = s.eng.heldBits ++ code := h.packed

/-- R216, R218: a code whose bits neither fill the byte nor exhaust the counter; the symbol is counted. -/
theorem encodeBits_ends (hclean : s.eng.accClean) (hroom : s.eng.heldBits.length + code.length < 8)
    (hcount : s.eng.nb.toNat + code.length < 2 ^ 64) :
    (encodeBits code s).eng = { s.eng with
        acc := (encodeBits code s).eng.acc
        nacc := BitVec.ofNat 3 (s.eng.heldBits.length + code.length)
        nb := s.eng.nb + BitVec.ofNat 64 code.length
        ns := s.eng.ns + 1
        point := .encGet } ∧
      (encodeBits code s).eng.heldBits = s.eng.heldBits ++ code ∧ (encodeBits code s).eng.accClean := by
  rw [heldBits_length] at hroom
  obtain ⟨t, hrun, henc⟩ := encodeBits_append code [] hclean hroom hcount
  rw [List.append_nil] at hrun
  obtain ⟨acc, p, heng⟩ := henc.eng_appended
  rw [hrun, encodeBits_nil]
  refine ⟨?_, henc.heldBits_appended, henc.clean⟩
  rw [goTo_eng, countSymbol_eng, heng]

/-- R219: the bit that fills the byte; the byte is to be put. -/
theorem encodeBits_fills {pre rest : List Bool} (b : Bool) (hclean : s.eng.accClean)
    (hroom : s.eng.heldBits.length + pre.length = 7) (hcount : s.eng.nb.toNat + (pre.length + 1) < 2 ^ 64) :
    (encodeBits (pre ++ b :: rest) s).eng = { s.eng with
        acc := (encodeBits (pre ++ b :: rest) s).eng.acc
        nacc := 7
        nb := s.eng.nb + BitVec.ofNat 64 (pre.length + 1)
        point := .encPut rest } ∧
      streamBits [(encodeBits (pre ++ b :: rest) s).eng.acc] = s.eng.heldBits ++ (pre ++ [b]) := by
  have hheld := heldBits_length s.eng
  obtain ⟨t, hrun, henc⟩ := encodeBits_append pre (b :: rest) hclean (by omega) (by omega)
  obtain ⟨acc, p, heng⟩ := henc.eng_appended
  have h7 : t.eng.nacc = 7 := by
    rw [heng, hroom]
    rfl
  have hall : t.eng.nb ≠ BitVec.allOnes 64 := by
    intro h
    have hval := henc.nb_toNat (by omega)
    rw [h, BitVec.toNat_allOnes] at hval
    omega
  rw [hrun, encodeBits_full _ _ hall h7]
  refine ⟨?_, ?_⟩
  · have hsucc : s.eng.nb + BitVec.ofNat 64 pre.length + 1 = s.eng.nb + BitVec.ofNat 64 (pre.length + 1) := by
      rw [BitVec.ofNat_add, BitVec.add_assoc]
      rfl
    rw [goTo_eng, appendBit_eng, heng, hroom, ← hsucc]
    rfl
  · rw [← List.append_assoc, ← henc.heldBits_appended]
    exact packs_full (packs_heldBits henc.clean) _ h7

/-- R222: a bit that the counter cannot count; a partial byte is to be put first. -/
theorem encodeBits_overflows {pre rest : List Bool} (b : Bool) (hclean : s.eng.accClean)
    (hroom : s.eng.heldBits.length + pre.length < 8) (hcount : s.eng.nb.toNat + pre.length + 1 = 2 ^ 64) :
    (encodeBits (pre ++ b :: rest) s).eng = { s.eng with
        acc := (encodeBits (pre ++ b :: rest) s).eng.acc
        nacc := BitVec.ofNat 3 (s.eng.heldBits.length + pre.length)
        nb := BitVec.allOnes 64
        point := if s.eng.heldBits.length + pre.length = 0 then .encRelease (.fault .ovf 0) else .encAbort .ovf 0 } ∧
      (encodeBits (pre ++ b :: rest) s).eng.heldBits = s.eng.heldBits ++ pre ∧
      (encodeBits (pre ++ b :: rest) s).eng.accClean := by
  have hheld := heldBits_length s.eng
  obtain ⟨t, hrun, henc⟩ := encodeBits_append pre (b :: rest) hclean (by omega) (by omega)
  have hall : t.eng.nb = BitVec.allOnes 64 := by
    refine BitVec.eq_of_toNat_eq ?_
    rw [henc.nb_toNat (by omega), BitVec.toNat_allOnes]
    omega
  obtain ⟨acc, p, heng⟩ := henc.eng_appended
  have hones : s.eng.nb + BitVec.ofNat 64 pre.length = BitVec.allOnes 64 := by rw [← hall, heng]
  have hcounts : s.eng.nacc.toNat + pre.length = 0 + t.eng.nacc.toNat := henc.bits_length
  rw [hrun, encodeBits_overflow _ _ hall]
  by_cases h0 : t.eng.nacc = 0
  · have hnone : s.eng.heldBits.length + pre.length = 0 := by
      have h0 : t.eng.nacc.toNat = 0 := congrArg BitVec.toNat h0
      omega
    rw [encodeAbort_aligned _ _ h0, if_pos hnone]
    refine ⟨?_, henc.heldBits_appended, henc.clean⟩
    rw [goTo_eng, heng, hones]
  · have hsome : s.eng.heldBits.length + pre.length ≠ 0 := fun hnone => h0 (BitVec.eq_of_toNat_eq (by
      have h0 : t.eng.nacc.toNat = 0 := by omega
      exact h0))
    rw [encodeAbort_flush _ _ h0, if_neg hsome]
    refine ⟨?_, henc.heldBits_appended, henc.clean⟩
    rw [goTo_eng, heng, hones]

/-- R216 to R222: the bits of a code end, or fill the byte, or exhaust the counter. -/
theorem encodeBits_appends (hclean : s.eng.accClean) : s.eng.Appends (encodeBits code s).eng s.eng.heldBits code := by
  have hheld : s.eng.heldBits.length < 8 := by
    rw [heldBits_length]
    exact s.eng.nacc.isLt
  have hnb : s.eng.nb.toNat < 2 ^ 64 := s.eng.nb.isLt
  refine ⟨fun hroom hcount => encodeBits_ends hclean (by omega) (by omega), fun hroom hcount => ?_,
    fun hcount hroom => ?_⟩
  · obtain ⟨n, hn⟩ : ∃ n, 8 - s.eng.heldBits.length = n + 1 := ⟨7 - s.eng.heldBits.length, by omega⟩
    rw [hn] at hroom hcount ⊢
    have hlen : (code.take n).length = n := List.length_take_of_le (by omega)
    have hcode : code.take n ++ code[n] :: code.drop (n + 1) = code := by
      rw [← List.drop_eq_getElem_cons hroom, List.take_append_drop]
    have hfills := encodeBits_fills (s := s) (pre := code.take n) (rest := code.drop (n + 1)) code[n] hclean (by omega)
      (by omega)
    rwa [hcode, hlen, ← List.take_succ_eq_append_getElem hroom] at hfills
  · obtain ⟨k, hk⟩ : ∃ k, k = 2 ^ 64 - 1 - s.eng.nb.toNat := ⟨_, rfl⟩
    rw [← hk] at hcount hroom ⊢
    have hlen : (code.take k).length = k := List.length_take_of_le (by omega)
    have hcode : code.take k ++ code[k] :: code.drop (k + 1) = code := by
      rw [← List.drop_eq_getElem_cons hcount, List.take_append_drop]
    have hoverflows := encodeBits_overflows (s := s) (pre := code.take k) (rest := code.drop (k + 1)) code[k] hclean
      (by omega) (by omega)
    rwa [hcode, hlen] at hoverflows

end

/-! ### The bits walked -/

/-- `t` is `s` once it has read the bits `p` of those in its unpacker, wherever the cursor has gone. -/
structure State.Reads (s t : State) (p : List Bool) : Prop where
  eng : t.eng = { s.eng with
    cur := t.eng.cur
    sh := t.eng.sh
    nsh := t.eng.nsh
    nb := s.eng.nb + BitVec.ofNat 64 p.length }
  bits : s.eng.unreadBits = p ++ t.eng.unreadBits

/-- The bits in the unpacker that stand before the limit. -/
def State.avail (s : State) : List Bool := s.eng.unreadBits.take (s.eng.lim - s.eng.nb).toNat

section
variable {s t u : State} {p q : List Bool} {i : Nat}

theorem State.Reads.refl (s : State) : s.Reads s [] := ⟨by simp, rfl⟩

theorem State.Reads.trans (h : s.Reads t p) (h' : t.Reads u q) : s.Reads u (p ++ q) where
  eng := by
    rw [h'.eng, h.eng]
    simp [BitVec.ofNat_add, BitVec.add_assoc]
  bits := by rw [h.bits, h'.bits, List.append_assoc]

theorem State.Reads.readBit (h : s.eng.nsh ≠ 0) (i : Nat) :
    s.Reads (s.readBit.2.setCur i) [s.eng.sh.getLsbD 7] where
  eng := by simp
  bits := unreadBits_readBit h

theorem State.Reads.nodeAt (h : s.Reads t p) (i : Nat) : t.nodeAt i = s.nodeAt i := nodeAt_congr (by rw [h.eng]) i

theorem State.Reads.follow (h : s.Reads t p) (i : Nat) (q : List Bool) : t.follow i q = s.follow i q :=
  follow_congr (by rw [h.eng]) i q

theorem State.Reads.avail (h : s.Reads t p) (hp : p <+: s.avail) : s.avail = p ++ t.avail := by
  have hle : p.length ≤ (s.eng.lim - s.eng.nb).toNat := hp.length_le.trans (List.length_take_le _ _)
  have hleft : (t.eng.lim - t.eng.nb).toNat = (s.eng.lim - s.eng.nb).toNat - p.length := by
    rw [h.eng]
    bv_omega
  rw [State.avail, State.avail, hleft, h.bits, List.take_append, List.take_of_length_le hle]

theorem State.Reads.avail_prefix (h : s.Reads t p) (hpq : p ++ q <+: s.avail) : q <+: t.avail := by
  rwa [h.avail ((List.prefix_append _ _).trans hpq), List.prefix_append_right_inj] at hpq

/-- The bits read, and the micro-operation to come. -/
theorem State.Reads.walkedTo (h : s.Reads t p) (hcur : t.eng.cur = i) (pt : Point) :
    s.WalkedTo (t.goTo pt).eng s.eng.unreadBits p.length i pt := by
  have hlen := congrArg List.length h.bits
  rw [List.length_append, unreadBits_length, unreadBits_length] at hlen
  have hnsh : t.eng.nsh = BitVec.ofNat 4 (s.eng.unreadBits.length - p.length) := by
    refine BitVec.eq_of_toNat_eq ?_
    have := t.eng.nsh.isLt
    rw [BitVec.toNat_ofNat, unreadBits_length, Nat.mod_eq_of_lt (by omega)]
    omega
  refine ⟨?_, ?_⟩
  · rw [← hnsh, goTo_eng, h.eng, hcur]
  · rw [h.bits, List.drop_left]
    rfl

/-- A bit to be read: the limit is not reached and the unpacker holds it. -/
theorem next_of_avail {b : Bool} (h : [b] <+: s.avail) :
    s.eng.nb ≠ s.eng.lim ∧ s.eng.nsh ≠ 0 ∧ b = s.eng.sh.getLsbD 7 := by
  have hne : s.avail ≠ [] := fun hnil => by simp [hnil] at h
  have hnsh : s.eng.nsh ≠ 0 := fun h0 => hne (by rw [State.avail, unreadBits_empty h0, List.take_nil])
  have hfirst : [b] <+: s.eng.unreadBits := h.trans (List.take_prefix _ _)
  rw [unreadBits_readBit hnsh] at hfirst
  exact ⟨fun hnb => hne (by simp [State.avail, hnb]), hnsh, (List.cons_prefix_cons.1 hfirst).1⟩

/-- R247 to R249: the bits of a path, which need not end at a leaf. -/
theorem decodeLoop_path {p : List Bool} (htk : s.eng.tk ≠ .empty) (hne : p ≠ []) (hp : p <+: s.avail)
    (hfollow : s.follow s.eng.cur p = some i) :
    ∃ t, decodeLoop s = t.arrived ∧ s.Reads t p ∧ t.eng.cur = i := by
  induction p generalizing s with
  | nil => exact absurd rfl hne
  | cons b p ih =>
    rw [← List.singleton_append] at hp
    obtain ⟨hnb, hnsh, rfl⟩ := next_of_avail ((List.prefix_append _ _).trans hp)
    obtain ⟨hchild, hrest⟩ := follow_cons_some hfollow
    have hrun := decodeLoop_readBit htk hnb hnsh hchild
    have hread := State.Reads.readBit hnsh ((s.nodeAt s.eng.cur).child (s.eng.sh.getLsbD 7)).2
    by_cases hnil : p = []
    · subst hnil
      exact ⟨_, hrun, hread, Option.some.inj hrest⟩
    · rw [← hread.follow] at hrest
      have hnode : ((s.readBit.2.setCur ((s.nodeAt s.eng.cur).child (s.eng.sh.getLsbD 7)).2).nodeAt
          ((s.nodeAt s.eng.cur).child (s.eng.sh.getLsbD 7)).2).isLeaf = false := by
        obtain ⟨c, r, rfl⟩ := List.exists_cons_of_ne_nil hnil
        exact not_leaf_of_follow_cons hrest
      obtain ⟨t, hrun', hread', hcur⟩ := ih
        (s := s.readBit.2.setCur ((s.nodeAt s.eng.cur).child (s.eng.sh.getLsbD 7)).2) htk hnil
        (hread.avail_prefix hp) hrest
      exact ⟨t, by rw [hrun, arrived_node hnode, hrun'], hread.trans hread', hcur⟩

/-- The bits of a path that ends where the walk goes on. -/
theorem decodeLoop_to {p : List Bool} (hp : p <+: s.avail) (hfollow : s.follow s.eng.cur p = some i)
    (hend : p = [] ∨ (s.eng.tk ≠ .empty ∧ (s.nodeAt i).isLeaf = false)) :
    ∃ t, decodeLoop s = decodeLoop t ∧ s.Reads t p ∧ t.eng.cur = i := by
  by_cases hne : p = []
  · subst hne
    exact ⟨s, rfl, .refl s, Option.some.inj hfollow⟩
  · obtain ⟨htk, hnode⟩ := hend.resolve_left hne
    obtain ⟨t, hrun, hread, hcur⟩ := decodeLoop_path htk hne hp hfollow
    exact ⟨t, by rw [hrun, arrived_node (by rw [hcur, hread.nodeAt, hnode])], hread, hcur⟩

/-- R246: a bit of the empty tree. -/
theorem decodeLoop_empty_bit {b : Bool} (htk : s.eng.tk = .empty) (h : [b] <+: s.avail) :
    decodeLoop s = decodeAbort .empty 0 (s.readBit.2.setCur s.eng.cur) := by
  obtain ⟨hnb, hnsh, -⟩ := next_of_avail h
  rw [decodeLoop, nsh_sub_one hnsh, decodeBits_bit _ hnb, if_pos htk]
  rfl

/-- R248: a bit with no child to go to. -/
theorem decodeLoop_noChild_bit {b : Bool} (htk : s.eng.tk ≠ .empty) (h : [b] <+: s.avail)
    (hchild : ((s.nodeAt s.eng.cur).child b).1 = false) :
    decodeLoop s = decodeAbort .noChild (noChildInfo b s.eng.cur) (s.readBit.2.setCur s.eng.cur) := by
  obtain ⟨hnb, hnsh, rfl⟩ := next_of_avail h
  rw [decodeLoop, nsh_sub_one hnsh, decodeBits_bit _ hnb, if_neg htk, if_pos hchild]
  rfl

theorem decodeExhausted_eq (s : State) : decodeExhausted s = s.goTo (.decRelease
    (if s.eng.tk = .tree ∧ s.eng.cur ≠ s.eng.root then .fault .trunc (BitVec.ofNat 64 s.eng.cur) else .done)) := by
  unfold decodeExhausted
  split <;> rfl

/-- R244, R245: no bit is left before the limit. -/
theorem decodeLoop_noBit (h : s.avail = []) : decodeLoop s = s.goTo
    (if s.eng.nb = s.eng.lim then .decRelease
      (if s.eng.tk = .tree ∧ s.eng.cur ≠ s.eng.root then .fault .trunc (BitVec.ofNat 64 s.eng.cur) else .done)
    else .decGet) := by
  by_cases hnb : s.eng.nb = s.eng.lim
  · rw [decodeLoop_limit hnb, decodeExhausted_eq, if_pos hnb]
  · have hnsh : s.eng.nsh = 0 := by
      rw [State.avail, List.take_eq_nil_iff] at h
      refine BitVec.eq_of_toNat_eq ?_
      rw [← unreadBits_length, h.resolve_left ?_]
      · rfl
      · intro h0
        exact hnb (by bv_omega)
    rw [decodeLoop_empty hnsh, decodeBits_zero hnb, if_neg hnb]

/-- R244 to R251: the bits in the unpacker, walked. -/
theorem decodeLoop_walks (s : State) : s.Walks (decodeLoop s).eng s.eng.unreadBits := by
  refine ⟨fun htk hne => ?_, fun i hfollow hend => ?_, fun p i hne hp htk hfollow hleaf => ?_,
    fun p j b hp htk hfollow hend hchild => ?_⟩
  · obtain ⟨b, r, hb⟩ := List.exists_cons_of_ne_nil hne
    have hfirst : [b] <+: s.avail := by
      rw [State.avail, hb]
      exact List.prefix_append [b] r
    rw [decodeLoop_empty_bit htk hfirst]
    exact (State.Reads.readBit (next_of_avail hfirst).2.1 s.eng.cur).walkedTo rfl _
  · obtain ⟨t, hrun, hread, rfl⟩ := decodeLoop_to (p := s.avail) List.prefix_rfl hfollow hend
    have hnone : t.avail = [] := by simpa using hread.avail List.prefix_rfl
    have hnb : t.eng.nb = s.eng.nb + BitVec.ofNat 64 s.avail.length := by rw [hread.eng]
    have hlim : t.eng.lim = s.eng.lim := by rw [hread.eng]
    have htk : t.eng.tk = s.eng.tk := by rw [hread.eng]
    have hroot : t.eng.root = s.eng.root := by rw [hread.eng]
    rw [hrun, decodeLoop_noBit hnone, hnb, hlim, htk, hroot]
    exact hread.walkedTo rfl _
  · obtain ⟨t, hrun, hread, rfl⟩ := decodeLoop_path htk hne hp hfollow
    rw [hrun, arrived_leaf (by rw [hread.nodeAt, hleaf])]
    exact hread.walkedTo rfl _
  · obtain ⟨t, hrun, hread, rfl⟩ := decodeLoop_to ((List.prefix_append _ _).trans hp) hfollow
      (hend.imp_right fun hnode => ⟨htk, hnode⟩)
    have hfirst := hread.avail_prefix hp
    have htk' : t.eng.tk ≠ .empty := by rwa [hread.eng]
    have hall := hread.trans (.readBit (next_of_avail hfirst).2.1 t.eng.cur)
    rw [← (next_of_avail hfirst).2.2] at hall
    rw [hrun, decodeLoop_noChild_bit htk' hfirst (by rw [hread.nodeAt, hchild]), ← noChildInfo_eq]
    have hwalked := hall.walkedTo rfl (.decRelease (.fault .noChild (noChildInfo b t.eng.cur)))
    rwa [List.length_append, List.length_singleton] at hwalked

/-- What is walked depends neither on the unpacker nor on the environment. -/
theorem State.Walks.congr {e' : Engine} {bits : List Bool} (h : s.Walks e' bits)
    (heng : s.eng = { t.eng with sh := s.eng.sh, nsh := s.eng.nsh }) : t.Walks e' bits := by
  have hfollow (i : Nat) (q : List Bool) : s.follow i q = t.follow i q := follow_congr (by rw [heng]) i q
  have hnode (i : Nat) : s.nodeAt i = t.nodeAt i := nodeAt_congr (by rw [heng]) i
  have hwalked (n i : Nat) (pt : Point) : s.WalkedTo e' bits n i pt ↔ t.WalkedTo e' bits n i pt := by
    rw [State.WalkedTo, State.WalkedTo, heng]
  have hcur : s.eng.cur = t.eng.cur := by rw [heng]
  have hnb : s.eng.nb = t.eng.nb := by rw [heng]
  have hlim : s.eng.lim = t.eng.lim := by rw [heng]
  have htk : s.eng.tk = t.eng.tk := by rw [heng]
  have hroot : s.eng.root = t.eng.root := by rw [heng]
  simpa only [State.Walks, hfollow, hnode, hwalked, hcur, hnb, hlim, htk, hroot] using h

end

end Sys2Proof.Machine
end

section
/-!
A single step of the engine (00_scope.md R10): what it is at each point of each command, for every item and answer.
-/
namespace Sys2Proof.Machine

section
variable {s t : State}

/-! ### No step -/

theorem engineTick_of_micro (h : s.microStep = some t) : engineTick s = .next t := by
  rw [engineTick_goesOn fun w hp => nomatch (microStep_start hp).symm.trans h]
  rw [h]
  rfl

theorem State.Waits.stuck (h : s.Waits) : s.microStep = none := by
  rcases h with ⟨hp | hp, hnow⟩ | ⟨⟨r, hp⟩ | hp | ⟨e, info, hp⟩, hnow⟩ | ⟨hp, hnow⟩ | ⟨hp, hnow⟩
  · rw [microStep_countGet hp, countGet_waits hnow]
  · rw [microStep_encGet hp, encodeGet_waits hnow]
  · rw [microStep_encPut hp, encodePut_waits r (putBo_none.2 hnow)]
  · rw [microStep_encFlush hp, encodeFlush_waits (putBo_none.2 hnow)]
  · rw [microStep_encAbort hp, encodeAbortPut_waits e info (putBo_none.2 hnow)]
  · rw [microStep_decGet hp, decodeGet_waits hnow]
  · rw [microStep_decPut hp, decodePut_waits (putSo_none.2 hnow)]

theorem engineTick_waits (h : s.Waits) : engineTick s = .next s := by
  have hbegun (w : Word) (hp : s.eng.point = .start w) : False := by
    have huses := h.uses
    rw [hp] at huses
    cases huses
  rw [engineTick_goesOn hbegun, h.stuck]
  rfl

/-! ### One crossing of the boundary at most -/

/-- From `s` to `t` the boundary is crossed once, or not at all. -/
def State.CrossesOnce (s t : State) : Prop := t.env.trace = s.env.trace ∨ ∃ o, t.env.trace = s.env.trace ++ [o]

theorem putBo_crossesOnce {v : Byte} {a : Answer} {u : State} (h : s.putBo v = some (a, u)) (henv : t.env = u.env) :
    s.CrossesOnce t := by
  obtain ⟨-, -, -, hu⟩ := putBo_some h
  exact .inr ⟨.putBo v a, by rw [henv, hu]⟩

theorem putSo_crossesOnce {v : Nat} {a : Answer} {u : State} (h : s.putSo v = some (a, u)) (henv : t.env = u.env) :
    s.CrossesOnce t := by
  obtain ⟨-, -, -, hu⟩ := putSo_some h
  exact .inr ⟨.putSo v a, by rw [henv, hu]⟩

theorem countGet_crossesOnce (h : countGet s = some t) : s.CrossesOnce t := by
  unfold countGet at h
  split at h <;> cases h
  case h_2 raw rest _ => exact .inr ⟨_, congrArg Env.trace (countTake_env raw rest s)⟩

theorem encodeGet_crossesOnce (h : encodeGet s = some t) : s.CrossesOnce t := by
  unfold encodeGet at h
  split at h <;> cases h
  case h_2 raw rest _ => exact .inr ⟨_, congrArg Env.trace (encodeTake_env raw rest s)⟩

theorem decodeGet_crossesOnce (h : decodeGet s = some t) : s.CrossesOnce t := by
  unfold decodeGet at h
  split at h <;> cases h
  case h_2 it rest _ => exact .inr ⟨_, congrArg Env.trace (decodeTake_env it rest s)⟩

theorem encodePut_crossesOnce {bits : List Bool} (h : encodePut bits s = some t) : s.CrossesOnce t := by
  unfold encodePut at h
  split at h <;> cases h
  case h_2 u hput => exact putBo_crossesOnce hput rfl
  case h_3 u hput => exact putBo_crossesOnce hput (encodeBits_env bits _)

theorem encodeFlush_crossesOnce (h : encodeFlush s = some t) : s.CrossesOnce t := by
  unfold encodeFlush at h
  split at h <;> cases h
  case h_2 u hput => exact putBo_crossesOnce hput rfl
  case h_3 u hput => exact putBo_crossesOnce hput rfl

theorem encodeAbortPut_crossesOnce {e : ErrCode} {info : Word} (h : encodeAbortPut e info s = some t) :
    s.CrossesOnce t := by
  unfold encodeAbortPut at h
  split at h <;> cases h
  case h_2 a u hput => exact putBo_crossesOnce hput rfl

theorem decodePut_crossesOnce (h : decodePut s = some t) : s.CrossesOnce t := by
  unfold decodePut at h
  split at h <;> cases h
  case h_2 u hput => exact putSo_crossesOnce hput rfl
  case h_3 u hput => exact putSo_crossesOnce hput (decodeLoop_env _)

theorem microStep_crossesOnce (h : s.microStep = some t) : s.CrossesOnce t := by
  cases hpoint : s.eng.point with
  | idle => cases (microStep_idle hpoint).symm.trans h
  | start w => cases (microStep_start hpoint).symm.trans h
  | countGet => exact countGet_crossesOnce ((microStep_countGet hpoint).symm.trans h)
  | encGet => exact encodeGet_crossesOnce ((microStep_encGet hpoint).symm.trans h)
  | encPut bits => exact encodePut_crossesOnce ((microStep_encPut hpoint).symm.trans h)
  | encFlush => exact encodeFlush_crossesOnce ((microStep_encFlush hpoint).symm.trans h)
  | encAbort e info => exact encodeAbortPut_crossesOnce ((microStep_encAbort hpoint).symm.trans h)
  | decGet => exact decodeGet_crossesOnce ((microStep_decGet hpoint).symm.trans h)
  | decPut => exact decodePut_crossesOnce ((microStep_decPut hpoint).symm.trans h)
  | countRelease f =>
    cases (microStep_countRelease hpoint).symm.trans h
    exact .inr ⟨_, rfl⟩
  | encRelease f =>
    cases (microStep_encRelease hpoint).symm.trans h
    exact .inr ⟨_, rfl⟩
  | encClose f =>
    cases (microStep_encClose hpoint).symm.trans h
    exact .inr ⟨_, rfl⟩
  | decRelease f =>
    cases (microStep_decRelease hpoint).symm.trans h
    exact .inr ⟨_, rfl⟩
  | decClose f =>
    cases (microStep_decClose hpoint).symm.trans h
    exact .inr ⟨_, rfl⟩
  | countFinish f =>
    cases (microStep_countFinish hpoint).symm.trans h
    cases f <;> exact .inl rfl
  | encFinish f =>
    cases (microStep_encFinish hpoint).symm.trans h
    cases f <;> exact .inl rfl
  | decFinish f =>
    cases (microStep_decFinish hpoint).symm.trans h
    cases f <;> exact .inl rfl

theorem engineTick_crossesOnce (h : engineTick s = .next t) : s.CrossesOnce t := by
  by_cases hstart : ∃ w, s.eng.point = .start w
  · obtain ⟨w, hp⟩ := hstart
    exact .inl (congrArg Env.trace (firstStepOf_env ((engineTick_start hp).symm.trans h)))
  · rw [engineTick_goesOn (not_exists.1 hstart)] at h
    cases h
    cases hstep : s.microStep with
    | none => exact .inl rfl
    | some u => exact microStep_crossesOnce hstep

/-! ### The first step of a command (R81) -/

theorem engineTick_illegal {w : Word} (hp : s.eng.point = .start w)
    (hw : w.toNat / 256 ≠ 0 ∨ 0x0C ≤ w.toNat % 256) : engineTick s = .next { s with eng := s.eng.faulted .op w } := by
  obtain ⟨e, hdecode⟩ := decode_illegal hw
  exact (engineTick_start hp).trans (firstStepOf_error hdecode s)

theorem engineTick_firstStep {i : Instr} (hp : s.eng.point = .start (encode i)) : engineTick s = firstStep i s :=
  (engineTick_start hp).trans (firstStepOf_ok (decode_encode i) s)

/-- A command that touches no channel is one step. -/
theorem firstStep_eq_exec {i : Instr} (hcount : i ≠ .count) (hencode : i ≠ .encode) (hdecode : i ≠ .decode) (s : State) :
    firstStep i s = exec i s := by
  cases i with
  | count => exact absurd rfl hcount
  | encode => exact absurd rfl hencode
  | decode => exact absurd rfl hdecode
  | nop | clr | setf | getf | build | gett | getn | extract | getc => rfl

theorem firstStep_encode (s : State) : firstStep .encode s = .next
    { s with
      eng :=
        if s.eng.ctv then
          { s.eng with
            siOpen := true, boOpen := true, acc := 0, nacc := 0, nb := 0, nby := 0, ns := 0, point := .encGet }
        else s.eng.faulted .noTable 0 } := by
  by_cases hctv : s.eng.ctv = true
  · rw [if_pos hctv]
    exact withCodeTable_some _ hctv
  · rw [if_neg hctv]
    exact withCodeTable_none _ (Bool.not_eq_true _ ▸ hctv)

theorem decodeOpen_eq (s : State) : decodeOpen s =
    { s with
      eng := { s.eng with
        biOpen := true, soOpen := true, lim := s.eng.x0, cur := s.eng.root, sh := 0, nsh := 0, nb := 0, nby := 0, ns := 0,
        point := if s.eng.x0 = 0 then .decRelease .done else .decGet } } := by
  by_cases hx0 : s.eng.x0 = 0
  · rw [if_pos hx0]
    exact (decodeLoop_limit hx0.symm).trans (decodeExhausted_done fun _ => rfl)
  · rw [if_neg hx0]
    exact (decodeLoop_empty rfl).trans (decodeBits_zero (Ne.symm hx0))

theorem firstStep_decode (s : State) : firstStep .decode s = .next
    { s with
      eng :=
        if s.eng.tk = .none then s.eng.faulted .noTree 0
        else
          { s.eng with
            biOpen := true, soOpen := true, lim := s.eng.x0, cur := s.eng.root, sh := 0, nsh := 0, nb := 0, nby := 0,
            ns := 0, point := if s.eng.x0 = 0 then .decRelease .done else .decGet } } := by
  by_cases htk : s.eng.tk = .none
  · rw [if_pos htk]
    exact withTree_none _ htk
  · rw [if_neg htk]
    exact (withTree_some _ htk).trans (congrArg Host.Outcome.next (decodeOpen_eq s))

/-! ### The gets -/

section
variable {rest : List (Item Nat)}

theorem engineTick_countGet {it : Item Nat} (hp : s.eng.point = .countGet) (hnow : s.env.si.now = it :: rest) :
    engineTick s = .next (countTake it rest s) :=
  engineTick_of_micro ((microStep_countGet hp).trans (countGet_takes hnow))

theorem engineTick_encGet {it : Item Nat} (hp : s.eng.point = .encGet) (hnow : s.env.si.now = it :: rest) :
    engineTick s = .next (encodeTake it rest s) :=
  engineTick_of_micro ((microStep_encGet hp).trans (encodeGet_takes hnow))

/-- R152: one item counted. -/
theorem freqAt_countSymbol (s : State) (c d : Nat) :
    (countSymbol c s).freqAt d = if d = c then s.freqAt c + 1 else s.freqAt d :=
  freqAt_setFreq s c (s.freqAt c + 1) d

theorem encodeFinal_eq (s : State) : encodeFinal s =
    s.goTo (if s.eng.nacc = 0 then .encRelease .done else .encFlush) := by
  unfold encodeFinal
  split <;> rfl

theorem encodeAbort_eq (e : ErrCode) (info : Word) (s : State) : encodeAbort e info s =
    s.goTo (if s.eng.nacc = 0 then .encRelease (.fault e info) else .encAbort e info) := by
  unfold encodeAbort
  split <;> rfl

end

theorem engineTick_decGet {it : Item Byte} {rest : List (Item Byte)} (hp : s.eng.point = .decGet)
    (hnow : s.env.bi.now = it :: rest) : engineTick s = .next (decodeTake it rest s) :=
  engineTick_of_micro ((microStep_decGet hp).trans (decodeGet_takes hnow))

theorem decodeTake_walks (v : Byte) (rest : List (Item Byte)) (s : State) :
    { s with eng := { s.eng with nby := s.eng.nby + 1 } }.Walks (decodeTake (.data v) rest s).eng (streamBits [v]) := by
  rw [decodeTake_data, ← decodeLoop_load, ← unreadBits_loadByte (s.tookBi (.data v) rest) v]
  exact (decodeLoop_walks _).congr rfl

/-! ### The puts -/

theorem encodeBits_appends_empty (bits : List Bool) (heng : t.eng = s.eng) :
    { s.eng with acc := 0, nacc := 0, nby := s.eng.nby + 1 }.Appends (encodeBits bits t.countByte.clearAcc).eng []
      bits := by
  have hempty : Packs t.countByte.clearAcc.eng.acc t.countByte.clearAcc.eng.nacc [] := packs_empty
  have happends := encodeBits_appends (code := bits) hempty.accClean
  rwa [hempty.heldBits_eq, clearAcc_eng, countByte_eng, heng] at happends

/-- After a put of a full byte: the rest of the code is appended to an empty packer, or the command is to end. -/
theorem engineTick_encPut {bits : List Bool} {a : Answer} {more : List Answer} (hp : s.eng.point = .encPut bits)
    (hnow : s.env.bo.now = a :: more) :
    ∃ u, engineTick s = .next u ∧ u.params = s.params ∧
      u.env = { s.env with
        bo := { s.env.bo with now := more }
        trace := s.env.trace ++ [Obs.putBo s.eng.acc a] } ∧
      (a = .fail → u.eng = { s.eng with point := .encRelease (.fault .io 1) }) ∧
      (a = .ok → { s.eng with acc := 0, nacc := 0, nby := s.eng.nby + 1 }.Appends u.eng [] bits) := by
  have hput := putBo_answered s.eng.acc hnow
  cases a with
  | fail =>
    exact ⟨_, engineTick_of_micro ((microStep_encPut hp).trans (encodePut_failed bits hput)), rfl, rfl, fun _ => rfl, nofun⟩
  | ok =>
    have hstep := (microStep_encPut hp).trans (encodePut_ok bits hput)
    refine ⟨_, engineTick_of_micro hstep, (encodeBits_within bits _).params, encodeBits_env bits _, nofun, fun _ => ?_⟩
    exact encodeBits_appends_empty bits rfl

theorem engineTick_encFlush (hp : s.eng.point = .encFlush) (a : Answer) (more : List Answer) :
    s.env.bo.now = a :: more → engineTick s = .next
      { s with
        eng := match a with
          | .ok => { s.eng with acc := 0, nacc := 0, nby := s.eng.nby + 1, point := .encRelease .done }
          | .fail => { s.eng with point := .encRelease (.fault .io 1) }
        env := { s.env with
          bo := { s.env.bo with now := more }
          trace := s.env.trace ++ [Obs.putBo s.eng.acc a] } } := by
  intro hnow
  have hput := putBo_answered s.eng.acc hnow
  cases a with
  | fail => exact engineTick_of_micro ((microStep_encFlush hp).trans (encodeFlush_failed hput))
  | ok => exact engineTick_of_micro ((microStep_encFlush hp).trans (encodeFlush_ok hput))

theorem engineTick_encAbort {e : ErrCode} {info : Word} {a : Answer} {more : List Answer}
    (hp : s.eng.point = .encAbort e info) (hnow : s.env.bo.now = a :: more) :
    engineTick s = .next
      { s with
        eng := { s.eng with acc := 0, nacc := 0, point := .encRelease (.fault e info) }
        env := { s.env with
          bo := { s.env.bo with now := more }
          trace := s.env.trace ++ [Obs.putBo s.eng.acc a] } } :=
  engineTick_of_micro
    ((microStep_encAbort hp).trans (encodeAbortPut_answered e info (putBo_answered s.eng.acc hnow)))

/-- After a put of a symbol: the bits left are walked from the root, or the command is to end. -/
theorem engineTick_decPut {a : Answer} {more : List Answer} (hp : s.eng.point = .decPut)
    (hnow : s.env.so.now = a :: more) :
    ∃ u, engineTick s = .next u ∧ u.params = s.params ∧
      u.env = { s.env with
        so := { s.env.so with now := more }
        trace := s.env.trace ++ [Obs.putSo s.leafSymbol a] } ∧
      (a = .fail → u.eng = { s.eng with point := .decRelease (.fault .io 3) }) ∧
      (a = .ok →
        { s with eng := { s.eng with ns := s.eng.ns + 1, cur := s.eng.root } }.Walks u.eng s.eng.unreadBits) := by
  have hput := putSo_answered s.leafSymbol hnow
  cases a with
  | fail =>
    exact ⟨_, engineTick_of_micro ((microStep_decPut hp).trans (decodePut_failed hput)), rfl, rfl, fun _ => rfl, nofun⟩
  | ok =>
    have hstep := (microStep_decPut hp).trans (decodePut_ok hput)
    refine ⟨_, engineTick_of_micro hstep, (decodeBits_within _ _).params, decodeLoop_env _, nofun, fun _ => ?_⟩
    exact (decodeLoop_walks _).congr rfl

/-! ### The releases and closes -/

theorem engineTick_releaseSi {f : Ending} (hp : s.eng.point = .countRelease f ∨ s.eng.point = .encRelease f) :
    engineTick s = .next (s.releaseSi.goTo (if s.eng.point = .countRelease f then .countFinish f else .encClose f)) := by
  rcases hp with hp | hp
  · rw [if_pos hp]
    exact engineTick_of_micro (microStep_countRelease hp)
  · rw [if_neg (by rw [hp]; nofun)]
    exact engineTick_of_micro (microStep_encRelease hp)

/-! ### The end -/

theorem engineTick_fault {e : ErrCode} {info : Word} (hp : s.eng.point = .countFinish (.fault e info) ∨
    s.eng.point = .encFinish (.fault e info) ∨ s.eng.point = .decFinish (.fault e info)) :
    engineTick s = .next (s.raiseFault e info) := by
  rcases hp with hp | hp | hp
  · exact engineTick_of_micro (microStep_countFinish hp)
  · exact engineTick_of_micro (microStep_encFinish hp)
  · exact engineTick_of_micro (microStep_decFinish hp)

end

/-- Settles O13: one step of the engine, by the micro-operation at each point. -/
theorem tickPerformsOneMicroOperation : Obligations.TickPerformsOneMicroOperation := by
  rintro s _ es hev rfl
  have hstep : step s = engineTick (s.withEvents es) := step_event hev
  rw [hstep]
  refine ⟨?_, fun u hu => engineTick_crossesOnce (s := s.withEvents es) hu, fun w hp hw => engineTick_illegal (s := s.withEvents es) hp hw,
    ?_, ?_, ?_, ?_, ?_⟩
  · rintro (hp | hwaits)
    · exact engineTick_idle (s := s.withEvents es) hp
    · exact engineTick_waits (s := s.withEvents es) hwaits
  · intro i hp hcount hencode hdecode
    exact (engineTick_firstStep (s := s.withEvents es) hp).trans (firstStep_eq_exec hcount hencode hdecode _)
  · exact fun hp => engineTick_firstStep (s := s.withEvents es) hp
  · exact fun hp => (engineTick_firstStep (s := s.withEvents es) hp).trans (firstStep_encode _)
  · exact fun hp => (engineTick_firstStep (s := s.withEvents es) hp).trans (firstStep_decode _)
  refine ⟨fun rest hp hnow => engineTick_countGet (s := s.withEvents es) hp hnow,
    fun rest hp hnow => engineTick_countGet (s := s.withEvents es) hp hnow, ?_, ?_, ?_, ?_, ?_⟩
  · intro c rest hp hnow hc
    have htick := engineTick_countGet (s := s.withEvents es) hp hnow
    refine ⟨fun hfull => ?_, fun hfull => ?_⟩
    · rw [htick, countTake_full (s := s.withEvents es) rest hc hfull]
      rfl
    · rw [countTake_data (s := s.withEvents es) rest hc hfull, ← hp] at htick
      refine ⟨_, htick, rfl, rfl, rfl, fun d => ?_⟩
      exact freqAt_countSymbol ((s.withEvents es).tookSi (.data c) rest) c d
  · intro rest hp hnow
    rw [engineTick_encGet (s := s.withEvents es) hp hnow, encodeTake_eos, encodeFinal_eq]
    rfl
  · intro rest hp hnow
    rw [engineTick_encGet (s := s.withEvents es) hp hnow, encodeTake_err, encodeAbort_eq]
    rfl
  · intro c rest hp hnow hc
    have htick := engineTick_encGet (s := s.withEvents es) hp hnow
    refine ⟨fun hmiss => ?_, fun hvalid hclean => ?_⟩
    · rw [htick, encodeTake_miss (s := s.withEvents es) rest hc hmiss, encodeAbort_eq]
      rfl
    · rw [encodeTake_data (s := s.withEvents es) rest hc hvalid] at htick
      exact ⟨_, htick, (encodeBits_within _ _).params, encodeBits_env _ _,
        encodeBits_appends (s := (s.withEvents es).tookSi (.data c) rest) hclean⟩
  refine ⟨fun bits a more hp hnow => engineTick_encPut (s := s.withEvents es) hp hnow,
    fun a more hp => engineTick_encFlush (s := s.withEvents es) hp a more,
    fun e info a more hp hnow => engineTick_encAbort (s := s.withEvents es) hp hnow, ?_, ?_, ?_, ?_⟩
  · intro rest hp hnow
    rw [engineTick_decGet (s := s.withEvents es) hp hnow, decodeTake_eos, decodeExhausted_eq]
    rfl
  · exact fun rest hp hnow => engineTick_decGet (s := s.withEvents es) hp hnow
  · intro v rest hp hnow
    refine ⟨_, engineTick_decGet (s := s.withEvents es) hp hnow, (decodeTake_within _ _ _).params,
      decodeTake_env _ _ _, ?_⟩
    exact (decodeTake_walks v rest (s.withEvents es)).congr rfl
  refine ⟨?_, fun f => ⟨?_, ?_, ?_, ?_⟩,
    fun e info hp => engineTick_fault (s := s.withEvents es) hp, ?_, ?_, ?_⟩
  · intro a more hp hnow
    obtain ⟨u, htick, hparams, henv, hfail, hok⟩ := engineTick_decPut (s := s.withEvents es) hp hnow
    exact ⟨u, htick, hparams, henv, hfail, fun ha => (hok ha).congr rfl⟩
  · exact fun hp => engineTick_releaseSi (s := s.withEvents es) hp
  · exact fun hp => engineTick_of_micro (microStep_decRelease (s := s.withEvents es) hp)
  · exact fun hp => engineTick_of_micro (microStep_encClose (s := s.withEvents es) hp)
  · exact fun hp => engineTick_of_micro (microStep_decClose (s := s.withEvents es) hp)
  · exact fun hp => engineTick_of_micro (microStep_countFinish (s := s.withEvents es) hp)
  · exact fun hp => engineTick_of_micro (microStep_encFinish (s := s.withEvents es) hp)
  · exact fun hp => engineTick_of_micro (microStep_decFinish (s := s.withEvents es) hp)

end Sys2Proof.Machine
end
